-- ==== Sys2Proof/Word.lean ====
section
/-! DEFINITION. The wire words of the Ulbrac 3160 (12, section 12.1) and the bounds of its counts. -/

namespace Sys2Proof

/-- A byte of a frame or the eight value bits of a link character. -/
abbrev Byte := BitVec 8

/-- A two-byte field (12.1). -/
abbrev Word16 := BitVec 16

/-- A four-byte field (12.1), and the tick number, which wraps (R54). -/
abbrev Word32 := BitVec 32

/-- A link character: bit 8 is the ninth data bit, which marks an address character (R170). -/
abbrev LinkChar := BitVec 9

/-- The value at which a coordinate stands still (R43). -/
abbrev countCeiling : Nat := 4294967295

/-- The coordinate limit (R55). -/
abbrev coordinateLimit : Nat := 4000000000

/-- The value at which an interval counter (R44) and a dose (R149) stand still. -/
abbrev counterCeiling : Nat := 65535

end Sys2Proof
end

