-- ==== Sys2Proof/Syntax.lean ====
section
/-! DEFINITION. The commands of the controller: one constructor per row of spec/opcode_table.json, with the operands
the spec gives the row, and the enumerations those operands are drawn from. -/

namespace Sys2Proof

/-- The count inputs (3.1). -/
inductive CountInput where
  | unw | feed | conv
  deriving DecidableEq, Repr

/-- The station link channels (09). -/
inductive Channel where
  | f | s | p | z
  deriving DecidableEq, Repr

/-- The unwind spindles (R83). -/
inductive Spindle where
  | a | b
  deriving DecidableEq, Repr

/-- The state a DRIVE_STATE telegram carries (R64). -/
inductive DriveMotion where
  | running | stopped | fault
  deriving DecidableEq, Repr

/-- The state a UNIT_STATE telegram carries (R92). -/
inductive UnitCondition where
  | ready | notReady | webLost
  deriving DecidableEq, Repr

/-- Which end of the panel is cut (8.1). -/
inductive CutKind where
  | lead | tail
  deriving DecidableEq, Repr

/-- A step as APPEND_STEPS carries it: seven bytes (12.2); the taper is in two's complement. -/
structure RawStep where
  kind : Byte
  pitch : Word16
  depth : Word16
  times : Byte
  taper : Byte
  deriving DecidableEq, Repr

/-- The pieces of work that one counted pulse hands to the blocks (R43); the manual lets the blocks take them in
either order (R46), so COUNT_PULSE carries the order (log 3). -/
inductive PulseTask where
  | limit      -- the coordinate limit (R55)
  | length     -- the RUNNING roll's remaining length: R91, R96
  | fill       -- the accumulator fill: R50, R93, R95
  | clearance  -- the clearance test of PENDING: R98
  | slip       -- the hold re-send of this input: R69, R70, R94
  | seams      -- the seam list: R106, R109, R110
  | gate       -- the admission gate and the gap: R71
  | head       -- strokes and head crossings: R112, R113, R118, R121
  | chamber    -- chamber crossings: R148, R150
  | cutter     -- cutter crossings: R159, R161
  deriving DecidableEq, Repr

/-- The pieces of work that one dwell tick hands to the blocks (R54); DWELL_TICK carries their order (log 3). -/
inductive TickTask where
  | intervals  -- interval counters and stall flags: R44
  | ack        -- acknowledgement and resync attempt timeouts: R126, R128
  | splice     -- splice timeout, cancel wait, retry wait: R99, R102, R103
  | stale      -- report ages: R139
  | bank       -- the bank timer: R147
  | reply      -- the reply timeout: R155
  | dose       -- dose accrual: R149
  deriving DecidableEq, Repr

/-- The commands. A request carries its frame's tag byte and then its fields in request order (12.2). -/
inductive Instr where
  -- reset pin and request port
  | powerOnReset (seamHigh haltHigh : Bool)
  | resetAsserted
  | selectionBegin
  | selectionEnd (bytes : List Byte) (spare : Nat)
  -- the panel table (01)
  | schedulePanel (tag : Byte) (panel : Word16) (tagFlag : Byte) (orderTag : Word32) (pattern : Byte)
      (flatLength : Word16) (placement : Byte) (neighbour : Word16)
  | movePanel (tag : Byte) (panel : Word16) (placement : Byte) (neighbour : Word16)
  | withdrawPanel (tag : Byte) (panel : Word16)
  | rejectPanel (tag : Byte) (panel : Word16)
  | retirePanel (tag : Byte) (panel : Word16)
  | readPanel (tag : Byte) (panel : Word16)
  | findPanel (tag : Byte) (place zone : Byte)
  | listSchedule (tag : Byte) (start : Byte)
  | listRoster (tag : Byte) (start : Byte)
  -- pleat patterns (02)
  | openPattern (tag : Byte) (pattern fabric heat : Byte)
  | appendSteps (tag : Byte) (pattern count : Byte) (steps : List RawStep)
  | clearSteps (tag : Byte) (pattern : Byte)
  | sealPattern (tag : Byte) (pattern : Byte)
  | unsealPattern (tag : Byte) (pattern : Byte)
  | retirePattern (tag : Byte) (pattern : Byte)
  | readPattern (tag : Byte) (pattern : Byte)
  | readSteps (tag : Byte) (pattern start : Byte)
  -- motion and line control (03, 04)
  | readCounts (tag : Byte)
  | startLine (tag : Byte)
  | stopLine (tag : Byte)
  | setSpeed (tag : Byte) (speed : Word16)
  -- rolls (05)
  | registerRoll (tag : Byte) (roll : Word32) (fabric : Byte) (len : Word32)
  | mountRoll (tag : Byte) (roll : Word32) (spindle : Byte)
  | unmountRoll (tag : Byte) (spindle : Byte)
  | threadRoll (tag : Byte) (spindle : Byte)
  | clearSpindle (tag : Byte) (spindle : Byte)
  | forceSplice (tag : Byte)
  | retireRoll (tag : Byte) (roll : Word32)
  | readRoll (tag : Byte) (roll : Word32)
  | readSpindles (tag : Byte)
  -- the stroke sequencer (06)
  | abortPleat (tag : Byte) (panel : Word16)
  | resetHead (tag : Byte)
  -- the steam chamber (07)
  | setHeatClass (tag : Byte) (cls : Byte) (run1 run2 run3 run4 run5 run6 : Word16) (band : Byte)
      (bank doseMin doseMax : Word16)
  | setHeatClassReadingForm (tag : Byte) (cls : Byte)
  -- attention (10)
  | readNotice (tag : Byte)
  | ackGroup (tag : Byte) (group : Byte)
  | setEnables (tag : Byte) (group mask : Byte)
  | readFlags (tag : Byte)
  -- configuration (11)
  | setParam (tag : Byte) (param : Byte) (value : Word32)
  | readParam (tag : Byte) (param : Byte)
  | commission (tag : Byte)
  | decommission (tag : Byte)
  | resetPart (tag : Byte)
  -- motion, gate and line events
  | countPulse (input : CountInput) (order : List PulseTask)
  | admission
  | maxGapHold
  | holdResend
  | feedResendLimit
  | unwindResend
  | unwindResendLimit
  | stall (input : CountInput)
  | coordLimit (input : CountInput)
  -- stroke sequencer events and the head's telegrams
  | headArrival (panel : Word16)
  | tailPassage (panel : Word16)
  | strokeDue
  | stroke
  | strokeLate
  | ackTimeout
  | resyncAttemptTimeout
  | strokeDone (seq : Byte)
  | strokeFault (seq cause : Byte)
  | headBusy
  | headReady
  | resyncDone (next : Byte)
  | headQuery
  -- drive and splice unit telegrams, roll manager events
  | driveState (motion : DriveMotion)
  | unitState (condition : UnitCondition)
  | spliceDue
  | runout (atZero : Bool)
  | splicePrepare
  | prepared
  | spliceGo
  | spliceDone
  | spliceFail (cause : Byte)
  | spliceCancelled (web : Spindle)
  | spliceTimeout
  | cancelWaitTimeout
  | retryWaitEnd
  | seamEdge
  | seamLost
  | plannedSeamPassage
  | seamEntryRemoval
  | chainOpen
  | chainClosed
  -- ticks and the chamber
  | dwellTick (order : List TickTask)
  | banked
  | zoneStale (zone : Byte)
  | replyTimeout
  | chamberEntry (panel : Word16)
  | chamberExit (panel : Word16)
  | changeoverDrainEnd
  | changeoverDone
  | zonePoll
  | zoneSet
  | cut
  | zoneReport (temperature : Word16) (valve : Byte) (fault : Bool)
  | setAck (setpoint : Word16)
  | cutDone (panel : Word16) (kind : CutKind)
  | cutFault (panel : Word16) (kind : CutKind) (code : Byte)
  | leadCutterCrossing (panel : Word16)
  | tailCutterCrossing (panel : Word16)
  -- links and levels
  | receiveCharacter (channel : Channel) (char : LinkChar) (stopIdle : Bool)
  | interCharacterTimeout (channel : Channel)
  | transmitComplete (channel : Channel)
  | seamLevelChange
  | receiverLineIdle (channel : Channel)
  deriving DecidableEq, Repr

end Sys2Proof
end

