-- ==== Sys2Proof/WellFormed.lean ====
section
/-! DEFINITION. The checks on a command's operands that their types do not make: what no wire, frame or record can
carry. Field ranges are NOT here: a request with a field out of range is well formed and is answered BAD_FIELD. -/

namespace Sys2Proof

/-- A list without repeats, as a Bool. -/
def noRepeats {α : Type} [DecidableEq α] : List α → Bool
  | [] => true
  | x :: xs => !xs.contains x && noRepeats xs

/-- Panel number 0 names no panel record (1.1), so no crossing carries it. -/
def panelNumberOk (panel : Word16) : Bool := panel != 0#16

/-- The well-formed commands.

* SELECTION_END: an incomplete byte has fewer than eight bits (R181).
* APPEND_STEPS: a frame has at most 250 bytes after its length byte, so at most 35 steps of 7 bytes (12.2).
* COUNT_PULSE, DWELL_TICK: an order names each piece of work at most once (log 3).
* ZONE_STALE: zones are numbered 1 to 6 (R136).
* The crossings of a panel: a panel number is 1 to 65535 (1.1). -/
def Instr.wf : Instr → Bool
  | .selectionEnd _ spare => decide (spare < 8)
  | .appendSteps _ _ _ steps => decide (steps.length ≤ 35)
  | .countPulse _ order => noRepeats order
  | .dwellTick order => noRepeats order
  | .zoneStale zone => decide (1 ≤ zone.toNat ∧ zone.toNat ≤ 6)
  | .headArrival panel => panelNumberOk panel
  | .tailPassage panel => panelNumberOk panel
  | .chamberEntry panel => panelNumberOk panel
  | .chamberExit panel => panelNumberOk panel
  | .leadCutterCrossing panel => panelNumberOk panel
  | .tailCutterCrossing panel => panelNumberOk panel
  | .powerOnReset _ _ => true
  | .resetAsserted => true
  | .selectionBegin => true
  | .schedulePanel _ _ _ _ _ _ _ _ => true
  | .movePanel _ _ _ _ => true
  | .withdrawPanel _ _ => true
  | .rejectPanel _ _ => true
  | .retirePanel _ _ => true
  | .readPanel _ _ => true
  | .findPanel _ _ _ => true
  | .listSchedule _ _ => true
  | .listRoster _ _ => true
  | .openPattern _ _ _ _ => true
  | .clearSteps _ _ => true
  | .sealPattern _ _ => true
  | .unsealPattern _ _ => true
  | .retirePattern _ _ => true
  | .readPattern _ _ => true
  | .readSteps _ _ _ => true
  | .readCounts _ => true
  | .startLine _ => true
  | .stopLine _ => true
  | .setSpeed _ _ => true
  | .registerRoll _ _ _ _ => true
  | .mountRoll _ _ _ => true
  | .unmountRoll _ _ => true
  | .threadRoll _ _ => true
  | .clearSpindle _ _ => true
  | .forceSplice _ => true
  | .retireRoll _ _ => true
  | .readRoll _ _ => true
  | .readSpindles _ => true
  | .abortPleat _ _ => true
  | .resetHead _ => true
  | .setHeatClass _ _ _ _ _ _ _ _ _ _ _ _ => true
  | .setHeatClassReadingForm _ _ => true
  | .readNotice _ => true
  | .ackGroup _ _ => true
  | .setEnables _ _ _ => true
  | .readFlags _ => true
  | .setParam _ _ _ => true
  | .readParam _ _ => true
  | .commission _ => true
  | .decommission _ => true
  | .resetPart _ => true
  | .admission => true
  | .maxGapHold => true
  | .holdResend => true
  | .feedResendLimit => true
  | .unwindResend => true
  | .unwindResendLimit => true
  | .stall _ => true
  | .coordLimit _ => true
  | .strokeDue => true
  | .stroke => true
  | .strokeLate => true
  | .ackTimeout => true
  | .resyncAttemptTimeout => true
  | .strokeDone _ => true
  | .strokeFault _ _ => true
  | .headBusy => true
  | .headReady => true
  | .resyncDone _ => true
  | .headQuery => true
  | .driveState _ => true
  | .unitState _ => true
  | .spliceDue => true
  | .runout _ => true
  | .splicePrepare => true
  | .prepared => true
  | .spliceGo => true
  | .spliceDone => true
  | .spliceFail _ => true
  | .spliceCancelled _ => true
  | .spliceTimeout => true
  | .cancelWaitTimeout => true
  | .retryWaitEnd => true
  | .seamEdge => true
  | .seamLost => true
  | .plannedSeamPassage => true
  | .seamEntryRemoval => true
  | .chainOpen => true
  | .chainClosed => true
  | .banked => true
  | .replyTimeout => true
  | .changeoverDrainEnd => true
  | .changeoverDone => true
  | .zonePoll => true
  | .zoneSet => true
  | .cut => true
  | .zoneReport _ _ _ => true
  | .setAck _ => true
  | .cutDone _ _ => true
  | .cutFault _ _ _ => true
  | .receiveCharacter _ _ _ => true
  | .interCharacterTimeout _ => true
  | .transmitComplete _ => true
  | .seamLevelChange => true
  | .receiverLineIdle _ => true

end Sys2Proof
end

