-- ==== Sys2Proof/Decode.lean ====
section
/-! DEFINITION. The decoder of the table's words. No row of spec/opcode_table.json gives bits (its "fields" are
empty and it has no "fixed"), so no word spells a command. The frames of the request port and the telegrams of the
links, which do carry bits, are decoded in Machine/Port.lean and Machine/Receive.lean. -/

namespace Sys2Proof

/-- The command that a word spells by the table's bits: none, since no row gives bits. -/
def decodeTableWord (_nbits _w : Nat) : Option Instr := none

end Sys2Proof
end

