-- ==== Sys2Proof/Config.lean ====
section
/-! DEFINITION. What is fixed for the part: the parameter defaults of 11.1, and the free values, which the
manual leaves open. A free value has no body: a claim about it holds for every value. -/

namespace Sys2Proof.Config

/-- The default of each of the 46 parameters, in the order of their ids 1 to 46 (11.1, R194). Enumerated
parameters carry their position (R204): RESUME_ANY off is 0, SEAM_EDGE RISING is 1, HALT_EDGE FALLING is 0. -/
def paramDefaults : List Nat :=
  [3000, 8000, 12000, 300, 0, 15000, 4,
   27000, 39000, 51000, 63000, 75000, 87000,
   80000, 50, 4, 20, 50, 0,
   200000, 160000, 80000, 20000, 100000,
   10000, 60000, 1, 1500, 2000, 500, 200, 3, 50, 3000, 200, 5, 1, 0,
   115200, 115200, 230400, 230400, 1, 1, 1, 1000]

/-- FREE VALUE (log 10). The value that a field of `width` bytes carries for a quantity `n` that does not fit it:
a report age above 65535 ticks, or U above 32 bits (R51). -/
opaque wide (width n : Nat) : Nat

/-- FREE VALUE (log 11). The detail of ROLL.SEAM_LOST when the new roll stands on no spindle (R109 names the
roll's spindle, and R88 may have taken it off). The argument is the roll id. -/
opaque seamLostDetail (roll : Nat) : Word16 × Byte

/-- FREE VALUE (log 31). Whether STOP_LINE's WRONG_STATE in HALTED carries the line status, as R60 says of every answer of
its table, or no field, as R185 and R203 say of a refusal that is not BAD_FIELD. -/
opaque stopRefusalCarriesStatus : Bool

end Sys2Proof.Config
end

