-- ==== Sys2Proof/Machine/State.lean ====
section
/-! DEFINITION. The state of the controller, block by block (0.3), as plain data, and its value after reset.
Counts, sizes and indexes are Nat; what the manual reads bit by bit (cause sets, flags, enables) or lets wrap (the
tick number, sequence numbers) is a bit vector. -/

namespace Sys2Proof.Machine

/-- Why a step stops with a fault. There is none: the manual gives the controller no trap, and every command has an
effect in every state (log 25). Nothing raises it. -/
inductive Fault where
  deriving DecidableEq, Repr

/-- Why a step is refused. -/
inductive Refusal where
  /-- Raised by `exec` for a command that has no meaning yet, by its mnemonic; safe (the step stops). No arm raises it. -/
  | notModelled (mnemonic : String)
  deriving DecidableEq, Repr

/-! ### Record unit (01) -/

/-- Panel states in the order of 12.3. -/
inductive PanelState where
  | scheduled | feeding | pleating | conveyed | setting | cooling | cutting | cut
  deriving DecidableEq, Repr

inductive Verdict where
  | pending | good | reject
  deriving DecidableEq, Repr

/-- The panel causes; their bits in the causes byte are given in 12.3. -/
inductive Cause where
  | seam | strokeFault | underset | overset | aborted | host | cutLate | cutFault
  deriving DecidableEq, Repr

/-- The fields a panel has from FEEDING (R2): lead A, the roll's id, the dose limits, the five stroke counts. -/
structure Placed where
  leadA : Nat
  roll : Nat
  doseMin : Nat
  doseMax : Nat
  issued : Nat
  done : Nat
  faulted : Nat
  missed : Nat
  aborted : Nat
  deriving DecidableEq, Repr

/-- The three cut marks, present from CUTTING (R2). -/
structure CutMarks where
  sent : Bool
  leadDone : Bool
  tailDone : Bool
  deriving DecidableEq, Repr

/-- Which of a panel's six crossings have been taken (R46: each established threshold is crossed once), and cut
control's held marks (R160, R161). -/
structure Crossed where
  head : Bool
  tail : Bool
  entry : Bool
  exit : Bool
  lead : Bool
  tailCut : Bool
  heldLead : Bool
  heldTail : Bool
  deriving DecidableEq, Repr

def Crossed.none : Crossed := ⟨false, false, false, false, false, false, false, false⟩

/-- A live panel record (1.1). `id` is the record itself (R3), by which other blocks address it; it is the model's
own field (log 8) and no software sees it. -/
structure Panel where
  id : Nat
  number : Nat
  orderTag : Option Word32
  pattern : Nat
  flatLength : Nat
  state : PanelState
  verdict : Verdict
  causes : BitVec 8
  placed : Option Placed
  bLead : Option Nat
  bTail : Option Nat
  total : Nat
  dose : Option Nat
  seamOffset : Option Nat
  marks : Option CutMarks
  crossed : Crossed
  deriving DecidableEq, Repr

/-- The panel table (its live records, at most 64), the schedule queue and the line roster, which name records by
`id` (R1, R7, R13). -/
structure RecordUnit where
  panels : List Panel
  queue : List Nat
  roster : List Nat
  nextId : Nat
  deriving DecidableEq, Repr

/-! ### Pattern library (02) -/

inductive StepKind where
  | knifeLeft | knifeRight | box | accordion | skip
  deriving DecidableEq, Repr

/-- A pleat step (2.2). -/
structure Step where
  kind : StepKind
  pitch : Nat
  depth : Nat
  times : Nat
  taper : Int
  deriving DecidableEq, Repr

inductive PatternState where
  | empty | draft | sealed | retiring
  deriving DecidableEq, Repr

/-- What a pattern has from DRAFT (2.1). -/
structure PatternBody where
  fabric : Nat
  heat : Nat
  steps : List Step
  deriving DecidableEq, Repr

/-- What a pattern has while SEALED or RETIRING (2.1). -/
structure Sealing where
  span : Nat
  strokes : Nat
  deriving DecidableEq, Repr

structure Pattern where
  state : PatternState
  refs : Nat
  body : Option PatternBody
  sealing : Option Sealing
  deriving DecidableEq, Repr

def Pattern.blank : Pattern := ⟨.empty, 0, .none, .none⟩

/-! ### Motion unit (03) -/

/-- A count input's coordinate, interval counter and stall flag (R43, R44). -/
structure Counter where
  coord : Nat
  interval : Nat
  stall : Bool
  deriving DecidableEq, Repr

structure Motion where
  unw : Counter
  feed : Counter
  conv : Counter
  seamHigh : Bool
  haltHigh : Bool
  tick : Word32
  limit : Bool
  deriving DecidableEq, Repr

/-! ### Line controller (04) -/

inductive LineState where
  | config | stopped | running | held | halted
  deriving DecidableEq, Repr

inductive HaltCause where
  | chain | drive | unwind | motion
  deriving DecidableEq, Repr

inductive HoldCause where
  | accGuard | maxGap | coordLimit
  deriving DecidableEq, Repr

/-- The set of hold causes (R67). -/
structure HoldCauses where
  accGuard : Bool
  maxGap : Bool
  coordLimit : Bool
  deriving DecidableEq, Repr

def HoldCauses.empty : HoldCauses := ⟨false, false, false⟩

/-- The commanded drive mode. -/
inductive DriveMode where
  | off | run | hold
  deriving DecidableEq, Repr

structure Line where
  state : LineState
  lastHalt : Option HaltCause
  holds : HoldCauses
  speed : Nat
  mode : DriveMode
  resend : Nat
  origin : Nat
  suspended : Bool
  report : Option DriveMotion
  lastTail : Option Nat
  fabricMark : Bool
  deriving DecidableEq, Repr

/-! ### Roll manager (05) -/

inductive RollState where
  | registered | mounted | running | expired | spent
  deriving DecidableEq, Repr

structure Roll where
  id : Nat
  fabric : Nat
  registered : Nat
  remaining : Nat
  state : RollState
  spindle : Option Spindle
  stub : Option Nat
  refs : Nat
  deriving DecidableEq, Repr

inductive SpindleState where
  | empty | loaded | active | stub
  deriving DecidableEq, Repr

inductive UnwindMode where
  | refill | follow | stop
  deriving DecidableEq, Repr

/-- A spindle record (R83); `mode` is none before the first command after COMMISSION. -/
structure SpindleRec where
  state : SpindleState
  roll : Option Nat
  mode : Option UnwindMode
  deriving DecidableEq, Repr

/-- The hysteresis choice (R93). -/
inductive Hysteresis where
  | refill | follow
  deriving DecidableEq, Repr

inductive RollJob where
  | normal | low | pending | preparing | stopping | splicing | retryWait | cancelWait | seamWait | fault | noRoll
  deriving DecidableEq, Repr

/-- The splice record (5.4). -/
structure SpliceRec where
  source : Spindle
  target : Spindle
  tick : Word32
  deriving DecidableEq, Repr

/-- A seam list entry's kind (R106). A planned entry names the roll that begins at the seam; `expected` is its mark
(otherwise confirmed); `passed` says that its passage has been taken (R110). -/
inductive SeamKind where
  | planned (roll : Nat) (expected passed : Bool)
  | unplanned
  deriving DecidableEq, Repr

structure Seam where
  coord : Nat
  kind : SeamKind
  deriving DecidableEq, Repr

structure RollManager where
  slots : List (Option Roll)
  spA : SpindleRec
  spB : SpindleRec
  hyst : Hysteresis
  job : RollJob
  splice : Option SpliceRec
  cancelStart : Word32
  retry : Nat
  resend : Nat
  origin : Nat
  suspended : Bool
  runout : Bool
  feedRoll : Option Nat
  report : Option UnitCondition
  seams : List Seam
  fill : Nat
  rangeMark : Bool
  deriving DecidableEq, Repr

/-! ### Stroke sequencer (06) -/

inductive HeadState where
  | ready | busy
  deriving DecidableEq, Repr

inductive SeqMode where
  | stepping | resync | fault
  deriving DecidableEq, Repr

/-- The stroke cursor holding a stroke (6.3): the panel, the place of the stroke's repeat in the pattern, the
cumulative pitch through it, and the stroke. -/
structure Cursor where
  panel : Nat
  step : Nat
  rep : Nat
  cum : Nat
  kind : StepKind
  depth : Nat
  due : Nat
  waiting : Bool
  deriving DecidableEq, Repr

/-- A stroke window entry. It names the record and, for notices, the panel number. -/
structure WindowEntry where
  seq : Byte
  panel : Nat
  number : Nat
  due : Nat
  tick : Word32
  deriving DecidableEq, Repr

structure Sequencer where
  cursor : Option Cursor
  window : List WindowEntry
  next : Byte
  head : HeadState
  mode : SeqMode
  attempts : Nat
  attemptTick : Word32
  deriving DecidableEq, Repr

/-! ### Chamber controller (07) -/

/-- A defined heat class entry (7.1); `run` holds the six run setpoints. -/
structure HeatClass where
  run : List Nat
  band : Nat
  bank : Nat
  doseMin : Nat
  doseMax : Nat
  deriving DecidableEq, Repr

inductive WantedKind where
  | off | run | bank
  deriving DecidableEq, Repr

inductive ZoneState where
  | off | heating | inBand | outOfBand | banked | stale | fault
  deriving DecidableEq, Repr

/-- A zone record (7.2). `origin` is the tick from which the report age is measured; `last` is the last good
report's temperature and valve opening. -/
structure Zone where
  enabled : Bool
  kind : WantedKind
  wanted : Nat
  commanded : Option Nat
  last : Option (Nat × Nat)
  origin : Word32
  state : ZoneState
  deriving DecidableEq, Repr

def Zone.blank : Zone := ⟨false, .off, 0, .none, .none, 0#32, .off⟩

/-- The changeover with its target (R141). -/
inductive Changeover where
  | idle
  | draining (target : Nat)
  | heating (target : Nat)
  deriving DecidableEq, Repr

inductive TxnKind where
  | poll | set | cut
  deriving DecidableEq, Repr

/-- The chamber bus transaction in progress (R151); `sent` is the setpoint of a set. -/
structure Txn where
  kind : TxnKind
  drop : Nat
  start : Word32
  sent : Nat
  deriving DecidableEq, Repr

structure Chamber where
  classes : List (Option HeatClass)
  zones : List Zone
  lineClass : Nat
  changeover : Changeover
  bankOn : Bool
  bankTimer : Option Word32
  banked : Bool
  txn : Option Txn
  lastPolled : Nat
  deriving DecidableEq, Repr

/-! ### Cut control (08) -/

/-- A cut queue entry (8.1). -/
structure CutEntry where
  panel : Nat
  number : Nat
  kind : CutKind
  due : Nat
  deriving DecidableEq, Repr

/-- The panel and kind of the cut transaction in progress (R163). -/
structure CutNow where
  panel : Nat
  number : Nat
  kind : CutKind
  deriving DecidableEq, Repr

structure CutControl where
  queue : List CutEntry
  now : Option CutNow
  deriving DecidableEq, Repr

/-! ### Station links (09) -/

inductive CutRoute where
  | good | scrap
  deriving DecidableEq, Repr

/-- An item of a channel: a break or an outgoing telegram (9.6). The Z telegrams name the drop addressed. -/
inductive TxItem where
  | brk
  | driveRun (speed : Nat)
  | driveHold
  | unwindMode (spindle : Spindle) (mode : UnwindMode)
  | splicePrepare (source target : Spindle)
  | spliceGo
  | spliceCancel
  | stroke (seq : Byte) (kind : StepKind) (depth : Nat)
  | resync
  | headInfo (panel pattern total issued done : Nat)
  | zonePoll (drop : Nat)
  | zoneSet (drop setpoint : Nat)
  | cut (panel : Nat) (kind : CutKind) (route : CutRoute)
  deriving DecidableEq, Repr

inductive RxPhase where
  | hunting | count | body
  deriving DecidableEq, Repr

/-- The receive assembly: phase, characters held (address, count, rest), whether the inter-character timer runs, and
whether the receiver waits for its line to stand idle (R174). -/
structure Receiver where
  phase : RxPhase
  held : List Byte
  timer : Bool
  waitIdle : Bool
  deriving DecidableEq, Repr

def Receiver.hunting : Receiver := ⟨.hunting, [], false, false⟩

structure Link where
  enabled : Bool
  baud : Nat
  rx : Receiver
  tx : Option TxItem
  queue : List TxItem
  deriving DecidableEq, Repr

def Link.disabled : Link := ⟨false, 0, .hunting, .none, []⟩

/-! ### Request port and attention unit (10) -/

inductive AnswerCode where
  | ok | badFrame | unknownRequest | badField | notCommissioned | notInConfig | noSuchRecord | duplicate | tableFull
  | poolFull | listFull | length | wrongState | inUse
  deriving DecidableEq, Repr

/-- A pending answer: its code, the echoed tag and the field bytes after the overrun byte. -/
structure Answer where
  code : AnswerCode
  tag : Byte
  body : List Byte
  deriving DecidableEq, Repr

/-- The request port (R181). `shift` is the answer frame fixed at the beginning of the open selection (R182). -/
structure Port where
  isOpen : Bool
  shift : Option (List Byte)
  buffer : List Byte
  pending : Option Answer
  overrun : Bool
  deriving DecidableEq, Repr

def Port.idle : Port := ⟨false, .none, [], .none, false⟩

/-- A notice detail: value and qualifier (R187). -/
structure Detail where
  value : Word16
  qual : Byte
  deriving DecidableEq, Repr

/-- A notice group (R187): bit n of `flags` and `enables` is source n + 1. -/
structure NoticeGroup where
  flags : Byte
  enables : Byte
  gateOpen : Bool
  details : List (Option Detail)
  deriving DecidableEq, Repr

def NoticeGroup.clear : NoticeGroup := ⟨0#8, 0#8, true, List.replicate 8 .none⟩

structure Attention where
  groups : List NoticeGroup
  last : Option (Nat × Nat)
  output : Bool
  deriving DecidableEq, Repr

/-! ### The controller and the state -/

/-- Everything the spec gives the controller. -/
structure Controller where
  tab : RecordUnit
  lib : List Pattern
  mot : Motion
  line : Line
  rolls : RollManager
  seq : Sequencer
  cham : Chamber
  cut : CutControl
  chF : Link
  chS : Link
  chP : Link
  chZ : Link
  port : Port
  att : Attention
  params : List Nat
  resetHeld : Bool
  deriving DecidableEq, Repr

/-- The controller after power-on reset and RESET_PART (R200), for the input levels found then (R52, R53). -/
def Controller.fresh (seamHigh haltHigh : Bool) : Controller where
  tab := ⟨[], [], [], 0⟩
  lib := List.replicate 32 Pattern.blank
  mot := ⟨⟨0, 0, false⟩, ⟨0, 0, false⟩, ⟨0, 0, false⟩, seamHigh, haltHigh, 0#32, false⟩
  line := ⟨.config, .none, HoldCauses.empty, 1000, .off, 0, 0, false, .none, .none, false⟩
  rolls :=
    { slots := List.replicate 8 .none
      spA := ⟨.empty, .none, .none⟩
      spB := ⟨.empty, .none, .none⟩
      hyst := .refill
      job := .noRoll
      splice := .none
      cancelStart := 0#32
      retry := 0
      resend := 0
      origin := 0
      suspended := false
      runout := false
      feedRoll := .none
      report := .none
      seams := []
      fill := 0
      rangeMark := false }
  seq := ⟨.none, [], 0#8, .ready, .stepping, 0, 0#32⟩
  cham :=
    { classes := List.replicate 8 .none
      zones := List.replicate 6 Zone.blank
      lineClass := 0
      changeover := .idle
      bankOn := false
      bankTimer := .none
      banked := false
      txn := .none
      lastPolled := 0 }
  cut := ⟨[], .none⟩
  chF := Link.disabled
  chS := Link.disabled
  chP := Link.disabled
  chZ := Link.disabled
  port := Port.idle
  att := ⟨List.replicate 6 NoticeGroup.clear, .none, false⟩
  params := Config.paramDefaults
  resetHeld := false

/-- The state: the controller, and the commands that wait, first in, first out (log 1). -/
structure State where
  ctl : Controller
  pending : List Instr
  deriving DecidableEq, Repr

/-- The machine right after reset. The input levels, which the spec leaves to the inputs, are low (log 6). -/
def State.reset : State where
  ctl := Controller.fresh false false
  pending := []

/-- Puts a controller back beside the queue. -/
def State.withCtl (s : State) (c : Controller) : State := { s with ctl := c }

end Sys2Proof.Machine
end

