-- ==== Sys2Proof/Machine/Operands.lean ====
section
/-! DEFINITION. Operand forms: field widths, byte order and the encodings of 12 (R202, R203, R204), and the reading of
request fields from bytes. -/

namespace Sys2Proof.Machine

/-! ### Field widths and byte order (R202) -/

/-- The low `w` bytes of `n`, most significant byte first. -/
def bigEndian : (w n : Nat) → List Byte
  | 0, _ => []
  | w + 1, n => BitVec.ofNat 8 (n / 256 ^ w) :: bigEndian w n

/-- A quantity in a field of `w` bytes. One that does not fit is carried as a free value (log 10). -/
def field (w n : Nat) : List Byte :=
  if n < 256 ^ w then bigEndian w n else bigEndian w (Config.wide w n)

/-- The number that bytes carry, most significant first. -/
def bytesNat (bs : List Byte) : Nat := bs.foldl (fun n b => n * 256 + b.toNat) 0

/-- The bytes of a request's field of `w` bytes that begins at byte `at_` of its fields. -/
def fieldAt (fields : List Byte) (at_ w : Nat) : List Byte := (fields.drop at_).take w

def byteAt (fields : List Byte) (at_ : Nat) : Byte := BitVec.ofNat 8 (bytesNat (fieldAt fields at_ 1))
def word16At (fields : List Byte) (at_ : Nat) : Word16 := BitVec.ofNat 16 (bytesNat (fieldAt fields at_ 2))
def word32At (fields : List Byte) (at_ : Nat) : Word32 := BitVec.ofNat 32 (bytesNat (fieldAt fields at_ 4))

/-- The 8-bit sum of bytes. -/
def byteSum (bs : List Byte) : Byte := bs.foldl (· + ·) 0#8

def boolByte (b : Bool) : List Byte := if b then [1#8] else [0#8]

/-- An item that may be absent, outside the record layouts: a byte of its own, 1 when present and 0 when absent,
before it; an absent field is carried as zeros (R203). -/
def optionalField (w : Nat) : Option Nat → List Byte
  | none => 0#8 :: field w 0
  | some n => 1#8 :: field w n

/-! ### Positions of enumerated values (R204, 12.3) -/

def PanelState.code : PanelState → Nat
  | .scheduled => 0 | .feeding => 1 | .pleating => 2 | .conveyed => 3
  | .setting => 4 | .cooling => 5 | .cutting => 6 | .cut => 7

def Verdict.code : Verdict → Nat
  | .pending => 0 | .good => 1 | .reject => 2

/-- The cause's bit in the causes byte (12.3). -/
def Cause.bit : Cause → BitVec 8
  | .seam => 0x01#8 | .strokeFault => 0x02#8 | .underset => 0x04#8 | .overset => 0x08#8
  | .aborted => 0x10#8 | .host => 0x20#8 | .cutLate => 0x40#8 | .cutFault => 0x80#8

def PatternState.code : PatternState → Nat
  | .empty => 0 | .draft => 1 | .sealed => 2 | .retiring => 3

def StepKind.code : StepKind → Nat
  | .knifeLeft => 0 | .knifeRight => 1 | .box => 2 | .accordion => 3 | .skip => 4

def StepKind.ofCode : Nat → Option StepKind
  | 0 => some .knifeLeft | 1 => some .knifeRight | 2 => some .box | 3 => some .accordion | 4 => some .skip
  | _ => none

def RollState.code : RollState → Nat
  | .registered => 0 | .mounted => 1 | .running => 2 | .expired => 3 | .spent => 4

def spindleCode : Option Spindle → Nat
  | some .a => 0 | some .b => 1 | none => 2

/-- The spindle a request or telegram names: A or B. -/
def spindleOf : Nat → Option Spindle
  | 0 => some .a | 1 => some .b | _ => none

def SpindleState.code : SpindleState → Nat
  | .empty => 0 | .loaded => 1 | .active => 2 | .stub => 3

def unwindModeCode : Option UnwindMode → Nat
  | some .refill => 0 | some .follow => 1 | some .stop => 2 | none => 3

def Hysteresis.toMode : Hysteresis → UnwindMode
  | .refill => .refill | .follow => .follow

def RollJob.code : RollJob → Nat
  | .normal => 0 | .low => 1 | .pending => 2 | .preparing => 3 | .stopping => 4 | .splicing => 5
  | .retryWait => 6 | .cancelWait => 7 | .seamWait => 8 | .fault => 9 | .noRoll => 10

def LineState.code : LineState → Nat
  | .config => 0 | .stopped => 1 | .running => 2 | .held => 3 | .halted => 4

def HaltCause.code : HaltCause → Nat
  | .chain => 0 | .drive => 1 | .unwind => 2 | .motion => 3

/-- The hold causes as a byte: bit 0 ACC_GUARD, bit 1 MAX_GAP, bit 2 COORD_LIMIT (12.3). -/
def HoldCauses.code (h : HoldCauses) : Nat :=
  (if h.accGuard then 1 else 0) + (if h.maxGap then 2 else 0) + (if h.coordLimit then 4 else 0)

def DriveMode.code : DriveMode → Nat
  | .off => 0 | .run => 1 | .hold => 2

def driveReportCode : Option DriveMotion → Nat
  | some .running => 0 | some .stopped => 1 | some .fault => 2 | none => 3

def driveMotionOf : Nat → Option DriveMotion
  | 0 => some .running | 1 => some .stopped | 2 => some .fault | _ => none

def unitReportCode : Option UnitCondition → Nat
  | some .ready => 0 | some .notReady => 1 | some .webLost => 2 | none => 3

def unitConditionOf : Nat → Option UnitCondition
  | 0 => some .ready | 1 => some .notReady | 2 => some .webLost | _ => none

def WantedKind.code : WantedKind → Nat
  | .off => 0 | .run => 1 | .bank => 2

def ZoneState.code : ZoneState → Nat
  | .off => 0 | .heating => 1 | .inBand => 2 | .outOfBand => 3 | .banked => 4 | .stale => 5 | .fault => 6

def Changeover.code : Changeover → Nat
  | .idle => 0 | .draining _ => 1 | .heating _ => 2

def Changeover.target : Changeover → Option Nat
  | .idle => none | .draining k => some k | .heating k => some k

def txnKindCode : Option TxnKind → Nat
  | none => 0 | some .poll => 1 | some .set => 2 | some .cut => 3

def cutKindCode : CutKind → Nat
  | .lead => 0 | .tail => 1

def cutKindOf : Nat → Option CutKind
  | 0 => some .lead | 1 => some .tail | _ => none

def CutRoute.code : CutRoute → Nat
  | .good => 0 | .scrap => 1

def AnswerCode.code : AnswerCode → Nat
  | .ok => 0 | .badFrame => 1 | .unknownRequest => 2 | .badField => 3 | .notCommissioned => 4 | .notInConfig => 5
  | .noSuchRecord => 6 | .duplicate => 7 | .tableFull => 8 | .poolFull => 9 | .listFull => 10 | .length => 11
  | .wrongState => 12 | .inUse => 13

/-! ### Notice details (R204) -/

/-- The codes of the named details (12.3). -/
inductive NamedDetail where
  | f | s | p | z | feed | unw | conv | fabric | chain | drive | unwind | motion | accGuard | maxGap | coordLimit
  | timeout | protocol | queueFull | cutShort | transmit | full | empty | threshold | listFull | count | webLost
  | cancel | retries | a | b
  deriving DecidableEq, Repr

def NamedDetail.code : NamedDetail → Byte
  | .f => 0xE1#8 | .s => 0xE2#8 | .p => 0xE3#8 | .z => 0xE4#8 | .feed => 0xE5#8 | .unw => 0xE6#8 | .conv => 0xE7#8
  | .fabric => 0xE8#8 | .chain => 0xE9#8 | .drive => 0xEA#8 | .unwind => 0xEB#8 | .motion => 0xEC#8
  | .accGuard => 0xED#8 | .maxGap => 0xEE#8 | .coordLimit => 0xEF#8
  | .timeout => 0xF1#8 | .protocol => 0xF2#8 | .queueFull => 0xF3#8 | .cutShort => 0xF4#8 | .transmit => 0xF5#8
  | .full => 0xF6#8 | .empty => 0xF7#8 | .threshold => 0xF8#8 | .listFull => 0xF9#8 | .count => 0xFA#8
  | .webLost => 0xFB#8 | .cancel => 0xFC#8 | .retries => 0xFD#8 | .a => 0xFE#8 | .b => 0xFF#8

def channelDetail : Channel → NamedDetail
  | .f => .f | .s => .s | .p => .p | .z => .z

def inputDetail : CountInput → NamedDetail
  | .unw => .unw | .feed => .feed | .conv => .conv

def spindleDetail : Spindle → NamedDetail
  | .a => .a | .b => .b

def HaltCause.detail : HaltCause → NamedDetail
  | .chain => .chain | .drive => .drive | .unwind => .unwind | .motion => .motion

def HoldCause.detail : HoldCause → NamedDetail
  | .accGuard => .accGuard | .maxGap => .maxGap | .coordLimit => .coordLimit

/-- A detail that is a number: in the value, with qualifier 0. -/
def Detail.num (n : Nat) : Detail := ⟨BitVec.ofNat 16 n, 0#8⟩

/-- A detail that is a name alone: its code in the qualifier, with value 0. -/
def Detail.named (d : NamedDetail) : Detail := ⟨0#16, d.code⟩

/-- A number with a named reason. -/
def Detail.numNamed (n : Nat) (d : NamedDetail) : Detail := ⟨BitVec.ofNat 16 n, d.code⟩

/-- A channel, given as its code, with a named reason. -/
def Detail.channelNamed (ch : Channel) (d : NamedDetail) : Detail := ⟨(channelDetail ch).code.setWidth 16, d.code⟩

/-- A station code that shares its notice with named reasons: above 0xE0 it is carried as 0xE0 (R204). -/
def sharedCode (code : Byte) : Byte := if 0xE0 < code.toNat then 0xE0#8 else code

end Sys2Proof.Machine
end

