-- ==== Sys2Proof/Machine/Flags.lean ====
section
/-! DEFINITION. The attention unit's flags: every notice with its group and source (10.2), raising a notice (R188),
and the attention output (R189). -/

namespace Sys2Proof.Machine

/-- The notices, named group and source (10.2). -/
inductive Notice where
  | lineHeld | lineResumed | lineHalted | lineMotionFault | lineDriveFault | lineStall | lineCoordLimit
  | panelRejected | panelCutDone | panelAdmitBlocked | panelScheduleEmpty | panelCutLate | panelCutFault
  | panelPatternFreed
  | pleatStrokeMissed | pleatStrokeFault | pleatAckTimeout | pleatResyncDone | pleatHeadFault | pleatHeadBusy
  | steamExcursion | steamStale | steamZoneFault | steamChangeoverDone | steamBanked | steamUnbanked
  | rollLow | rollSpliceDone | rollSpliceFail | rollSpliceFault | rollSeamLost | rollSeamUnplanned | rollRunout
  | rollAccRange
  | linkTimeout | linkFraming | linkCheck | linkProtocol | linkPortOverrun
  deriving DecidableEq, Repr

/-- A notice's group, 1 to 6 (10.2). -/
def Notice.group : Notice → Nat
  | .lineHeld => 1 | .lineResumed => 1 | .lineHalted => 1 | .lineMotionFault => 1 | .lineDriveFault => 1
  | .lineStall => 1 | .lineCoordLimit => 1
  | .panelRejected => 2 | .panelCutDone => 2 | .panelAdmitBlocked => 2 | .panelScheduleEmpty => 2 | .panelCutLate => 2
  | .panelCutFault => 2 | .panelPatternFreed => 2
  | .pleatStrokeMissed => 3 | .pleatStrokeFault => 3 | .pleatAckTimeout => 3 | .pleatResyncDone => 3
  | .pleatHeadFault => 3 | .pleatHeadBusy => 3
  | .steamExcursion => 4 | .steamStale => 4 | .steamZoneFault => 4 | .steamChangeoverDone => 4 | .steamBanked => 4
  | .steamUnbanked => 4
  | .rollLow => 5 | .rollSpliceDone => 5 | .rollSpliceFail => 5 | .rollSpliceFault => 5 | .rollSeamLost => 5
  | .rollSeamUnplanned => 5 | .rollRunout => 5 | .rollAccRange => 5
  | .linkTimeout => 6 | .linkFraming => 6 | .linkCheck => 6 | .linkProtocol => 6 | .linkPortOverrun => 6

/-- A notice's source number within its group (10.2). -/
def Notice.source : Notice → Nat
  | .lineHeld => 1 | .lineResumed => 2 | .lineHalted => 3 | .lineMotionFault => 4 | .lineDriveFault => 5
  | .lineStall => 6 | .lineCoordLimit => 7
  | .panelRejected => 1 | .panelCutDone => 2 | .panelAdmitBlocked => 3 | .panelScheduleEmpty => 4 | .panelCutLate => 5
  | .panelCutFault => 6 | .panelPatternFreed => 7
  | .pleatStrokeMissed => 1 | .pleatStrokeFault => 2 | .pleatAckTimeout => 3 | .pleatResyncDone => 4
  | .pleatHeadFault => 5 | .pleatHeadBusy => 6
  | .steamExcursion => 1 | .steamStale => 2 | .steamZoneFault => 3 | .steamChangeoverDone => 4 | .steamBanked => 5
  | .steamUnbanked => 6
  | .rollLow => 1 | .rollSpliceDone => 2 | .rollSpliceFail => 3 | .rollSpliceFault => 4 | .rollSeamLost => 5
  | .rollSeamUnplanned => 6 | .rollRunout => 7 | .rollAccRange => 8
  | .linkTimeout => 1 | .linkFraming => 2 | .linkCheck => 3 | .linkProtocol => 4 | .linkPortOverrun => 5

/-- How many sources each group has (10.2). -/
def sourceCount : Nat → Nat
  | 1 => 7 | 2 => 7 | 3 => 6 | 4 => 6 | 5 => 8 | 6 => 5 | _ => 0

/-- The bit of source `n` in a group's flags and enables: source 1 is bit 0 (DEDUCED, log 19). -/
def sourceBit (n : Nat) : Byte := 1#8 <<< (n - 1)

/-- The deliverable flags of a group: set, enabled, and its gate open. -/
def NoticeGroup.deliverable (g : NoticeGroup) : Byte :=
  if g.gateOpen then g.flags &&& g.enables else 0#8

/-- The condition of R189 on the attention output. -/
def Attention.wanted (a : Attention) : Bool := a.groups.any (fun g => g.deliverable != 0#8)

/-- Re-evaluates the attention output (R189). -/
def Attention.refresh (a : Attention) : Attention := { a with output := a.wanted }

/-- Sets source `n`'s flag and replaces its detail (R188). -/
def NoticeGroup.set (g : NoticeGroup) (n : Nat) (d : Detail) : NoticeGroup :=
  { g with flags := g.flags ||| sourceBit n, details := g.details.set (n - 1) (some d) }

def Attention.raise (a : Attention) (n : Notice) (d : Detail) : Attention :=
  Attention.refresh { a with groups := a.groups.modify (n.group - 1) (fun g => g.set n.source d) }

/-- A block raises a notice (R188). -/
def Controller.raise (c : Controller) (n : Notice) (d : Detail) : Controller :=
  { c with att := c.att.raise n d }

/-- The group of a number 1 to 6. -/
def Attention.group (a : Attention) (g : Nat) : NoticeGroup := a.groups.getD (g - 1) NoticeGroup.clear

/-- The lowest-numbered source whose deliverable bit is set, from source `n` of `k` left to try. -/
def lowestSource (bits : Byte) : (k n : Nat) → Option Nat
  | 0, _ => none
  | k + 1, n => if bits &&& sourceBit n != 0#8 then some n else lowestSource bits k (n + 1)

/-- The first group, from group `g` on, with something deliverable, and its lowest deliverable source (R190). -/
def firstDeliverable : List NoticeGroup → Nat → Option (Nat × Nat)
  | [], _ => none
  | grp :: rest, g =>
    match lowestSource grp.deliverable 8 1 with
    | some n => some (g, n)
    | none => firstDeliverable rest (g + 1)

/-- Delivers source `n` of group `g`: clears the flag, closes the gate, records the last delivered source (R190). -/
def Attention.deliver (a : Attention) (g n : Nat) : Attention :=
  Attention.refresh
    { a with
      groups := a.groups.modify (g - 1) (fun x => { x with flags := x.flags &&& ~~~(sourceBit n), gateOpen := false })
      last := some (g, n) }

/-- Opens a group's gate (R191). -/
def Attention.openGate (a : Attention) (g : Nat) : Attention :=
  Attention.refresh { a with groups := a.groups.modify (g - 1) (fun x => { x with gateOpen := true }) }

/-- Gives a group's enables the values of a mask (R192). -/
def Attention.enable (a : Attention) (g : Nat) (mask : Byte) : Attention :=
  Attention.refresh { a with groups := a.groups.modify (g - 1) (fun x => { x with enables := mask }) }

end Sys2Proof.Machine
end

