-- ==== Sys2Proof/Machine/Params.lean ====
section
/-! DEFINITION. The parameter set (11.1): the stored value of each parameter by its id, its own range (R194), and the
names by which the rules read it. -/

namespace Sys2Proof.Machine

/-- How many parameters there are (R194). -/
abbrev paramCount : Nat := 46

/-- The stored value of parameter `id`. -/
def Controller.param (c : Controller) (id : Nat) : Nat := c.params.getD (id - 1) 0

def Controller.seamDist (c : Controller) : Nat := c.param 1
def Controller.headDist (c : Controller) : Nat := c.param 2
def Controller.panelMax (c : Controller) : Nat := c.param 3
def Controller.minGap (c : Controller) : Nat := c.param 4
def Controller.maxGap (c : Controller) : Nat := c.param 5
def Controller.entryDist (c : Controller) : Nat := c.param 6
def Controller.zoneCount (c : Controller) : Nat := c.param 7
/-- ZONE_END[i]. -/
def Controller.zoneEnd (c : Controller) (i : Nat) : Nat := c.param (7 + i)
/-- EXIT is ZONE_END[ZONE_COUNT] (R197). -/
def Controller.exitDist (c : Controller) : Nat := c.zoneEnd c.zoneCount
def Controller.cutDist (c : Controller) : Nat := c.param 14
def Controller.cutTol (c : Controller) : Nat := c.param 15
def Controller.windowSize (c : Controller) : Nat := c.param 16
def Controller.lateTol (c : Controller) : Nat := c.param 17
def Controller.ackTimeout (c : Controller) : Nat := c.param 18
def Controller.resumeAny (c : Controller) : Bool := c.param 19 == 1
def Controller.accCap (c : Controller) : Nat := c.param 20
def Controller.accHigh (c : Controller) : Nat := c.param 21
def Controller.accLow (c : Controller) : Nat := c.param 22
def Controller.accGuard (c : Controller) : Nat := c.param 23
def Controller.accInit (c : Controller) : Nat := c.param 24
def Controller.runoutAt (c : Controller) : Nat := c.param 25
def Controller.spliceAt (c : Controller) : Nat := c.param 26
def Controller.spliceRetries (c : Controller) : Nat := c.param 27
def Controller.spliceTimeout (c : Controller) : Nat := c.param 28
def Controller.seamTol (c : Controller) : Nat := c.param 29
def Controller.seamClear (c : Controller) : Nat := c.param 30
def Controller.holdSlip (c : Controller) : Nat := c.param 31
def Controller.resendLimit (c : Controller) : Nat := c.param 32
def Controller.stallLimit (c : Controller) : Nat := c.param 33
def Controller.bankDelay (c : Controller) : Nat := c.param 34
def Controller.staleLimit (c : Controller) : Nat := c.param 35
def Controller.replyTimeout (c : Controller) : Nat := c.param 36
/-- SEAM_EDGE: 0 FALLING, 1 RISING, 2 BOTH. -/
def Controller.seamEdgeSel (c : Controller) : Nat := c.param 37
/-- HALT_EDGE: 0 FALLING, 1 RISING. -/
def Controller.haltEdgeSel (c : Controller) : Nat := c.param 38
def Controller.baudOf (c : Controller) : Channel → Nat
  | .f => c.param 39 | .s => c.param 40 | .p => c.param 41 | .z => c.param 42
def Controller.addrF (c : Controller) : Nat := c.param 43
def Controller.addrS (c : Controller) : Nat := c.param 44
def Controller.addrP (c : Controller) : Nat := c.param 45
def Controller.lineSpeed (c : Controller) : Nat := c.param 46

/-- The own range of a parameter (11.1, R194): an interval, an interval with 0 added, or the listed baud rates. -/
inductive ParamRange where
  | within (lo hi : Nat)
  | zeroOr (lo hi : Nat)
  | baud
  deriving DecidableEq, Repr

/-- The own ranges in id order (11.1). Enumerated parameters range over their positions (R204). -/
def paramRanges : List ParamRange :=
  [.within 100 20000, .within 500 50000, .within 2000 40000, .within 50 5000, .zeroOr 1000 200000,
   .within 2000 100000, .within 1 6,
   .within 1000 300000, .within 1000 300000, .within 1000 300000, .within 1000 300000, .within 1000 300000,
   .within 1000 300000] ++
  [.within 3000 400000, .within 0 500, .within 1 8, .within 0 200, .within 5 500, .within 0 1,
   .within 10000 600000, .within 0 600000, .within 0 600000, .within 0 600000, .within 0 600000,
   .within 1000 100000, .within 3000 1000000, .within 0 3, .within 100 6000] ++
  [.within 100 20000, .within 0 5000, .within 10 2000, .within 1 8, .within 10 1000, .zeroOr 100 60000,
   .within 20 1000, .within 2 50, .within 0 2, .within 0 1,
   .baud, .baud, .baud, .baud, .within 1 30, .within 1 30, .within 1 30, .within 100 10000]

def baudRates : List Nat := [57600, 115200, 230400, 460800, 921600]

def ParamRange.holds : ParamRange → Nat → Bool
  | .within lo hi, v => decide (lo ≤ v) && decide (v ≤ hi)
  | .zeroOr lo hi, v => decide (v = 0) || (decide (lo ≤ v) && decide (v ≤ hi))
  | .baud, v => baudRates.contains v

/-- Whether `id` names a parameter of the table. -/
def isParam (id : Nat) : Bool := decide (1 ≤ id) && decide (id ≤ paramCount)

/-- Whether `v` lies in the own range of parameter `id`. -/
def paramAccepts (id v : Nat) : Bool :=
  match paramRanges[id - 1]? with
  | some r => r.holds v
  | none => false

end Sys2Proof.Machine
end

