-- ==== Sys2Proof/Machine/Ops.lean ====
section
/-! DEFINITION. The named operations over the records: lookups and updates of panels, patterns, rolls, spindles, zones
and links, ages, coordinates and extents. -/

namespace Sys2Proof.Machine

/-! ### The line and the clock -/

/-- The controller is commissioned: its line state is not CONFIG (R196). -/
def Controller.commissioned (c : Controller) : Bool := c.line.state != .config

/-- Ticks since the tick number `t`, modulo 2^32 (R54). -/
def Controller.age (c : Controller) (t : Word32) : Nat := (c.mot.tick - t).toNat

/-- The feed count F. -/
def Controller.feedAt (c : Controller) : Nat := c.mot.feed.coord

/-- The conveyor count C. -/
def Controller.convAt (c : Controller) : Nat := c.mot.conv.coord

/-- The unwind coordinate (R43). -/
def Controller.unwAt (c : Controller) : Nat := c.mot.unw.coord

/-- U, the web coordinate at the unwind nip: F plus the fill (R51). -/
def Controller.webU (c : Controller) : Nat := c.feedAt + c.rolls.fill

/-- The chain state: with HALT_EDGE FALLING the chain is OPEN while HALT is low, with RISING while it is high (R53). -/
def Controller.chainOpen (c : Controller) : Bool :=
  if c.haltEdgeSel = 1 then c.mot.haltHigh else !c.mot.haltHigh

/-- The gap (R78). -/
def Controller.gap (c : Controller) : Nat :=
  match c.line.lastTail with
  | some t => c.feedAt - t
  | none => c.feedAt

/-! ### Counters -/

def Motion.counter (m : Motion) : CountInput → Counter
  | .unw => m.unw | .feed => m.feed | .conv => m.conv

def Motion.setCounter (m : Motion) (i : CountInput) (k : Counter) : Motion :=
  match i with
  | .unw => { m with unw := k }
  | .feed => { m with feed := k }
  | .conv => { m with conv := k }

/-! ### Panels -/

/-- The live record `id` (R3). -/
def Controller.panelById (c : Controller) (id : Nat) : Option Panel := c.tab.panels.find? (fun p => p.id == id)

/-- The live record that holds a panel number (R1). -/
def Controller.panelByNumber (c : Controller) (n : Nat) : Option Panel := c.tab.panels.find? (fun p => p.number == n)

/-- An update of record `id`; discarded when the record has been freed (R3). -/
def Controller.updatePanel (c : Controller) (id : Nat) (f : Panel → Panel) : Controller :=
  { c with tab := { c.tab with panels := c.tab.panels.map (fun p => if p.id = id then f p else p) } }

/-- Sets the panel's state. -/
def Panel.inState (p : Panel) (st : PanelState) : Panel := { p with state := st }

/-- An update of the fields a panel has from FEEDING. -/
def Panel.mapPlaced (p : Panel) (f : Placed → Placed) : Panel := { p with placed := p.placed.map f }

/-- The roster's panels, oldest first (R13). -/
def Controller.rosterPanels (c : Controller) : List Panel := c.tab.roster.filterMap c.panelById

/-- The panel at the head of the schedule queue. -/
def Controller.headPanel (c : Controller) : Option Panel := c.tab.queue.head?.bind c.panelById

/-- A panel FEEDING, PLEATING, CONVEYED or SETTING. -/
def Panel.onTheWay (p : Panel) : Bool :=
  match p.state with
  | .feeding | .pleating | .conveyed | .setting => true
  | _ => false

/-- No roster panel is FEEDING, PLEATING, CONVEYED or SETTING: the drain test (R142), and a condition of R55, R80. -/
def Controller.webClear (c : Controller) : Bool := c.rosterPanels.all (fun p => !p.onTheWay)

/-- The strokes a panel still has to issue: the total less issued, missed and aborted (R116). -/
def Panel.strokesLeft (p : Panel) : Nat :=
  match p.placed with
  | some q => p.total - (q.issued + q.missed + q.aborted)
  | none => 0

/-- The lead cut sent mark. -/
def Panel.leadSent (p : Panel) : Bool :=
  match p.marks with
  | some m => m.sent
  | none => false

/-- The flat extent contains web coordinate `x` (R24). -/
def Panel.flatHolds (p : Panel) (x : Nat) : Bool :=
  match p.placed with
  | some q => decide (q.leadA ≤ x) && decide (x < q.leadA + p.flatLength)
  | none => false

/-- The track B extent: from B-lead up to B-tail, or up to C while B-tail is absent (R24). -/
def Controller.trackB (c : Controller) (p : Panel) : Option (Nat × Nat) :=
  p.bLead.map (fun b => (b, p.bTail.getD c.convAt))

/-- The track B extent contains coordinate `x`. -/
def Controller.bHolds (c : Controller) (p : Panel) (x : Nat) : Bool :=
  match c.trackB p with
  | some (b, e) => decide (b ≤ x) && decide (x < e)
  | none => false

/-- The line position at which zone `i` starts (0.1.2). -/
def Controller.zoneStart (c : Controller) (i : Nat) : Nat :=
  if i ≤ 1 then c.entryDist else c.zoneEnd (i - 1)

/-- The zone test of FIND_PANEL (R25): the lead stands at or past the zone's start, and C - B-end < ZONE_END[i]. -/
def Controller.inZone (c : Controller) (p : Panel) (i : Nat) : Bool :=
  match c.trackB p with
  | some (b, e) => decide (b + c.zoneStart i ≤ c.convAt) && decide (c.convAt < e + c.zoneEnd i)
  | none => false

/-- The panel that covers the head (FIND_PANEL HEAD, R25). -/
def Controller.atHead (c : Controller) (p : Panel) : Bool :=
  decide (c.headDist ≤ c.feedAt) && p.flatHolds (c.feedAt - c.headDist)

/-! ### Patterns -/

def Controller.pattern (c : Controller) (n : Nat) : Pattern := c.lib.getD (n - 1) Pattern.blank

def Controller.updatePattern (c : Controller) (n : Nat) (f : Pattern → Pattern) : Controller :=
  { c with lib := c.lib.modify (n - 1) f }

/-- The step list of a pattern; empty for an EMPTY slot. -/
def Pattern.steps (p : Pattern) : List Step :=
  match p.body with
  | some b => b.steps
  | none => []

/-- The step pool's free count: 1024 less the occupied places (R28). -/
def Controller.poolFree (c : Controller) : Nat := 1024 - (c.lib.map (fun p => p.steps.length)).sum

/-! ### Rolls and spindles -/

def Controller.rollById (c : Controller) (id : Nat) : Option Roll :=
  c.rolls.slots.findSome? (fun slot =>
    match slot with
    | some r => if r.id = id then some r else none
    | none => none)

/-- The RUNNING roll; at most one (R83). -/
def Controller.runningRoll (c : Controller) : Option Roll :=
  c.rolls.slots.findSome? (fun slot =>
    match slot with
    | some r => if r.state = .running then some r else none
    | none => none)

def Controller.mapRolls (c : Controller) (f : Roll → Roll) : Controller :=
  { c with rolls := { c.rolls with slots := c.rolls.slots.map (fun slot => slot.map f) } }

def Controller.updateRoll (c : Controller) (id : Nat) (f : Roll → Roll) : Controller :=
  c.mapRolls (fun r => if r.id = id then f r else r)

/-- The other spindle. -/
def otherSpindle : Spindle → Spindle
  | .a => .b | .b => .a

def Controller.spindle (c : Controller) : Spindle → SpindleRec
  | .a => c.rolls.spA | .b => c.rolls.spB

def Controller.setSpindle (c : Controller) (sp : Spindle) (r : SpindleRec) : Controller :=
  match sp with
  | .a => { c with rolls := { c.rolls with spA := r } }
  | .b => { c with rolls := { c.rolls with spB := r } }

/-- The ACTIVE spindle, if any (R83). -/
def Controller.activeSpindle (c : Controller) : Option Spindle :=
  if c.rolls.spA.state = .active then some .a
  else if c.rolls.spB.state = .active then some .b
  else none

/-- The idle spindle is the one that is not ACTIVE; with no roll RUNNING both are idle and no splice is made (R83). -/
def Controller.idleSpindle (c : Controller) : Option Spindle := c.activeSpindle.map otherSpindle

/-- The idle spindle is LOADED. -/
def Controller.idleLoaded (c : Controller) : Bool :=
  match c.idleSpindle with
  | some sp => (c.spindle sp).state == .loaded
  | none => false

/-- The detail naming the idle spindle. -/
def Controller.idleDetail (c : Controller) : Detail :=
  match c.idleSpindle with
  | some sp => Detail.named (spindleDetail sp)
  | none => Detail.num 0

/-! ### Heat classes and zones -/

def Controller.heatClass (c : Controller) (k : Nat) : Option HeatClass :=
  if k = 0 then none else (c.cham.classes.getD (k - 1) none)

def Controller.zone (c : Controller) (i : Nat) : Zone := c.cham.zones.getD (i - 1) Zone.blank

def Controller.updateZone (c : Controller) (i : Nat) (f : Zone → Zone) : Controller :=
  { c with cham := { c.cham with zones := c.cham.zones.modify (i - 1) f } }

/-- The zone numbers. -/
def zoneNumbers : List Nat := [1, 2, 3, 4, 5, 6]

/-- SET pending: the wanted setpoint differs from the commanded one; unknown differs from every value (7.2). The field of
a zone that is not enabled reads by the same rule; the arbiter passes over such a zone (R136, R151). -/
def Zone.setPending (z : Zone) : Bool := z.commanded != some z.wanted

/-! ### Links -/

def Controller.link (c : Controller) : Channel → Link
  | .f => c.chF | .s => c.chS | .p => c.chP | .z => c.chZ

def Controller.setLink (c : Controller) (ch : Channel) (l : Link) : Controller :=
  match ch with
  | .f => { c with chF := l }
  | .s => { c with chS := l }
  | .p => { c with chP := l }
  | .z => { c with chZ := l }

/-- A telegram received on a channel reaches its owner only while the channel is enabled (R169). -/
def Controller.hears (c : Controller) (ch : Channel) : Bool := (c.link ch).enabled

end Sys2Proof.Machine
end

