-- ==== Sys2Proof/Machine/Links.lean ====
section
/-! DEFINITION. Transmitting on the station links (9.4): the queues of F, S and P with their supersession and overflow,
channel Z, breaks, and the characters of a telegram (R171, R202). -/

namespace Sys2Proof.Machine

/-! ### The characters of an outgoing telegram -/

/-- A telegram's code (12.1); a break has none. -/
def TxItem.code : TxItem → Option Nat
  | .brk => none
  | .driveRun _ => some 0x10
  | .driveHold => some 0x11
  | .unwindMode _ _ => some 0x20
  | .splicePrepare _ _ => some 0x21
  | .spliceGo => some 0x22
  | .spliceCancel => some 0x23
  | .stroke _ _ _ => some 0x30
  | .resync => some 0x31
  | .headInfo _ _ _ _ _ => some 0x32
  | .zonePoll _ => some 0x40
  | .zoneSet _ _ => some 0x41
  | .cut _ _ _ => some 0x42

/-- A telegram's field bytes (12.1, R202). -/
def TxItem.fieldBytes : TxItem → List Byte
  | .driveRun speed => field 2 speed
  | .unwindMode sp m => field 1 (spindleCode (some sp)) ++ field 1 (unwindModeCode (some m))
  | .splicePrepare from_ to_ => field 1 (spindleCode (some from_)) ++ field 1 (spindleCode (some to_))
  | .stroke seq kind depth => seq :: (field 1 kind.code ++ field 2 depth)
  | .headInfo panel pattern total issued done =>
    field 2 panel ++ field 1 pattern ++ field 2 total ++ field 2 issued ++ field 2 done
  | .zoneSet _ setpoint => field 2 setpoint
  | .cut panel kind route => field 2 panel ++ field 1 (cutKindCode kind) ++ field 1 route.code
  | _ => []

/-- The station address a telegram carries: the channel's station, or the drop (R171). -/
def Controller.addressOf (c : Controller) : TxItem → Nat
  | .driveRun _ | .driveHold | .brk => c.addrF
  | .unwindMode _ _ | .splicePrepare _ _ | .spliceGo | .spliceCancel => c.addrS
  | .stroke _ _ _ | .resync | .headInfo _ _ _ _ _ => c.addrP
  | .zonePoll drop => drop
  | .zoneSet drop _ => drop
  | .cut _ _ _ => 7

/-- The characters of a telegram: address with the ninth bit set, count, code, fields, check (R171). A break has none. -/
def TxItem.characters (address : Nat) (item : TxItem) : List LinkChar :=
  match item.code with
  | none => []
  | some code =>
    let body := BitVec.ofNat 8 (2 + item.fieldBytes.length) :: BitVec.ofNat 8 code :: item.fieldBytes
    (0x100#9 ||| BitVec.ofNat 9 address) :: (body ++ [0#8 - byteSum body]).map (fun b => b.setWidth 9)

/-- The chamber bus driver's transmit enable: asserted while channel Z transmits, and not while RESET is held (11.7). -/
def Controller.dez (c : Controller) : Bool := !c.resetHeld && c.chZ.tx.isSome

/-! ### Queues -/

/-- Whether a newly handed telegram supersedes a waiting one (R177, R179). -/
def TxItem.supersedes : TxItem → TxItem → Bool
  | .driveRun _, .driveRun _ => true
  | .driveRun _, .driveHold => true
  | .driveHold, .driveRun _ => true
  | .driveHold, .driveHold => true
  | .unwindMode sp _, .unwindMode sp2 _ => sp == sp2
  | .headInfo _ _ _ _ _, .headInfo _ _ _ _ _ => true
  | _, _ => false

/-- A STROKE takes no place among the 4 waiting items (R179). -/
def TxItem.isStroke : TxItem → Bool
  | .stroke _ _ _ => true
  | _ => false

/-- What an overflow may remove: a waiting telegram, never a break; on channel P not a STROKE, which takes no place
(R177, R179, log 23). -/
def TxItem.removable : TxItem → Bool
  | .brk => false
  | .stroke _ _ _ => false
  | _ => true

/-- Places taken among the 4 waiting items. -/
def waitingPlaces (queue : List TxItem) : Nat := (queue.filter (fun i => !i.isStroke)).length

/-- The queue after an item is handed behind one in transmission, and whether a telegram was lost (R177, R179). -/
def enqueue (queue : List TxItem) (item : TxItem) : List TxItem × Bool :=
  if item.isStroke || decide (waitingPlaces queue < 4) then (queue ++ [item], false)
  else if queue.any item.supersedes then (queue.eraseP item.supersedes ++ [item], false)
  else if queue.any TxItem.removable then (queue.eraseP TxItem.removable ++ [item], true)
  else (queue ++ [item], false)

/-- Hands an item to an enabled link: it begins transmission at once when nothing is in transmission. -/
def Link.hand (l : Link) (item : TxItem) : Link × Bool :=
  if !l.enabled then (l, false)
  else
    match l.tx with
    | none => ({ l with tx := some item }, false)
    | some _ => ({ l with queue := (enqueue l.queue item).1 }, (enqueue l.queue item).2)

/-- Hands an item to channel F, S or P, with LINK.TIMEOUT "transmit" when a telegram was lost. -/
def Controller.hand (c : Controller) (ch : Channel) (item : TxItem) : Controller :=
  let r := (c.link ch).hand item
  let c' := c.setLink ch r.1
  if r.2 then c'.raise .linkTimeout (Detail.channelNamed ch .transmit) else c'

/-- Hands a command to channel Z (R180): it begins at once, or waits behind the break of COMMISSION, alone. A command of an
ended transaction that is still being sent, or still waits, gives way to it (log 17). -/
def Link.handBus (l : Link) (item : TxItem) : Link :=
  if !l.enabled then l
  else if l.tx = some .brk then { l with queue := [item] }
  else { l with tx := some item, queue := [] }

def Controller.handBus (c : Controller) (item : TxItem) : Controller := { c with chZ := c.chZ.handBus item }

/-- Withdraws every item that waits on channel P and has not begun transmission (R179). -/
def Controller.withdrawHead (c : Controller) : Controller := { c with chP := { c.chP with queue := [] } }

/-- The item in transmission ends, and the oldest waiting item begins (R177). -/
def Link.complete (l : Link) : Link :=
  match l.tx with
  | none => l
  | some _ => { l with tx := l.queue.head?, queue := l.queue.tail }

/-- A link enabled by COMMISSION: at its baud rate, with a break as its first item (R169, R178); its receiver
does not wait for its line to stand idle (log 36). -/
def Link.commissioned (baud : Nat) : Link := ⟨true, baud, .hunting, some .brk, []⟩

/-- A link disabled by DECOMMISSION (R169); it keeps its baud rate, which changes only at COMMISSION. A receiver that
waits for its line to stand idle (R174) no longer waits (log 36). -/
def Link.decommissioned (l : Link) : Link := ⟨false, l.baud, .hunting, .none, []⟩

end Sys2Proof.Machine
end

