-- ==== Sys2Proof/Machine/Records.lean ====
section
/-! DEFINITION. What the record unit and its reference counts do for every block: causes and the verdict (R17, R18), the
marks, and the counts of patterns and rolls (R16, R36, R38, R89). -/

namespace Sys2Proof.Machine

/-! ### Causes and the verdict -/

def Panel.withCause (p : Panel) (k : Cause) : Panel := { p with causes := p.causes ||| k.bit }

/-- Whether a cause added now turns the verdict to REJECT: not once the lead cut sent mark is set, and not when it is
REJECT already (R17). -/
def Panel.turnsReject (p : Panel) : Bool := !p.leadSent && p.verdict != .reject

/-- Adds a cause to record `id` and treats the verdict (R17). A freed record takes nothing (R3). -/
def Controller.addCause (c : Controller) (id : Nat) (k : Cause) : Controller :=
  match c.panelById id with
  | none => c
  | some p =>
    if p.turnsReject then
      (c.updatePanel id (fun q => { q.withCause k with verdict := .reject })).raise .panelRejected (Detail.num p.number)
    else c.updatePanel id (fun q => q.withCause k)

/-- The verdict at chamber exit (R18): UNDERSET below dose min; otherwise a PENDING verdict becomes GOOD. -/
def Controller.decideVerdict (c : Controller) (id : Nat) : Controller :=
  match c.panelById id with
  | none => c
  | some p =>
    match p.placed with
    | none => c
    | some q =>
      if p.dose.getD 0 < q.doseMin then c.addCause id .underset
      else c.updatePanel id (fun r => if r.verdict = .pending then { r with verdict := .good } else r)

/-! ### Write-once fields (R3) -/

def Panel.writeBLead (p : Panel) (x : Nat) : Panel := { p with bLead := p.bLead.or (some x) }
def Panel.writeBTail (p : Panel) (x : Nat) : Panel := { p with bTail := p.bTail.or (some x) }
def Panel.writeSeamOffset (p : Panel) (x : Nat) : Panel := { p with seamOffset := p.seamOffset.or (some x) }
def Panel.mapMarks (p : Panel) (f : CutMarks → CutMarks) : Panel := { p with marks := p.marks.map f }
def Panel.mapCrossed (p : Panel) (f : Crossed → Crossed) : Panel := { p with crossed := f p.crossed }

/-! ### Reference counts -/

/-- A panel comes to name a pattern (R16, R36). -/
def Controller.countPattern (c : Controller) (n : Nat) : Controller :=
  c.updatePattern n (fun p => { p with refs := p.refs + 1 })

/-- A panel ceases to name a pattern; a RETIRING pattern brought to 0 is freed with PANEL.PATTERN_FREED (R38). -/
def Controller.releasePattern (c : Controller) (n : Nat) : Controller :=
  if (c.pattern n).state = .retiring ∧ (c.pattern n).refs ≤ 1 then
    (c.updatePattern n (fun _ => Pattern.blank)).raise .panelPatternFreed (Detail.num n)
  else c.updatePattern n (fun p => { p with refs := p.refs - 1 })

def Controller.countRoll (c : Controller) (id : Nat) : Controller :=
  c.updateRoll id (fun r => { r with refs := r.refs + 1 })

def Controller.releaseRoll (c : Controller) (id : Nat) : Controller :=
  c.updateRoll id (fun r => { r with refs := r.refs - 1 })

end Sys2Proof.Machine
end

