-- ==== Sys2Proof/Machine/Unwind.lean ====
section
/-! DEFINITION. The unwind mode: the hysteresis choice and the derivation of the commanded modes (R93), and the roll job's
plain moves (5.4). -/

namespace Sys2Proof.Machine

/-- The job states in which the ACTIVE spindle stands (R93). -/
def RollJob.stopsUnwind : RollJob → Bool
  | .stopping | .splicing | .cancelWait => true
  | _ => false

/-- The mode a spindle's commanded mode must have (R93). -/
def Controller.unwindWanted (c : Controller) (sp : Spindle) : UnwindMode :=
  if (c.spindle sp).state != .active then .stop
  else if c.rolls.job.stopsUnwind || c.rolls.runout || c.line.state == .halted then .stop
  else c.rolls.hyst.toMode

/-- A command of the unwind mode for a change of mode: recorded, sent, the suspension mark cleared, and for STOP the
re-send count and the slip origin restarted (R93, R94). -/
def Controller.commandUnwind (c : Controller) (sp : Spindle) (m : UnwindMode) : Controller :=
  let c := (c.setSpindle sp { c.spindle sp with mode := some m }).hand .s (.unwindMode sp m)
  let c := { c with rolls := { c.rolls with suspended := false } }
  if m = .stop then { c with rolls := { c.rolls with resend := 0, origin := c.unwAt } } else c

/-- Derives one spindle's mode; a derivation that leaves it as it was sends nothing (R93). -/
def Controller.deriveSpindle (c : Controller) (sp : Spindle) : Controller :=
  if (c.spindle sp).mode = some (c.unwindWanted sp) then c else c.commandUnwind sp (c.unwindWanted sp)

/-- Re-derives the commanded modes (R93), spindle A first (log 33); in CONFIG none is commanded (R83). -/
def Controller.deriveUnwind (c : Controller) : Controller :=
  if c.commissioned then (c.deriveSpindle .a).deriveSpindle .b else c

/-- The roll job's move to a state, with the modes re-derived (R93). -/
def Controller.moveJob (c : Controller) (j : RollJob) : Controller :=
  Controller.deriveUnwind { c with rolls := { c.rolls with job := j } }

/-- The hysteresis choice for the present fill (R93). -/
def Controller.hysteresis (c : Controller) : Hysteresis :=
  if c.accHigh ≤ c.rolls.fill then .follow
  else if c.rolls.fill ≤ c.accLow then .refill
  else c.rolls.hyst

end Sys2Proof.Machine
end

