-- ==== Sys2Proof/Machine/Chamber.lean ====
section
/-! DEFINITION. The chamber controller's shared operations: the active class and wanted setpoints (R137), the changeover
(R141, R142, R144, R145), and banking (R146, R147). -/

namespace Sys2Proof.Machine

/-! ### Wanted setpoints -/

/-- The class whose setpoints the zones are to hold: the target while HEATING, the line class otherwise (R137). -/
def Controller.activeClass (c : Controller) : Nat :=
  match c.cham.changeover with
  | .heating k => k
  | _ => c.cham.lineClass

/-- The wanted kind and setpoint of zone `i` (R137). The active class is 0 or a defined class (R133). -/
def Controller.wantedOf (c : Controller) (i : Nat) : WantedKind × Nat :=
  match c.heatClass c.activeClass with
  | none => (.off, 0)
  | some h => if c.cham.banked then (.bank, h.bank) else (.run, h.run.getD (i - 1) 0)

/-- The state a new wanted kind gives a zone that is not FAULT or STALE (R137). -/
def WantedKind.startState : WantedKind → ZoneState
  | .off => .off | .bank => .banked | .run => .heating

/-- A zone that takes a newly derived wanted kind and setpoint (R137). -/
def Zone.derive (z : Zone) (w : WantedKind × Nat) : Zone :=
  if !z.enabled then z
  else
    { z with
      kind := w.1
      wanted := w.2
      state := if z.state = .fault ∨ z.state = .stale then z.state else w.1.startState }

/-- Derives the wanted setpoints afresh (R137). -/
def Controller.deriveZones (c : Controller) : Controller :=
  { c with cham := { c.cham with zones := c.cham.zones.mapIdx (fun k z => z.derive (c.wantedOf (k + 1))) } }

/-! ### Changeover -/

def Controller.setChangeover (c : Controller) (x : Changeover) : Controller :=
  { c with cham := { c.cham with changeover := x } }

/-- The drain test while DRAINING: with the web clear the changeover becomes HEATING, and the wanted setpoints are derived
(R142). -/
def Controller.drainTest (c : Controller) : Controller :=
  match c.cham.changeover with
  | .draining k => if c.webClear then (c.setChangeover (.heating k)).deriveZones else c
  | _ => c

/-- A retarget to class `k` (R145): in DRAINING only the target changes; in HEATING the setpoints are derived again. -/
def Controller.retarget (c : Controller) (k : Nat) : Controller :=
  match c.cham.changeover with
  | .idle => c
  | .draining _ => c.setChangeover (.draining k)
  | .heating _ => (c.setChangeover (.heating k)).deriveZones

/-- The gate's request for class `k` (R141). -/
def Controller.requestClass (c : Controller) (k : Nat) : Controller :=
  if c.cham.changeover.target = some k ∨ k = c.cham.lineClass then c
  else if c.cham.changeover = .idle then (c.setChangeover (.draining k)).drainTest
  else c.retarget k

/-- A changeover cancelled by a head of the line class (R145). -/
def Controller.cancelChangeover (c : Controller) : Controller :=
  match c.cham.changeover with
  | .idle => c
  | .draining _ => c.setChangeover .idle
  | .heating _ => (c.setChangeover .idle).deriveZones

/-- The heat class of the pattern a panel names (R42). -/
def Controller.panelHeat (c : Controller) (p : Panel) : Nat :=
  match (c.pattern p.pattern).body with
  | some b => b.heat
  | none => 0

/-- The fabric class of the pattern a panel names (R42). -/
def Controller.panelFabric (c : Controller) (p : Panel) : Nat :=
  match (c.pattern p.pattern).body with
  | some b => b.fabric
  | none => 0

/-- A head report at the chamber controller (R145). -/
def Controller.chamberHeadReport (c : Controller) : Controller :=
  match c.headPanel with
  | none => c
  | some p =>
    if c.panelHeat p = c.cham.lineClass then c.cancelChangeover
    else if c.cham.changeover.target = some (c.panelHeat p) then c
    else c.retarget (c.panelHeat p)

/-- Every enabled zone is IN_BAND (R144). -/
def Controller.allInBand (c : Controller) : Bool :=
  c.cham.zones.all (fun z => !z.enabled || z.state == .inBand)

/-- The completion test while HEATING (R144). -/
def Controller.completionTest (c : Controller) : Controller :=
  match c.cham.changeover with
  | .heating k =>
    if c.allInBand then
      Controller.raise { c with cham := { c.cham with lineClass := k, changeover := .idle } } .steamChangeoverDone
        (Detail.num k)
    else c
  | _ => c

/-! ### Banking -/

/-- The bank condition (R146). -/
def Controller.bankCondition (c : Controller) : Bool :=
  match c.line.state with
  | .stopped => true
  | .halted => true
  | .held => c.line.holds.accGuard || c.line.holds.coordLimit
  | .running => c.mot.feed.stall
  | .config => false

/-- The mark set or cleared, with its notice, and the wanted setpoints derived (R147). -/
def Controller.setBanked (c : Controller) (b : Bool) : Controller :=
  Controller.deriveZones
    (Controller.raise { c with cham := { c.cham with banked := b, bankTimer := none } }
      (if b then .steamBanked else .steamUnbanked) (Detail.num c.activeClass))

/-- The bank condition is tested at an event that can change it (R146, R147). -/
def Controller.bankTest (c : Controller) : Controller :=
  if !c.commissioned || c.bankCondition = c.cham.bankOn then c
  else
    let c' := { c with cham := { c.cham with bankOn := c.bankCondition } }
    if c.bankCondition then
      if c.bankDelay = 0 then c' else { c' with cham := { c'.cham with bankTimer := some c.mot.tick } }
    else if c.cham.banked then c'.setBanked false
    else { c' with cham := { c'.cham with bankTimer := none } }

/-- The bank timer's test: at age BANK_DELAY the chamber banks (R147). -/
def Controller.bankDue (c : Controller) : Controller :=
  match c.cham.bankTimer with
  | some t => if c.bankDelay ≤ c.age t then c.setBanked true else c
  | none => c

end Sys2Proof.Machine
end

