-- ==== Sys2Proof/Machine/LineControl.lean ====
section
/-! DEFINITION. The line controller's shared operations: line states and drive commands (R58, R63), hold causes (R67,
R68), halt events (R65, R66), and the feed hold re-send (R69, R70). -/

namespace Sys2Proof.Machine

/-- A change of line state, handed to the chamber controller and to the roll manager (R58). -/
def Controller.enterLine (c : Controller) (st : LineState) : Controller :=
  Controller.deriveUnwind (Controller.bankTest { c with line := { c.line with state := st } })

/-- DRIVE_HOLD on any row other than the re-send row (R63). -/
def Controller.driveHold (c : Controller) : Controller :=
  Controller.hand { c with line := { c.line with mode := .hold, resend := 0, origin := c.feedAt, suspended := false } }
    .f .driveHold

/-- Entry to RUNNING: DRIVE_RUN with the line speed, and the motion unit is told, which zeroes the FEED interval counter
and clears the feed stall flag (R45, R58, R63). -/
def Controller.enterRunning (c : Controller) : Controller :=
  let c := Controller.hand { c with line := { c.line with mode := .run } } .f (.driveRun c.line.speed)
  let c := { c with mot := { c.mot with feed := { c.mot.feed with interval := 0, stall := false } } }
  c.enterLine .running

/-! ### Hold causes -/

def HoldCauses.has (h : HoldCauses) : HoldCause → Bool
  | .accGuard => h.accGuard | .maxGap => h.maxGap | .coordLimit => h.coordLimit

def HoldCauses.set (h : HoldCauses) (k : HoldCause) (b : Bool) : HoldCauses :=
  match k with
  | .accGuard => { h with accGuard := b }
  | .maxGap => { h with maxGap := b }
  | .coordLimit => { h with coordLimit := b }

/-- The first cause in force in the order ACC_GUARD, MAX_GAP, COORD_LIMIT (R59). -/
def HoldCauses.first (h : HoldCauses) : Option HoldCause :=
  if h.accGuard then some .accGuard
  else if h.maxGap then some .maxGap
  else if h.coordLimit then some .coordLimit
  else none

def Controller.setHold (c : Controller) (k : HoldCause) (b : Bool) : Controller :=
  { c with line := { c.line with holds := c.line.holds.set k b } }

/-- A source adds its cause (R67, R68). -/
def Controller.addHold (c : Controller) (k : HoldCause) : Controller :=
  if c.line.holds.has k then c
  else if c.line.state = .running then
    (((c.setHold k true).driveHold).enterLine .held).raise .lineHeld (Detail.named k.detail)
  else (c.setHold k true).bankTest

/-- A source removes its cause (R67, R68). -/
def Controller.removeHold (c : Controller) (k : HoldCause) : Controller :=
  if !c.line.holds.has k then c
  else if c.line.state = .held ∧ (c.line.holds.set k false).first = none then
    ((c.setHold k false).enterRunning).raise .lineResumed (Detail.named k.detail)
  else (c.setHold k false).bankTest

/-- The COORD_LIMIT hold: submitted while the limit mark is set and the web is clear (R55). -/
def Controller.coordHold (c : Controller) : Controller :=
  if c.mot.limit && c.webClear then c.addHold .coordLimit else c

/-! ### Halting -/

/-- A halt event (R65, R66). MOTION enters HALTED without a telegram. -/
def Controller.halt (c : Controller) (k : HaltCause) : Controller :=
  let c' := Controller.raise { c with line := { c.line with lastHalt := some k } } .lineHalted (Detail.named k.detail)
  if c.line.state = .halted then c'
  else if k = .motion then c'.enterLine .halted
  else c'.driveHold.enterLine .halted

/-- The unwind motion fault handed over by the roll manager (R65). -/
def Controller.unwindFault (c : Controller) : Controller :=
  (c.raise .lineMotionFault (Detail.named .unwind)).halt .unwind

/-! ### Feed hold re-send -/

/-- HOLD is commanded, the mark is clear, and F stands at the slip origin + HOLD_SLIP (R69). -/
def Controller.feedSlipped (c : Controller) : Bool :=
  c.line.mode == .hold && !c.line.suspended && decide (c.feedAt = c.line.origin + c.holdSlip)

/-- DRIVE_HOLD sent again while the count is below RESEND_LIMIT (R69). -/
def Controller.feedResend (c : Controller) : Controller :=
  if c.feedSlipped && decide (c.line.resend < c.resendLimit) then
    Controller.hand { c with line := { c.line with resend := c.line.resend + 1, origin := c.feedAt } } .f .driveHold
  else c

/-- The limit reached: LINE.MOTION_FAULT, the suspension mark, and a halt event MOTION (R70). -/
def Controller.feedResendFault (c : Controller) : Controller :=
  if c.feedSlipped && !decide (c.line.resend < c.resendLimit) then
    Controller.halt
      (Controller.raise { c with line := { c.line with suspended := true } } .lineMotionFault (Detail.named .feed)) .motion
  else c

/-- The slip test of a FEED pulse (R69, R70). -/
def Controller.feedSlipTest (c : Controller) : Controller :=
  if c.line.resend < c.resendLimit then c.feedResend else c.feedResendFault

end Sys2Proof.Machine
end

