-- ==== Sys2Proof/Machine/Strokes.lean ====
section
/-! DEFINITION. The stroke sequencer's shared operations: expansion and the cursor (R116 to R118), the issue test (R119,
R120), misses (R121, R122), acknowledgements (R124, R125), resync (R127) and the CONVEYED test (R114). -/

namespace Sys2Proof.Machine

/-! ### Expansion and the cursor -/

/-- The next repeat that makes a stroke: its step index, repeat index, cumulative pitch through it, and its step. `i` is
the index of the first step of the list, `r` the repeat of it to take next, `o` the cumulative pitch so far (R117). -/
def nextStroke : List Step → (i r o : Nat) → Option (Nat × Nat × Nat × Step)
  | [], _, _, _ => none
  | s :: rest, i, r, o =>
    if r < s.times then
      if s.kind = .skip then nextStroke rest (i + 1) 0 (o + s.pitch * (s.times - r))
      else some (i, r, o + s.pitch, s)
    else nextStroke rest (i + 1) 0 o

/-- The stroke's depth: the step's depth plus taper times the repeat index (R27). -/
def strokeDepth (s : Step) (r : Nat) : Nat := (Int.ofNat s.depth + s.taper * Int.ofNat r).toNat

/-- The cursor at a stroke of panel `p` (R117). -/
def Controller.cursorAt (c : Controller) (p : Panel) (q : Placed) (x : Nat × Nat × Nat × Step) : Cursor where
  panel := p.id
  step := x.1
  rep := x.2.1
  cum := x.2.2.1
  kind := x.2.2.2.kind
  depth := strokeDepth x.2.2.2 x.2.1
  due := q.leadA + c.headDist + x.2.2.1
  waiting := false

/-- The stroke of panel `p` reached from step `i`, repeat `r`, cumulative pitch `o`. -/
def Controller.strokeFrom (c : Controller) (p : Panel) (i r o : Nat) : Option Cursor :=
  match p.placed with
  | none => none
  | some q => (nextStroke ((c.pattern p.pattern).steps.drop i) i r o).map (c.cursorAt p q)

/-- A panel the cursor may take: its tail passage not taken, and strokes left to issue (R116). -/
def Panel.cursorTakes (p : Panel) : Bool := p.bTail.isNone && decide (0 < p.strokesLeft)

/-- The cursor moves to the oldest roster panel it may take, at that panel's first stroke, or names none (R116). -/
def Controller.seekCursor (c : Controller) : Controller :=
  { c with
    seq := { c.seq with
      cursor := c.rosterPanels.findSome? (fun p => if p.cursorTakes then c.strokeFrom p 0 0 0 else none) } }

/-- The cursor advances from a stroke to the panel's next one, or leaves the panel, which it does once no stroke is left
to issue (R116, R117). -/
def Controller.advanceCursor (c : Controller) (k : Cursor) : Controller :=
  match (c.panelById k.panel).bind (fun p =>
    if p.strokesLeft = 0 then none else c.strokeFrom p k.step (k.rep + 1) k.cum) with
  | some k' => { c with seq := { c.seq with cursor := some k' } }
  | none => c.seekCursor

/-! ### Counts on the panel -/

def Controller.countOn (c : Controller) (id : Nat) (f : Placed → Placed) : Controller :=
  c.updatePanel id (fun p => p.mapPlaced f)

/-! ### Issue and miss -/

/-- The issue test (R119). -/
def Controller.issuePasses (c : Controller) : Bool :=
  decide (c.seq.window.length < c.windowSize) && c.seq.head == .ready && c.seq.mode == .stepping

/-- The panel number of record `id`; 0 when the record is gone. -/
def Controller.numberOf (c : Controller) (id : Nat) : Nat :=
  match c.panelById id with
  | some p => p.number
  | none => 0

/-- A stroke is issued (R119). -/
def Controller.issueStroke (c : Controller) (k : Cursor) : Controller :=
  let entry : WindowEntry := ⟨c.seq.next, k.panel, c.numberOf k.panel, k.due, c.mot.tick⟩
  let c := c.hand .p (.stroke c.seq.next k.kind k.depth)
  let c := { c with seq := { c.seq with window := c.seq.window ++ [entry], next := c.seq.next + 1#8 } }
  (c.countOn k.panel (fun q => { q with issued := q.issued + 1 })).advanceCursor k

/-- A stroke is counted missed, with cause and notice, and the cursor advances (R121). -/
def Controller.missStroke (c : Controller) (k : Cursor) : Controller :=
  let c := (c.countOn k.panel (fun q => { q with missed := q.missed + 1 })).addCause k.panel .strokeFault
  (c.raise .pleatStrokeMissed (Detail.num (c.numberOf k.panel))).advanceCursor k

/-- The late coordinate has been reached: F has passed the due coordinate by more than LATE_TOL (R121). -/
def Controller.isLate (c : Controller) (k : Cursor) : Bool := decide (k.due + c.lateTol + 1 ≤ c.feedAt)

/-- One crossing of the cursor's stroke, if one is reached (R118, R119, R121, R122). A stroke whose late threshold is
already reached when its thresholds are established is missed (R121, log 14). None: nothing is reached. -/
def Controller.strokeCrossing (c : Controller) : Option Controller :=
  match c.seq.cursor with
  | none => none
  | some k =>
    if k.waiting then
      if c.isLate k ∧ c.seq.mode ≠ .fault then some (c.missStroke k) else none
    else if c.feedAt < k.due then none
    else if c.seq.mode = .fault ∨ c.isLate k then some (c.missStroke k)
    else if c.issuePasses then some (c.issueStroke k)
    else some { c with seq := { c.seq with cursor := some { k with waiting := true } } }

/-- Takes the crossings of the cursor's strokes until none is reached. -/
def Controller.strokeCrossings : Nat → Controller → Controller
  | 0, c => c
  | n + 1, c =>
    match c.strokeCrossing with
    | none => c
    | some c' => Controller.strokeCrossings n c'

/-- A bound on the crossings of one event: each stroke left to issue is made waiting and ended at most once. -/
def Controller.strokeBound (c : Controller) : Nat := 2 * (c.rosterPanels.map Panel.strokesLeft).sum + 2

/-- The cursor settles: every due and late crossing already reached is taken (R46, R118). -/
def Controller.settleStrokes (c : Controller) : Controller := Controller.strokeCrossings c.strokeBound c

/-- A waiting stroke is given its issue test again (R120). -/
def Controller.retestStroke (c : Controller) : Controller :=
  match c.seq.cursor with
  | none => c
  | some k => if k.waiting && c.issuePasses then (c.issueStroke k).settleStrokes else c

/-- The cursor leaves panel `id`, if it names it, and moves on (R116). -/
def Controller.leavePanel (c : Controller) (id : Nat) : Controller :=
  match c.seq.cursor with
  | none => c
  | some k => if k.panel = id then c.seekCursor.settleStrokes else c

/-! ### CONVEYED -/

def Controller.inWindow (c : Controller) (id : Nat) : Bool := c.seq.window.any (fun e => e.panel == id)

/-- The CONVEYED test (R114). -/
def Controller.conveyedTest (c : Controller) (id : Nat) : Controller :=
  match c.panelById id with
  | none => c
  | some p =>
    if p.state = .pleating ∧ p.bTail.isSome ∧ p.strokesLeft = 0 ∧ c.inWindow id = false then
      c.updatePanel id (fun q => q.inState .conveyed)
    else c

/-! ### Resync -/

/-- A window entry is counted faulted on its panel, with the cause (R127). -/
def Controller.faultEntry (c : Controller) (e : WindowEntry) : Controller :=
  (c.countOn e.panel (fun q => { q with faulted := q.faulted + 1 })).addCause e.panel .strokeFault

/-- A break and RESYNC handed to channel P, with everything waiting there withdrawn (R127, R128, R129, R179). -/
def Controller.sendResync (c : Controller) : Controller := (c.withdrawHead.hand .p .brk).hand .p .resync

/-- Starting a resync (R127, R129): the window is counted faulted and emptied, the CONVEYED test made, the break and
RESYNC sent, and the first attempt begun. The head state is left as it stands. The entries are taken oldest first, so that
of two panels rejected in the event PANEL.REJECTED shows the one whose first entry in the window is the newer (log 41). -/
def Controller.startResync (c : Controller) : Controller :=
  let lost := c.seq.window
  let c := lost.foldl Controller.faultEntry c
  let c := { c with seq := { c.seq with window := [] } }
  let c := lost.foldl (fun d e => d.conveyedTest e.panel) c
  let c := c.sendResync
  { c with seq := { c.seq with mode := .resync, attempts := 1, attemptTick := c.mot.tick } }

/-- The oldest entry's age exceeds ACK_TIMEOUT while STEPPING (R126). -/
def Controller.ackOverdue (c : Controller) : Option WindowEntry :=
  if c.seq.mode = .stepping then
    match c.seq.window with
    | [] => none
    | e :: _ => if c.ackTimeout < c.age e.tick then some e else none
  else none

def Controller.ackTimeoutTest (c : Controller) : Controller :=
  match c.ackOverdue with
  | some e => (c.raise .pleatAckTimeout (Detail.num e.number)).startResync
  | none => c

/-- A waiting stroke is missed when the sequencer state becomes FAULT (R122). -/
def Controller.missWaiting (c : Controller) : Controller :=
  match c.seq.cursor with
  | some k => if k.waiting then (c.missStroke k).settleStrokes else c
  | none => c

/-- The attempt's age exceeds ACK_TIMEOUT while in RESYNC (R128). -/
def Controller.attemptOverdue (c : Controller) : Bool :=
  c.seq.mode == .resync && decide (c.ackTimeout < c.age c.seq.attemptTick)

def Controller.attemptTest (c : Controller) : Controller :=
  if c.attemptOverdue then
    if c.seq.attempts < 3 then
      let c := c.sendResync
      { c with seq := { c.seq with attempts := c.seq.attempts + 1, attemptTick := c.mot.tick } }
    else
      (Controller.raise { c with seq := { c.seq with mode := .fault } } .pleatHeadFault (Detail.num 3)).missWaiting
  else c

/-! ### The head's telegrams -/

/-- The head state becomes READY, with the issue test of a waiting stroke (R130). -/
def Controller.headReady (c : Controller) : Controller :=
  Controller.retestStroke { c with seq := { c.seq with head := .ready } }

/-- What a telegram other than HEAD_BUSY and HEAD_READY does first with RESUME_ANY on (R130). -/
def Controller.resumeAnyStep (c : Controller) : Controller := if c.resumeAny then c.headReady else c

/-- An acknowledgement for sequence number `seq`; `outcome` is what it does to its entry (R124, R125). -/
def Controller.acknowledge (c : Controller) (seq : Byte) (outcome : Controller → WindowEntry → Controller) :
    Controller :=
  if c.seq.mode = .stepping then
    match c.seq.window with
    | [] => (c.raise .linkProtocol (Detail.named .p)).startResync
    | e :: rest =>
      if e.seq = seq then
        let c := { c with seq := { c.seq with window := rest } }
        ((outcome c e).conveyedTest e.panel).retestStroke
      else (c.raise .linkProtocol (Detail.named .p)).startResync
  else c

/-- STROKE_DONE's effect on its entry's panel (R124). -/
def Controller.doneEntry (c : Controller) (e : WindowEntry) : Controller :=
  c.countOn e.panel (fun q => { q with done := q.done + 1 })

/-- STROKE_FAULT's effect on its entry's panel, with the head's cause code unchanged (R124, R204). -/
def Controller.faultedEntry (code : Byte) (c : Controller) (e : WindowEntry) : Controller :=
  (c.faultEntry e).raise .pleatStrokeFault ⟨BitVec.ofNat 16 e.number, code⟩

/-- RESYNC_DONE's own effect (R128). -/
def Controller.resyncDone (c : Controller) (next : Byte) : Controller :=
  if c.seq.mode = .resync then
    let c := { c with seq := { c.seq with next := next, mode := .stepping, attempts := 0, head := .ready } }
    (c.raise .pleatResyncDone (Detail.num next.toNat)).retestStroke
  else c

/-- HEAD_INFO for the panel that covers the head, or zeros (R132). -/
def Controller.headInfo (c : Controller) : TxItem :=
  match c.rosterPanels.find? c.atHead with
  | some p =>
    match p.placed with
    | some q => .headInfo p.number p.pattern p.total q.issued q.done
    | none => .headInfo p.number p.pattern p.total 0 0
  | none => .headInfo 0 0 0 0 0

/-- ABORT_PLEAT's effect: the residual count is counted aborted, the cause added, the cursor moved on, and the CONVEYED
test made (R131). -/
def Controller.abortStrokes (c : Controller) (p : Panel) : Controller :=
  let c := c.countOn p.id (fun q => { q with aborted := q.aborted + p.strokesLeft })
  (((c.addCause p.id .aborted).leavePanel p.id)).conveyedTest p.id

end Sys2Proof.Machine
end

