-- ==== Sys2Proof/Machine/Gate.lean ====
section
/-! DEFINITION. The admission gate (R71 to R77), admission (R76, R14), head reports (R12), and the MAX_GAP hold (R78 to
R81). -/

namespace Sys2Proof.Machine

/-! ### Head reports -/

/-- A head report: the line controller clears the fabric notice mark (R74), the chamber controller acts (R145). -/
def Controller.headReport (c : Controller) : Controller :=
  Controller.chamberHeadReport { c with line := { c.line with fabricMark := false } }

/-- A change of the schedule queue, with a head report when the head has changed (R12). -/
def Controller.setQueue (c : Controller) (queue : List Nat) : Controller :=
  let c' := { c with tab := { c.tab with queue := queue } }
  if queue.head? = c.tab.queue.head? then c' else c'.headReport

/-! ### The conditions -/

/-- The feed roll's record. -/
def Controller.feedRollRec (c : Controller) : Option Roll := c.rolls.feedRoll.bind c.rollById

/-- Condition 3 (R72). -/
def Controller.gateSpacing (c : Controller) : Bool :=
  match c.line.lastTail with
  | some t => decide (t + c.minGap ≤ c.feedAt)
  | none => true

/-- Condition 4 (R73). -/
def Controller.gateRoll (c : Controller) : Bool :=
  c.rolls.job == .normal &&
    match c.runningRoll with
    | some r => decide (c.spliceAt < r.remaining)
    | none => false

/-- Condition 5 for candidate `p` (R73). -/
def Controller.gateSeams (c : Controller) (p : Panel) : Bool :=
  c.rolls.seams.all (fun e => !(decide (c.feedAt ≤ e.coord) && decide (e.coord < c.feedAt + p.flatLength + c.seamClear)))

/-- Condition 6 for candidate `p` (R74): fabric class 0, or the feed roll's; it fails without a feed roll. -/
def Controller.gateFabric (c : Controller) (p : Panel) : Bool :=
  match c.feedRollRec with
  | some r => c.panelFabric p == 0 || c.panelFabric p == r.fabric
  | none => false

/-- Condition 7 for candidate `p` (R75). -/
def Controller.gateHeat (c : Controller) (p : Panel) : Bool := c.panelHeat p == c.cham.lineClass

/-- Conditions 1 to 7 hold and the limit mark is clear (R71). -/
def Controller.admissible (c : Controller) : Bool :=
  match c.headPanel with
  | none => false
  | some p =>
    c.line.state == .running && c.gateSpacing && c.gateRoll && c.gateSeams p && c.gateFabric p && c.gateHeat p &&
      !c.mot.limit

/-- The removal test of the MAX_GAP cause (R79). -/
def Controller.removalTest (c : Controller) : Bool :=
  match c.headPanel with
  | none => false
  | some p => !c.mot.limit && c.gateRoll && c.gateFabric p && c.gateHeat p

/-- The MAX_GAP cause is to be added (R80). -/
def Controller.maxGapDue (c : Controller) : Bool :=
  c.maxGap != 0 && decide (c.maxGap ≤ c.gap) && c.webClear && !c.removalTest

/-! ### Evaluation -/

/-- Condition 6's notice: once for each panel that reaches the head, with a feed roll present (R74). -/
def Controller.fabricNotice (c : Controller) : Controller :=
  match c.headPanel with
  | none => c
  | some p =>
    if !c.gateFabric p && c.feedRollRec.isSome && !c.line.fabricMark then
      Controller.raise { c with line := { c.line with fabricMark := true } } .panelAdmitBlocked (Detail.named .fabric)
    else c

/-- Condition 7's changeover request (R75). -/
def Controller.heatRequest (c : Controller) : Controller :=
  match c.headPanel with
  | none => c
  | some p => if c.gateHeat p then c else c.requestClass (c.panelHeat p)

/-- The MAX_GAP cause at an evaluation (R80, R81). -/
def Controller.maxGapTest (c : Controller) : Controller :=
  if c.removalTest then c.removeHold .maxGap else if c.maxGapDue then c.addHold .maxGap else c

/-- What every evaluation does beside admission (R71). -/
def Controller.gateTests (c : Controller) : Controller := c.fabricNotice.heatRequest.maxGapTest

/-- The queue head `p` leaves the queue for the roster with its fields `x` from FEEDING (R14, R76): the counts, the
MAX_GAP cause, the last admitted tail, SCHEDULE_EMPTY and the head report. -/
def Controller.takeOn (c : Controller) (p : Panel) (x : Placed) : Controller :=
  let c := c.updatePanel p.id (fun q => { q with state := .feeding, placed := some x })
  let c := (c.countRoll x.roll).removeHold .maxGap
  let c := { c with
    line := { c.line with lastTail := some (x.leadA + p.flatLength) }
    tab := { c.tab with roster := c.tab.roster ++ [p.id] } }
  let c := if c.tab.queue.tail.isEmpty then c.raise .panelScheduleEmpty (Detail.num p.number) else c
  c.setQueue c.tab.queue.tail

/-- The fields that admission gives panel `p` (R76): lead A, the feed roll, the dose limits of its heat class, the five
counts at 0. -/
def Controller.placedFor (c : Controller) (p : Panel) : Placed :=
  match c.heatClass (c.panelHeat p) with
  | some h => ⟨c.feedAt, c.rolls.feedRoll.getD 0, h.doseMin, h.doseMax, 0, 0, 0, 0, 0⟩
  | none => ⟨c.feedAt, c.rolls.feedRoll.getD 0, 0, 0, 0, 0, 0, 0, 0⟩

/-- The cursor takes an admitted panel when it names none (R116). -/
def Controller.cursorTake (c : Controller) : Controller :=
  if c.seq.cursor.isNone then c.seekCursor.settleStrokes else c

/-- Admission of the queue head `p` (R76). -/
def Controller.admitPanel (c : Controller) (p : Panel) : Controller := (c.takeOn p (c.placedFor p)).cursorTake

/-- The gate is evaluated while the controller is commissioned (R71). An admission's head report brings an evaluation of
its own, which admits nothing (R77). -/
def Controller.gate (c : Controller) : Controller :=
  if c.commissioned then
    let c := c.gateTests
    match c.headPanel with
    | some p => if c.admissible then (c.admitPanel p).gateTests else c
    | none => c
  else c

/-- What R71 names besides the FEED pulse and the chamber exit: the line state, the roll job, the RUNNING roll and the
feed roll, the seam list, the line class, the limit mark, and the schedule queue (R9, R11: the gate is evaluated for a
change to the schedule, head report or not). -/
structure GateInputs where
  line : LineState
  job : RollJob
  running : Option Nat
  feedRoll : Option Nat
  seams : List Seam
  lineClass : Nat
  limit : Bool
  queue : List Nat
  deriving DecidableEq, Repr

def Controller.gateInputs (c : Controller) : GateInputs where
  line := c.line.state
  job := c.rolls.job
  running := c.runningRoll.map Roll.id
  feedRoll := c.rolls.feedRoll
  seams := c.rolls.seams
  lineClass := c.cham.lineClass
  limit := c.mot.limit
  queue := c.tab.queue

/-- An event: its effect, then the gate's evaluation when something R71 names has changed (log 26). -/
def Controller.event (c : Controller) (f : Controller → Controller) : Controller :=
  if (f c).gateInputs = c.gateInputs then f c else (f c).gate

end Sys2Proof.Machine
end

