-- ==== Sys2Proof/Machine/Splicing.lean ====
section
/-! DEFINITION. The roll manager's shared operations: the splice procedure (R96 to R103), runout (R91), the seam list
(R106 to R110), the accumulator fill (R50, R95), and the unwind hold re-send (R94). -/

namespace Sys2Proof.Machine

/-! ### Becoming due, preparing -/

/-- PENDING's two conditions (R98). -/
def Controller.clearanceHolds (c : Controller) : Bool :=
  c.rolls.job == .pending && decide (c.line.lastTail.getD 0 + c.seamClear ≤ c.webU) && decide (c.rolls.seams.length < 4)

/-- SPLICE_PREPARE is sent and the job becomes PREPARING at the event at which both conditions hold (R98). -/
def Controller.clearanceTest (c : Controller) : Controller :=
  if c.clearanceHolds then
    match c.activeSpindle with
    | some sp =>
      let c := { c with rolls := { c.rolls with splice := some ⟨sp, (otherSpindle sp), c.mot.tick⟩ } }
      (c.hand .s (.splicePrepare sp (otherSpindle sp))).moveJob .preparing
    | none => c
  else c

/-- The job moves to PENDING, where both conditions are tested (R98). -/
def Controller.enterPending (c : Controller) : Controller := (c.moveJob .pending).clearanceTest

/-- The job moves to LOW with ROLL.ROLL_LOW (R96). -/
def Controller.enterLow (c : Controller) : Controller := (c.moveJob .low).raise .rollLow c.idleDetail

/-- The RUNNING roll's remaining length is at most SPLICE_AT. -/
def Controller.rollIsLow (c : Controller) : Bool :=
  match c.runningRoll with
  | some r => decide (r.remaining ≤ c.spliceAt)
  | none => false

/-- The SPLICE_AT test in NORMAL (R96). -/
def Controller.spliceAtTest (c : Controller) : Controller :=
  if c.rolls.job == .normal && c.rollIsLow then
    if c.idleLoaded then c.enterPending else c.enterLow
  else c

/-- Entry to NORMAL: retry count 0, and the SPLICE_AT test (R96). -/
def Controller.enterNormal (c : Controller) : Controller :=
  (Controller.moveJob { c with rolls := { c.rolls with retry := 0 } } .normal).spliceAtTest

/-! ### Stopping, going -/

/-- SPLICE_GO at the unwind stall flag in STOPPING (R99). -/
def Controller.goTest (c : Controller) : Controller :=
  if c.rolls.job == .stopping && c.mot.unw.stall then (c.hand .s .spliceGo).moveJob .splicing else c

/-- PREPARED taken in PREPARING; a stall flag already set is taken in the same event (R99, R100). -/
def Controller.takePrepared (c : Controller) : Controller :=
  if c.rolls.job = .preparing then (c.moveJob .stopping).goTest else c

/-! ### Runout -/

/-- The runout threshold while the mark is clear: ROLL.RUNOUT, the mark, and the mode (R91, R93). -/
def Controller.runoutTest (c : Controller) : Controller :=
  match c.runningRoll with
  | none => c
  | some r =>
    if !c.rolls.runout && decide (r.remaining ≤ c.runoutAt) then
      Controller.deriveUnwind
        (Controller.raise { c with rolls := { c.rolls with runout := true } } .rollRunout (Detail.named .threshold))
    else c

/-- The runout mark cleared for a roll that becomes RUNNING, which is then tested (R91). -/
def Controller.runoutRestart (c : Controller) : Controller :=
  Controller.runoutTest { c with rolls := { c.rolls with runout := false } }

/-- ROLL.RUNOUT with detail COUNT (R91). -/
def Controller.runoutCount (c : Controller) : Controller := c.raise .rollRunout (Detail.named .count)

/-- A UNW pulse's effect on the RUNNING roll's remaining length, the runout tests and the SPLICE_AT test (R91, R96). -/
def Controller.lengthPulse (c : Controller) : Controller :=
  match c.runningRoll with
  | none => c
  | some r =>
    if r.remaining = 0 then c
    else
      let c := (c.updateRoll r.id (fun x => { x with remaining := x.remaining - 1 })).runoutTest
      let c := if r.remaining = 1 then c.runoutCount else c
      c.spliceAtTest

/-! ### The seam list -/

def SeamKind.isPlanned : SeamKind → Bool
  | .planned _ _ _ => true
  | .unplanned => false

/-- The kind's mark is expected. -/
def SeamKind.isExpected : SeamKind → Bool
  | .planned _ expected _ => expected
  | .unplanned => false

/-- The kind's passage has yet to be taken. -/
def SeamKind.awaitsPassage : SeamKind → Bool
  | .planned _ _ passed => !passed
  | .unplanned => false

def SeamKind.roll : SeamKind → Nat
  | .planned roll _ _ => roll
  | .unplanned => 0

def SeamKind.confirm : SeamKind → SeamKind
  | .planned roll _ passed => .planned roll false passed
  | .unplanned => .unplanned

def SeamKind.markPassed : SeamKind → SeamKind
  | .planned roll expected _ => .planned roll expected true
  | .unplanned => .unplanned

/-- Inserts an entry into a list ordered by coordinate. -/
def insertSeam (e : Seam) : List Seam → List Seam
  | [] => [e]
  | x :: rest => if e.coord ≤ x.coord then e :: x :: rest else x :: insertSeam e rest

/-- The list with an entry at `e`'s coordinate replaced by `e` (R106). -/
def placeSeam (e : Seam) (l : List Seam) : List Seam := insertSeam e (l.filter (fun x => x.coord != e.coord))

def Controller.setSeams (c : Controller) (l : List Seam) : Controller := { c with rolls := { c.rolls with seams := l } }

/-- The list counts as full (R106). -/
def Controller.seamsFull (c : Controller) : Bool :=
  decide (4 ≤ c.rolls.seams.length) ||
    (decide (3 ≤ c.rolls.seams.length) &&
      match c.rolls.job with
      | .preparing | .stopping | .splicing | .cancelWait => true
      | _ => false)

/-- The detail of ROLL.SEAM_LOST: the new roll's spindle; a free value when it stands on none (R109, log 11). -/
def Controller.seamLostDetail (c : Controller) (roll : Nat) : Detail :=
  match (c.rollById roll).bind Roll.spindle with
  | some sp => Detail.named (spindleDetail sp)
  | none => ⟨(Config.seamLostDetail roll).1, (Config.seamLostDetail roll).2⟩

/-- The expected entry's loss threshold is reached: F = s_e + SEAM_TOL - SEAM_DIST + 1 (R109). -/
def Controller.seamIsLost (c : Controller) (e : Seam) : Bool :=
  e.kind.isExpected && decide (e.coord + c.seamTol + 1 ≤ c.feedAt + c.seamDist)

/-- The loss of an expected seam: the notice, and the entry confirmed where it stands (R109). -/
def Controller.seamLossTest (c : Controller) : Controller :=
  match c.rolls.seams.find? c.seamIsLost with
  | none => c
  | some e =>
    (c.raise .rollSeamLost (c.seamLostDetail e.kind.roll)).setSeams
      (c.rolls.seams.map (fun x => if x = e then { x with kind := x.kind.confirm } else x))

/-- The feed roll becomes roll `id`; the roll that was the feed roll becomes SPENT if it is EXPIRED (R110). -/
def Controller.changeFeedRoll (c : Controller) (id : Nat) : Controller :=
  let old := c.rolls.feedRoll
  let c := c.mapRolls (fun r => if some r.id = old ∧ r.state = .expired then { r with state := .spent } else r)
  { c with rolls := { c.rolls with feedRoll := some id } }

/-- The planned entry's passage, at F = s (R110). -/
def Controller.seamPassageTest (c : Controller) : Controller :=
  match c.rolls.seams.find? (fun e => e.kind.awaitsPassage && decide (e.coord ≤ c.feedAt)) with
  | none => c
  | some e =>
    (c.changeFeedRoll e.kind.roll).setSeams
      (c.rolls.seams.map (fun x => if x = e then { x with kind := x.kind.markPassed } else x))

/-- An entry's removal threshold is reached: F = s + SEAM_CLEAR (R106). -/
def Controller.seamIsGone (c : Controller) (e : Seam) : Bool := decide (e.coord + c.seamClear ≤ c.feedAt)

/-- Entries removed at F = s + SEAM_CLEAR; the passage comes first, the planned entry's removal moves the job from
SEAM_WAIT to NORMAL (R110), and a removal may bring PENDING's clearance (R98). -/
def Controller.seamRemovalTest (c : Controller) : Controller :=
  if c.rolls.seams.any c.seamIsGone then
    let c := c.seamPassageTest
    let planned := c.rolls.seams.any (fun e => c.seamIsGone e && e.kind.isPlanned)
    let c := c.setSeams (c.rolls.seams.filter (fun e => !c.seamIsGone e))
    let c := if planned ∧ c.rolls.job = .seamWait then c.enterNormal else c
    c.clearanceTest
  else c

/-- Every threshold of the seam list that is reached: loss, passage, removal (R46, R106, R109, R110), in this order: where
an entry's loss falls at the F of its passage or of its removal, the loss with ROLL.SEAM_LOST is taken first (log 38). -/
def Controller.settleSeams (c : Controller) : Controller := c.seamLossTest.seamPassageTest.seamRemovalTest

/-- The expected planned entry within SEAM_TOL of `s` (R107). -/
def Controller.seamMatch (c : Controller) (s : Nat) : Option Seam :=
  c.rolls.seams.find? (fun e =>
    e.kind.isExpected && decide (s ≤ e.coord + c.seamTol) && decide (e.coord ≤ s + c.seamTol))

/-- The splice seam confirmed at `s` (R107). -/
def Controller.confirmSeam (c : Controller) (e : Seam) (s : Nat) : Controller :=
  (c.setSeams (placeSeam ⟨s, e.kind.confirm⟩ (c.rolls.seams.filter (fun x => x != e)))).settleSeams

/-- The panel whose flat extent contains `s` (R108). -/
def Controller.panelOver (c : Controller) (s : Nat) : Option Panel := c.rosterPanels.find? (fun p => p.flatHolds s)

/-- Marks the panel over an unplanned seam (R108). -/
def Controller.markSeam (c : Controller) (s : Nat) : Controller :=
  match c.panelOver s with
  | none => c
  | some p =>
    match p.placed with
    | none => c
    | some q => (c.addCause p.id .seam).updatePanel p.id (fun x => x.writeSeamOffset (s - q.leadA))

/-- An unplanned seam at `s` (R108); a list that holds an entry at `s` is asked first (log 20). -/
def Controller.unplannedSeam (c : Controller) (s : Nat) : Controller :=
  let number := ((c.panelOver s).map Panel.number).getD 0
  let c := c.markSeam s
  if c.rolls.seams.any (fun e => e.coord == s) then c.raise .rollSeamUnplanned (Detail.num number)
  else if c.seamsFull then c.raise .rollSeamUnplanned (Detail.named .listFull)
  else ((c.setSeams (insertSeam ⟨s, .unplanned⟩ c.rolls.seams)).raise .rollSeamUnplanned (Detail.num number)).settleSeams

/-- A seam edge at the present F (R107, R108). -/
def Controller.takeSeamEdge (c : Controller) : Controller :=
  let s := c.feedAt + c.seamDist
  match c.seamMatch s with
  | some e => c.confirmSeam e s
  | none => c.unplannedSeam s

/-! ### Outcomes of a splice -/

/-- The RUNNING roll becomes EXPIRED with its stub length, and its spindle STUB (R92, R101). -/
def Controller.expireRunning (c : Controller) : Controller :=
  let c' := c.mapRolls (fun r =>
    if r.state = .running then { r with state := .expired, stub := some r.remaining } else r)
  match c.activeSpindle with
  | some sp => c'.setSpindle sp { c'.spindle sp with state := .stub }
  | none => c'

/-- The roll on spindle `sp` becomes RUNNING and the spindle ACTIVE (R87, R101). -/
def Controller.runSpindle (c : Controller) (sp : Spindle) : Controller :=
  let id := (c.spindle sp).roll
  (c.mapRolls (fun r => if some r.id = id then { r with state := .running } else r)).setSpindle sp
    { c.spindle sp with state := .active }

/-- SPLICE_DONE completes the splice (R101), with s_e = U at this event. -/
def Controller.completeSplice (c : Controller) : Controller :=
  match c.rolls.splice with
  | none => c
  | some rec_ =>
    let roll := (c.spindle rec_.target).roll.getD 0
    let c := (c.expireRunning.runSpindle rec_.target).runoutRestart
    let c := c.setSeams (placeSeam ⟨c.webU, .planned roll true false⟩ c.rolls.seams)
    let c := c.raise .rollSpliceDone (Detail.named (spindleDetail rec_.target))
    let c := Controller.moveJob { c with rolls := { c.rolls with retry := 0 } } .seamWait
    c.settleSeams

/-- A failed attempt: retry or FAULT (R103). -/
def Controller.failAttempt (c : Controller) : Controller :=
  if c.rolls.retry < c.spliceRetries then
    Controller.moveJob { c with rolls := { c.rolls with retry := c.rolls.retry + 1 } } .retryWait
  else (c.moveJob .fault).raise .rollSpliceFault (Detail.named .retries)

/-- SPLICE_DONE by job state (R100). -/
def Controller.takeSpliceDone (c : Controller) : Controller :=
  match c.rolls.job with
  | .splicing | .cancelWait => c.completeSplice
  | _ => c

/-- SPLICE_FAIL by job state (R100, R102, R103, R204). -/
def Controller.takeSpliceFail (c : Controller) (cause : Byte) : Controller :=
  match c.rolls.job with
  | .preparing | .stopping | .splicing => (c.raise .rollSpliceFail ⟨0#16, sharedCode cause⟩).failAttempt
  | .cancelWait => (c.raise .rollSpliceFail (Detail.named .timeout)).failAttempt
  | _ => c

/-- SPLICE_CANCELLED by job state (R100, R102). -/
def Controller.takeSpliceCancelled (c : Controller) (web : Spindle) : Controller :=
  if c.rolls.job = .cancelWait then
    match c.rolls.splice with
    | some rec_ =>
      if web = rec_.target then c.completeSplice
      else (c.raise .rollSpliceFail (Detail.named .timeout)).failAttempt
    | none => c
  else c

/-- The splice timeout (R99, R102). From PREPARING the SPLICE_CANCEL is handed to channel S before the UNWIND_MODE STOP that
the job's move sends (log 40). -/
def Controller.spliceTimeoutTest (c : Controller) : Controller :=
  match c.rolls.job, c.rolls.splice with
  | .preparing, some rec_ | .stopping, some rec_ | .splicing, some rec_ =>
    if c.spliceTimeout ≤ c.age rec_.tick then
      Controller.moveJob { c.hand .s .spliceCancel with rolls := { (c.hand .s .spliceCancel).rolls with
        cancelStart := c.mot.tick } } .cancelWait
    else c
  | _, _ => c

/-- The cancel wait's reply timeout (R102). -/
def Controller.cancelWaitTest (c : Controller) : Controller :=
  if c.rolls.job == .cancelWait && decide (c.replyTimeout ≤ c.age c.rolls.cancelStart) then
    (c.raise .rollSpliceFault (Detail.named .cancel)).moveJob .fault
  else c

/-- RETRY_WAIT ends at a dwell tick (R103). -/
def Controller.retryWaitTest (c : Controller) : Controller :=
  if c.rolls.job = .retryWait then
    if c.idleLoaded then c.enterPending
    else if c.rollIsLow then c.enterLow
    else c.enterNormal
  else c

/-- UNIT_STATE WEB_LOST's effect beside the report (R92). A SPLICE_CANCEL is handed to channel S before the UNWIND_MODE
that the job's move sends (log 32). -/
def Controller.webLost (c : Controller) : Controller :=
  match c.runningRoll with
  | none => c
  | some _ =>
    let job := c.rolls.job
    let c := c.expireRunning.raise .rollRunout (Detail.named .webLost)
    let c :=
      match job with
      | .preparing | .stopping | .splicing =>
        (c.hand .s .spliceCancel).raise .rollSpliceFault (Detail.named .webLost)
      | .cancelWait => c.raise .rollSpliceFault (Detail.named .webLost)
      | _ => c
    c.moveJob .noRoll

/-! ### The accumulator fill -/

/-- Whether a pulse is clamped (R50): UNW at ACC_CAP, FEED at 0. -/
def Controller.fillClamped (c : Controller) (up : Bool) : Bool :=
  if up then decide (c.accCap ≤ c.rolls.fill) else decide (c.rolls.fill = 0)

/-- The ACC_GUARD hold cause at a change of fill (R95). -/
def Controller.guardTest (c : Controller) : Controller :=
  if c.rolls.fill ≤ c.accGuard then c.addHold .accGuard
  else if c.accLow ≤ c.rolls.fill then c.removeHold .accGuard
  else c

/-- A change of fill at the roll manager: hysteresis, modes, guard (R50, R93, R95). -/
def Controller.fillChanged (c : Controller) : Controller :=
  (Controller.deriveUnwind { c with rolls := { c.rolls with hyst := c.hysteresis } }).guardTest

/-- A pulse's effect on the fill: `up` for UNW, down for FEED (R50). -/
def Controller.fillPulse (c : Controller) (up : Bool) : Controller :=
  if c.fillClamped up then
    if c.rolls.rangeMark then c
    else
      Controller.raise { c with rolls := { c.rolls with rangeMark := true } } .rollAccRange
        (Detail.named (if up then .full else .empty))
  else
    let atBound := decide (c.rolls.fill = 0) || decide (c.rolls.fill = c.accCap)
    Controller.fillChanged
      { c with rolls := { c.rolls with
        fill := if up then c.rolls.fill + 1 else c.rolls.fill - 1
        rangeMark := c.rolls.rangeMark && !atBound } }

/-! ### Unwind hold re-send -/

/-- The ACTIVE spindle is commanded STOP, or no roll is RUNNING (R94). -/
def Controller.unwindHeld (c : Controller) : Bool :=
  match c.activeSpindle with
  | some sp => (c.spindle sp).mode == some .stop
  | none => true

/-- The unwind stands at its slip origin + HOLD_SLIP under a STOP, the mark clear (R94). -/
def Controller.unwindSlipped (c : Controller) : Bool :=
  c.unwindHeld && !c.rolls.suspended && decide (c.unwAt = c.rolls.origin + c.holdSlip)

/-- UNWIND_MODE STOP to the ACTIVE spindle, or to both when no roll is RUNNING (R94), spindle A first (log 33). -/
def Controller.sendStops (c : Controller) : Controller :=
  match c.activeSpindle with
  | some sp => c.hand .s (.unwindMode sp .stop)
  | none => (c.hand .s (.unwindMode .a .stop)).hand .s (.unwindMode .b .stop)

/-- UNWIND_MODE STOP sent again while the count is below RESEND_LIMIT (R94). -/
def Controller.unwindResend (c : Controller) : Controller :=
  if c.unwindSlipped && decide (c.rolls.resend < c.resendLimit) then
    let d := c.sendStops
    { d with rolls := { d.rolls with resend := d.rolls.resend + 1, origin := d.unwAt } }
  else c

/-- The limit reached (R94): in a stop of a splice the splice gives up; otherwise an unwind motion fault. In STOPPING and
SPLICING the SPLICE_CANCEL is handed to channel S before an UNWIND_MODE that the move to FAULT derives (log 40). -/
def Controller.unwindResendFault (c : Controller) : Controller :=
  if c.unwindSlipped && !decide (c.rolls.resend < c.resendLimit) then
    let d := { c with rolls := { c.rolls with suspended := true } }
    match c.rolls.job with
    | .stopping | .splicing =>
      (((d.raise .rollSpliceFault (Detail.named .unwind)).hand .s .spliceCancel)).moveJob .fault
    | .cancelWait => (d.raise .rollSpliceFault (Detail.named .unwind)).moveJob .fault
    | _ => d.unwindFault
  else c

/-- The slip test of a UNW pulse (R94). -/
def Controller.unwindSlipTest (c : Controller) : Controller :=
  if c.rolls.resend < c.resendLimit then c.unwindResend else c.unwindResendFault

end Sys2Proof.Machine
end

