-- ==== Sys2Proof/Machine/Cutting.lean ====
section
/-! DEFINITION. Cut control's shared operations (08) and the chamber bus arbiter (7.6). -/

namespace Sys2Proof.Machine

/-! ### The cut queue -/

/-- The effects of a cut that is refused, faulted or unanswered on the panel (R162, R166, R167): CUT_FAULT is added, the
notice raised with the reason or fault code, and for a TAIL the panel moves to CUT. -/
def Controller.failCut (c : Controller) (id number : Nat) (kind : CutKind) (reason : Byte) : Controller :=
  let c := (c.addCause id .cutFault).raise .panelCutFault ⟨BitVec.ofNat 16 number, reason⟩
  match kind with
  | .lead => c
  | .tail => c.updatePanel id (fun p => if p.state = .cutting then p.inState .cut else p)

/-- A cutter crossing's entry, or the cut refused when the queue holds 8 (R159, R161, R162). A refused TAIL leaves the
panel's LEAD entry where it waits, and that entry is sent in its turn (log 35). -/
def Controller.queueCut (c : Controller) (p : Panel) (kind : CutKind) (due : Nat) : Controller :=
  if c.cut.queue.length < 8 then
    { c with cut := { c.cut with queue := c.cut.queue ++ [⟨p.id, p.number, kind, due⟩] } }
  else c.failCut p.id p.number kind NamedDetail.queueFull.code

/-- The tail crossing of a CUTTING panel makes its TAIL entry (R161). -/
def Controller.takeTailCut (c : Controller) (id : Nat) : Controller :=
  match c.panelById id with
  | none => c
  | some p =>
    let c := c.updatePanel id (fun q => q.mapCrossed (fun x => { x with heldTail := false }))
    c.queueCut p .tail (p.bTail.getD 0 + c.cutDist)

/-- The lead crossing of a COOLING panel (R159): CUTTING, its marks clear, the LEAD entry; then a held tail crossing
(R161). -/
def Controller.takeLeadCut (c : Controller) (id : Nat) : Controller :=
  match c.panelById id with
  | none => c
  | some p =>
    let c := c.updatePanel id (fun q =>
      { q.mapCrossed (fun x => { x with heldLead := false }) with
        state := .cutting
        marks := q.marks.or (some ⟨false, false, false⟩) })
    let c := c.queueCut p .lead (p.bLead.getD 0 + c.cutDist)
    if p.crossed.heldTail then c.takeTailCut id else c

/-- A panel's lead has reached the cutter, and the crossing has not been taken (R49, R159). -/
def Controller.leadAtCutter (c : Controller) (p : Panel) : Bool :=
  !p.crossed.lead &&
    match p.bLead with
    | some b => decide (b + c.cutDist ≤ c.convAt)
    | none => false

/-- The lead cutter crossing: taken when COOLING, held when SETTING (R159, R160). -/
def Controller.leadCrossing (c : Controller) (id : Nat) : Controller :=
  match c.panelById id with
  | none => c
  | some p =>
    if c.leadAtCutter p then
      let c := c.updatePanel id (fun q => q.mapCrossed (fun x => { x with lead := true }))
      match p.state with
      | .cooling => c.takeLeadCut id
      | .setting => c.updatePanel id (fun q => q.mapCrossed (fun x => { x with heldLead := true }))
      | _ => c
    else c

/-- A panel's tail has reached the cutter, and the crossing has not been taken (R49, R161). -/
def Controller.tailAtCutter (c : Controller) (p : Panel) : Bool :=
  !p.crossed.tailCut &&
    match p.bTail with
    | some b => decide (b + c.cutDist ≤ c.convAt)
    | none => false

/-- The tail cutter crossing: taken when CUTTING, held when COOLING (R161). -/
def Controller.tailCrossing (c : Controller) (id : Nat) : Controller :=
  match c.panelById id with
  | none => c
  | some p =>
    if c.tailAtCutter p then
      let c := c.updatePanel id (fun q => q.mapCrossed (fun x => { x with tailCut := true }))
      match p.state with
      | .cutting => c.takeTailCut id
      | .cooling => c.updatePanel id (fun q => q.mapCrossed (fun x => { x with heldTail := true }))
      | _ => c
    else c

/-! ### Sending a cut -/

/-- The cut is late: C is above its due coordinate + CUT_TOL (R163). -/
def Controller.cutIsLate (c : Controller) (e : CutEntry) : Bool := decide (e.due + c.cutTol < c.convAt)

/-- The lateness step (R163 step 2). -/
def Controller.cutLateStep (c : Controller) (e : CutEntry) : Controller :=
  if c.cutIsLate e then (c.addCause e.panel .cutLate).raise .panelCutLate (Detail.num e.number) else c

/-- The route (R163 steps 3 and 4): GOOD for a LEAD cut of a GOOD panel, SCRAP otherwise. -/
def Controller.cutRoute (c : Controller) (e : CutEntry) : CutRoute :=
  match e.kind, c.panelById e.panel with
  | .lead, some p => if p.verdict = .good then .good else .scrap
  | _, _ => .scrap

/-- The lead cut sent mark (R163 step 3). -/
def Controller.markSent (c : Controller) (e : CutEntry) : Controller :=
  match e.kind with
  | .lead => c.updatePanel e.panel (fun p => p.mapMarks (fun m => { m with sent := true }))
  | .tail => c

/-! ### The arbiter -/

/-- Starts a transaction: its kind, drop, start tick and setpoint are recorded, and its command handed to channel Z
(R151). -/
def Controller.beginTxn (c : Controller) (kind : TxnKind) (drop sent : Nat) (item : TxItem) : Controller :=
  Controller.handBus { c with cham := { c.cham with txn := some ⟨kind, drop, c.mot.tick, sent⟩ } } item

/-- Starts the cut transaction of entry `e`, the oldest (R154, R163). -/
def Controller.startCut (c : Controller) (e : CutEntry) : Controller :=
  let c := { c with cut := { c.cut with queue := c.cut.queue.tail } }
  let c := c.cutLateStep e
  let route := c.cutRoute e
  let c := c.markSent e
  let c := { c with cut := { c.cut with now := some ⟨e.panel, e.number, e.kind⟩ } }
  c.beginTxn .cut 7 0 (.cut e.number e.kind route)

/-- The lowest-numbered enabled zone with a SET pending (R151). -/
def Controller.zoneToSet (c : Controller) : Option Nat := zoneNumbers.find? (fun i =>
  (c.zone i).enabled && (c.zone i).setPending)

/-- The next enabled zone after the last zone polled, counting on from 1 (R151). -/
def Controller.zoneToPoll (c : Controller) : Option Nat :=
  (zoneNumbers.map (fun k => (c.cham.lastPolled + k - 1) % 6 + 1)).find? (fun i => (c.zone i).enabled)

/-- What the arbiter starts next (R151). -/
inductive BusWork where
  | cut (e : CutEntry)
  | set (zone : Nat)
  | poll (zone : Nat)
  | none
  deriving DecidableEq, Repr

def Controller.busWork (c : Controller) : BusWork :=
  match c.cut.queue with
  | e :: _ => .cut e
  | [] =>
    match c.zoneToSet with
    | some i => .set i
    | none =>
      match c.zoneToPoll with
      | some i => .poll i
      | none => .none

def Controller.startSet (c : Controller) (i : Nat) : Controller :=
  c.beginTxn .set i (c.zone i).wanted (.zoneSet i (c.zone i).wanted)

def Controller.startPoll (c : Controller) (i : Nat) : Controller :=
  Controller.beginTxn { c with cham := { c.cham with lastPolled := i } } .poll i 0 (.zonePoll i)

/-- Starts the next transaction (R151). -/
def Controller.startNext (c : Controller) : Controller :=
  match c.busWork with
  | .cut e => c.startCut e
  | .set i => c.startSet i
  | .poll i => c.startPoll i
  | .none => c

/-- The transaction ends, and the next starts in the same event (R151). -/
def Controller.endTxn (c : Controller) : Controller :=
  Controller.startNext { c with cham := { c.cham with txn := none } }

/-- A cut transaction that ends unanswered, for a reason (R167). -/
def Controller.cutUnanswered (c : Controller) (reason : NamedDetail) : Controller :=
  match c.cut.now with
  | none => c
  | some k => Controller.failCut { c with cut := { c.cut with now := none } } k.panel k.number k.kind reason.code

/-- The transaction ends without a taken reply: by timeout or by a protocol error (R155, R156). -/
def Controller.failTxn (c : Controller) (reason : NamedDetail) : Controller :=
  match c.cham.txn with
  | none => c
  | some t => if t.kind = .cut then (c.cutUnanswered reason).endTxn else c.endTxn

/-- A protocol error the arbiter itself finds: LINK.PROTOCOL, Z (R156). -/
def Controller.busProtocol (c : Controller) : Controller :=
  (c.raise .linkProtocol (Detail.named .z)).failTxn .protocol

/-- The reply timeout's test (R155). The timeout of a silent drop raises no LINK notice (log 42). -/
def Controller.replyTest (c : Controller) : Controller :=
  match c.cham.txn with
  | some t => if c.replyTimeout ≤ c.age t.start then c.failTxn .timeout else c
  | none => c

/-! ### Replies -/

/-- The state a good report gives a zone (R138). -/
def reportState (z : Zone) (band temperature : Nat) (fault : Bool) : ZoneState :=
  if fault then .fault
  else
    match z.kind with
    | .off => .off
    | .bank => .banked
    | .run =>
      match z.commanded with
      | some sp =>
        if z.setPending = false ∧ temperature ≤ sp + band ∧ sp ≤ temperature + band then .inBand
        else if z.state = .inBand ∨ z.state = .outOfBand then .outOfBand
        else .heating
      | none => if z.state = .inBand ∨ z.state = .outOfBand then .outOfBand else .heating

/-- The band of the active class (R137). -/
def Controller.activeBand (c : Controller) : Nat :=
  match c.heatClass c.activeClass with
  | some h => h.band
  | none => 0

/-- A good report of zone `i` (R138): the reported values, the age, the state and the notice on entering it. -/
def Controller.zoneReport (c : Controller) (i temperature valve : Nat) (fault : Bool) : Controller :=
  let z := c.zone i
  let st := reportState z c.activeBand temperature fault
  let c := c.updateZone i (fun x => { x with last := some (temperature, valve), origin := c.mot.tick, state := st })
  if st = z.state then c
  else
    match st with
    | .fault => c.raise .steamZoneFault (Detail.num i)
    | .outOfBand => c.raise .steamExcursion (Detail.num i)
    | _ => c

/-- ZONE_REPORT from the addressed drop (R138, R144, R152, R156). -/
def Controller.takeZoneReport (c : Controller) (temperature valve : Nat) (fault : Bool) : Controller :=
  match c.cham.txn with
  | none => c
  | some t =>
    if t.kind = .poll ∧ valve ≤ 100 then (c.zoneReport t.drop temperature valve fault).completionTest.endTxn
    else c.busProtocol

/-- SET_ACK from the addressed drop (R153, R156). -/
def Controller.takeSetAck (c : Controller) (setpoint : Nat) : Controller :=
  match c.cham.txn with
  | none => c
  | some t =>
    if t.kind = .set ∧ setpoint = t.sent then
      (c.updateZone t.drop (fun z => { z with commanded := some setpoint })).endTxn
    else c.busProtocol

/-- A cutter answer: checked against the cut in progress, then its effect, then the end of the transaction (R165). -/
def Controller.takeCutAnswer (c : Controller) (panel : Nat) (kind : CutKind) (effect : Controller → CutNow → Controller) :
    Controller :=
  match c.cham.txn, c.cut.now with
  | some t, some k =>
    if t.kind = .cut ∧ panel = k.number ∧ kind = k.kind then
      (effect { c with cut := { c.cut with now := none } } k).endTxn
    else c.busProtocol
  | some _, none => c.busProtocol
  | none, _ => c

/-- CUT_DONE's effect (R166). -/
def Controller.cutDoneEffect (c : Controller) (k : CutNow) : Controller :=
  match k.kind with
  | .lead => c.updatePanel k.panel (fun p => p.mapMarks (fun m => { m with leadDone := true }))
  | .tail =>
    (c.updatePanel k.panel (fun p =>
      let q := p.mapMarks (fun m => { m with tailDone := true })
      if q.state = .cutting then q.inState .cut else q)).raise .panelCutDone (Detail.num k.number)

/-- CUT_FAULT's effect (R166, R204). -/
def Controller.cutFaultEffect (code : Byte) (c : Controller) (k : CutNow) : Controller :=
  c.failCut k.panel k.number k.kind (sharedCode code)

end Sys2Proof.Machine
end

