-- ==== Sys2Proof/Machine/Passage.lean ====
section
/-! DEFINITION. A panel's passage: chamber entry and exit (R148, R150), dose (R149), and the head crossings with the
thresholds they establish (R112, R113, R46). -/

namespace Sys2Proof.Machine

/-! ### Chamber entry and exit -/

def Controller.leadAtEntry (c : Controller) (p : Panel) : Bool :=
  !p.crossed.entry &&
    match p.bLead with
    | some b => decide (b + c.entryDist ≤ c.convAt)
    | none => false

/-- Chamber entry (R148). -/
def Controller.chamberEntry (c : Controller) (id : Nat) : Controller :=
  match c.panelById id with
  | none => c
  | some p =>
    if c.leadAtEntry p then
      let c := c.updatePanel id (fun q => q.mapCrossed (fun x => { x with entry := true }))
      let set := fun (q : Panel) => { q with state := .setting, dose := q.dose.or (some 0) }
      match p.state with
      | .pleating =>
        let d := c.updatePanel id set
        if c.inWindow id || decide (0 < p.strokesLeft) then d.addCause id .strokeFault else d
      | .conveyed => c.updatePanel id set
      | _ => c
    else c

def Controller.tailAtExit (c : Controller) (p : Panel) : Bool :=
  !p.crossed.exit &&
    match p.bTail with
    | some b => decide (b + c.exitDist ≤ c.convAt)
    | none => false

/-- Chamber exit (R150): COOLING, the verdict (R18), a held lead crossing (R160); then the exit at the line controller,
the motion unit and the changeover (log 16). -/
def Controller.chamberExit (c : Controller) (id : Nat) : Controller :=
  match c.panelById id with
  | none => c
  | some p =>
    if c.tailAtExit p then
      let c := c.updatePanel id (fun q => q.mapCrossed (fun x => { x with exit := true }))
      if p.state = .setting then
        let c := (c.updatePanel id (fun q => q.inState .cooling)).decideVerdict id
        let c := if p.crossed.heldLead then c.takeLeadCut id else c
        c.gate.coordHold.drainTest
      else c
    else c

/-! ### Dose -/

/-- The panel overlaps at least one zone, and every zone it overlaps is IN_BAND (R149). -/
def Controller.gathersDose (c : Controller) (p : Panel) : Bool :=
  let zones := zoneNumbers.filter (fun i => decide (i ≤ c.zoneCount) && c.inZone p i)
  !zones.isEmpty && zones.all (fun i => (c.zone i).state == .inBand)

/-- One tick of dose for a SETTING panel; OVERSET at the tick that brings it above dose max (R149). -/
def Controller.dosePanel (c : Controller) (p : Panel) : Controller :=
  match p.state, p.dose, p.placed with
  | .setting, some d, some q =>
    if c.gathersDose p && decide (d < counterCeiling) then
      let c := c.updatePanel p.id (fun x => { x with dose := some (d + 1) })
      if d ≤ q.doseMax ∧ q.doseMax < d + 1 then c.addCause p.id .overset else c
    else c
  | _, _, _ => c

def Controller.doseTick (c : Controller) : Controller := c.rosterPanels.foldl Controller.dosePanel c

/-! ### Head crossings -/

/-- The track B crossings of one panel, taken as soon as they are established or reached (R46, R49). -/
def Controller.trackBCrossings (c : Controller) (id : Nat) : Controller :=
  (((c.chamberEntry id).chamberExit id).leadCrossing id).tailCrossing id

def Controller.leadAtHead (c : Controller) (p : Panel) : Bool :=
  !p.crossed.head &&
    match p.placed with
    | some q => decide (q.leadA + c.headDist ≤ c.feedAt)
    | none => false

/-- The head arrival of a panel's lead (R112), with the latched C (R48). -/
def Controller.headArrival (c : Controller) (id : Nat) : Controller :=
  match c.panelById id with
  | none => c
  | some p =>
    if c.leadAtHead p then
      let c := c.updatePanel id (fun q => q.mapCrossed (fun x => { x with head := true }))
      if p.state = .feeding then
        (c.updatePanel id (fun q => (q.inState .pleating).writeBLead c.convAt)).trackBCrossings id
      else c
    else c

/-- The tail passage's threshold (R47). -/
def Controller.tailThreshold (c : Controller) (p : Panel) : Option Nat :=
  p.placed.map (fun q => q.leadA + p.flatLength + c.headDist)

def Controller.tailAtHead (c : Controller) (p : Panel) : Bool :=
  !p.crossed.tail &&
    match c.tailThreshold p with
    | some x => decide (x ≤ c.feedAt)
    | none => false

/-- Step 1 of R113: the due crossing of a stroke that is due at the tail passage threshold. -/
def Controller.lastStroke (c : Controller) (p : Panel) : Controller :=
  match c.seq.cursor with
  | none => c
  | some k =>
    if k.panel = p.id ∧ some k.due = c.tailThreshold p ∧ k.waiting = false then c.strokeCrossing.getD c else c

/-- Step 2 of R113: every stroke left is counted missed, with one cause and one notice, and the cursor leaves. -/
def Controller.missRest (c : Controller) (id : Nat) : Controller :=
  match c.panelById id with
  | none => c
  | some p =>
    if p.strokesLeft = 0 then c.leavePanel id
    else
      let c := (c.countOn id (fun q => { q with missed := q.missed + p.strokesLeft })).addCause id .strokeFault
      (c.raise .pleatStrokeMissed (Detail.num p.number)).leavePanel id

/-- The tail passage of a panel at the head (R113), with the latched C (R48). -/
def Controller.tailPassage (c : Controller) (id : Nat) : Controller :=
  match c.panelById id with
  | none => c
  | some p =>
    if c.tailAtHead p then
      let c := c.updatePanel id (fun q => q.mapCrossed (fun x => { x with tail := true }))
      let c := (c.lastStroke p).missRest id
      let c := (c.updatePanel id (fun q => q.writeBTail c.convAt)).conveyedTest id
      c.trackBCrossings id
    else c

end Sys2Proof.Machine
end

