-- ==== Sys2Proof/Machine/Motion.lean ====
section
/-! DEFINITION. Count pulses (R43 to R46), dwell ticks (R54), stall flags (R45) and the coordinate limit (R55), with the
work they hand to the blocks. -/

namespace Sys2Proof.Machine

/-- A list without its later repeats. -/
def firstsOnly {α : Type} [DecidableEq α] : List α → List α
  | [] => []
  | x :: rest => x :: (firstsOnly rest).filter (fun y => y != x)

/-- A schedule: the order asked for, as far as it names work there is, then the work it leaves out (log 3). -/
def schedule {α : Type} [DecidableEq α] (asked work : List α) : List α :=
  let named := firstsOnly (asked.filter (fun t => work.contains t))
  named ++ work.filter (fun t => !named.contains t)

/-! ### Pulses -/

/-- The work a pulse hands on, by input (R43), in the default order. -/
def pulseWork : CountInput → List PulseTask
  | .unw => [.limit, .length, .fill, .slip, .clearance]
  | .feed => [.limit, .fill, .clearance, .seams, .slip, .gate, .head]
  | .conv => [.limit, .chamber, .cutter]

/-- The tasks that may read U: the clearance test, and the tests that may move the job to PENDING, where the clearance is
tested at once (R51, R98). -/
def readsU : PulseTask → Bool
  | .length | .clearance | .seams => true
  | _ => false

/-- A pulse's work with the fill taken before any task that reads U: the pulse changes F and the fill together, and U is
computed from both as they then stand (R51). The other tasks keep their order. -/
def fillFirst (work : List PulseTask) : List PulseTask :=
  if work.contains .fill then
    let front := work.takeWhile (fun t => t != .fill && !readsU t)
    front ++ .fill :: (work.drop front.length).filter (fun t => t != .fill)
  else work

/-- The limit mark at a coordinate of 4,000,000,000, and the COORD_LIMIT hold it may bring at once (R55). -/
def Controller.limitTest (c : Controller) (i : CountInput) : Controller :=
  if !c.mot.limit && decide ((c.mot.counter i).coord = coordinateLimit) then
    (Controller.raise { c with mot := { c.mot with limit := true } } .lineCoordLimit
      (Detail.named (inputDetail i))).coordHold
  else c

/-- Runs an operation over the roster's panels, oldest first. -/
def Controller.overRoster (c : Controller) (f : Controller → Nat → Controller) : Controller := c.tab.roster.foldl f c

/-- The cutter crossings of one panel, its lead before its tail. Taken panel by panel from the oldest, they make the
entries in the order of their due coordinates (R158, R161). -/
def Controller.cutterCrossings (c : Controller) (id : Nat) : Controller := (c.leadCrossing id).tailCrossing id

/-- One piece of a pulse's work. -/
def Controller.pulseTask (i : CountInput) (c : Controller) (t : PulseTask) : Controller :=
  match t with
  | .limit => c.limitTest i
  | .length => c.lengthPulse
  | .fill => c.fillPulse (i == .unw)
  | .clearance => c.clearanceTest
  | .slip => if i = .unw then c.unwindSlipTest else c.feedSlipTest
  | .seams => c.settleSeams
  | .gate => c.gate
  | .head => (c.settleStrokes.overRoster Controller.headArrival).overRoster Controller.tailPassage
  | .chamber => (c.overRoster Controller.chamberEntry).overRoster Controller.chamberExit
  | .cutter => c.overRoster Controller.cutterCrossings

/-- The pulse at its own input: coordinate, interval counter, stall flag (R43, R44). -/
def Counter.pulse (k : Counter) : Counter := ⟨if k.coord < countCeiling then k.coord + 1 else k.coord, 0, false⟩

/-- A counted pulse (R43): the coordinate, the counter, the flag with its report (R45), then the blocks' work. The report of
the feed stall flag's clearing, which tests the bank condition, comes before all of that work and outside the order operand
(log 37). In CONFIG pulses are not counted. -/
def Controller.countPulse (c : Controller) (i : CountInput) (order : List PulseTask) : Controller :=
  if c.commissioned then
    c.event (fun c =>
      let c := { c with mot := c.mot.setCounter i (c.mot.counter i).pulse }
      let c := if i = .feed then c.bankTest else c
      (fillFirst (schedule order (pulseWork i))).foldl (Controller.pulseTask i) c)
  else c

/-! ### Stall -/

/-- The stall flag set, with its report: FEED to the line controller and the chamber controller, UNW to the roll manager
(R45, R99). -/
def Controller.setStall (c : Controller) (i : CountInput) : Controller :=
  let c := { c with mot := c.mot.setCounter i { c.mot.counter i with stall := true } }
  match i with
  | .unw => c.goTest
  | .feed => (if c.line.state = .running then c.raise .lineStall (Detail.named .feed) else c).bankTest
  | .conv => c

/-- The flag is set at the tick at which the interval counter becomes equal to STALL_LIMIT (R44). -/
def Controller.stallTest (c : Controller) (i : CountInput) : Controller :=
  if !(c.mot.counter i).stall && decide ((c.mot.counter i).interval = c.stallLimit) then c.setStall i else c

/-! ### Ticks -/

/-- The work a tick hands on (R54), in the default order. -/
def tickWork : List TickTask := [.intervals, .ack, .splice, .stale, .bank, .reply, .dose]

/-- A tick at an interval counter (R44). -/
def Counter.tick (k : Counter) : Counter :=
  { k with interval := if k.interval < counterCeiling then k.interval + 1 else k.interval }

def Controller.intervalTick (c : Controller) (i : CountInput) : Controller :=
  Controller.stallTest { c with mot := c.mot.setCounter i (c.mot.counter i).tick } i

/-- An enabled zone whose report age exceeds STALE_LIMIT becomes STALE (R139). -/
def Controller.staleTest (c : Controller) (i : Nat) : Controller :=
  if (c.zone i).enabled && (c.zone i).state != .stale && decide (c.staleLimit < c.age (c.zone i).origin) then
    (c.updateZone i (fun z => { z with state := .stale })).raise .steamStale (Detail.num i)
  else c

/-- One piece of a tick's work. -/
def Controller.tickTask (c : Controller) (t : TickTask) : Controller :=
  match t with
  | .intervals => ((c.intervalTick .unw).intervalTick .feed).intervalTick .conv
  | .ack => if c.seq.mode = .stepping then c.ackTimeoutTest else c.attemptTest
  | .splice => c.retryWaitTest.cancelWaitTest.spliceTimeoutTest
  | .stale => zoneNumbers.foldl Controller.staleTest c
  | .bank => c.bankDue
  | .reply => c.replyTest
  | .dose => c.doseTick

/-- A dwell tick (R54): the tick number always advances; in CONFIG no block takes the tick (R196). -/
def Controller.dwellTick (c : Controller) (order : List TickTask) : Controller :=
  let d := { c with mot := { c.mot with tick := c.mot.tick + 1#32 } }
  if c.commissioned then d.event (fun c => (schedule order tickWork).foldl Controller.tickTask c) else d

end Sys2Proof.Machine
end

