-- ==== Sys2Proof/Machine/Inputs.lean ====
section
/-! DEFINITION. The edge inputs (R52, R53) and the telegrams of the feed drive and the splice unit (R64, R92). -/

namespace Sys2Proof.Machine

/-- The SEAM level after a qualifying edge (R52). -/
def Controller.seamEdgeLevel (c : Controller) : Bool :=
  if c.seamEdgeSel = 0 then false else if c.seamEdgeSel = 1 then true else !c.mot.seamHigh

/-- A qualifying seam edge: the level, and while commissioned the seam (R52, R107, R108). -/
def Controller.seamEdge (c : Controller) : Controller :=
  let d := { c with mot := { c.mot with seamHigh := c.seamEdgeLevel } }
  if c.commissioned then d.event Controller.takeSeamEdge else d

/-- A change of level that SEAM_EDGE does not select (R52); with BOTH there is none. -/
def Controller.seamLevelChange (c : Controller) : Controller :=
  if c.seamEdgeSel = 0 then { c with mot := { c.mot with seamHigh := true } }
  else if c.seamEdgeSel = 1 then { c with mot := { c.mot with seamHigh := false } }
  else c

/-- The chain-open edge: the level, and while commissioned a halt event CHAIN (R53, R65). -/
def Controller.chainOpens (c : Controller) : Controller :=
  let d := { c with mot := { c.mot with haltHigh := c.haltEdgeSel == 1 } }
  if c.commissioned then d.event (fun e => e.halt .chain) else d

/-- The opposite edge: the chain is CLOSED; no block is handed an event (R53). -/
def Controller.chainCloses (c : Controller) : Controller :=
  { c with mot := { c.mot with haltHigh := c.haltEdgeSel != 1 } }

/-- DRIVE_STATE (R64). -/
def Controller.takeDriveState (c : Controller) (m : DriveMotion) : Controller :=
  let d := { c with line := { c.line with report := some m } }
  match m with
  | .fault =>
    let d := if c.line.report = some .fault then d else d.raise .lineDriveFault (Detail.named .f)
    d.halt .drive
  | _ => d

/-- UNIT_STATE (R92). -/
def Controller.takeUnitState (c : Controller) (x : UnitCondition) : Controller :=
  let d := { c with rolls := { c.rolls with report := some x } }
  match x with
  | .webLost => d.webLost
  | _ => d

/-- HEAD_BUSY (R130). -/
def Controller.takeHeadBusy (c : Controller) : Controller :=
  let number :=
    match c.seq.cursor with
    | some k => c.numberOf k.panel
    | none => 0
  Controller.raise { c with seq := { c.seq with head := .busy } } .pleatHeadBusy (Detail.num number)

/-! ### Telegrams as their owners take them -/

/-- A telegram received whole and correct (R175), by channel. -/
inductive RxTelegram where
  | driveState (m : DriveMotion)
  | prepared
  | spliceDone
  | spliceFail (cause : Byte)
  | spliceCancelled (web : Spindle)
  | unitState (x : UnitCondition)
  | strokeDone (seq : Byte)
  | strokeFault (seq cause : Byte)
  | headBusy
  | headReady
  | resyncDone (next : Byte)
  | headQuery
  | zoneReport (temperature : Word16) (valve : Byte) (fault : Bool)
  | setAck (setpoint : Word16)
  | cutDone (panel : Word16) (kind : CutKind)
  | cutFault (panel : Word16) (kind : CutKind) (code : Byte)
  deriving DecidableEq, Repr

/-- The channel a telegram arrives on (9.6). -/
def RxTelegram.channel : RxTelegram → Channel
  | .driveState _ => .f
  | .prepared | .spliceDone | .spliceFail _ | .spliceCancelled _ | .unitState _ => .s
  | .strokeDone _ | .strokeFault _ _ | .headBusy | .headReady | .resyncDone _ | .headQuery => .p
  | .zoneReport _ _ _ | .setAck _ | .cutDone _ _ | .cutFault _ _ _ => .z

/-- What the owning block does with a telegram. -/
def Controller.takeTelegram (c : Controller) : RxTelegram → Controller
  | .driveState m => c.takeDriveState m
  | .prepared => c.takePrepared
  | .spliceDone => c.takeSpliceDone
  | .spliceFail cause => c.takeSpliceFail cause
  | .spliceCancelled web => c.takeSpliceCancelled web
  | .unitState x => c.takeUnitState x
  | .strokeDone seq => c.resumeAnyStep.acknowledge seq Controller.doneEntry
  | .strokeFault seq cause => c.resumeAnyStep.acknowledge seq (Controller.faultedEntry cause)
  | .headBusy => c.takeHeadBusy
  | .headReady => c.headReady
  | .resyncDone next => c.resumeAnyStep.resyncDone next
  | .headQuery => c.resumeAnyStep.hand .p c.resumeAnyStep.headInfo
  | .zoneReport temperature valve fault => c.takeZoneReport temperature.toNat valve.toNat fault
  | .setAck setpoint => c.takeSetAck setpoint.toNat
  | .cutDone panel kind => c.takeCutAnswer panel.toNat kind Controller.cutDoneEffect
  | .cutFault panel kind code => c.takeCutAnswer panel.toNat kind (Controller.cutFaultEffect code)

/-- A telegram handed to its owner; a disabled channel hands nothing (R169, log 27). -/
def Controller.deliver (c : Controller) (t : RxTelegram) : Controller :=
  if c.hears t.channel then c.event (fun d => d.takeTelegram t) else c

end Sys2Proof.Machine
end

