-- ==== Sys2Proof/Machine/Receive.lean ====
section
/-! DEFINITION. Receiving on the station links (9.3): the assembly, its errors, the five checks, and the telegrams that
pass them. -/

namespace Sys2Proof.Machine

/-- The count of each incoming code by channel (12.1); none where the station may not send the code. -/
def rxCount : Channel → Nat → Option Nat
  | .f, 0x18 => some 3
  | .s, 0x28 => some 2
  | .s, 0x29 => some 2
  | .s, 0x2A => some 3
  | .s, 0x2B => some 3
  | .s, 0x2C => some 3
  | .p, 0x38 => some 3
  | .p, 0x39 => some 4
  | .p, 0x3A => some 2
  | .p, 0x3B => some 2
  | .p, 0x3C => some 3
  | .p, 0x3D => some 2
  | .z, 0x48 => some 6
  | .z, 0x49 => some 4
  | .z, 0x4A => some 5
  | .z, 0x4B => some 6
  | _, _ => none

/-- Reads the fields of a telegram whose code and count are right; none when an enumerated field holds no defined value
(R175 step 5). -/
def rxTelegram : Channel → Nat → List Byte → Option RxTelegram
  | .f, 0x18, f => (driveMotionOf (byteAt f 0).toNat).map .driveState
  | .s, 0x28, _ => some .prepared
  | .s, 0x29, _ => some .spliceDone
  | .s, 0x2A, f => some (.spliceFail (byteAt f 0))
  | .s, 0x2B, f => (spindleOf (byteAt f 0).toNat).map .spliceCancelled
  | .s, 0x2C, f => (unitConditionOf (byteAt f 0).toNat).map .unitState
  | .p, 0x38, f => some (.strokeDone (byteAt f 0))
  | .p, 0x39, f => some (.strokeFault (byteAt f 0) (byteAt f 1))
  | .p, 0x3A, _ => some .headBusy
  | .p, 0x3B, _ => some .headReady
  | .p, 0x3C, f => some (.resyncDone (byteAt f 0))
  | .p, 0x3D, _ => some .headQuery
  | .z, 0x48, f =>
    if (byteAt f 3).toNat ≤ 1 then some (.zoneReport (word16At f 0) (byteAt f 2) (byteAt f 3 == 1#8)) else none
  | .z, 0x49, f => some (.setAck (word16At f 0))
  | .z, 0x4A, f => (cutKindOf (byteAt f 2).toNat).map (.cutDone (word16At f 0))
  | .z, 0x4B, f => (cutKindOf (byteAt f 2).toNat).map (fun k => .cutFault (word16At f 0) k (byteAt f 3))
  | _, _, _ => none

/-! ### The characters of an incoming telegram -/

/-- A telegram's code (12.1). -/
def RxTelegram.code : RxTelegram → Nat
  | .driveState _ => 0x18
  | .prepared => 0x28
  | .spliceDone => 0x29
  | .spliceFail _ => 0x2A
  | .spliceCancelled _ => 0x2B
  | .unitState _ => 0x2C
  | .strokeDone _ => 0x38
  | .strokeFault _ _ => 0x39
  | .headBusy => 0x3A
  | .headReady => 0x3B
  | .resyncDone _ => 0x3C
  | .headQuery => 0x3D
  | .zoneReport _ _ _ => 0x48
  | .setAck _ => 0x49
  | .cutDone _ _ => 0x4A
  | .cutFault _ _ _ => 0x4B

/-- A telegram's field bytes (12.1, R202). -/
def RxTelegram.fieldBytes : RxTelegram → List Byte
  | .driveState m => [BitVec.ofNat 8 (driveReportCode (some m))]
  | .spliceFail cause => [cause]
  | .spliceCancelled web => [BitVec.ofNat 8 (spindleCode (some web))]
  | .unitState x => [BitVec.ofNat 8 (unitReportCode (some x))]
  | .strokeDone seq => [seq]
  | .strokeFault seq cause => [seq, cause]
  | .resyncDone next => [next]
  | .zoneReport temperature valve fault => bigEndian 2 temperature.toNat ++ (valve :: boolByte fault)
  | .setAck setpoint => bigEndian 2 setpoint.toNat
  | .cutDone panel kind => bigEndian 2 panel.toNat ++ [BitVec.ofNat 8 (cutKindCode kind)]
  | .cutFault panel kind code => bigEndian 2 panel.toNat ++ [BitVec.ofNat 8 (cutKindCode kind), code]
  | _ => []

/-- The characters of a telegram as the station of an address sends it: address, count, code, fields, check (R171). -/
def RxTelegram.bytes (address : Nat) (t : RxTelegram) : List Byte :=
  let body := BitVec.ofNat 8 (2 + t.fieldBytes.length) :: BitVec.ofNat 8 t.code :: t.fieldBytes
  BitVec.ofNat 8 address :: (body ++ [0#8 - byteSum body])

/-- The address a telegram on a channel must carry (R175 step 2). -/
def Controller.stationAddress (c : Controller) : Channel → Option Nat
  | .f => some c.addrF
  | .s => some c.addrS
  | .p => some c.addrP
  | .z => c.cham.txn.map Txn.drop

/-- Sets a channel's receive assembly. -/
def Controller.setRx (c : Controller) (ch : Channel) (rx : Receiver) : Controller :=
  c.setLink ch { c.link ch with rx := rx }

/-- A LINK.PROTOCOL receive error; on channel Z it is handed to the arbiter (R172, R175, R156). -/
def Controller.linkProtocol (c : Controller) (ch : Channel) : Controller :=
  let c := c.raise .linkProtocol (Detail.named (channelDetail ch))
  if ch = .z then c.failTxn .protocol else c

/-- What the five checks of a complete telegram find (R175). -/
inductive RxResult where
  | badCheck
  | badProtocol
  | good (t : RxTelegram)
  deriving DecidableEq, Repr

/-- The five checks, in order, on the characters address, count, code, fields, check (R175). -/
def Controller.checkTelegram (c : Controller) (ch : Channel) (chars : List Byte) : RxResult :=
  let address := byteAt chars 0
  let count := byteAt chars 1
  let code := byteAt chars 2
  if byteSum chars.tail ≠ 0#8 then .badCheck
  else if c.stationAddress ch ≠ some address.toNat then .badProtocol
  else if rxCount ch code.toNat ≠ some count.toNat then .badProtocol
  else
    match rxTelegram ch code.toNat (fieldAt chars 3 (count.toNat - 2)) with
    | some t => .good t
    | none => .badProtocol

/-- A complete telegram: checked, and handed to the owning block or discarded with its notice (R175). -/
def Controller.completeTelegram (c : Controller) (ch : Channel) (chars : List Byte) : Controller :=
  let d := c.setRx ch .hunting
  match c.checkTelegram ch chars with
  | .badCheck => d.raise .linkCheck (Detail.named (channelDetail ch))
  | .badProtocol => d.linkProtocol ch
  | .good t => d.takeTelegram t

/-- An address character of value 0 to 30 (R172, R173). -/
def Controller.takeAddress (c : Controller) (ch : Channel) (b : Byte) : Controller :=
  let d := c.setRx ch ⟨.count, [b], true, false⟩
  match (c.link ch).rx.phase with
  | .hunting => d
  | _ => d.raise .linkTimeout (Detail.channelNamed ch .cutShort)

/-- A data character (R172). -/
def Controller.takeData (c : Controller) (ch : Channel) (b : Byte) : Controller :=
  let rx := (c.link ch).rx
  match rx.phase with
  | .hunting => c
  | .count =>
    if 2 ≤ b.toNat ∧ b.toNat ≤ 30 then c.setRx ch ⟨.body, rx.held ++ [b], true, false⟩
    else (c.setRx ch .hunting).linkProtocol ch
  | .body =>
    let held := rx.held ++ [b]
    if held.length = (byteAt held 1).toNat + 2 then c.completeTelegram ch held
    else c.setRx ch ⟨.body, held, true, false⟩

/-- A character whose stop bit stands at the start level (R174). -/
def Controller.framingFault (c : Controller) (ch : Channel) : Controller :=
  (c.setRx ch ⟨.hunting, [], false, true⟩).raise .linkFraming (Detail.named (channelDetail ch))

/-- A character on an enabled channel whose receiver does not wait for the idle level (R172, R173, R174). -/
def Controller.receive (c : Controller) (ch : Channel) (x : LinkChar) (stopIdle : Bool) : Controller :=
  if !c.hears ch || (c.link ch).rx.waitIdle then c
  else
    c.event (fun d =>
      let b : Byte := x.setWidth 8
      if !stopIdle then d.framingFault ch
      else if x.getLsbD 8 then
        if b.toNat ≤ 30 then d.takeAddress ch b else (d.setRx ch .hunting).linkProtocol ch
      else d.takeData ch b)

/-- Four character times without a further character (R173). -/
def Controller.characterTimeout (c : Controller) (ch : Channel) : Controller :=
  if c.hears ch && (c.link ch).rx.timer then
    (c.setRx ch .hunting).raise .linkTimeout (Detail.named (channelDetail ch))
  else c

/-- The line has stood at the idle level for a bit time (R174). -/
def Controller.lineIdle (c : Controller) (ch : Channel) : Controller :=
  if (c.link ch).rx.waitIdle then c.setRx ch { (c.link ch).rx with waitIdle := false } else c

/-- The item in transmission on a channel has been sent (R177, R178, R180). -/
def Controller.transmitted (c : Controller) (ch : Channel) : Controller := c.setLink ch (c.link ch).complete

end Sys2Proof.Machine
end

