-- ==== Sys2Proof/Machine/Answers.lean ====
section
/-! DEFINITION. Answers: the read-out records of 12.2 and the fields of the answers that are not records (R203, log 19). -/

namespace Sys2Proof.Machine

/-- What carrying out a request gives the port: an answer code and the bytes of the fields. -/
structure Reply where
  code : AnswerCode
  body : List Byte
  deriving DecidableEq, Repr

def Reply.ok (body : List Byte) : Reply := ⟨.ok, body⟩

/-- A refusal with no field. -/
def Reply.refuse (code : AnswerCode) : Reply := ⟨code, []⟩

/-- BAD_FIELD with its index. -/
def Reply.badField (index : Nat) : Reply := ⟨.badField, field 1 index⟩

/-- A presence byte: bit n for the n-th group of fields (R203). -/
def presence : List Bool → Nat
  | [] => 0
  | b :: rest => (if b then 1 else 0) + 2 * presence rest

/-- A field that may be absent inside a record: zeros when absent (R203). -/
def recordField (w : Nat) (x : Option Nat) : List Byte := field w (x.getD 0)

/-! ### Records -/

/-- The cut marks byte (12.2). -/
def CutMarks.code (m : CutMarks) : Nat :=
  (if m.sent then 1 else 0) + (if m.leadDone then 2 else 0) + (if m.tailDone then 4 else 0)

/-- The panel record, 50 bytes (R21, 12.2). -/
def panelRecord (p : Panel) : List Byte :=
  let q := p.placed
  let part (f : Placed → Nat) : Option Nat := q.map f
  field 2 p.number ++
    field 1 (presence [p.orderTag.isSome, q.isSome, p.bLead.isSome, p.bTail.isSome, p.dose.isSome, p.seamOffset.isSome,
      p.marks.isSome]) ++
    recordField 4 (p.orderTag.map BitVec.toNat) ++ field 1 p.pattern ++ field 2 p.flatLength ++ field 1 p.state.code ++
    field 1 p.verdict.code ++ [p.causes] ++
    recordField 4 (part Placed.leadA) ++ recordField 4 (part Placed.roll) ++ recordField 2 (part Placed.doseMin) ++
    recordField 2 (part Placed.doseMax) ++ recordField 4 p.bLead ++ recordField 4 p.bTail ++ field 2 p.total ++
    recordField 2 (part Placed.issued) ++ recordField 2 (part Placed.done) ++ recordField 2 (part Placed.faulted) ++
    recordField 2 (part Placed.missed) ++ recordField 2 (part Placed.aborted) ++ recordField 2 p.dose ++
    recordField 2 p.seamOffset ++ recordField 1 (p.marks.map CutMarks.code)

/-- The pattern record, 13 bytes (R40, 12.2). -/
def patternRecord (c : Controller) (n : Nat) : List Byte :=
  let p := c.pattern n
  field 1 n ++ field 1 (presence [p.body.isSome, p.sealing.isSome]) ++ field 1 p.state.code ++
    recordField 1 (p.body.map PatternBody.fabric) ++ recordField 1 (p.body.map PatternBody.heat) ++
    recordField 1 (p.body.map (fun b => b.steps.length)) ++ recordField 2 (p.sealing.map Sealing.span) ++
    recordField 2 (p.sealing.map Sealing.strokes) ++ field 1 p.refs ++ field 2 c.poolFree

/-- A taper in two's complement (12.1). -/
def taperByte (t : Int) : Byte := BitVec.ofInt 8 t

/-- A step, 7 bytes (R41, 12.2). -/
def stepRecord (s : Step) : List Byte :=
  field 1 s.kind.code ++ field 2 s.pitch ++ field 2 s.depth ++ field 1 s.times ++ [taperByte s.taper]

/-- The roll record, 21 bytes (R90, 12.2). -/
def rollRecord (r : Roll) : List Byte :=
  field 4 r.id ++ field 1 (presence [r.stub.isSome]) ++ field 1 r.fabric ++ field 4 r.registered ++
    field 4 r.remaining ++ field 1 r.state.code ++ field 1 (spindleCode r.spindle) ++ recordField 4 r.stub ++
    field 1 r.refs

/-- The zone record, 15 bytes (R136, 12.2). -/
def zoneRecord (c : Controller) (i : Nat) : List Byte :=
  let z := c.zone i
  field 1 i ++ field 1 (presence [z.commanded.isSome, z.last.isSome]) ++ boolByte z.enabled ++ field 1 z.kind.code ++
    field 2 z.wanted ++ recordField 2 z.commanded ++ boolByte z.setPending ++ recordField 2 (z.last.map Prod.fst) ++
    recordField 1 (z.last.map Prod.snd) ++ field 2 (c.age z.origin) ++ field 1 z.state.code

/-- The heat class record, 21 bytes (R135, 12.2). -/
def heatRecord (c : Controller) (k : Nat) : List Byte :=
  let h := c.heatClass k
  let run (i : Nat) : List Byte := recordField 2 (h.map (fun x => x.run.getD i 0))
  field 1 k ++ boolByte h.isSome ++ run 0 ++ run 1 ++ run 2 ++ run 3 ++ run 4 ++ run 5 ++
    recordField 1 (h.map HeatClass.band) ++ recordField 2 (h.map HeatClass.bank) ++
    recordField 2 (h.map HeatClass.doseMin) ++ recordField 2 (h.map HeatClass.doseMax)

/-! ### Other answers -/

/-- The line status (R62). -/
def lineStatus (c : Controller) : List Byte :=
  field 1 c.line.state.code ++ optionalField 1 (c.line.lastHalt.map HaltCause.code) ++ field 1 c.line.holds.code ++
    field 2 c.line.speed ++ field 1 c.line.mode.code ++ field 1 (driveReportCode c.line.report) ++
    field 1 c.line.resend ++ boolByte c.line.suspended ++ field 1 (if c.chainOpen then 0 else 1) ++
    optionalField 4 c.line.lastTail ++ field 4 c.gap

/-- READ_COUNTS' fields (R56). -/
def countsBody (c : Controller) : List Byte :=
  field 4 c.unwAt ++ field 4 c.feedAt ++ field 4 c.convAt ++
    field 2 c.mot.unw.interval ++ field 2 c.mot.feed.interval ++ field 2 c.mot.conv.interval ++
    boolByte c.mot.unw.stall ++ boolByte c.mot.feed.stall ++ boolByte c.mot.conv.stall ++
    field 4 c.rolls.fill ++ field 4 c.webU ++ boolByte c.mot.seamHigh ++ boolByte c.mot.haltHigh ++
    field 1 (if c.chainOpen then 0 else 1) ++ boolByte c.mot.limit ++ field 4 c.mot.tick.toNat

/-- A spindle record in READ_SPINDLES (R83). -/
def spindleBody (r : SpindleRec) : List Byte :=
  field 1 r.state.code ++ optionalField 4 r.roll ++ field 1 (unwindModeCode r.mode)

/-- A seam list entry in READ_SPINDLES: roll id and mark zero for an unplanned entry (R203). -/
def seamBody (e : Seam) : List Byte :=
  match e.kind with
  | .planned roll expected _ => field 4 e.coord ++ field 1 0 ++ field 4 roll ++ field 1 (if expected then 0 else 1)
  | .unplanned => field 4 e.coord ++ field 1 1 ++ field 4 0 ++ field 1 0

/-- The splice record in READ_SPINDLES (5.4). -/
def spliceBody : Option SpliceRec → List Byte
  | some r => 1#8 :: (field 1 (spindleCode (some r.source)) ++ field 1 (spindleCode (some r.target)) ++
      field 4 r.tick.toNat)
  | none => 0#8 :: (field 1 0 ++ field 1 0 ++ field 4 0)

/-- The roll ids of the occupied slots, in slot order. -/
def Controller.rollIds (c : Controller) : List Nat := c.rolls.slots.filterMap (fun slot => slot.map Roll.id)

def Hysteresis.code : Hysteresis → Nat
  | .refill => 0 | .follow => 1

/-- READ_SPINDLES' fields (R90). -/
def spindlesBody (c : Controller) : List Byte :=
  spindleBody c.rolls.spA ++ spindleBody c.rolls.spB ++ field 1 c.rollIds.length ++ c.rollIds.flatMap (field 4) ++
    field 1 c.rolls.job.code ++ field 1 c.rolls.retry ++ spliceBody c.rolls.splice ++ field 1 c.rolls.hyst.code ++
    field 1 c.rolls.resend ++ boolByte c.rolls.suspended ++ boolByte c.rolls.runout ++ field 4 c.rolls.fill ++
    field 4 c.webU ++ optionalField 4 c.rolls.feedRoll ++ field 1 (unitReportCode c.rolls.report) ++
    field 1 c.rolls.seams.length ++ c.rolls.seams.flatMap seamBody

/-- The chamber status (R135). One byte says that the bank timer is running and is the presence byte of its age (log 39).
With no transaction in progress the kind is none and the drop is carried as 0, without a presence byte (log 34). -/
def chamberStatus (c : Controller) : List Byte :=
  field 1 c.cham.lineClass ++ field 1 c.cham.changeover.code ++ optionalField 1 c.cham.changeover.target ++
    boolByte c.cham.banked ++ optionalField 2 (c.cham.bankTimer.map c.age) ++
    field 1 (txnKindCode (c.cham.txn.map Txn.kind)) ++ field 1 ((c.cham.txn.map Txn.drop).getD 0) ++
    field 1 c.cham.lastPolled ++ zoneNumbers.flatMap (zoneRecord c)

/-- SET_HEAT_CLASS' fields: the entry and the chamber status (R134, R135). -/
def heatBody (c : Controller) (k : Nat) : List Byte := heatRecord c k ++ chamberStatus c

/-- A detail, its value then its qualifier (R204), preceded by its presence byte. -/
def detailBody : Option Detail → List Byte
  | some d => 1#8 :: (field 2 d.value.toNat ++ [d.qual])
  | none => 0#8 :: (field 2 0 ++ field 1 0)

/-- The last delivered source, or none. -/
def lastBody : Option (Nat × Nat) → List Byte
  | some x => 1#8 :: (field 1 x.1 ++ field 1 x.2)
  | none => 0#8 :: (field 1 0 ++ field 1 0)

/-- A group's flags, enables and gate, the gate 1 when open (R191, R192). -/
def groupBody (g : NoticeGroup) : List Byte := [g.flags, g.enables] ++ boolByte g.gateOpen

/-- READ_FLAGS' fields (R193). -/
def flagsBody (a : Attention) : List Byte :=
  [1, 2, 3, 4, 5, 6].flatMap (fun n =>
    groupBody (a.group n) ++ ((a.group n).details.take (sourceCount n)).flatMap detailBody) ++
    lastBody a.last ++ boolByte a.output

/-! ### Frames -/

/-- An answer frame with the overrun mark as it stands (R182, R203): length, code, tag, mark, fields, check. -/
def answerFrame (a : Answer) (overrun : Bool) : List Byte :=
  let front := BitVec.ofNat 8 (4 + a.body.length) :: BitVec.ofNat 8 a.code.code :: a.tag :: (boolByte overrun ++ a.body)
  front ++ [0#8 - byteSum front]

end Sys2Proof.Machine
end

