-- ==== Sys2Proof/Machine/PanelRequests.lean ====
section
/-! DEFINITION. The panel requests (01, R6 to R25). A request takes the controller and gives it back with its reply. -/

namespace Sys2Proof.Machine

/-- A request as the owning block carries it out. -/
abbrev Request := Controller → Controller × Reply

/-- A refusal, which changes no state (R185). -/
def refuse (code : AnswerCode) : Request := fun c => (c, Reply.refuse code)

/-- A refusal that carries fields of its own: nothing changed, the fields composed from what stands. -/
def refuseWith (code : AnswerCode) (body : Controller → List Byte) : Request := fun c => (c, ⟨code, body c⟩)

def badField (index : Nat) : Request := fun c => (c, Reply.badField index)

/-- A read: answered OK, nothing changed. -/
def answer (body : Controller → List Byte) : Request := fun c => (c, Reply.ok (body c))

/-- An accepted request: its event, and its answer composed when the event is complete. -/
def accept (f : Controller → Controller) (body : Controller → List Byte) : Request :=
  fun c => (c.event f, Reply.ok (body (c.event f)))

def noBody : Controller → List Byte := fun _ => []

/-- A request refused in CONFIG (R185 step 3). -/
def whenCommissioned (r : Request) : Request :=
  fun c => if c.commissioned then r c else refuse .notCommissioned c

/-! ### Placement (R7) -/

/-- The queue with record `id` inserted at a placement; `before` is the neighbour's record for BEFORE. -/
def insertAt (queue : List Nat) (id placement before : Nat) : List Nat :=
  if placement = 0 then queue ++ [id]
  else if placement = 1 then id :: queue
  else queue.takeWhile (fun x => x != before) ++ id :: queue.dropWhile (fun x => x != before)

/-- The queued record of panel number `n`: live and standing in the schedule queue (R8). -/
def Controller.queued (c : Controller) (n : Nat) : Option Nat :=
  (c.panelByNumber n).bind (fun p => if c.tab.queue.contains p.id then some p.id else none)

/-! ### SCHEDULE_PANEL -/

/-- The fields of SCHEDULE_PANEL (12.2). -/
structure ScheduleFields where
  panel : Nat
  tagFlag : Nat
  orderTag : Word32
  pattern : Nat
  flatLength : Nat
  placement : Nat
  neighbour : Nat
  deriving DecidableEq, Repr

/-- The first field out of range (R6, R8, R203). -/
def ScheduleFields.bad (f : ScheduleFields) : Option Nat :=
  if f.panel = 0 then some 1
  else if 1 < f.tagFlag then some 2
  else if f.pattern = 0 ∨ 32 < f.pattern then some 4
  else if 2 < f.placement then some 6
  else if f.placement = 2 ∧ f.neighbour = 0 then some 7
  else none

/-- SCHEDULE_PANEL carried out (R9). -/
def Controller.schedulePanel (c : Controller) (f : ScheduleFields) : Controller :=
  let id := c.tab.nextId
  let before := (c.queued f.neighbour).getD 0
  let p : Panel :=
    { id := id
      number := f.panel
      orderTag := if f.tagFlag = 1 then some f.orderTag else none
      pattern := f.pattern
      flatLength := f.flatLength
      state := .scheduled
      verdict := .pending
      causes := 0#8
      placed := none
      bLead := none
      bTail := none
      total := ((c.pattern f.pattern).sealing.map Sealing.strokes).getD 0
      dose := none
      seamOffset := none
      marks := none
      crossed := Crossed.none }
  let c := { c with tab := { c.tab with panels := c.tab.panels ++ [p], nextId := id + 1 } }
  (c.countPattern f.pattern).setQueue (insertAt c.tab.queue id f.placement before)

/-- The checks after the fields, in order (R8). -/
def Controller.scheduleRefusal (c : Controller) (f : ScheduleFields) : Option AnswerCode :=
  if (c.panelByNumber f.panel).isSome then some .duplicate
  else if 64 ≤ c.tab.panels.length then some .tableFull
  else if (c.pattern f.pattern).state ≠ .sealed then some .wrongState
  else if f.flatLength < 2000 ∨ c.panelMax < f.flatLength ∨
      f.flatLength < ((c.pattern f.pattern).sealing.map Sealing.span).getD 0 then some .length
  else if f.placement = 2 ∧ c.queued f.neighbour = none then some .noSuchRecord
  else none

def scheduleRequest (f : ScheduleFields) : Request := fun c =>
  match f.bad with
  | some i => badField i c
  | none =>
    match c.scheduleRefusal f with
    | some code => refuse code c
    | none => accept (fun d => d.schedulePanel f) noBody c

/-! ### MOVE_PANEL, WITHDRAW_PANEL, REJECT_PANEL, RETIRE_PANEL -/

/-- MOVE_PANEL carried out (R10): the entry is taken out and inserted in the queue as it then stands. -/
def Controller.movePanel (c : Controller) (id placement before : Nat) : Controller :=
  c.setQueue (insertAt (c.tab.queue.filter (fun x => x != id)) id placement before)

def moveRequest (panel placement neighbour : Nat) : Request := fun c =>
  if panel = 0 then badField 1 c
  else if 2 < placement then badField 2 c
  else if placement = 2 ∧ neighbour = 0 then badField 3 c
  else
    match c.panelByNumber panel with
    | none => refuse .noSuchRecord c
    | some p =>
      if p.state ≠ .scheduled then refuse .wrongState c
      else if placement = 2 ∧ neighbour = panel then badField 3 c
      else if placement = 2 ∧ c.queued neighbour = none then refuse .noSuchRecord c
      else accept (fun d => d.movePanel p.id placement ((c.queued neighbour).getD 0)) noBody c

/-- Frees record `id` (R1). -/
def Controller.freePanel (c : Controller) (id : Nat) : Controller :=
  { c with tab := { c.tab with panels := c.tab.panels.filter (fun p => p.id != id) } }

/-- WITHDRAW_PANEL carried out (R11). -/
def Controller.withdrawPanel (c : Controller) (p : Panel) : Controller :=
  ((c.setQueue (c.tab.queue.filter (fun x => x != p.id))).releasePattern p.pattern).freePanel p.id

/-- RETIRE_PANEL carried out (R15). -/
def Controller.retirePanel (c : Controller) (p : Panel) : Controller :=
  let c := { c with tab := { c.tab with roster := c.tab.roster.filter (fun x => x != p.id) } }
  ((c.releasePattern p.pattern).releaseRoll ((p.placed.map Placed.roll).getD 0)).freePanel p.id

/-- A request that names a live panel by its number (R6). -/
def onPanel (panel : Nat) (r : Panel → Request) : Request := fun c =>
  if panel = 0 then badField 1 c
  else
    match c.panelByNumber panel with
    | none => refuse .noSuchRecord c
    | some p => r p c

def withdrawRequest (panel : Nat) : Request :=
  onPanel panel (fun p c =>
    if p.state = .scheduled then accept (fun d => d.withdrawPanel p) noBody c else refuse .wrongState c)

def rejectRequest (panel : Nat) : Request :=
  onPanel panel (fun p c =>
    if p.leadSent || p.state == .cut then refuse .wrongState c
    else accept (fun d => d.addCause p.id .host) noBody c)

def retireRequest (panel : Nat) : Request :=
  onPanel panel (fun p c =>
    if p.state = .cut then accept (fun d => d.retirePanel p) noBody c else refuse .wrongState c)

/-! ### Lookups -/

def readPanelRequest (panel : Nat) : Request := onPanel panel (fun p => answer (fun _ => panelRecord p))

/-- A roster panel covers a place: FEED 0, HEAD 1, ZONE 2, EXIT 3, CUTTER 4 (R25). -/
def Controller.covers (c : Controller) (place zone : Nat) (p : Panel) : Bool :=
  match place with
  | 0 => p.flatHolds c.feedAt
  | 1 => c.atHead p
  | 2 => c.inZone p zone
  | 3 => decide (c.exitDist ≤ c.convAt) && c.bHolds p (c.convAt - c.exitDist)
  | _ => decide (c.cutDist ≤ c.convAt) && c.bHolds p (c.convAt - c.cutDist)

/-- FIND_PANEL's fields: the count, the oldest, and the newest when there are two (R25). -/
def findBody (place zone : Nat) (c : Controller) : List Byte :=
  let found := (c.rosterPanels.filter (c.covers place zone)).map Panel.number
  field 1 found.length ++ optionalField 2 found.head? ++ optionalField 2 found.tail.getLast?

def findRequest (place zone : Nat) : Request := fun c =>
  if 4 < place then badField 1 c
  else if place = 2 ∧ (zone = 0 ∨ c.zoneCount < zone) then badField 2 c
  else answer (findBody place zone) c

/-- The panels of a list of records. -/
def Controller.panelsOf (c : Controller) (ids : List Nat) : List Panel := ids.filterMap c.panelById

/-- LIST_SCHEDULE's fields (R22). -/
def scheduleBody (start : Nat) (c : Controller) : List Byte :=
  field 1 c.tab.queue.length ++
    (c.panelsOf ((c.tab.queue.drop start).take 32)).flatMap (fun p => field 2 p.number)

def listScheduleRequest (start : Nat) : Request := fun c =>
  if 63 < start then badField 1 c else answer (scheduleBody start) c

/-- LIST_ROSTER's fields (R23). -/
def rosterBody (start : Nat) (c : Controller) : List Byte :=
  field 1 c.tab.roster.length ++
    (c.panelsOf ((c.tab.roster.drop start).take 32)).flatMap (fun p =>
      field 2 p.number ++ field 1 p.state.code ++ field 1 p.verdict.code)

def listRosterRequest (start : Nat) : Request := fun c =>
  if 63 < start then badField 1 c else answer (rosterBody start) c

end Sys2Proof.Machine
end

