-- ==== Sys2Proof/Machine/PatternRequests.lean ====
section
/-! DEFINITION. The pattern requests (02, R29 to R41). -/

namespace Sys2Proof.Machine

/-- A request on a pattern slot: a number of 0 or above 32 names none (R29). -/
def onPattern (n : Nat) (r : Pattern → Request) : Request := fun c =>
  if n = 0 ∨ 32 < n then refuse .noSuchRecord c else r (c.pattern n) c

def openPatternRequest (n fabric heat : Nat) : Request :=
  onPattern n (fun p c =>
    if 15 < fabric then badField 2 c
    else if heat = 0 ∨ 8 < heat then badField 3 c
    else if p.state ≠ .empty then refuse .wrongState c
    else accept (fun d => d.updatePattern n (fun _ => ⟨.draft, 0, some ⟨fabric, heat, []⟩, none⟩)) noBody c)

/-! ### APPEND_STEPS -/

/-- The first field of a step out of range, 1 to 5 (2.2). -/
def badStepField (s : RawStep) : Option Nat :=
  if 4 < s.kind.toNat then some 1
  else if s.pitch.toNat < 40 ∨ 2000 < s.pitch.toNat then some 2
  else if s.depth.toNat < 10 ∨ 600 < s.depth.toNat then some 3
  else if s.times.toNat = 0 then some 4
  else if s.taper.toInt < -20 ∨ 20 < s.taper.toInt then some 5
  else none

/-- The index of the first field out of range, from step `j` on: 2 + 5 (j - 1) + k (R31). -/
def badStep : (j : Nat) → List RawStep → Option Nat
  | _, [] => none
  | j, s :: rest =>
    match badStepField s with
    | some k => some (2 + 5 * (j - 1) + k)
    | none => badStep (j + 1) rest

/-- A step as the library keeps it. -/
def stepOfRaw (s : RawStep) : Step :=
  ⟨(StepKind.ofCode s.kind.toNat).getD .skip, s.pitch.toNat, s.depth.toNat, s.times.toNat, s.taper.toInt⟩

/-- The pattern with steps appended. -/
def Pattern.append (p : Pattern) (steps : List Step) : Pattern :=
  { p with body := p.body.map (fun b => { b with steps := b.steps ++ steps }) }

/-- APPEND_STEPS (R31): its fields, DRAFT, the list's 96 places, the pool's places; all steps or none. -/
def appendRequest (n count : Nat) (steps : List RawStep) : Request :=
  onPattern n (fun p c =>
    if count = 0 ∨ 8 < count then badField 2 c
    else if steps.length ≠ count then badField 2 c
    else
      match badStep 1 steps with
      | some i => badField i c
      | none =>
        if p.state ≠ .draft then refuse .wrongState c
        else if 96 < p.steps.length + count then refuse .listFull c
        else if c.poolFree < count then refuse .poolFull c
        else
          accept (fun d => d.updatePattern n (fun q => q.append (steps.map stepOfRaw)))
            (fun d => field 1 (d.pattern n).steps.length) c)

def clearRequest (n : Nat) : Request :=
  onPattern n (fun p c =>
    if p.state = .draft then
      accept (fun d => d.updatePattern n (fun q => { q with body := q.body.map (fun b => { b with steps := [] }) })) noBody c
    else refuse .wrongState c)

/-! ### Sealing -/

/-- The depth grading of a step that is not SKIP: repeat 0 and the last repeat lie within 10 to 600 (R27, R33). -/
def Step.graded (s : Step) : Bool :=
  let last := Int.ofNat s.depth + s.taper * (Int.ofNat s.times - 1)
  s.kind == .skip ||
    (decide (10 ≤ s.depth) && decide (s.depth ≤ 600) && decide (10 ≤ last) && decide (last ≤ 600))

/-- The walk over the steps: the first offending step's index from `j`, with running span `o` (R33). -/
def sealWalk (panelMax : Nat) : (j o : Nat) → List Step → Option Nat
  | _, _, [] => none
  | j, o, s :: rest =>
    if s.graded && decide (o + s.pitch * s.times ≤ panelMax) then sealWalk panelMax (j + 1) (o + s.pitch * s.times) rest
    else some j

/-- The span of a step list (R27). -/
def spanOf (steps : List Step) : Nat := (steps.map (fun s => s.pitch * s.times)).sum

/-- The stroke count of a step list (R27). -/
def strokesOf (steps : List Step) : Nat := ((steps.filter (fun s => s.kind != .skip)).map Step.times).sum

/-- The index SEAL_PATTERN's checks answer, if one fails (R33). -/
def Controller.sealFault (c : Controller) (p : Pattern) : Option Nat :=
  if (c.heatClass ((p.body.map PatternBody.heat).getD 0)).isNone then some 0
  else
    match sealWalk c.panelMax 1 0 p.steps with
    | some j => some j
    | none => if p.steps.any (fun s => s.kind != .skip) then none else some 1

def sealRequest (n : Nat) : Request :=
  onPattern n (fun p c =>
    if p.state ≠ .draft then refuse .wrongState c
    else
      match c.sealFault p with
      | some i => badField i c
      | none =>
        accept (fun d => d.updatePattern n (fun q =>
            { q with state := .sealed, sealing := some ⟨spanOf q.steps, strokesOf q.steps⟩ }))
          (fun d => field 2 (((d.pattern n).sealing.map Sealing.span).getD 0) ++
            field 2 (((d.pattern n).sealing.map Sealing.strokes).getD 0)) c)

/-- UNSEAL_PATTERN (R35). -/
def unsealRequest (n : Nat) : Request :=
  onPattern n (fun p c =>
    match p.state with
    | .sealed =>
      if p.refs = 0 then
        accept (fun d => d.updatePattern n (fun q => { q with state := .draft, sealing := none })) noBody c
      else refuse .inUse c
    | .retiring => refuse .inUse c
    | _ => refuse .wrongState c)

/-- RETIRE_PATTERN (R37); the answer carries the state the pattern is left in. -/
def retirePatternRequest (n : Nat) : Request :=
  onPattern n (fun p c =>
    let left := fun (d : Controller) => field 1 (d.pattern n).state.code
    match p.state with
    | .empty => refuse .wrongState c
    | .draft => accept (fun d => d.updatePattern n (fun _ => Pattern.blank)) left c
    | .sealed =>
      if p.refs = 0 then accept (fun d => d.updatePattern n (fun _ => Pattern.blank)) left c
      else accept (fun d => d.updatePattern n (fun q => { q with state := .retiring })) left c
    | .retiring => answer left c)

/-! ### Reading -/

def readPatternRequest (n : Nat) : Request := onPattern n (fun _ => answer (fun c => patternRecord c n))

/-- READ_STEPS' fields: the length, and up to 24 steps from index `start` (R41). -/
def stepsBody (n start : Nat) (c : Controller) : List Byte :=
  field 1 (c.pattern n).steps.length ++ (((c.pattern n).steps.drop (start - 1)).take 24).flatMap stepRecord

def readStepsRequest (n start : Nat) : Request :=
  onPattern n (fun _ c => if start = 0 ∨ 96 < start then badField 2 c else answer (stepsBody n start) c)

end Sys2Proof.Machine
end

