-- ==== Sys2Proof/Machine/LineRequests.lean ====
section
/-! DEFINITION. The requests of motion and line control (R56, R59 to R62), of the roll manager (05), and of the stroke
sequencer (R129, R131). -/

namespace Sys2Proof.Machine

/-! ### Motion and line -/

def readCountsRequest : Request := answer countsBody

/-- START_LINE from STOPPED, accepted (R59). -/
def Controller.startLine (c : Controller) : Controller :=
  match c.line.holds.first with
  | none => c.enterRunning
  | some k => (c.enterLine .held).raise .lineHeld (Detail.named k.detail)

/-- START_LINE by line state (R59), which gives the line status to the OK answer; its refusals carry no field (log 31). -/
def startRequest : Request :=
  whenCommissioned (fun c =>
    match c.line.state with
    | .stopped =>
      if c.chainOpen || c.runningRoll.isNone then refuse .wrongState c else accept Controller.startLine lineStatus c
    | .halted => refuse .wrongState c
    | _ => answer lineStatus c)

/-- The fields of STOP_LINE's WRONG_STATE in HALTED: the line status (R60) or none (R185, R203). The rules disagree and none
settles it, so which holds is a free value (log 31). -/
def refusedStopBody (c : Controller) : List Byte := if Config.stopRefusalCarriesStatus then lineStatus c else []

/-- STOP_LINE by line state (R60). Every OK answer carries the line status. -/
def stopRequest : Request :=
  whenCommissioned (fun c =>
    match c.line.state with
    | .running => accept (fun d => d.driveHold.enterLine .stopped) lineStatus c
    | .held => accept (fun d => d.enterLine .stopped) lineStatus c
    | .halted =>
      if c.chainOpen || c.line.report == some .fault then refuseWith .wrongState refusedStopBody c
      else accept (fun d => d.driveHold.enterLine .stopped) lineStatus c
    | _ => answer lineStatus c)

/-- SET_SPEED's effect (R61, R63). -/
def Controller.setSpeed (c : Controller) (speed : Nat) : Controller :=
  let c := { c with line := { c.line with speed := speed } }
  if c.line.state = .running then c.hand .f (.driveRun speed) else c

def speedRequest (speed : Nat) : Request :=
  whenCommissioned (fun c =>
    if speed < 100 ∨ 10000 < speed then badField 1 c else accept (fun d => d.setSpeed speed) lineStatus c)

/-! ### Rolls and spindles -/

/-- Places a record in the first free slot (R84, log 9). -/
def placeRoll (r : Roll) : List (Option Roll) → List (Option Roll)
  | [] => []
  | none :: rest => some r :: rest
  | some x :: rest => some x :: placeRoll r rest

def Controller.registerRoll (c : Controller) (id fabric len : Nat) : Controller :=
  { c with rolls := { c.rolls with slots := placeRoll ⟨id, fabric, len, len, .registered, none, none, 0⟩ c.rolls.slots } }

def registerRequest (id fabric len : Nat) : Request := fun c =>
  if id = 0 then badField 1 c
  else if fabric = 0 ∨ 15 < fabric then badField 2 c
  else if len < 10000 ∨ 200000000 < len then badField 3 c
  else if (c.rollById id).isSome then refuse .duplicate c
  else if !c.rolls.slots.any Option.isNone then refuse .tableFull c
  else accept (fun d => d.registerRoll id fabric len) noBody c

/-- MOUNT_ROLL's effect: the roll MOUNTED, the spindle LOADED; a mount onto the idle spindle moves LOW to PENDING (R85,
R96). -/
def Controller.mountRoll (c : Controller) (id : Nat) (sp : Spindle) : Controller :=
  let c := c.updateRoll id (fun r => { r with state := .mounted, spindle := some sp })
  let c := c.setSpindle sp { c.spindle sp with state := .loaded, roll := some id }
  if c.commissioned && c.rolls.job == .low && c.idleSpindle == some sp then c.enterPending else c

/-- A request that names a spindle in field `i`: A or B (log 18). -/
def onSpindle (code i : Nat) (r : Spindle → Request) : Request := fun c =>
  match spindleOf code with
  | some sp => r sp c
  | none => badField i c

/-- MOUNT_ROLL (R85). The spindle code is checked before the roll is looked up (log 18). -/
def mountRequest (id spindle : Nat) : Request :=
  onSpindle spindle 2 (fun sp c =>
    match c.rollById id with
    | none => refuse .noSuchRecord c
    | some r =>
      if r.state ≠ .registered ∨ (c.spindle sp).state ≠ .empty then refuse .wrongState c
      else accept (fun d => d.mountRoll id sp) noBody c)

/-- UNMOUNT_ROLL's effect; PENDING and RETRY_WAIT lose their target (R86). -/
def Controller.unmountRoll (c : Controller) (sp : Spindle) : Controller :=
  let c := c.updateRoll ((c.spindle sp).roll.getD 0) (fun r => { r with state := .registered, spindle := none })
  let c := c.setSpindle sp { c.spindle sp with state := .empty, roll := none }
  match c.rolls.job with
  | .pending | .retryWait =>
    if c.commissioned then if c.rollIsLow then c.enterLow else c.enterNormal else c
  | _ => c

def unmountRequest (spindle : Nat) : Request :=
  onSpindle spindle 1 (fun sp c =>
    if (c.spindle sp).state ≠ .loaded then refuse .wrongState c
    else
      match c.rolls.job with
      | .preparing | .stopping | .splicing | .cancelWait => refuse .wrongState c
      | _ => accept (fun d => d.unmountRoll sp) noBody c)

/-- THREAD_ROLL's effect (R87). The spindle's UNWIND_MODE is handed to channel S before a SPLICE_PREPARE that the SPLICE_AT
test brings (log 40). -/
def Controller.threadRoll (c : Controller) (sp : Spindle) : Controller :=
  let id := (c.spindle sp).roll
  let c := c.mapRolls (fun r => if r.state = .expired then { r with state := .spent } else r)
  let c := c.runSpindle sp
  let c := { c with rolls := { c.rolls with seams := [], feedRoll := id } }
  c.runoutRestart.enterNormal

def threadRequest (spindle : Nat) : Request :=
  whenCommissioned (onSpindle spindle 1 (fun sp c =>
    if c.line.state = .stopped ∧ c.runningRoll = none ∧ (c.spindle sp).state = .loaded then
      accept (fun d => d.threadRoll sp) noBody c
    else refuse .wrongState c))

/-- CLEAR_SPINDLE's effect (R88). -/
def Controller.clearSpindle (c : Controller) (sp : Spindle) : Controller :=
  let id := (c.spindle sp).roll
  (c.mapRolls (fun r => if some r.id = id then { r with spindle := none } else r)).setSpindle sp
    { c.spindle sp with state := .empty, roll := none }

def clearSpindleRequest (spindle : Nat) : Request :=
  whenCommissioned (onSpindle spindle 1 (fun sp c =>
    if (c.spindle sp).state = .stub then accept (fun d => d.clearSpindle sp) noBody c else refuse .wrongState c))

/-- FORCE_SPLICE (R97). -/
def forceRequest : Request :=
  whenCommissioned (fun c =>
    match c.rolls.job with
    | .normal | .low | .fault =>
      if c.idleLoaded then
        accept (fun d => Controller.enterPending { d with rolls := { d.rolls with retry := 0 } }) noBody c
      else refuse .wrongState c
    | _ => refuse .wrongState c)

/-- Frees roll `id`'s slot; a STUB spindle holding it keeps STUB with roll none (R89). -/
def Controller.retireRoll (c : Controller) (id : Nat) : Controller :=
  let clear := fun (r : SpindleRec) => if r.roll = some id then { r with roll := none } else r
  { c with rolls := { c.rolls with
      slots := c.rolls.slots.map (fun slot => if slot.map Roll.id = some id then none else slot)
      spA := clear c.rolls.spA
      spB := clear c.rolls.spB } }

def retireRollRequest (id : Nat) : Request := fun c =>
  match c.rollById id with
  | none => refuse .noSuchRecord c
  | some r =>
    match r.state with
    | .registered => accept (fun d => d.retireRoll id) noBody c
    | .spent => if r.refs = 0 then accept (fun d => d.retireRoll id) noBody c else refuse .inUse c
    | _ => refuse .wrongState c

def readRollRequest (id : Nat) : Request := fun c =>
  match c.rollById id with
  | none => refuse .noSuchRecord c
  | some r => answer (fun _ => rollRecord r) c

def readSpindlesRequest : Request := answer spindlesBody

/-! ### The stroke sequencer -/

/-- ABORT_PLEAT (R131); the answer carries the residual count. -/
def abortRequest (panel : Nat) : Request :=
  whenCommissioned (onPanel panel (fun p c =>
    if (p.state = .feeding ∨ p.state = .pleating) ∧ 0 < p.strokesLeft then
      accept (fun d => d.abortStrokes p) (fun _ => field 2 p.strokesLeft) c
    else refuse .wrongState c))

/-- RESET_HEAD (R129). -/
def resetHeadRequest : Request := whenCommissioned (accept Controller.startResync noBody)

end Sys2Proof.Machine
end

