-- ==== Sys2Proof/Machine/UnitRequests.lean ====
section
/-! DEFINITION. The requests of the chamber controller (R134, R135), the attention unit (R190 to R193) and the
configuration (R194 to R200). -/

namespace Sys2Proof.Machine

/-! ### Heat classes -/

/-- The ten values of SET_HEAT_CLASS' defining form (R134). -/
structure HeatFields where
  run : List Nat
  band : Nat
  bank : Nat
  doseMin : Nat
  doseMax : Nat
  deriving DecidableEq, Repr

/-- The first run setpoint out of range, from field `i` on. -/
def badRun : (i : Nat) → List Nat → Option Nat
  | _, [] => none
  | i, x :: rest => if x < 600 ∨ 1800 < x then some i else badRun (i + 1) rest

/-- The first field out of range (R134). -/
def badHeat (cls : Nat) (f : HeatFields) : Option Nat :=
  if cls = 0 ∨ 8 < cls then some 1
  else
    match badRun 2 f.run with
    | some i => some i
    | none =>
      if f.band < 5 ∨ 100 < f.band then some 8
      else if f.bank < 400 ∨ 1500 < f.bank then some 9
      else if f.doseMin < 100 ∨ 60000 < f.doseMin then some 10
      else if f.doseMax < 100 ∨ 60000 < f.doseMax then some 11
      else if f.doseMax ≤ f.doseMin then some 11
      else none

/-- The class is in use: the line class, or a changeover's target (R134). -/
def Controller.classInUse (c : Controller) (k : Nat) : Bool :=
  c.cham.lineClass == k || c.cham.changeover.target == some k

def Controller.defineClass (c : Controller) (k : Nat) (f : HeatFields) : Controller :=
  { c with cham := { c.cham with
      classes := c.cham.classes.set (k - 1) (some ⟨f.run, f.band, f.bank, f.doseMin, f.doseMax⟩) } }

def heatRequest (cls : Nat) (f : HeatFields) : Request := fun c =>
  match badHeat cls f with
  | some i => badField i c
  | none =>
    if c.classInUse cls then refuse .inUse c
    else accept (fun d => d.defineClass cls f) (fun d => heatBody d cls) c

def heatReadRequest (cls : Nat) : Request := fun c =>
  if cls = 0 ∨ 8 < cls then badField 1 c else answer (fun d => heatBody d cls) c

/-! ### Notices -/

/-- READ_NOTICE (R190). -/
def readNoticeRequest : Request := fun c =>
  match firstDeliverable c.att.groups 1 with
  | some (g, n) =>
    ({ c with att := c.att.deliver g n },
      Reply.ok (field 1 g ++ field 1 n ++ detailBody ((c.att.group g).details.getD (n - 1) none)))
  | none => (c, Reply.ok (field 1 0 ++ field 1 0 ++ detailBody none ++ lastBody c.att.last))

/-- A request that names a notice group, 1 to 6. -/
def onGroup (g : Nat) (r : Request) : Request := fun c => if g = 0 ∨ 6 < g then badField 1 c else r c

def ackGroupRequest (g : Nat) : Request :=
  onGroup g (fun c =>
    let d := { c with att := c.att.openGate g }
    (d, Reply.ok (groupBody (d.att.group g))))

def setEnablesRequest (g : Nat) (mask : Byte) : Request :=
  onGroup g (fun c =>
    let d := { c with att := c.att.enable g mask }
    (d, Reply.ok (groupBody (d.att.group g))))

def readFlagsRequest : Request := answer (fun c => flagsBody c.att)

/-! ### Parameters -/

/-- A request that requires CONFIG (R185 step 3). -/
def whenConfig (r : Request) : Request := fun c => if c.commissioned then refuse .notInConfig c else r c

def setParamRequest (id value : Nat) : Request :=
  whenConfig (fun c =>
    if !isParam id then badField 1 c
    else if !paramAccepts id value then badField 2 c
    else ({ c with params := c.params.set (id - 1) value }, Reply.ok (field 1 id ++ field 4 value)))

def readParamRequest (id : Nat) : Request := fun c =>
  if !isParam id then badField 1 c
  else answer (fun d => field 1 id ++ field 4 (d.param id) ++ field 4 (Config.paramDefaults.getD (id - 1) 0)) c

/-! ### COMMISSION -/

/-- The first of a list of checks that fails, by the id it reports. -/
def firstFailed : List (Nat × Bool) → Option Nat
  | [] => none
  | (id, holds) :: rest => if holds then firstFailed rest else some id

/-- The check of ZONE_END[i] (R197). -/
def Controller.zoneEndCheck (c : Controller) (i : Nat) : Bool :=
  decide (c.zoneCount < i) ||
    (if i ≤ 1 then decide (c.entryDist + 1000 ≤ c.zoneEnd 1) else decide (c.zoneEnd (i - 1) + 1000 ≤ c.zoneEnd i))

/-- The checks of the parameters against one another, in id order (R197). -/
def Controller.commissionChecks (c : Controller) : List (Nat × Bool) :=
  [(3, (c.panelsOf c.tab.queue).all (fun p => decide (p.flatLength ≤ c.panelMax))),
   (6, decide (c.panelMax ≤ c.entryDist)),
   (8, c.zoneEndCheck 1), (9, c.zoneEndCheck 2), (10, c.zoneEndCheck 3), (11, c.zoneEndCheck 4),
   (12, c.zoneEndCheck 5), (13, c.zoneEndCheck 6),
   (14, decide (c.exitDist + c.panelMax ≤ c.cutDist)),
   (21, decide (c.accHigh < c.accCap)),
   (22, decide (c.accLow < c.accHigh)),
   (23, decide (c.accGuard < c.accLow)),
   (24, decide (c.accInit ≤ c.accCap)),
   (26, decide (c.runoutAt + c.panelMax ≤ c.spliceAt))]

/-- The motion unit at COMMISSION (R43, R44, R55). -/
def Motion.commission (m : Motion) : Motion :=
  { m with unw := ⟨0, 0, false⟩, feed := ⟨0, 0, false⟩, conv := ⟨0, 0, false⟩, limit := false }

/-- The links at COMMISSION (R169). -/
def Controller.commissionLinks (c : Controller) : Controller :=
  { c with
    chF := Link.commissioned (c.baudOf .f)
    chS := Link.commissioned (c.baudOf .s)
    chP := Link.commissioned (c.baudOf .p)
    chZ := Link.commissioned (c.baudOf .z) }

/-- The line controller at COMMISSION: STOPPED, and DRIVE_HOLD (R57, R63). -/
def Controller.commissionLine (c : Controller) : Controller :=
  Controller.driveHold
    { c with line := ⟨.stopped, none, HoldCauses.empty, c.lineSpeed, .hold, 0, 0, false, none, none, false⟩ }

/-- The roll manager's fields at COMMISSION (R50, R91, R92, R93, R94, R105); the job is set afterwards. -/
def Controller.commissionRollFields (c : Controller) : Controller :=
  let c := c.mapRolls (fun r => if r.state = .expired then { r with state := .spent } else r)
  { c with rolls := { c.rolls with
      fill := c.accInit
      rangeMark := false
      feedRoll := c.runningRoll.map Roll.id
      retry := 0
      report := none
      hyst := if c.accHigh ≤ c.accInit then .follow else .refill
      runout := false
      resend := 0
      origin := 0
      suspended := false
      seams := []
      job := if c.runningRoll.isSome then .normal else .noRoll } }

/-- The roll manager at COMMISSION (R105): the fields, UNWIND_MODE STOP for each spindle (A first, log 33), the guard cause,
the runout test, the ACTIVE spindle's mode and the SPLICE_AT test. Where that test leads to PREPARING, the mode's UNWIND_MODE
is handed to channel S before the SPLICE_PREPARE (log 40). -/
def Controller.commissionRolls (c : Controller) : Controller :=
  let c := (c.commissionRollFields.commandUnwind .a .stop).commandUnwind .b .stop
  let c := if c.accInit ≤ c.accGuard then c.addHold .accGuard else c
  c.runoutTest.deriveUnwind.spliceAtTest

/-- The stroke sequencer at COMMISSION (R111). -/
def Sequencer.start : Sequencer := ⟨none, [], 0#8, .ready, .stepping, 0, 0#32⟩

/-- The zone records at COMMISSION (R136). -/
def Controller.commissionZones (c : Controller) : List Zone :=
  zoneNumbers.map (fun i => ⟨decide (i ≤ c.zoneCount), .off, 0, none, none, c.mot.tick, .off⟩)

/-- The chamber controller at COMMISSION (R136, R140, R141, R146, R147, R151). -/
def Controller.commissionChamber (c : Controller) : Controller :=
  { c with cham := { c.cham with
      zones := c.commissionZones
      lineClass := 0
      changeover := .idle
      bankOn := false
      bankTimer := none
      banked := false
      txn := none
      lastPolled := c.zoneCount } }

/-- COMMISSION's effect but for the gate's evaluation, which the event brings (R198, log 15). -/
def Controller.commission (c : Controller) : Controller :=
  let c := { c with mot := c.mot.commission, seq := Sequencer.start, cut := ⟨[], none⟩ }
  let c := c.commissionLinks.commissionLine.commissionChamber
  c.bankTest.commissionRolls.startNext

def commissionRequest : Request :=
  whenConfig (fun c =>
    match firstFailed c.commissionChecks with
    | some id => badField id c
    | none => accept Controller.commission (fun d => lineStatus d ++ field 1 d.rolls.job.code) c)

/-! ### DECOMMISSION and reset -/

/-- DECOMMISSION's effect (R199). -/
def Controller.decommission (c : Controller) : Controller :=
  { c with
    chF := c.chF.decommissioned
    chS := c.chS.decommissioned
    chP := c.chP.decommissioned
    chZ := c.chZ.decommissioned
    line := { c.line with state := .config, holds := HoldCauses.empty, mode := .off }
    mot := { c.mot with limit := false }
    rolls := { c.rolls with
      seams := []
      spA := { c.rolls.spA with mode := none }
      spB := { c.rolls.spB with mode := none } }
    cham := { c.cham with
      lineClass := 0
      changeover := .idle
      banked := false
      bankTimer := none
      bankOn := false
      txn := none }
    cut := { c.cut with now := none } }

/-- DECOMMISSION's conditions (R199). -/
def Controller.quiet (c : Controller) : Bool :=
  c.line.state == .stopped && c.tab.roster.isEmpty &&
    match c.rolls.job with
    | .normal | .low | .noRoll => true
    | _ => false

def decommissionRequest : Request :=
  whenCommissioned (fun c => if c.quiet then accept Controller.decommission noBody c else refuse .wrongState c)

/-- RESET_PART (R200, R201): the controller afresh, at the input levels as they stand. -/
def Controller.resetPart (c : Controller) : Controller := Controller.fresh c.mot.seamHigh c.mot.haltHigh

end Sys2Proof.Machine
end

