-- ==== Sys2Proof/Machine/Port.lean ====
section
/-! DEFINITION. The request port (10.1): selections, the classification of the bytes shifted in, the request index with
its frame lengths, and the carrying out of a frame (R181 to R186). -/

namespace Sys2Proof.Machine

/-! ### The request index (10.4, 12.2) -/

/-- The requests of the index with their field widths, in order. APPEND_STEPS and SET_HEAT_CLASS have their lengths
checked by their own rules and stand here with the fields they always carry. -/
def requestTable : List (Nat × List Nat) :=
  [(0x01, [2, 1, 4, 1, 2, 1, 2]), (0x02, [2, 1, 2]), (0x03, [2]), (0x04, [2]), (0x05, [2]), (0x06, [2]),
   (0x07, [1, 1]), (0x08, [1]), (0x09, [1]), (0x10, [1, 1, 1]), (0x11, [1, 1]), (0x12, [1]),
   (0x13, [1]), (0x14, [1])] ++
  [(0x15, [1]), (0x16, [1]), (0x17, [1, 1]), (0x18, []), (0x20, []), (0x21, []),
   (0x22, [2]), (0x30, [4, 1, 4]), (0x31, [4, 1]), (0x32, [1]), (0x33, [1]), (0x34, [1]),
   (0x35, []), (0x36, [4])] ++
  [(0x37, [4]), (0x38, []), (0x40, [2]), (0x41, []), (0x50, [1]), (0x60, []),
   (0x61, [1]), (0x62, [1, 1]), (0x63, []), (0x70, [1, 4]), (0x71, [1]), (0x72, []),
   (0x73, []), (0x74, [])]

/-- The field widths of a request; none for a code that names no request. -/
def requestFields (code : Nat) : Option (List Nat) := requestTable.lookup code

/-- The requests refused in CONFIG (R196). -/
def needsCommission (code : Nat) : Bool := [0x20, 0x21, 0x22, 0x33, 0x34, 0x35, 0x40, 0x41, 0x73].contains code

/-- The requests that require CONFIG (R196). -/
def needsConfig (code : Nat) : Bool := [0x70, 0x72].contains code

/-- The access check (R185 step 3). -/
def Controller.accessRefusal (c : Controller) (code : Nat) : Option AnswerCode :=
  if needsCommission code && !c.commissioned then some .notCommissioned
  else if needsConfig code && c.commissioned then some .notInConfig
  else none

/-- The first field that `n` bytes of fields lack, counting from field `i`; or, with bytes left over, the field count
plus 1 (R185 step 4). -/
def lengthFault : (i : Nat) → List Nat → (n : Nat) → Option Nat
  | i, [], n => if n = 0 then none else some i
  | i, w :: rest, n => if n < w then some i else lengthFault (i + 1) rest (n - w)

/-! ### The requests of a frame's fields -/

/-- The steps of APPEND_STEPS, seven bytes each (12.2). -/
def rawSteps : (k : Nat) → List Byte → List RawStep
  | 0, _ => []
  | k + 1, f =>
    ⟨byteAt f 0, word16At f 1, word16At f 3, byteAt f 5, byteAt f 6⟩ :: rawSteps k (f.drop 7)

/-- APPEND_STEPS from its field bytes; a frame whose length does not match the count carries no steps, and one without a
pattern byte is answered by index 1 (R31, log 18). -/
def appendFromFields (f : List Byte) : Request :=
  if f.length = 0 then badField 1
  else
    let n := (byteAt f 0).toNat
    if f.length = 1 then onPattern n (fun _ => badField 2)
    else
      let count := (byteAt f 1).toNat
      appendRequest n count (if f.length = 2 + 7 * count then rawSteps count (f.drop 2) else [])

/-- SET_HEAT_CLASS by its length (R135): 1 field byte reads, 20 define. -/
def heatFromFields (f : List Byte) : Request :=
  if f.length = 0 then badField 1
  else if f.length = 1 then heatReadRequest (byteAt f 0).toNat
  else if f.length < 20 then badField 2
  else if 20 < f.length then badField 12
  else
    let w := fun at_ => (word16At f at_).toNat
    heatRequest (byteAt f 0).toNat ⟨[w 1, w 3, w 5, w 7, w 9, w 11], (byteAt f 13).toNat, w 14, w 16, w 18⟩

/-- The request of a code and its field bytes, once the length fits (R185 step 5). RESET_PART is carried out by the port
itself. -/
def requestOf (code : Nat) (f : List Byte) : Request :=
  let b := fun at_ => (byteAt f at_).toNat
  let w := fun at_ => (word16At f at_).toNat
  let d := fun at_ => (word32At f at_).toNat
  match code with
  | 0x01 => scheduleRequest ⟨w 0, b 2, word32At f 3, b 7, w 8, b 10, w 11⟩
  | 0x02 => moveRequest (w 0) (b 2) (w 3)
  | 0x03 => withdrawRequest (w 0)
  | 0x04 => rejectRequest (w 0)
  | 0x05 => retireRequest (w 0)
  | 0x06 => readPanelRequest (w 0)
  | 0x07 => findRequest (b 0) (b 1)
  | 0x08 => listScheduleRequest (b 0)
  | 0x09 => listRosterRequest (b 0)
  | 0x10 => openPatternRequest (b 0) (b 1) (b 2)
  | 0x11 => appendFromFields f
  | 0x12 => clearRequest (b 0)
  | 0x13 => sealRequest (b 0)
  | 0x14 => unsealRequest (b 0)
  | 0x15 => retirePatternRequest (b 0)
  | 0x16 => readPatternRequest (b 0)
  | 0x17 => readStepsRequest (b 0) (b 1)
  | 0x18 => readCountsRequest
  | 0x20 => startRequest
  | 0x21 => stopRequest
  | 0x22 => speedRequest (w 0)
  | 0x30 => registerRequest (d 0) (b 4) (d 5)
  | 0x31 => mountRequest (d 0) (b 4)
  | 0x32 => unmountRequest (b 0)
  | 0x33 => threadRequest (b 0)
  | 0x34 => clearSpindleRequest (b 0)
  | 0x35 => forceRequest
  | 0x36 => retireRollRequest (d 0)
  | 0x37 => readRollRequest (d 0)
  | 0x38 => readSpindlesRequest
  | 0x40 => abortRequest (w 0)
  | 0x41 => resetHeadRequest
  | 0x50 => heatFromFields f
  | 0x60 => readNoticeRequest
  | 0x61 => ackGroupRequest (b 0)
  | 0x62 => setEnablesRequest (b 0) (byteAt f 1)
  | 0x63 => readFlagsRequest
  | 0x70 => setParamRequest (b 0) (d 1)
  | 0x71 => readParamRequest (b 0)
  | 0x72 => commissionRequest
  | 0x73 => decommissionRequest
  | _ => refuse .unknownRequest

/-! ### The frame of a request -/

def bytes16 (x : Word16) : List Byte := bigEndian 2 x.toNat
def bytes32 (x : Word32) : List Byte := bigEndian 4 x.toNat

/-- The seven bytes of a step in APPEND_STEPS (12.2). -/
def RawStep.bytes (x : RawStep) : List Byte := x.kind :: (bytes16 x.pitch ++ bytes16 x.depth ++ [x.times, x.taper])

/-- The request code, the tag and the field bytes of a request row (12.2, R203); none for a row that is no request. -/
def requestParts : Instr → Option (Byte × Byte × List Byte)
  | .schedulePanel tag panel flag order pattern len placement neighbour =>
    some (0x01#8, tag, bytes16 panel ++ (flag :: (bytes32 order ++ (pattern :: (bytes16 len ++
      (placement :: bytes16 neighbour))))))
  | .movePanel tag panel placement neighbour => some (0x02#8, tag, bytes16 panel ++ (placement :: bytes16 neighbour))
  | .withdrawPanel tag panel => some (0x03#8, tag, bytes16 panel)
  | .rejectPanel tag panel => some (0x04#8, tag, bytes16 panel)
  | .retirePanel tag panel => some (0x05#8, tag, bytes16 panel)
  | .readPanel tag panel => some (0x06#8, tag, bytes16 panel)
  | .findPanel tag place zone => some (0x07#8, tag, [place, zone])
  | .listSchedule tag start => some (0x08#8, tag, [start])
  | .listRoster tag start => some (0x09#8, tag, [start])
  | .openPattern tag pattern fabric heat => some (0x10#8, tag, [pattern, fabric, heat])
  | .appendSteps tag pattern count steps => some (0x11#8, tag, pattern :: count :: steps.flatMap RawStep.bytes)
  | .clearSteps tag pattern => some (0x12#8, tag, [pattern])
  | .sealPattern tag pattern => some (0x13#8, tag, [pattern])
  | .unsealPattern tag pattern => some (0x14#8, tag, [pattern])
  | .retirePattern tag pattern => some (0x15#8, tag, [pattern])
  | .readPattern tag pattern => some (0x16#8, tag, [pattern])
  | .readSteps tag pattern start => some (0x17#8, tag, [pattern, start])
  | .readCounts tag => some (0x18#8, tag, [])
  | .startLine tag => some (0x20#8, tag, [])
  | .stopLine tag => some (0x21#8, tag, [])
  | .setSpeed tag speed => some (0x22#8, tag, bytes16 speed)
  | .registerRoll tag roll fabric len => some (0x30#8, tag, bytes32 roll ++ (fabric :: bytes32 len))
  | .mountRoll tag roll spindle => some (0x31#8, tag, bytes32 roll ++ [spindle])
  | .unmountRoll tag spindle => some (0x32#8, tag, [spindle])
  | .threadRoll tag spindle => some (0x33#8, tag, [spindle])
  | .clearSpindle tag spindle => some (0x34#8, tag, [spindle])
  | .forceSplice tag => some (0x35#8, tag, [])
  | .retireRoll tag roll => some (0x36#8, tag, bytes32 roll)
  | .readRoll tag roll => some (0x37#8, tag, bytes32 roll)
  | .readSpindles tag => some (0x38#8, tag, [])
  | .abortPleat tag panel => some (0x40#8, tag, bytes16 panel)
  | .resetHead tag => some (0x41#8, tag, [])
  | .setHeatClass tag cls run1 run2 run3 run4 run5 run6 band bank doseMin doseMax =>
    some (0x50#8, tag, cls :: (bytes16 run1 ++ bytes16 run2 ++ bytes16 run3 ++ bytes16 run4 ++ bytes16 run5 ++
      bytes16 run6 ++ (band :: (bytes16 bank ++ bytes16 doseMin ++ bytes16 doseMax))))
  | .setHeatClassReadingForm tag cls => some (0x50#8, tag, [cls])
  | .readNotice tag => some (0x60#8, tag, [])
  | .ackGroup tag group => some (0x61#8, tag, [group])
  | .setEnables tag group mask => some (0x62#8, tag, [group, mask])
  | .readFlags tag => some (0x63#8, tag, [])
  | .setParam tag param value => some (0x70#8, tag, param :: bytes32 value)
  | .readParam tag param => some (0x71#8, tag, [param])
  | .commission tag => some (0x72#8, tag, [])
  | .decommission tag => some (0x73#8, tag, [])
  | .resetPart tag => some (0x74#8, tag, [])
  | _ => none

/-- The request frame that carries a request row: length, code, tag, fields, check (10.1, R203). -/
def requestFrame (r : Instr) : Option (List Byte) :=
  (requestParts r).map (fun x =>
    let front := BitVec.ofNat 8 (3 + x.2.2.length) :: x.1 :: x.2.1 :: x.2.2
    front ++ [0#8 - byteSum front])

/-! ### Carrying out -/

/-- The answer becomes pending, with a clear overrun mark (R184, R186). -/
def Controller.reply (x : Controller × Reply) (tag : Byte) : Controller :=
  { x.1 with port := { x.1.port with pending := some ⟨x.2.code, tag, x.2.body⟩, overrun := false } }

/-- Carries out a request that the port has taken (R185). -/
def Controller.carryOut (c : Controller) (tag : Byte) (r : Request) : Controller := Controller.reply (r c) tag

/-- Carries out a request frame: code, tag and field bytes (R185 steps 2 to 5). -/
def Controller.carryOutFrame (c : Controller) (code : Nat) (tag : Byte) (f : List Byte) : Controller :=
  match requestFields code with
  | none => c.carryOut tag (refuse .unknownRequest)
  | some widths =>
    match c.accessRefusal code with
    | some x => c.carryOut tag (refuse x)
    | none =>
      if code = 0x11 ∨ code = 0x50 then c.carryOut tag (requestOf code f)
      else
        match lengthFault 1 widths f.length with
        | some i => c.carryOut tag (badField i)
        | none => if code = 0x74 then c.resetPart else c.carryOut tag (requestOf code f)

/-! ### Selections -/

/-- The beginning of a selection fixes what it shifts out (R182). -/
def Controller.selectionBegin (c : Controller) : Controller :=
  { c with port := { c.port with
      isOpen := true
      buffer := []
      shift := c.port.pending.map (fun a => answerFrame a c.port.overrun) } }

/-- The first `n` bytes that the open selection shifts out (R182): the answer's bytes in order, then 0x00; 0x00
throughout when no answer is pending. -/
def Port.shiftedOut (p : Port) (n : Nat) : List Byte :=
  let frame := p.shift.getD []
  frame.take n ++ List.replicate (n - frame.length) 0x00#8

/-- How the bytes of a selection are classified (R183). -/
inductive PortBytes where
  | noRequest
  | badFrame
  | request
  deriving DecidableEq, Repr

def classify (bytes : List Byte) : PortBytes :=
  match bytes with
  | [] => .noRequest
  | first :: _ =>
    let len := first.toNat
    if len = 0 then .noRequest
    else if len < 3 ∨ 250 < len then .badFrame
    else if bytes.length < len + 1 then .badFrame
    else if byteSum (bytes.take (len + 1)) = 0#8 then .request
    else .badFrame

/-- The third byte, when at least three complete bytes were held; 0 otherwise (R183, R186). -/
def thirdByte (bytes : List Byte) : Byte := if 3 ≤ bytes.length then byteAt bytes 2 else 0#8

/-- Step 1 of R184: the answer shifted out whole is collected. -/
def Controller.collect (c : Controller) (bytes : List Byte) : Controller :=
  match c.port.shift with
  | some frame =>
    if frame.length ≤ bytes.length then { c with port := { c.port with pending := none, overrun := false } } else c
  | none => c

/-- A frame discarded because an answer is pending (R186). -/
def Controller.portOverrun (c : Controller) (bytes : List Byte) : Controller :=
  Controller.raise { c with port := { c.port with overrun := true } } .linkPortOverrun
    (Detail.num (thirdByte bytes).toNat)

/-- Step 2 of R184: the fate of the bytes shifted in. -/
def Controller.takeBytes (c : Controller) (bytes : List Byte) : Controller :=
  match classify bytes with
  | .noRequest => c
  | kind =>
    if c.port.pending.isSome then c.portOverrun bytes
    else if kind = .request then
      c.carryOutFrame (byteAt bytes 1).toNat (byteAt bytes 2) ((bytes.drop 3).take ((byteAt bytes 0).toNat - 3))
    else c.carryOut (thirdByte bytes) (refuse .badFrame)

/-- The selection closes: the buffer is emptied (R184 step 3). -/
def Controller.closePort (c : Controller) : Controller :=
  { c with port := { c.port with isOpen := false, shift := none, buffer := [] } }

/-- The end of a selection (R184). The incomplete byte's bits are discarded (R181). -/
def Controller.selectionEnd (c : Controller) (bytes : List Byte) : Controller :=
  if c.port.isOpen then ((c.collect bytes).takeBytes bytes).closePort else c

end Sys2Proof.Machine
end

