-- ==== Sys2Proof/Machine/Meanings.lean ====
section
/-! DEFINITION. The meaning of every command over the shared operations, one definition each. While RESET is held every
input is ignored (11.7, log 7). A command for one of the controller's own events takes it when its condition holds, and
changes nothing when it does not (log 2). -/

namespace Sys2Proof.Machine

/-- The outcome of a command with effect `f`: the next state; nothing happens while RESET is held. -/
def act (s : State) (f : Controller → Controller) : Host.Outcome State Fault Refusal :=
  if s.ctl.resetHeld then .next s else .next (s.withCtl (f s.ctl))

/-- A request carried out at a free port (log 4). -/
def request (s : State) (tag : Byte) (r : Request) : Host.Outcome State Fault Refusal :=
  act s (fun c => c.carryOut tag r)

/-- An event of a commissioned controller: its effect, and the gate's evaluation where R71 asks for it. -/
def happening (s : State) (f : Controller → Controller) : Host.Outcome State Fault Refusal :=
  act s (fun c => if c.commissioned then c.event f else c)

/-- A telegram received whole and correct. -/
def telegram (s : State) (t : RxTelegram) : Host.Outcome State Fault Refusal := act s (fun c => c.deliver t)

/-- An event of the panel of a number; a number that no live record holds has none. -/
def onCrossing (s : State) (panel : Word16) (f : Controller → Nat → Controller) : Host.Outcome State Fault Refusal :=
  happening s (fun c =>
    match c.panelByNumber panel.toNat with
    | some p => f c p.id
    | none => c)

/-! ### Reset pin and request port -/

/-- POWER_ON_RESET (R200): the release of the pin, at the input levels found then. -/
def execPowerOnReset (seamHigh haltHigh : Bool) (s : State) : Host.Outcome State Fault Refusal :=
  .next (s.withCtl (Controller.fresh seamHigh haltHigh))

/-- RESET_ASSERTED (R200, 11.7): attention is deasserted, and every input is ignored until release. -/
def execResetAsserted (s : State) : Host.Outcome State Fault Refusal :=
  act s (fun c => { c with resetHeld := true, att := { c.att with output := false } })

def execSelectionBegin (s : State) : Host.Outcome State Fault Refusal := act s Controller.selectionBegin

/-- SELECTION_END (R184): the complete bytes shifted in; the bits of an incomplete byte are discarded (R181). -/
def execSelectionEnd (bytes : List Byte) (_spare : Nat) (s : State) : Host.Outcome State Fault Refusal :=
  act s (fun c => c.selectionEnd bytes)

/-! ### Requests -/

def execSchedulePanel (tag : Byte) (panel : Word16) (tagFlag : Byte) (orderTag : Word32) (pattern : Byte)
    (flatLength : Word16) (placement : Byte) (neighbour : Word16) (s : State) : Host.Outcome State Fault Refusal :=
  request s tag (scheduleRequest ⟨panel.toNat, tagFlag.toNat, orderTag, pattern.toNat, flatLength.toNat,
    placement.toNat, neighbour.toNat⟩)

def execMovePanel (tag : Byte) (panel : Word16) (placement : Byte) (neighbour : Word16) (s : State) :
    Host.Outcome State Fault Refusal :=
  request s tag (moveRequest panel.toNat placement.toNat neighbour.toNat)

def execWithdrawPanel (tag : Byte) (panel : Word16) (s : State) : Host.Outcome State Fault Refusal :=
  request s tag (withdrawRequest panel.toNat)

def execRejectPanel (tag : Byte) (panel : Word16) (s : State) : Host.Outcome State Fault Refusal :=
  request s tag (rejectRequest panel.toNat)

def execRetirePanel (tag : Byte) (panel : Word16) (s : State) : Host.Outcome State Fault Refusal :=
  request s tag (retireRequest panel.toNat)

def execReadPanel (tag : Byte) (panel : Word16) (s : State) : Host.Outcome State Fault Refusal :=
  request s tag (readPanelRequest panel.toNat)

def execFindPanel (tag place zone : Byte) (s : State) : Host.Outcome State Fault Refusal :=
  request s tag (findRequest place.toNat zone.toNat)

def execListSchedule (tag start : Byte) (s : State) : Host.Outcome State Fault Refusal :=
  request s tag (listScheduleRequest start.toNat)

def execListRoster (tag start : Byte) (s : State) : Host.Outcome State Fault Refusal :=
  request s tag (listRosterRequest start.toNat)

def execOpenPattern (tag pattern fabric heat : Byte) (s : State) : Host.Outcome State Fault Refusal :=
  request s tag (openPatternRequest pattern.toNat fabric.toNat heat.toNat)

def execAppendSteps (tag pattern count : Byte) (steps : List RawStep) (s : State) : Host.Outcome State Fault Refusal :=
  request s tag (appendRequest pattern.toNat count.toNat steps)

def execClearSteps (tag pattern : Byte) (s : State) : Host.Outcome State Fault Refusal :=
  request s tag (clearRequest pattern.toNat)

def execSealPattern (tag pattern : Byte) (s : State) : Host.Outcome State Fault Refusal :=
  request s tag (sealRequest pattern.toNat)

def execUnsealPattern (tag pattern : Byte) (s : State) : Host.Outcome State Fault Refusal :=
  request s tag (unsealRequest pattern.toNat)

def execRetirePattern (tag pattern : Byte) (s : State) : Host.Outcome State Fault Refusal :=
  request s tag (retirePatternRequest pattern.toNat)

def execReadPattern (tag pattern : Byte) (s : State) : Host.Outcome State Fault Refusal :=
  request s tag (readPatternRequest pattern.toNat)

def execReadSteps (tag pattern start : Byte) (s : State) : Host.Outcome State Fault Refusal :=
  request s tag (readStepsRequest pattern.toNat start.toNat)

def execReadCounts (tag : Byte) (s : State) : Host.Outcome State Fault Refusal := request s tag readCountsRequest

def execStartLine (tag : Byte) (s : State) : Host.Outcome State Fault Refusal := request s tag startRequest

def execStopLine (tag : Byte) (s : State) : Host.Outcome State Fault Refusal := request s tag stopRequest

def execSetSpeed (tag : Byte) (speed : Word16) (s : State) : Host.Outcome State Fault Refusal :=
  request s tag (speedRequest speed.toNat)

def execRegisterRoll (tag : Byte) (roll : Word32) (fabric : Byte) (len : Word32) (s : State) :
    Host.Outcome State Fault Refusal :=
  request s tag (registerRequest roll.toNat fabric.toNat len.toNat)

def execMountRoll (tag : Byte) (roll : Word32) (spindle : Byte) (s : State) : Host.Outcome State Fault Refusal :=
  request s tag (mountRequest roll.toNat spindle.toNat)

def execUnmountRoll (tag spindle : Byte) (s : State) : Host.Outcome State Fault Refusal :=
  request s tag (unmountRequest spindle.toNat)

def execThreadRoll (tag spindle : Byte) (s : State) : Host.Outcome State Fault Refusal :=
  request s tag (threadRequest spindle.toNat)

def execClearSpindle (tag spindle : Byte) (s : State) : Host.Outcome State Fault Refusal :=
  request s tag (clearSpindleRequest spindle.toNat)

def execForceSplice (tag : Byte) (s : State) : Host.Outcome State Fault Refusal := request s tag forceRequest

def execRetireRoll (tag : Byte) (roll : Word32) (s : State) : Host.Outcome State Fault Refusal :=
  request s tag (retireRollRequest roll.toNat)

def execReadRoll (tag : Byte) (roll : Word32) (s : State) : Host.Outcome State Fault Refusal :=
  request s tag (readRollRequest roll.toNat)

def execReadSpindles (tag : Byte) (s : State) : Host.Outcome State Fault Refusal := request s tag readSpindlesRequest

def execAbortPleat (tag : Byte) (panel : Word16) (s : State) : Host.Outcome State Fault Refusal :=
  request s tag (abortRequest panel.toNat)

def execResetHead (tag : Byte) (s : State) : Host.Outcome State Fault Refusal := request s tag resetHeadRequest

def execSetHeatClass (tag cls : Byte) (run1 run2 run3 run4 run5 run6 : Word16) (band : Byte)
    (bank doseMin doseMax : Word16) (s : State) : Host.Outcome State Fault Refusal :=
  request s tag (heatRequest cls.toNat ⟨[run1.toNat, run2.toNat, run3.toNat, run4.toNat, run5.toNat, run6.toNat],
    band.toNat, bank.toNat, doseMin.toNat, doseMax.toNat⟩)

def execSetHeatClassReadingForm (tag cls : Byte) (s : State) : Host.Outcome State Fault Refusal :=
  request s tag (heatReadRequest cls.toNat)

def execReadNotice (tag : Byte) (s : State) : Host.Outcome State Fault Refusal := request s tag readNoticeRequest

def execAckGroup (tag group : Byte) (s : State) : Host.Outcome State Fault Refusal :=
  request s tag (ackGroupRequest group.toNat)

def execSetEnables (tag group mask : Byte) (s : State) : Host.Outcome State Fault Refusal :=
  request s tag (setEnablesRequest group.toNat mask)

def execReadFlags (tag : Byte) (s : State) : Host.Outcome State Fault Refusal := request s tag readFlagsRequest

def execSetParam (tag param : Byte) (value : Word32) (s : State) : Host.Outcome State Fault Refusal :=
  request s tag (setParamRequest param.toNat value.toNat)

def execReadParam (tag param : Byte) (s : State) : Host.Outcome State Fault Refusal :=
  request s tag (readParamRequest param.toNat)

def execCommission (tag : Byte) (s : State) : Host.Outcome State Fault Refusal := request s tag commissionRequest

def execDecommission (tag : Byte) (s : State) : Host.Outcome State Fault Refusal := request s tag decommissionRequest

/-- RESET_PART (R200, R201): its answer is composed and discarded within its own event. -/
def execResetPart (_tag : Byte) (s : State) : Host.Outcome State Fault Refusal := act s Controller.resetPart

/-! ### Motion, gate and line -/

def execCountPulse (input : CountInput) (order : List PulseTask) (s : State) : Host.Outcome State Fault Refusal :=
  act s (fun c => c.countPulse input order)

/-- ADMISSION (R76): the gate's evaluation that finds every condition holding. -/
def execAdmission (s : State) : Host.Outcome State Fault Refusal :=
  happening s (fun c => if c.admissible then c.gate else c)

/-- MAX_GAP_HOLD (R80). -/
def execMaxGapHold (s : State) : Host.Outcome State Fault Refusal :=
  happening s (fun c => if c.maxGapDue then c.addHold .maxGap else c)

def execHoldResend (s : State) : Host.Outcome State Fault Refusal := happening s Controller.feedResend

def execFeedResendLimit (s : State) : Host.Outcome State Fault Refusal := happening s Controller.feedResendFault

def execUnwindResend (s : State) : Host.Outcome State Fault Refusal := happening s Controller.unwindResend

def execUnwindResendLimit (s : State) : Host.Outcome State Fault Refusal := happening s Controller.unwindResendFault

def execStall (input : CountInput) (s : State) : Host.Outcome State Fault Refusal :=
  happening s (fun c => c.stallTest input)

def execCoordLimit (input : CountInput) (s : State) : Host.Outcome State Fault Refusal :=
  happening s (fun c => c.limitTest input)

/-! ### The stroke sequencer -/

def execHeadArrival (panel : Word16) (s : State) : Host.Outcome State Fault Refusal :=
  onCrossing s panel Controller.headArrival

def execTailPassage (panel : Word16) (s : State) : Host.Outcome State Fault Refusal :=
  onCrossing s panel Controller.tailPassage

/-- STROKE_DUE (R118, R122): the due crossing of the stroke at the cursor, and what it brings about. -/
def execStrokeDue (s : State) : Host.Outcome State Fault Refusal :=
  happening s (fun c =>
    match c.seq.cursor with
    | some k => if k.waiting then c else c.settleStrokes
    | none => c)

/-- STROKE (R119): a due stroke at the cursor that passes its issue test. -/
def execStroke (s : State) : Host.Outcome State Fault Refusal :=
  happening s (fun c =>
    match c.seq.cursor with
    | some k => if decide (k.due ≤ c.feedAt) && c.issuePasses then (c.issueStroke k).settleStrokes else c
    | none => c)

/-- STROKE_LATE (R121): the late crossing of a waiting stroke, and what it brings about. -/
def execStrokeLate (s : State) : Host.Outcome State Fault Refusal :=
  happening s (fun c =>
    match c.seq.cursor with
    | some k => if k.waiting then c.settleStrokes else c
    | none => c)

def execAckTimeout (s : State) : Host.Outcome State Fault Refusal := happening s Controller.ackTimeoutTest

def execResyncAttemptTimeout (s : State) : Host.Outcome State Fault Refusal := happening s Controller.attemptTest

def execStrokeDone (seq : Byte) (s : State) : Host.Outcome State Fault Refusal := telegram s (.strokeDone seq)

def execStrokeFault (seq cause : Byte) (s : State) : Host.Outcome State Fault Refusal :=
  telegram s (.strokeFault seq cause)

def execHeadBusy (s : State) : Host.Outcome State Fault Refusal := telegram s .headBusy

def execHeadReady (s : State) : Host.Outcome State Fault Refusal := telegram s .headReady

def execResyncDone (next : Byte) (s : State) : Host.Outcome State Fault Refusal := telegram s (.resyncDone next)

def execHeadQuery (s : State) : Host.Outcome State Fault Refusal := telegram s .headQuery

/-! ### The drive, the splice unit and the roll manager -/

def execDriveState (motion : DriveMotion) (s : State) : Host.Outcome State Fault Refusal :=
  telegram s (.driveState motion)

def execUnitState (condition : UnitCondition) (s : State) : Host.Outcome State Fault Refusal :=
  telegram s (.unitState condition)

def execSpliceDue (s : State) : Host.Outcome State Fault Refusal := happening s Controller.spliceAtTest

/-- RUNOUT (R91): the threshold, or a remaining length of 0 (log 29). -/
def execRunout (atZero : Bool) (s : State) : Host.Outcome State Fault Refusal :=
  happening s (fun c =>
    if atZero then (if (c.runningRoll.map Roll.remaining) = some 0 then c.runoutCount else c) else c.runoutTest)

def execSplicePrepare (s : State) : Host.Outcome State Fault Refusal := happening s Controller.clearanceTest

def execPrepared (s : State) : Host.Outcome State Fault Refusal := telegram s .prepared

def execSpliceGo (s : State) : Host.Outcome State Fault Refusal := happening s Controller.goTest

def execSpliceDone (s : State) : Host.Outcome State Fault Refusal := telegram s .spliceDone

def execSpliceFail (cause : Byte) (s : State) : Host.Outcome State Fault Refusal := telegram s (.spliceFail cause)

def execSpliceCancelled (web : Spindle) (s : State) : Host.Outcome State Fault Refusal :=
  telegram s (.spliceCancelled web)

def execSpliceTimeout (s : State) : Host.Outcome State Fault Refusal := happening s Controller.spliceTimeoutTest

def execCancelWaitTimeout (s : State) : Host.Outcome State Fault Refusal := happening s Controller.cancelWaitTest

def execRetryWaitEnd (s : State) : Host.Outcome State Fault Refusal := happening s Controller.retryWaitTest

def execSeamEdge (s : State) : Host.Outcome State Fault Refusal := act s Controller.seamEdge

def execSeamLost (s : State) : Host.Outcome State Fault Refusal := happening s Controller.seamLossTest

def execPlannedSeamPassage (s : State) : Host.Outcome State Fault Refusal := happening s Controller.seamPassageTest

def execSeamEntryRemoval (s : State) : Host.Outcome State Fault Refusal := happening s Controller.seamRemovalTest

def execChainOpen (s : State) : Host.Outcome State Fault Refusal := act s Controller.chainOpens

def execChainClosed (s : State) : Host.Outcome State Fault Refusal := act s Controller.chainCloses

/-! ### Ticks and the chamber -/

def execDwellTick (order : List TickTask) (s : State) : Host.Outcome State Fault Refusal :=
  act s (fun c => c.dwellTick order)

def execBanked (s : State) : Host.Outcome State Fault Refusal := happening s Controller.bankDue

def execZoneStale (zone : Byte) (s : State) : Host.Outcome State Fault Refusal :=
  happening s (fun c => c.staleTest zone.toNat)

def execReplyTimeout (s : State) : Host.Outcome State Fault Refusal := happening s Controller.replyTest

def execChamberEntry (panel : Word16) (s : State) : Host.Outcome State Fault Refusal :=
  onCrossing s panel Controller.chamberEntry

def execChamberExit (panel : Word16) (s : State) : Host.Outcome State Fault Refusal :=
  onCrossing s panel Controller.chamberExit

def execChangeoverDrainEnd (s : State) : Host.Outcome State Fault Refusal := happening s Controller.drainTest

def execChangeoverDone (s : State) : Host.Outcome State Fault Refusal := happening s Controller.completionTest

/-- ZONE_POLL (R151, R152): started when no transaction is in progress and the arbiter's choice is a poll. -/
def execZonePoll (s : State) : Host.Outcome State Fault Refusal :=
  happening s (fun c =>
    match c.cham.txn, c.busWork with
    | none, .poll i => c.startPoll i
    | _, _ => c)

/-- ZONE_SET (R151): started when no transaction is in progress and the arbiter's choice is a set. -/
def execZoneSet (s : State) : Host.Outcome State Fault Refusal :=
  happening s (fun c =>
    match c.cham.txn, c.busWork with
    | none, .set i => c.startSet i
    | _, _ => c)

/-- CUT (R154, R163): started when no transaction is in progress and a cut is pending. -/
def execCut (s : State) : Host.Outcome State Fault Refusal :=
  happening s (fun c =>
    match c.cham.txn, c.busWork with
    | none, .cut e => c.startCut e
    | _, _ => c)

def execZoneReport (temperature : Word16) (valve : Byte) (fault : Bool) (s : State) : Host.Outcome State Fault Refusal :=
  telegram s (.zoneReport temperature valve fault)

def execSetAck (setpoint : Word16) (s : State) : Host.Outcome State Fault Refusal := telegram s (.setAck setpoint)

def execCutDone (panel : Word16) (kind : CutKind) (s : State) : Host.Outcome State Fault Refusal :=
  telegram s (.cutDone panel kind)

def execCutFault (panel : Word16) (kind : CutKind) (code : Byte) (s : State) : Host.Outcome State Fault Refusal :=
  telegram s (.cutFault panel kind code)

def execLeadCutterCrossing (panel : Word16) (s : State) : Host.Outcome State Fault Refusal :=
  onCrossing s panel Controller.leadCrossing

def execTailCutterCrossing (panel : Word16) (s : State) : Host.Outcome State Fault Refusal :=
  onCrossing s panel Controller.tailCrossing

/-! ### Links and levels -/

def execReceiveCharacter (channel : Channel) (char : LinkChar) (stopIdle : Bool) (s : State) :
    Host.Outcome State Fault Refusal :=
  act s (fun c => c.receive channel char stopIdle)

def execInterCharacterTimeout (channel : Channel) (s : State) : Host.Outcome State Fault Refusal :=
  act s (fun c => c.characterTimeout channel)

def execTransmitComplete (channel : Channel) (s : State) : Host.Outcome State Fault Refusal :=
  act s (fun c => c.transmitted channel)

def execSeamLevelChange (s : State) : Host.Outcome State Fault Refusal := act s Controller.seamLevelChange

def execReceiverLineIdle (channel : Channel) (s : State) : Host.Outcome State Fault Refusal :=
  act s (fun c => c.lineIdle channel)

end Sys2Proof.Machine
end

