-- ==== Sys2Proof/Machine/Dispatch.lean ====
section
/-! DEFINITION. Dispatch: one arm per command, each a direct call of its meaning. -/

namespace Sys2Proof.Machine

def exec (i : Instr) (s : State) : Host.Outcome State Fault Refusal :=
  match i with
  | .powerOnReset seamHigh haltHigh => Sys2Proof.Machine.execPowerOnReset seamHigh haltHigh s
  | .resetAsserted => Sys2Proof.Machine.execResetAsserted s
  | .selectionBegin => Sys2Proof.Machine.execSelectionBegin s
  | .selectionEnd bytes spare => Sys2Proof.Machine.execSelectionEnd bytes spare s
  | .schedulePanel tag panel tagFlag orderTag pattern flatLength placement neighbour => Sys2Proof.Machine.execSchedulePanel tag panel tagFlag orderTag pattern flatLength placement neighbour s
  | .movePanel tag panel placement neighbour => Sys2Proof.Machine.execMovePanel tag panel placement neighbour s
  | .withdrawPanel tag panel => Sys2Proof.Machine.execWithdrawPanel tag panel s
  | .rejectPanel tag panel => Sys2Proof.Machine.execRejectPanel tag panel s
  | .retirePanel tag panel => Sys2Proof.Machine.execRetirePanel tag panel s
  | .readPanel tag panel => Sys2Proof.Machine.execReadPanel tag panel s
  | .findPanel tag place zone => Sys2Proof.Machine.execFindPanel tag place zone s
  | .listSchedule tag start => Sys2Proof.Machine.execListSchedule tag start s
  | .listRoster tag start => Sys2Proof.Machine.execListRoster tag start s
  | .openPattern tag pattern fabric heat => Sys2Proof.Machine.execOpenPattern tag pattern fabric heat s
  | .appendSteps tag pattern count steps => Sys2Proof.Machine.execAppendSteps tag pattern count steps s
  | .clearSteps tag pattern => Sys2Proof.Machine.execClearSteps tag pattern s
  | .sealPattern tag pattern => Sys2Proof.Machine.execSealPattern tag pattern s
  | .unsealPattern tag pattern => Sys2Proof.Machine.execUnsealPattern tag pattern s
  | .retirePattern tag pattern => Sys2Proof.Machine.execRetirePattern tag pattern s
  | .readPattern tag pattern => Sys2Proof.Machine.execReadPattern tag pattern s
  | .readSteps tag pattern start => Sys2Proof.Machine.execReadSteps tag pattern start s
  | .readCounts tag => Sys2Proof.Machine.execReadCounts tag s
  | .startLine tag => Sys2Proof.Machine.execStartLine tag s
  | .stopLine tag => Sys2Proof.Machine.execStopLine tag s
  | .setSpeed tag speed => Sys2Proof.Machine.execSetSpeed tag speed s
  | .registerRoll tag roll fabric len => Sys2Proof.Machine.execRegisterRoll tag roll fabric len s
  | .mountRoll tag roll spindle => Sys2Proof.Machine.execMountRoll tag roll spindle s
  | .unmountRoll tag spindle => Sys2Proof.Machine.execUnmountRoll tag spindle s
  | .threadRoll tag spindle => Sys2Proof.Machine.execThreadRoll tag spindle s
  | .clearSpindle tag spindle => Sys2Proof.Machine.execClearSpindle tag spindle s
  | .forceSplice tag => Sys2Proof.Machine.execForceSplice tag s
  | .retireRoll tag roll => Sys2Proof.Machine.execRetireRoll tag roll s
  | .readRoll tag roll => Sys2Proof.Machine.execReadRoll tag roll s
  | .readSpindles tag => Sys2Proof.Machine.execReadSpindles tag s
  | .abortPleat tag panel => Sys2Proof.Machine.execAbortPleat tag panel s
  | .resetHead tag => Sys2Proof.Machine.execResetHead tag s
  | .setHeatClass tag cls run1 run2 run3 run4 run5 run6 band bank doseMin doseMax => Sys2Proof.Machine.execSetHeatClass tag cls run1 run2 run3 run4 run5 run6 band bank doseMin doseMax s
  | .setHeatClassReadingForm tag cls => Sys2Proof.Machine.execSetHeatClassReadingForm tag cls s
  | .readNotice tag => Sys2Proof.Machine.execReadNotice tag s
  | .ackGroup tag group => Sys2Proof.Machine.execAckGroup tag group s
  | .setEnables tag group mask => Sys2Proof.Machine.execSetEnables tag group mask s
  | .readFlags tag => Sys2Proof.Machine.execReadFlags tag s
  | .setParam tag param value => Sys2Proof.Machine.execSetParam tag param value s
  | .readParam tag param => Sys2Proof.Machine.execReadParam tag param s
  | .commission tag => Sys2Proof.Machine.execCommission tag s
  | .decommission tag => Sys2Proof.Machine.execDecommission tag s
  | .resetPart tag => Sys2Proof.Machine.execResetPart tag s
  | .countPulse input order => Sys2Proof.Machine.execCountPulse input order s
  | .admission => Sys2Proof.Machine.execAdmission s
  | .maxGapHold => Sys2Proof.Machine.execMaxGapHold s
  | .holdResend => Sys2Proof.Machine.execHoldResend s
  | .feedResendLimit => Sys2Proof.Machine.execFeedResendLimit s
  | .unwindResend => Sys2Proof.Machine.execUnwindResend s
  | .unwindResendLimit => Sys2Proof.Machine.execUnwindResendLimit s
  | .stall input => Sys2Proof.Machine.execStall input s
  | .coordLimit input => Sys2Proof.Machine.execCoordLimit input s
  | .headArrival panel => Sys2Proof.Machine.execHeadArrival panel s
  | .tailPassage panel => Sys2Proof.Machine.execTailPassage panel s
  | .strokeDue => Sys2Proof.Machine.execStrokeDue s
  | .stroke => Sys2Proof.Machine.execStroke s
  | .strokeLate => Sys2Proof.Machine.execStrokeLate s
  | .ackTimeout => Sys2Proof.Machine.execAckTimeout s
  | .resyncAttemptTimeout => Sys2Proof.Machine.execResyncAttemptTimeout s
  | .strokeDone seq => Sys2Proof.Machine.execStrokeDone seq s
  | .strokeFault seq cause => Sys2Proof.Machine.execStrokeFault seq cause s
  | .headBusy => Sys2Proof.Machine.execHeadBusy s
  | .headReady => Sys2Proof.Machine.execHeadReady s
  | .resyncDone next => Sys2Proof.Machine.execResyncDone next s
  | .headQuery => Sys2Proof.Machine.execHeadQuery s
  | .driveState motion => Sys2Proof.Machine.execDriveState motion s
  | .unitState condition => Sys2Proof.Machine.execUnitState condition s
  | .spliceDue => Sys2Proof.Machine.execSpliceDue s
  | .runout atZero => Sys2Proof.Machine.execRunout atZero s
  | .splicePrepare => Sys2Proof.Machine.execSplicePrepare s
  | .prepared => Sys2Proof.Machine.execPrepared s
  | .spliceGo => Sys2Proof.Machine.execSpliceGo s
  | .spliceDone => Sys2Proof.Machine.execSpliceDone s
  | .spliceFail cause => Sys2Proof.Machine.execSpliceFail cause s
  | .spliceCancelled web => Sys2Proof.Machine.execSpliceCancelled web s
  | .spliceTimeout => Sys2Proof.Machine.execSpliceTimeout s
  | .cancelWaitTimeout => Sys2Proof.Machine.execCancelWaitTimeout s
  | .retryWaitEnd => Sys2Proof.Machine.execRetryWaitEnd s
  | .seamEdge => Sys2Proof.Machine.execSeamEdge s
  | .seamLost => Sys2Proof.Machine.execSeamLost s
  | .plannedSeamPassage => Sys2Proof.Machine.execPlannedSeamPassage s
  | .seamEntryRemoval => Sys2Proof.Machine.execSeamEntryRemoval s
  | .chainOpen => Sys2Proof.Machine.execChainOpen s
  | .chainClosed => Sys2Proof.Machine.execChainClosed s
  | .dwellTick order => Sys2Proof.Machine.execDwellTick order s
  | .banked => Sys2Proof.Machine.execBanked s
  | .zoneStale zone => Sys2Proof.Machine.execZoneStale zone s
  | .replyTimeout => Sys2Proof.Machine.execReplyTimeout s
  | .chamberEntry panel => Sys2Proof.Machine.execChamberEntry panel s
  | .chamberExit panel => Sys2Proof.Machine.execChamberExit panel s
  | .changeoverDrainEnd => Sys2Proof.Machine.execChangeoverDrainEnd s
  | .changeoverDone => Sys2Proof.Machine.execChangeoverDone s
  | .zonePoll => Sys2Proof.Machine.execZonePoll s
  | .zoneSet => Sys2Proof.Machine.execZoneSet s
  | .cut => Sys2Proof.Machine.execCut s
  | .zoneReport temperature valve fault => Sys2Proof.Machine.execZoneReport temperature valve fault s
  | .setAck setpoint => Sys2Proof.Machine.execSetAck setpoint s
  | .cutDone panel kind => Sys2Proof.Machine.execCutDone panel kind s
  | .cutFault panel kind code => Sys2Proof.Machine.execCutFault panel kind code s
  | .leadCutterCrossing panel => Sys2Proof.Machine.execLeadCutterCrossing panel s
  | .tailCutterCrossing panel => Sys2Proof.Machine.execTailCutterCrossing panel s
  | .receiveCharacter channel char stopIdle => Sys2Proof.Machine.execReceiveCharacter channel char stopIdle s
  | .interCharacterTimeout channel => Sys2Proof.Machine.execInterCharacterTimeout channel s
  | .transmitComplete channel => Sys2Proof.Machine.execTransmitComplete channel s
  | .seamLevelChange => Sys2Proof.Machine.execSeamLevelChange s
  | .receiverLineIdle channel => Sys2Proof.Machine.execReceiverLineIdle channel s

end Sys2Proof.Machine
end

