-- ==== Sys2Proof/Machine/Step.lean ====
section
/-! DEFINITION. One step: the command at the front of the queue, run with the queue's rest (log 1). -/

namespace Sys2Proof.Machine

/-- Takes the command at the front of the queue and runs it on the state with the queue's rest; on an empty queue the
controller idles (log 1). -/
def step (s : State) : Host.Outcome State Fault Refusal :=
  match s.pending with
  | [] => .next s
  | c :: rest => exec c { s with pending := rest }

/-- The state with the command that a word spells put at the front of its queue; no row of the table gives bits, so no
word spells a command and the state is unchanged. -/
def State.withFetchWord (s : State) (nbits w : Nat) : State :=
  match Sys2Proof.decodeTableWord nbits w with
  | some c => { s with pending := c :: s.pending }
  | none => s

end Sys2Proof.Machine
end

