-- ==== Sys2Proof/Safety.lean ====
section
/-! DEFINITION. The words the statements are made of: when a command is taken, what an answer leaves at the port, the
gate's evaluation after an event, and the invariant that every step keeps. -/

namespace Sys2Proof.Machine

/-! ### Conditions and outcomes -/

/-- RESET is not held, so commands are taken (11.7). -/
def State.awake (s : State) : Prop := s.ctl.resetHeld = false

/-- RESET is not held and the controller is commissioned (R196). -/
def State.onLine (s : State) : Prop := s.ctl.resetHeld = false ∧ s.ctl.commissioned = true

/-- The state after a command that leaves controller `c`; the queue stays. -/
def State.then (s : State) (c : Controller) : Host.Outcome State Fault Refusal := .next { s with ctl := c }

/-- Controller `c` with an answer pending at its port, the overrun mark clear (R184, R186). -/
def Controller.answered (c : Controller) (code : AnswerCode) (tag : Byte) (body : List Byte) : Controller :=
  { c with port := { c.port with pending := some ⟨code, tag, body⟩, overrun := false } }

/-- The end of an event that took controller `c` to `d`: the gate is evaluated when something R71 names has changed. -/
def settled (c d : Controller) : Controller := if d.gateInputs = c.gateInputs then d else d.gate

/-- What a head report follows (R12): controller `e`, which an event made of `c`, with the report when another panel
stands at the queue's head. -/
def reported (c e : Controller) : Controller :=
  if e.tab.queue.head? = c.tab.queue.head? then e else e.headReport

/-! ### What no event changes -/

/-- The library, the parameters, the port, the heat classes, the coordinates, the tick number, the input levels, the
reset pin, and whether the controller is commissioned. -/
structure Steady where
  lib : List Pattern
  params : List Nat
  port : Port
  classes : List (Option HeatClass)
  unw : Nat
  feed : Nat
  conv : Nat
  tick : Word32
  seamHigh : Bool
  haltHigh : Bool
  resetHeld : Bool
  commissioned : Bool

def Controller.steady (c : Controller) : Steady where
  lib := c.lib
  params := c.params
  port := c.port
  classes := c.cham.classes
  unw := c.mot.unw.coord
  feed := c.mot.feed.coord
  conv := c.mot.conv.coord
  tick := c.mot.tick
  seamHigh := c.mot.seamHigh
  haltHigh := c.mot.haltHigh
  resetHeld := c.resetHeld
  commissioned := c.commissioned

/-- The commands that are events of the line, the head, the chamber, the cutter and the links: neither a reset, nor the
port's, nor a request, nor a pulse, a tick or an edge of an input. -/
def isEvent : Instr → Bool
  | .powerOnReset _ _ | .resetAsserted | .selectionBegin | .selectionEnd _ _ => false
  | .countPulse _ _ | .dwellTick _ | .seamEdge | .seamLevelChange | .chainOpen | .chainClosed => false
  | i => (requestParts i).isNone

/-! ### The attention unit (R187, R189) -/

/-- The flag bits of group `g` that have no source (R187). -/
def sourcelessBits (g : Nat) : Byte := BitVec.allOnes 8 <<< sourceCount g

structure AttentionSound (a : Attention) (held : Bool) : Prop where
  /-- There are six groups, each with eight details. -/
  six : a.groups.length = 6
  eight : ∀ g ∈ a.groups, g.details.length = 8
  /-- Flags without a source stay clear. -/
  sourceless : ∀ n, 1 ≤ n → n ≤ 6 → (a.group n).flags &&& sourcelessBits n = 0#8
  /-- The output is the level R189 asks for; while RESET is held it is deasserted. -/
  output : a.output = (!held && a.wanted)

/-! ### The record unit (R1, R2, R5, R7, R13) -/

structure RecordsSound (t : RecordUnit) : Prop where
  /-- At most 64 live records; no two share a record identity or a panel number (R1). -/
  room : t.panels.length ≤ 64
  known : ∀ p ∈ t.panels, p.id < t.nextId
  ids : (t.panels.map Panel.id).Nodup
  numbers : (t.panels.map Panel.number).Nodup
  /-- Every SCHEDULED panel stands exactly once in the queue, every other panel exactly once in the roster (R5). -/
  queueOnce : t.queue.Nodup
  rosterOnce : t.roster.Nodup
  queued : ∀ id, id ∈ t.queue ↔ ∃ p ∈ t.panels, p.id = id ∧ p.state = .scheduled
  onRoster : ∀ id, id ∈ t.roster ↔ ∃ p ∈ t.panels, p.id = id ∧ p.state ≠ .scheduled
  /-- The fields from FEEDING are present exactly from FEEDING on (R2). -/
  placed : ∀ p ∈ t.panels, p.placed.isSome = true ↔ p.state ≠ .scheduled

/-! ### The stroke sequencer (R123) -/

/-- The entries carry consecutive sequence numbers, the newest one below `next`, modulo 256 (R123). -/
def runsUpTo : List WindowEntry → Byte → Prop
  | [], _ => True
  | e :: rest, next => e.seq + BitVec.ofNat 8 (rest.length + 1) = next ∧ runsUpTo rest next

/-- How many window entries name record `id`. -/
def inFlight (window : List WindowEntry) (id : Nat) : Nat := (window.filter (fun e => e.panel == id)).length

/-- A record named by the sequencer is an old one and, while it lives, on the web. -/
def NamesOnWeb (t : RecordUnit) (id : Nat) : Prop := id < t.nextId ∧ ∀ p ∈ t.panels, p.id = id → p.placed.isSome = true

structure StrokesSound (t : RecordUnit) (q : Sequencer) : Prop where
  consecutive : runsUpTo q.window q.next
  /-- Out of STEPPING the window is empty. -/
  stepping : q.mode ≠ .stepping → q.window = []
  windowNames : ∀ e ∈ q.window, NamesOnWeb t e.panel
  cursorNames : ∀ k, q.cursor = some k → NamesOnWeb t k.panel
  /-- A live panel that the cursor names has a stroke left to issue (R116). -/
  cursorLeft : ∀ k, q.cursor = some k → ∀ p ∈ t.panels, p.id = k.panel → 0 < p.strokesLeft
  /-- done + faulted + strokes in the window = issued, for every live panel (R123). -/
  count : ∀ p ∈ t.panels, ∀ x, p.placed = some x → x.done + x.faulted + inFlight q.window p.id = x.issued
  /-- issued + missed + aborted never exceed the total (R123). -/
  total : ∀ p ∈ t.panels, ∀ x, p.placed = some x → x.issued + x.missed + x.aborted ≤ p.total

/-! ### Reference counts (R36, R89) -/

/-- How many live panels name pattern `n`. -/
def RecordUnit.patternNames (t : RecordUnit) (n : Nat) : Nat := (t.panels.filter (fun p => p.pattern == n)).length

/-- How many live panels name roll `id`. -/
def RecordUnit.rollNames (t : RecordUnit) (id : Nat) : Nat :=
  (t.panels.filter (fun p => p.placed.map Placed.roll == some id)).length

/-- A pattern's reference count is the number of live panels that name it (R36). -/
structure PatternsCounted (t : RecordUnit) (lib : List Pattern) : Prop where
  named : ∀ p ∈ t.panels, 1 ≤ p.pattern ∧ p.pattern ≤ 32
  count : ∀ n, 1 ≤ n → n ≤ 32 → (lib.getD (n - 1) Pattern.blank).refs = t.patternNames n
  /-- No panel names an EMPTY or DRAFT pattern. -/
  free : ∀ n, 1 ≤ n → n ≤ 32 → (lib.getD (n - 1) Pattern.blank).state = .empty ∨
    (lib.getD (n - 1) Pattern.blank).state = .draft → (lib.getD (n - 1) Pattern.blank).refs = 0

/-- The rolls in the slots. -/
def RollManager.rolls (r : RollManager) : List Roll := r.slots.filterMap (fun slot => slot)

/-- A roll's reference count is the number of live panels that name it (R89), and the roll of a panel keeps its slot. -/
structure RollsCounted (t : RecordUnit) (r : RollManager) : Prop where
  slot : ∀ p ∈ t.panels, ∀ x, p.placed = some x → ∃ y ∈ r.rolls, y.id = x.roll
  count : ∀ y ∈ r.rolls, y.refs = t.rollNames y.id

/-! ### The rolls, the spindles and the roll job (R83, R84, R98, R110) -/

/-- The roll has not been on the web. -/
def Roll.isNew (x : Roll) : Prop := x.state = .registered ∨ x.state = .mounted

/-- The roll runs, or its web may still stand between the unwind and the feed. -/
def Roll.onWeb (x : Roll) : Prop := x.state = .running ∨ x.state = .expired

/-- The rolls: distinct ids (R84), at most one RUNNING (R83), and none named by a panel before it has run. -/
structure RollTable (l : List Roll) : Prop where
  ids : (l.map Roll.id).Nodup
  oneRunning : ∀ x ∈ l, ∀ y ∈ l, x.state = .running → y.state = .running → x = y
  unnamed : ∀ x ∈ l, x.isNew → x.refs = 0

def RollManager.spindle (r : RollManager) : Spindle → SpindleRec
  | .a => r.spA | .b => r.spB

/-- A LOADED spindle holds a MOUNTED roll of its own (R83, R85). -/
structure SpindlesLoaded (l : List Roll) (spindle : Spindle → SpindleRec) : Prop where
  mounted : ∀ sp, (spindle sp).state = .loaded → ∃ x ∈ l, (spindle sp).roll = some x.id ∧ x.state = .mounted
  apart : (spindle .a).state = .loaded → (spindle .b).state = .loaded → (spindle .a).roll ≠ (spindle .b).roll

/-- The feed roll, and the rolls whose planned seams have yet to pass, are RUNNING or EXPIRED, and no two the same
(R110). -/
structure FeedSound (l : List Roll) (current : Option Nat) (seams : List Seam) : Prop where
  feed : ∀ id, current = some id → ∃ x ∈ l, x.id = id ∧ x.onWeb
  awaited : ∀ e ∈ seams, e.kind.awaitsPassage = true → ∃ x ∈ l, x.id = e.kind.roll ∧ x.onWeb
  later : ∀ e ∈ seams, e.kind.awaitsPassage = true → current ≠ some e.kind.roll
  once : ∀ e ∈ seams, ∀ f ∈ seams, e.kind.awaitsPassage = true → f.kind.awaitsPassage = true →
    e.kind.roll = f.kind.roll → e = f

/-- A job state of a splice in progress, whose target stands LOADED. -/
def RollJob.inSplice : RollJob → Bool
  | .preparing | .stopping | .splicing | .cancelWait => true
  | _ => false

/-- The roll job's targets: LOADED from PENDING until the splice ends (R86, R98), and no splice in CONFIG (R199). -/
structure JobSound (r : RollManager) (commissioned : Bool) : Prop where
  target : r.job.inSplice = true → ∃ x, r.splice = some x ∧ (r.spindle x.target).state = .loaded
  pending : r.job = .pending → ∀ sp, (r.spindle sp).state = .active → (r.spindle (otherSpindle sp)).state = .loaded
  quiet : commissioned = false → r.job = .normal ∨ r.job = .low ∨ r.job = .noRoll

structure RollsSound (r : RollManager) (commissioned : Bool) : Prop where
  table : RollTable r.rolls
  spindles : SpindlesLoaded r.rolls r.spindle
  feed : FeedSound r.rolls r.feedRoll r.seams
  job : JobSound r commissioned

/-! ### Lists, links, counts and parameters -/

/-- The seam list holds at most 4 entries, and 3 while a place is kept for a splice in progress, in the order of their
coordinates, no two at one (R106). -/
structure SeamsSound (job : RollJob) (seams : List Seam) : Prop where
  room : seams.length ≤ 4
  kept : job.inSplice = true → seams.length ≤ 3
  ordered : (seams.map Seam.coord).Pairwise (· < ·)

/-- A link that is not enabled stands idle and empty (R169). -/
def LinkIdle (l : Link) : Prop := l.enabled = false → l.rx = .hunting ∧ l.tx = none ∧ l.queue = []

/-- At most 4 items wait on channels F and S, each a telegram that a newer one may remove (R177). -/
def LineQueueSound (l : Link) : Prop := l.queue.length ≤ 4 ∧ ∀ i ∈ l.queue, i.removable = true

/-- At most 4 items other than STROKE wait on channel P, among them at most one break (R179). -/
def HeadQueueSound (l : Link) : Prop :=
  waitingPlaces l.queue ≤ 4 ∧ (l.queue.filter (fun i => i == TxItem.brk)).length ≤ 1

/-- On channel Z at most one command waits, and only behind a break (R180). -/
def BusQueueSound (l : Link) : Prop := l.queue.length ≤ 1 ∧ (l.queue ≠ [] → l.tx = some .brk)

/-- A count input's coordinate and interval counter stay within their ceilings (R43, R44). -/
def CounterSound (k : Counter) : Prop := k.coord ≤ countCeiling ∧ k.interval ≤ counterCeiling

/-- There are 46 parameters, each within its own range (R194). -/
def ParamsSound (params : List Nat) : Prop :=
  params.length = paramCount ∧ ∀ id, 1 ≤ id → id ≤ paramCount → paramAccepts id (params.getD (id - 1) 0) = true

/-! ### The invariant -/

/-- What every step keeps in the blocks other than the record unit and the stroke sequencer. -/
structure BlocksSound (c : Controller) : Prop where
  attention : AttentionSound c.att c.resetHeld
  seams : SeamsSound c.rolls.job c.rolls.seams
  /-- The cut queue holds at most 8 entries (R158). -/
  cuts : c.cut.queue.length ≤ 8
  /-- The tables keep their sizes: 32 patterns, 8 rolls, 8 heat classes, 6 zones (R26, R82, R133, R136). -/
  patterns : c.lib.length = 32
  rolls : c.rolls.slots.length = 8
  classes : c.cham.classes.length = 8
  zones : c.cham.zones.length = 6
  /-- The links are enabled exactly while the controller is commissioned (R169). -/
  enabled : ∀ ch, (c.link ch).enabled = c.commissioned
  idle : ∀ ch, LinkIdle (c.link ch)
  feedLink : LineQueueSound c.chF
  spliceLink : LineQueueSound c.chS
  headLink : HeadQueueSound c.chP
  busLink : BusQueueSound c.chZ
  counts : ∀ i, CounterSound (c.mot.counter i)
  params : ParamsSound c.params

/-- What every step keeps. -/
structure Sound (c : Controller) : Prop where
  blocks : BlocksSound c
  records : RecordsSound c.tab
  strokes : StrokesSound c.tab c.seq
  rolls : RollsSound c.rolls c.commissioned
  patterns : PatternsCounted c.tab c.lib
  fed : RollsCounted c.tab c.rolls
  /-- The window holds at most WINDOW entries while the controller is commissioned (R123). -/
  window : c.commissioned = true → c.seq.window.length ≤ c.windowSize
  /-- The line roster is empty while the controller is in CONFIG (R1). -/
  offline : c.commissioned = false → c.tab.roster = []

end Sys2Proof.Machine
end

