-- ==== Sys2Proof/Certificates/Slice0/Obligations.lean ====
section
/-! DEFINITION. The statements. Each says what a command or an operation does, for every state and operands that meet
its hypotheses; `s.then c` is the next state with controller `c` and the queue as it stood, and `settled c d` is `d`
with the gate evaluated when the event changed something R71 names. The numbers of the model's own choices are those of
the assumption log. A request row is stated at every port: it is the request carried out, and an answer that still waited
for collection is replaced, where a frame would have been discarded (log 4). -/

open Sys2Proof Sys2Proof.Machine

/-! ### The queue, reset and the invariant -/

/-- A step is `exec` of the front command on the state with the queue's rest; an empty queue idles (log 1). -/
def Obligations.StepRunsTheFrontCommand : Prop :=
  (∀ (c : Instr) (s : State) (rest : List Instr), s.pending = c :: rest → step s = exec c { s with pending := rest }) ∧
    ∀ s : State, s.pending = [] → step s = .next s

/-- No command stops (log 25), and none touches the queue (log 1). -/
def Obligations.EveryCommandAnswersAndKeepsTheQueue : Prop :=
  ∀ (i : Instr) (s : State), ∃ c : Controller, exec i s = s.then c

/-- While RESET is held every command but its release changes nothing (11.7, log 7). -/
def Obligations.CommandsIgnoredWhileResetIsHeld : Prop :=
  ∀ (i : Instr) (s : State), s.ctl.resetHeld = true → (∀ a b, i ≠ .powerOnReset a b) → exec i s = s.then s.ctl

/-- What power-on reset, RESET_PART and RESET_ASSERTED leave (R200), block by block. That RESET_ASSERTED keeps the
registers until the release and deasserts attention is 11.7 and log 7; the input levels are log 6. The zones' report-age
origin at tick 0 is the model's choice (log 22), and so are no cut in progress and no receiver that waits for its line to
stand idle (log 28). -/
def Obligations.ResetsLeaveTheFreshController : Prop :=
  (∀ a b s, exec (.powerOnReset a b) s = s.then (Controller.fresh a b)) ∧
    (∀ tag s, s.awake → exec (.resetPart tag) s = s.then (Controller.fresh s.ctl.mot.seamHigh s.ctl.mot.haltHigh)) ∧
    (∀ s, s.awake →
      exec .resetAsserted s = s.then { s.ctl with resetHeld := true, att := { s.ctl.att with output := false } }) ∧
    State.reset = ⟨Controller.fresh false false, []⟩ ∧
    ∀ a b, let c := Controller.fresh a b
      (c.tab.panels = [] ∧ c.tab.queue = [] ∧ c.tab.roster = [] ∧ c.lib = List.replicate 32 Pattern.blank ∧
        c.poolFree = 1024) ∧
      (∀ i, c.mot.counter i = ⟨0, 0, false⟩) ∧ (c.mot.tick = 0#32 ∧ c.mot.limit = false) ∧
      (c.mot.seamHigh = a ∧ c.mot.haltHigh = b) ∧
      (c.line.state = .config ∧ c.line.lastHalt = none ∧ c.line.holds = HoldCauses.empty ∧ c.line.mode = .off ∧
        c.line.lastTail = none ∧ c.line.report = none ∧ c.commissioned = false) ∧
      (c.line.speed = 1000 ∧ c.line.resend = 0 ∧ c.line.origin = 0 ∧ c.line.suspended = false ∧ c.line.fabricMark = false) ∧
      (c.rolls.slots = List.replicate 8 none ∧ c.rolls.spA = ⟨.empty, none, none⟩ ∧ c.rolls.spB = ⟨.empty, none, none⟩ ∧
        c.rolls.job = .noRoll ∧ c.rolls.seams = [] ∧ c.rolls.feedRoll = none) ∧
      (c.rolls.fill = 0 ∧ c.rolls.rangeMark = false ∧ c.rolls.hyst = .refill ∧ c.rolls.retry = 0 ∧
        c.rolls.runout = false ∧ c.rolls.report = none ∧ c.rolls.resend = 0 ∧ c.rolls.origin = 0 ∧
        c.rolls.suspended = false ∧ c.rolls.splice = none) ∧
      (c.seq.cursor = none ∧ c.seq.window = [] ∧ c.seq.next = 0#8 ∧ c.seq.head = .ready ∧ c.seq.mode = .stepping) ∧
      (c.cham.classes = List.replicate 8 none ∧ c.cham.lineClass = 0 ∧ c.cham.changeover = .idle ∧
        c.cham.banked = false ∧ c.cham.txn = none ∧ c.cut.queue = []) ∧
      (c.cham.zones = List.replicate 6 ⟨false, .off, 0, none, none, 0#32, .off⟩ ∧ c.cham.bankTimer = none ∧
        c.cham.lastPolled = 0 ∧ c.cut.now = none) ∧
      (∀ ch, (c.link ch).enabled = false ∧ (c.link ch).tx = none ∧ (c.link ch).queue = [] ∧
        (c.link ch).rx = ⟨.hunting, [], false, false⟩) ∧
      (c.port.pending = none ∧ c.port.overrun = false ∧ c.port.buffer = []) ∧
      (∀ g, 1 ≤ g → g ≤ 6 → (c.att.group g).flags = 0#8 ∧ (c.att.group g).enables = 0#8 ∧
        (c.att.group g).gateOpen = true ∧ ∀ n, n < 8 → (c.att.group g).details[n]? = some none) ∧
      (c.att.last = none ∧ c.att.output = false ∧ c.params = Config.paramDefaults ∧ c.resetHeld = false)

/-- The invariant holds after every kind of reset, whatever the input levels. -/
def Obligations.ResetStateIsSound : Prop :=
  Sound State.reset.ctl ∧ ∀ a b, Sound (Controller.fresh a b)

/-- Every step keeps the invariant: the record unit, the reference counts (R36, R89), the rolls with at most one RUNNING
(R83), the feed roll and the splice's target, the strokes (R123), the seam list (R106), the links' queues (R177, R179,
R180), the counts, the parameters and the attention output. -/
def Obligations.SoundnessSurvivesEveryStep : Prop :=
  ∀ s t : State, Sound s.ctl → step s = .next t → Sound t.ctl

/-- The attention output after every command is what R189 says, while RESET is not held. -/
def Obligations.AttentionOutputFollowsTheFlags : Prop :=
  ∀ (i : Instr) (s t : State), Sound s.ctl → exec i s = .next t → t.ctl.resetHeld = false →
    (t.ctl.att.output = true ↔
      ∃ g, 1 ≤ g ∧ g ≤ 6 ∧ (t.ctl.att.group g).gateOpen = true ∧
        (t.ctl.att.group g).flags &&& (t.ctl.att.group g).enables ≠ 0#8)

/-- What an event leaves alone, whatever it sets off: the pattern library, the parameters,
the port, the heat classes, the three coordinates, the tick number, the input levels and CONFIG. -/
def Obligations.EventsLeaveTheRestAlone : Prop :=
  ∀ (i : Instr) (s t : State), isEvent i = true → Sound s.ctl → exec i s = .next t → t.ctl.steady = s.ctl.steady

/-! ### The request port -/

/-- The beginning of a selection fixes what it shifts out (R182, log 30): the bytes of the pending answer's frame in
order, then 0x00 for every further byte, and 0x00 throughout with no answer pending. -/
def Obligations.SelectionBeginFixesTheAnswer : Prop :=
  ∀ s : State, s.awake →
    let frame := s.ctl.port.pending.map (fun a => answerFrame a s.ctl.port.overrun)
    let begun : Port := { s.ctl.port with isOpen := true, buffer := [], shift := frame }
    exec .selectionBegin s = s.then { s.ctl with port := begun } ∧
      ∀ n, (begun.shiftedOut n).length = n ∧ ∀ k, k < n → (begun.shiftedOut n)[k]? = some ((frame.getD []).getD k 0x00#8)

/-- The layout of an answer frame (R203): its length byte, its code, the echoed tag, the overrun mark, its fields, and a
check byte that brings the 8-bit sum to 0. -/
def Obligations.AnswerFramesSumToZero : Prop :=
  ∀ (a : Answer) (overrun : Bool), a.body.length ≤ 251 →
    (answerFrame a overrun).length = a.body.length + 5 ∧
      (byteAt (answerFrame a overrun) 0).toNat + 1 = (answerFrame a overrun).length ∧
      byteAt (answerFrame a overrun) 1 = BitVec.ofNat 8 a.code.code ∧
      byteAt (answerFrame a overrun) 2 = a.tag ∧
      byteAt (answerFrame a overrun) 3 = (if overrun then 1#8 else 0#8) ∧
      fieldAt (answerFrame a overrun) 4 a.body.length = a.body ∧
      byteSum (answerFrame a overrun) = 0#8

/-- A selection that shifts in no request: the answer is collected when it was shifted out whole, and the selection
closes (R183, R184). With no selection open its end changes nothing. -/
def Obligations.SelectionEndCollectsTheAnswer : Prop :=
  (∀ (s : State) (bytes : List Byte) (spare : Nat), s.awake → s.ctl.port.isOpen = true →
    (bytes = [] ∨ bytes.head? = some 0#8) →
    let collected := match s.ctl.port.shift with
      | some frame => decide (frame.length ≤ bytes.length)
      | none => false
    exec (.selectionEnd bytes spare) s = s.then { s.ctl with port :=
      { isOpen := false
        shift := none
        buffer := []
        pending := if collected then none else s.ctl.port.pending
        overrun := if collected then false else s.ctl.port.overrun } }) ∧
    ∀ (s : State) (bytes : List Byte) (spare : Nat), s.ctl.port.isOpen = false →
      exec (.selectionEnd bytes spare) s = s.then s.ctl

/-- How the bytes of a selection are classified (R183). -/
def Obligations.SelectionBytesAreClassified : Prop :=
  classify [] = .noRequest ∧
    ∀ (first : Byte) (rest : List Byte),
      classify (first :: rest) =
        if first = 0#8 then .noRequest
        else if first.toNat < 3 ∨ 250 < first.toNat then .badFrame
        else if rest.length < first.toNat then .badFrame
        else if byteSum ((first :: rest).take (first.toNat + 1)) = 0#8 then .request
        else .badFrame

/-- The frames that carry out no request, `c` being the controller after the collection: BAD_FRAME (R183), the overrun
(R186), UNKNOWN_REQUEST, the access check, and a frame too short or too long (R185); and the lengths that APPEND_STEPS
(R31) and SET_HEAT_CLASS (R135) refuse by their own rules (log 18). -/
def Obligations.FramesRefusedAtThePort : Prop :=
  ∀ (s : State) (bytes : List Byte) (spare : Nat), s.awake → s.ctl.port.isOpen = true →
    let c := s.ctl.collect bytes
    let code := (byteAt bytes 1).toNat
    let tag := byteAt bytes 2
    let count := (byteAt bytes 0).toNat - 3
    let pattern := (byteAt bytes 3).toNat
    let refused := fun (x : AnswerCode) (body : List Byte) =>
      exec (.selectionEnd bytes spare) s = s.then (c.answered x tag body).closePort
    (c.port.pending = none → classify bytes = .badFrame →
      exec (.selectionEnd bytes spare) s =
        s.then (c.answered .badFrame (if 3 ≤ bytes.length then byteAt bytes 2 else 0#8) []).closePort) ∧
    (c.port.pending ≠ none → classify bytes ≠ .noRequest →
      exec (.selectionEnd bytes spare) s =
        s.then (Controller.raise { c with port := { c.port with overrun := true } } .linkPortOverrun
          (Detail.num (if 3 ≤ bytes.length then (byteAt bytes 2).toNat else 0))).closePort) ∧
    (c.port.pending = none → classify bytes = .request → requestFields code = none →
      exec (.selectionEnd bytes spare) s = s.then (c.answered .unknownRequest tag []).closePort) ∧
    (c.port.pending = none → classify bytes = .request → needsCommission code = true → c.commissioned = false →
      exec (.selectionEnd bytes spare) s = s.then (c.answered .notCommissioned tag []).closePort) ∧
    (c.port.pending = none → classify bytes = .request → needsConfig code = true → c.commissioned = true →
      exec (.selectionEnd bytes spare) s = s.then (c.answered .notInConfig tag []).closePort) ∧
    (∀ widths i, c.port.pending = none → classify bytes = .request → requestFields code = some widths →
      c.accessRefusal code = none → code ≠ 0x11 → code ≠ 0x50 → lengthFault 1 widths count = some i →
      exec (.selectionEnd bytes spare) s = s.then (c.answered .badField tag (field 1 i)).closePort) ∧
    (c.port.pending = none → classify bytes = .request → code = 0x11 →
      (count = 0 → refused .badField [1#8]) ∧
      (0 < count → (pattern = 0 ∨ 32 < pattern) → refused .noSuchRecord []) ∧
      (0 < count → 1 ≤ pattern → pattern ≤ 32 → (count = 1 ∨ count ≠ 2 + 7 * (byteAt bytes 4).toNat) →
        refused .badField [2#8])) ∧
    (c.port.pending = none → classify bytes = .request → code = 0x50 →
      (count = 0 → refused .badField [1#8]) ∧
      (2 ≤ count → count < 20 → refused .badField [2#8]) ∧
      (20 < count → refused .badField [12#8]))

/-- A request frame that ends a selection at a free port does what the request's row does, and the selection closes
(R183, R184, R185, log 4). `extra` is what the line computer clocks in behind the frame. The port is free once the answer
that the same selection has shifted out whole is collected. -/
def Obligations.RequestFrameMeansItsRow : Prop :=
  ∀ (r : Instr) (frame extra : List Byte) (spare : Nat) (s : State), r.wf = true → requestFrame r = some frame →
    s.awake → s.ctl.port.isOpen = true →
    let c := s.ctl.collect (frame ++ extra)
    c.port.pending = none →
    ∃ t : State, exec r (s.withCtl c) = .next t ∧
      exec (.selectionEnd (frame ++ extra) spare) s = .next (t.withCtl t.ctl.closePort)

/-! ### The station links -/

/-- A telegram laid out as R171 and 12.1 say passes the five checks of R175 as itself, from the station whose address
the channel expects. -/
def Obligations.TelegramsPassTheFiveChecks : Prop :=
  ∀ (c : Controller) (t : RxTelegram) (address : Nat), address ≤ 30 →
    c.stationAddress t.channel = some address → c.checkTelegram t.channel (t.bytes address) = .good t

/-- RECEIVE_CHARACTER (R172 to R175): the assembly's moves, its errors, and a complete telegram, on an enabled channel
whose receiver does not wait for the idle level; a character is ignored otherwise. -/
def Obligations.CharactersBuildTelegrams : Prop :=
  ∀ (ch : Channel) (x : LinkChar) (s : State), s.awake →
    let c := s.ctl
    let rx := (c.link ch).rx
    let b : Byte := x.setWidth 8
    let held := rx.held ++ [b]
    let name := Detail.named (channelDetail ch)
    ((c.hears ch = false ∨ rx.waitIdle = true) → ∀ stop, exec (.receiveCharacter ch x stop) s = s.then c) ∧
    (c.hears ch = true → rx.waitIdle = false →
      exec (.receiveCharacter ch x false) s =
        s.then ((c.setRx ch ⟨.hunting, [], false, true⟩).raise .linkFraming name)) ∧
    (c.hears ch = true → rx.waitIdle = false → x.getLsbD 8 = true → b.toNat ≤ 30 → rx.phase = .hunting →
      exec (.receiveCharacter ch x true) s = s.then (c.setRx ch ⟨.count, [b], true, false⟩)) ∧
    (c.hears ch = true → rx.waitIdle = false → x.getLsbD 8 = true → b.toNat ≤ 30 → rx.phase ≠ .hunting →
      exec (.receiveCharacter ch x true) s =
        s.then ((c.setRx ch ⟨.count, [b], true, false⟩).raise .linkTimeout (Detail.channelNamed ch .cutShort))) ∧
    (c.hears ch = true → rx.waitIdle = false → x.getLsbD 8 = true → 30 < b.toNat →
      exec (.receiveCharacter ch x true) s = s.then (settled c ((c.setRx ch .hunting).linkProtocol ch))) ∧
    (c.hears ch = true → rx.waitIdle = false → x.getLsbD 8 = false → rx.phase = .hunting →
      exec (.receiveCharacter ch x true) s = s.then c) ∧
    (c.hears ch = true → rx.waitIdle = false → x.getLsbD 8 = false → rx.phase = .count → 2 ≤ b.toNat → b.toNat ≤ 30 →
      exec (.receiveCharacter ch x true) s = s.then (c.setRx ch ⟨.body, held, true, false⟩)) ∧
    (c.hears ch = true → rx.waitIdle = false → x.getLsbD 8 = false → rx.phase = .count → (b.toNat < 2 ∨ 30 < b.toNat) →
      exec (.receiveCharacter ch x true) s = s.then (settled c ((c.setRx ch .hunting).linkProtocol ch))) ∧
    (c.hears ch = true → rx.waitIdle = false → x.getLsbD 8 = false → rx.phase = .body →
      held.length ≠ (byteAt held 1).toNat + 2 →
      exec (.receiveCharacter ch x true) s = s.then (c.setRx ch ⟨.body, held, true, false⟩)) ∧
    (c.hears ch = true → rx.waitIdle = false → x.getLsbD 8 = false → rx.phase = .body →
      held.length = (byteAt held 1).toNat + 2 →
      exec (.receiveCharacter ch x true) s = s.then (settled c
        (match c.checkTelegram ch held with
        | .badCheck => (c.setRx ch .hunting).raise .linkCheck name
        | .badProtocol => (c.setRx ch .hunting).linkProtocol ch
        | .good t => (c.setRx ch .hunting).takeTelegram t)))

/-- INTER_CHARACTER_TIMEOUT, RECEIVER_LINE_IDLE and TRANSMIT_COMPLETE (R173, R174, R177): a telegram cut short returns
the receiver to hunting with LINK.TIMEOUT; a line found idle ends the receiver's wait; the next waiting item begins. -/
def Obligations.LinkTimersAndTransmission : Prop :=
  ∀ (ch : Channel) (s : State), s.awake →
    let c := s.ctl
    let l := c.link ch
    (c.hears ch = true → l.rx.timer = true →
      exec (.interCharacterTimeout ch) s =
        s.then ((c.setRx ch .hunting).raise .linkTimeout (Detail.named (channelDetail ch)))) ∧
    (c.hears ch = false ∨ l.rx.timer = false → exec (.interCharacterTimeout ch) s = s.then c) ∧
    (exec (.receiverLineIdle ch) s = s.then (c.setRx ch { l.rx with waitIdle := false })) ∧
    (l.tx ≠ none → exec (.transmitComplete ch) s = s.then (c.setLink ch { l with tx := l.queue.head?, queue := l.queue.tail })) ∧
    (l.tx = none → exec (.transmitComplete ch) s = s.then c)

/-- Handing an item to channel F, S or P (R177, R179): a disabled link takes nothing; an idle one begins it; behind one
in transmission a STROKE, or an item that finds fewer than 4 waiting, joins the queue; with 4 waiting the oldest item it
supersedes gives way, else the oldest telegram that may be removed does, and that loss is told. A command for channel Z
waits behind the break of COMMISSION only, alone, and begins at once otherwise (R180, log 17). -/
def Obligations.ItemsQueueOnTheLinks : Prop :=
  ∀ (l : Link) (x : TxItem),
    (l.enabled = false → l.hand x = (l, false)) ∧
    (l.enabled = true → l.tx = none → l.hand x = ({ l with tx := some x }, false)) ∧
    (l.enabled = true → l.tx ≠ none → (x.isStroke = true ∨ waitingPlaces l.queue < 4) →
      l.hand x = ({ l with queue := l.queue ++ [x] }, false)) ∧
    (∀ front y back, l.enabled = true → l.tx ≠ none → x.isStroke = false → 4 ≤ waitingPlaces l.queue →
      l.queue = front ++ y :: back → (∀ z ∈ front, x.supersedes z = false) → x.supersedes y = true →
      l.hand x = ({ l with queue := front ++ back ++ [x] }, false)) ∧
    (∀ front y back, l.enabled = true → l.tx ≠ none → x.isStroke = false → 4 ≤ waitingPlaces l.queue →
      (∀ z ∈ l.queue, x.supersedes z = false) → l.queue = front ++ y :: back →
      (∀ z ∈ front, z.removable = false) → y.removable = true →
      l.hand x = ({ l with queue := front ++ back ++ [x] }, true)) ∧
    (∀ (c : Controller) (ch : Channel), (c.link ch) = l →
      c.hand ch x = (if (l.hand x).2 then (c.setLink ch (l.hand x).1).raise .linkTimeout (Detail.channelNamed ch .transmit)
        else c.setLink ch (l.hand x).1)) ∧
    (l.enabled = false → l.handBus x = l) ∧
    (l.enabled = true → l.tx = some .brk → l.handBus x = { l with queue := [x] }) ∧
    (l.enabled = true → l.tx ≠ some .brk → l.handBus x = { l with tx := some x, queue := [] })

/-! ### Notices -/

/-- Raising a notice (R188): its flag is set and its detail replaced, whatever the enable and the gate; nothing else in
the attention unit changes but the output. -/
def Obligations.RaisingSetsTheFlagAndTheDetail : Prop :=
  ∀ (c : Controller) (n : Notice) (d : Detail), AttentionSound c.att c.resetHeld →
    let a := (c.raise n d).att
    let old := c.att.group n.group
    (c.raise n d = { c with att := a } ∧ a.last = c.att.last ∧ a.groups.length = 6) ∧
      a.group n.group = { old with flags := (a.group n.group).flags, details := old.details.set (n.source - 1) (some d) } ∧
      (∀ k, k < 8 → (a.group n.group).flags.getLsbD k = (old.flags.getLsbD k || decide (k + 1 = n.source))) ∧
      ∀ g, 1 ≤ g → g ≤ 6 → g ≠ n.group → a.group g = c.att.group g

/-- READ_NOTICE (R190): the lowest deliverable source of the first deliverable group is answered with its detail, its
flag cleared, the gate closed, the last delivered source set and the output re-evaluated; with nothing deliverable the
answer is zeros and the last delivered source, and nothing changes but the port (the empty answer's layout: log 19; a
pending answer is replaced: log 4). -/
def Obligations.ReadNoticeDeliversTheFirst : Prop :=
  ∀ (tag : Byte) (s : State), s.awake → AttentionSound s.ctl.att s.ctl.resetHeld →
    let a := s.ctl.att
    let ready := fun (g n : Nat) => (a.group g).gateOpen = true ∧ (a.group g).flags.getLsbD (n - 1) = true ∧
      (a.group g).enables.getLsbD (n - 1) = true
    (∀ g n, 1 ≤ g → g ≤ 6 → 1 ≤ n → n ≤ 8 → ready g n → (∀ m, 1 ≤ m → m < n → ¬ ready g m) →
      (∀ h m, 1 ≤ h → h < g → 1 ≤ m → m ≤ 8 → ¬ ready h m) →
      ∃ b : Attention,
        exec (.readNotice tag) s = s.then (({ s.ctl with att := b }).answered .ok tag
          (field 1 g ++ field 1 n ++ detailBody ((a.group g).details.getD (n - 1) none))) ∧
        b.last = some (g, n) ∧ b.output = b.wanted ∧
        b.group g = { a.group g with flags := (a.group g).flags &&& ~~~(1#8 <<< (n - 1)), gateOpen := false } ∧
        ∀ h, 1 ≤ h → h ≤ 6 → h ≠ g → b.group h = a.group h) ∧
    ((∀ g n, 1 ≤ g → g ≤ 6 → 1 ≤ n → n ≤ 8 → ¬ ready g n) →
      exec (.readNotice tag) s = s.then (s.ctl.answered .ok tag ([0#8, 0#8] ++ detailBody none ++ lastBody a.last)))

/-- ACK_GROUP opens a group's gate and SET_ENABLES gives it its enables (R191, R192); the output is re-evaluated and the
answer carries the group's flags, enables and gate (log 19); a pending answer is replaced (log 4). -/
def Obligations.AckGroupAndSetEnables : Prop :=
  ∀ (tag group mask : Byte) (s : State), s.awake → AttentionSound s.ctl.att s.ctl.resetHeld →
    let a := s.ctl.att
    let old := a.group group.toNat
    let put := fun (x : NoticeGroup) => Attention.refresh { a with groups := a.groups.set (group.toNat - 1) x }
    ((group.toNat = 0 ∨ 6 < group.toNat) →
      exec (.ackGroup tag group) s = s.then (s.ctl.answered .badField tag [1#8]) ∧
      exec (.setEnables tag group mask) s = s.then (s.ctl.answered .badField tag [1#8])) ∧
    (1 ≤ group.toNat → group.toNat ≤ 6 →
      exec (.ackGroup tag group) s =
        s.then (({ s.ctl with att := put { old with gateOpen := true } }).answered .ok tag [old.flags, old.enables, 1#8]) ∧
      exec (.setEnables tag group mask) s =
        s.then (({ s.ctl with att := put { old with enables := mask } }).answered .ok tag
          [old.flags, mask, if old.gateOpen then 1#8 else 0#8]))

/-! ### Reads -/

/-- The reads of the panel table (R21 to R25) answer and change nothing else: READ_PANEL the record of 50 bytes, FIND_PANEL
the number of covering panels with the oldest and the newest, LIST_SCHEDULE and LIST_ROSTER up to 32 entries; the fields
of the panel record (12.2), and what covering each place means. A pending answer is replaced (log 4). -/
def Obligations.PanelReadsAnswerTheTable : Prop :=
  ∀ (s : State) (tag : Byte), s.awake →
    let c := s.ctl
    (∀ panel : Word16, exec (.readPanel tag panel) s = s.then (
      if panel = 0#16 then c.answered .badField tag [1#8]
      else match c.panelByNumber panel.toNat with
        | none => c.answered .noSuchRecord tag []
        | some p => c.answered .ok tag (panelRecord p))) ∧
    (∀ p, (panelRecord p).length = 50) ∧
    (∀ p : Panel,
      let q := p.placed
      let here := fun (b : Bool) (bit : Nat) => if b then bit else 0
      let part := fun (w : Nat) (f : Placed → Nat) => field w ((q.map f).getD 0)
      panelRecord p = field 2 p.number ++
        field 1 (here p.orderTag.isSome 1 + here q.isSome 2 + here p.bLead.isSome 4 + here p.bTail.isSome 8 +
          here p.dose.isSome 16 + here p.seamOffset.isSome 32 + here p.marks.isSome 64) ++
        field 4 ((p.orderTag.map BitVec.toNat).getD 0) ++ field 1 p.pattern ++ field 2 p.flatLength ++
        field 1 p.state.code ++ field 1 p.verdict.code ++ [p.causes] ++
        part 4 Placed.leadA ++ part 4 Placed.roll ++ part 2 Placed.doseMin ++ part 2 Placed.doseMax ++
        field 4 (p.bLead.getD 0) ++ field 4 (p.bTail.getD 0) ++ field 2 p.total ++
        part 2 Placed.issued ++ part 2 Placed.done ++ part 2 Placed.faulted ++ part 2 Placed.missed ++
        part 2 Placed.aborted ++ field 2 (p.dose.getD 0) ++ field 2 (p.seamOffset.getD 0) ++
        field 1 ((p.marks.map (fun m => here m.sent 1 + here m.leadDone 2 + here m.tailDone 4)).getD 0)) ∧
    (∀ (p : Panel) (zone : Nat),
      let flat := fun (x : Nat) => ∃ q, p.placed = some q ∧ q.leadA ≤ x ∧ x < q.leadA + p.flatLength
      let away := p.bTail.getD c.convAt
      let holds := fun (d : Nat) => d ≤ c.convAt ∧ ∃ b, p.bLead = some b ∧ b ≤ c.convAt - d ∧ c.convAt - d < away
      (c.covers 0 zone p = true ↔ flat c.feedAt) ∧
      (c.covers 1 zone p = true ↔ c.headDist ≤ c.feedAt ∧ flat (c.feedAt - c.headDist)) ∧
      (c.covers 2 zone p = true ↔ ∃ b, p.bLead = some b ∧
        b + (if zone ≤ 1 then c.entryDist else c.zoneEnd (zone - 1)) ≤ c.convAt ∧ c.convAt < away + c.zoneEnd zone) ∧
      (c.covers 3 zone p = true ↔ holds c.exitDist) ∧ (c.covers 4 zone p = true ↔ holds c.cutDist)) ∧
    (∀ place zone : Byte,
      let found := (c.rosterPanels.filter (c.covers place.toNat zone.toNat)).map Panel.number
      exec (.findPanel tag place zone) s = s.then (
        if 4 < place.toNat then c.answered .badField tag [1#8]
        else if place = 2#8 ∧ (zone = 0#8 ∨ c.zoneCount < zone.toNat) then c.answered .badField tag [2#8]
        else c.answered .ok tag (field 1 found.length ++ optionalField 2 found.head? ++
          optionalField 2 found.tail.getLast?))) ∧
    ∀ start : Byte,
      let listed := fun (ids : List Nat) => ((ids.drop start.toNat).take 32).filterMap c.panelById
      exec (.listSchedule tag start) s = s.then (
        if 63 < start.toNat then c.answered .badField tag [1#8]
        else c.answered .ok tag (field 1 c.tab.queue.length ++ (listed c.tab.queue).flatMap (fun p => field 2 p.number))) ∧
      exec (.listRoster tag start) s = s.then (
        if 63 < start.toNat then c.answered .badField tag [1#8]
        else c.answered .ok tag (field 1 c.tab.roster.length ++ (listed c.tab.roster).flatMap (fun p =>
          field 2 p.number ++ field 1 p.state.code ++ field 1 p.verdict.code)))

/-- The other reads answer and change nothing else: READ_PATTERN, READ_STEPS, READ_COUNTS, READ_ROLL, READ_SPINDLES, the
reading form of SET_HEAT_CLASS, READ_FLAGS; and the lengths and the fields of the records (12.2, log 19; the bank
timer's one byte: log 39; the drop with no transaction: log 34). A pending answer is replaced (log 4). -/
def Obligations.UnitReadsAnswerTheRecords : Prop :=
  ∀ (s : State) (tag : Byte), s.awake →
    let c := s.ctl
    (∀ n : Byte, exec (.readPattern tag n) s = s.then (
      if n = 0#8 ∨ 32 < n.toNat then c.answered .noSuchRecord tag []
      else c.answered .ok tag (patternRecord c n.toNat))) ∧
    (∀ n start : Byte, exec (.readSteps tag n start) s = s.then (
      if n = 0#8 ∨ 32 < n.toNat then c.answered .noSuchRecord tag []
      else if start = 0#8 ∨ 96 < start.toNat then c.answered .badField tag [2#8]
      else c.answered .ok tag (field 1 (c.pattern n.toNat).steps.length ++
        (((c.pattern n.toNat).steps.drop (start.toNat - 1)).take 24).flatMap stepRecord))) ∧
    exec (.readCounts tag) s = s.then (c.answered .ok tag (countsBody c)) ∧
    (∀ id : Word32, exec (.readRoll tag id) s = s.then (
      match c.rollById id.toNat with
      | none => c.answered .noSuchRecord tag []
      | some r => c.answered .ok tag (rollRecord r))) ∧
    exec (.readSpindles tag) s = s.then (c.answered .ok tag (spindlesBody c)) ∧
    (∀ cls : Byte, exec (.setHeatClassReadingForm tag cls) s = s.then (
      if cls = 0#8 ∨ 8 < cls.toNat then c.answered .badField tag [1#8]
      else c.answered .ok tag (heatRecord c cls.toNat ++ chamberStatus c))) ∧
    exec (.readFlags tag) s = s.then (c.answered .ok tag (flagsBody c.att)) ∧
    (∀ n, (patternRecord c n).length = 13) ∧ (∀ x, (stepRecord x).length = 7) ∧ (∀ r, (rollRecord r).length = 21) ∧
    (∀ i, (zoneRecord c i).length = 15) ∧ (∀ k, (heatRecord c k).length = 21) ∧
    let mark := fun (b : Bool) => if b then [1#8] else [0#8]
    let here := fun (b : Bool) (bit : Nat) => if b then bit else 0
    (∀ n,
      let p := c.pattern n
      patternRecord c n = field 1 n ++ field 1 (here p.body.isSome 1 + here p.sealing.isSome 2) ++ field 1 p.state.code ++
        field 1 ((p.body.map PatternBody.fabric).getD 0) ++ field 1 ((p.body.map PatternBody.heat).getD 0) ++
        field 1 p.steps.length ++ field 2 ((p.sealing.map Sealing.span).getD 0) ++
        field 2 ((p.sealing.map Sealing.strokes).getD 0) ++ field 1 p.refs ++ field 2 c.poolFree) ∧
    (∀ x, stepRecord x = field 1 x.kind.code ++ field 2 x.pitch ++ field 2 x.depth ++ field 1 x.times ++
      [BitVec.ofInt 8 x.taper]) ∧
    (∀ r : Roll, rollRecord r = field 4 r.id ++ field 1 (here r.stub.isSome 1) ++ field 1 r.fabric ++
      field 4 r.registered ++ field 4 r.remaining ++ field 1 r.state.code ++ field 1 (spindleCode r.spindle) ++
      field 4 (r.stub.getD 0) ++ field 1 r.refs) ∧
    (∀ i,
      let z := c.zone i
      zoneRecord c i = field 1 i ++ field 1 (here z.commanded.isSome 1 + here z.last.isSome 2) ++ mark z.enabled ++
        field 1 z.kind.code ++ field 2 z.wanted ++ field 2 (z.commanded.getD 0) ++
        mark (decide (z.commanded ≠ some z.wanted)) ++ field 2 ((z.last.map Prod.fst).getD 0) ++
        field 1 ((z.last.map Prod.snd).getD 0) ++ field 2 (c.age z.origin) ++ field 1 z.state.code) ∧
    (∀ k,
      let part := fun (w : Nat) (f : HeatClass → Nat) => field w (((c.heatClass k).map f).getD 0)
      let run := fun (i : Nat) => part 2 (fun h => h.run.getD i 0)
      heatRecord c k = field 1 k ++ mark (c.heatClass k).isSome ++ run 0 ++ run 1 ++ run 2 ++ run 3 ++ run 4 ++ run 5 ++
        part 1 HeatClass.band ++ part 2 HeatClass.bank ++ part 2 HeatClass.doseMin ++ part 2 HeatClass.doseMax) ∧
    (let m := c.mot;
      countsBody c = field 4 m.unw.coord ++ field 4 m.feed.coord ++ field 4 m.conv.coord ++ field 2 m.unw.interval ++
        field 2 m.feed.interval ++ field 2 m.conv.interval ++ mark m.unw.stall ++ mark m.feed.stall ++ mark m.conv.stall ++
        field 4 c.rolls.fill ++ field 4 (m.feed.coord + c.rolls.fill) ++ mark m.seamHigh ++ mark m.haltHigh ++
        field 1 (if c.chainOpen = true then 0 else 1) ++ mark m.limit ++ field 4 m.tick.toNat) ∧
    chamberStatus c = field 1 c.cham.lineClass ++ field 1 c.cham.changeover.code ++
      optionalField 1 c.cham.changeover.target ++ mark c.cham.banked ++ optionalField 2 (c.cham.bankTimer.map c.age) ++
      field 1 (txnKindCode (c.cham.txn.map Txn.kind)) ++ field 1 ((c.cham.txn.map Txn.drop).getD 0) ++
      field 1 c.cham.lastPolled ++ [1, 2, 3, 4, 5, 6].flatMap (zoneRecord c)

/-- READ_PARAM (R195): the id, the stored value and the default. -/
def Obligations.ReadParamAnswersValueAndDefault : Prop :=
  ∀ (s : State) (tag param : Byte), s.awake → s.ctl.port.pending = none →
    exec (.readParam tag param) s = s.then (
      if param = 0#8 ∨ 46 < param.toNat then s.ctl.answered .badField tag [1#8]
      else s.ctl.answered .ok tag (field 1 param.toNat ++ field 4 (s.ctl.params.getD (param.toNat - 1) 0) ++
        field 4 (Config.paramDefaults.getD (param.toNat - 1) 0)))

/-! ### The panel table -/

/-- SCHEDULE_PANEL (R8, R9): the checks in order, and on acceptance a new SCHEDULED record at its placement in the queue,
the pattern's reference count, a head report when the head changes, and the gate (logs 8, 18); a pending answer is
replaced (log 4). -/
def Obligations.SchedulePanelChecksAndQueues : Prop :=
  ∀ (s : State) (tag : Byte) (panel : Word16) (flag : Byte) (order : Word32) (pattern : Byte) (len : Word16)
    (placement : Byte) (neighbour : Word16), s.awake →
    let c := s.ctl
    let before := c.queued neighbour.toNat
    let sealing := (c.pattern pattern.toNat).sealing
    let p : Panel :=
      { id := c.tab.nextId, number := panel.toNat, orderTag := if flag = 1#8 then some order else none
        pattern := pattern.toNat, flatLength := len.toNat, state := .scheduled, verdict := .pending, causes := 0#8
        placed := none, bLead := none, bTail := none, total := (sealing.map Sealing.strokes).getD 0, dose := none
        seamOffset := none, marks := none, crossed := Crossed.none }
    let made : Controller :=
      { c with
        tab := { c.tab with
          panels := c.tab.panels ++ [p]
          queue := insertAt c.tab.queue c.tab.nextId placement.toNat (before.getD 0)
          nextId := c.tab.nextId + 1 }
        lib := c.lib.modify (pattern.toNat - 1) (fun x => { x with refs := x.refs + 1 }) }
    exec (.schedulePanel tag panel flag order pattern len placement neighbour) s = s.then (
      if panel = 0#16 then c.answered .badField tag [1#8]
      else if 1 < flag.toNat then c.answered .badField tag [2#8]
      else if pattern = 0#8 ∨ 32 < pattern.toNat then c.answered .badField tag [4#8]
      else if 2 < placement.toNat then c.answered .badField tag [6#8]
      else if placement = 2#8 ∧ neighbour = 0#16 then c.answered .badField tag [7#8]
      else if c.panelByNumber panel.toNat ≠ none then c.answered .duplicate tag []
      else if 64 ≤ c.tab.panels.length then c.answered .tableFull tag []
      else if (c.pattern pattern.toNat).state ≠ .sealed then c.answered .wrongState tag []
      else if len.toNat < 2000 ∨ c.panelMax < len.toNat ∨ len.toNat < (sealing.map Sealing.span).getD 0 then
        c.answered .length tag []
      else if placement = 2#8 ∧ before = none then c.answered .noSuchRecord tag []
      else (settled c (reported c made)).answered .ok tag [])

/-- MOVE_PANEL (R10): the checks in order (log 18 for a neighbour of 0), and the entry taken out and put back at the
placement; and what TAIL, HEAD and BEFORE n mean (R7). A pending answer is replaced (log 4). -/
def Obligations.MovePanelReordersTheQueue : Prop :=
  (∀ (s : State) (tag : Byte) (panel : Word16) (placement : Byte) (neighbour : Word16), s.awake →
    let c := s.ctl
    exec (.movePanel tag panel placement neighbour) s = s.then (
      if panel = 0#16 then c.answered .badField tag [1#8]
      else if 2 < placement.toNat then c.answered .badField tag [2#8]
      else if placement = 2#8 ∧ neighbour = 0#16 then c.answered .badField tag [3#8]
      else match c.panelByNumber panel.toNat with
        | none => c.answered .noSuchRecord tag []
        | some p =>
          if p.state ≠ .scheduled then c.answered .wrongState tag []
          else if placement = 2#8 ∧ neighbour = panel then c.answered .badField tag [3#8]
          else if placement = 2#8 ∧ c.queued neighbour.toNat = none then c.answered .noSuchRecord tag []
          else
            (settled c (reported c { c with tab := { c.tab with
              queue := insertAt (c.tab.queue.filter (fun x => x != p.id)) p.id placement.toNat
                ((c.queued neighbour.toNat).getD 0) } })).answered .ok tag [])) ∧
    (∀ queue id before, insertAt queue id 0 before = queue ++ [id]) ∧
    (∀ queue id before, insertAt queue id 1 before = id :: queue) ∧
    ∀ front n back id, n ∉ front → insertAt (front ++ n :: back) id 2 n = front ++ id :: n :: back

/-- WITHDRAW_PANEL and RETIRE_PANEL (R11, R15, R16, R38): the record leaves its list and is freed, its pattern and roll
are counted down, and a RETIRING pattern no panel names any more is freed with PANEL.PATTERN_FREED. A pending answer is
replaced (log 4). -/
def Obligations.WithdrawAndRetireFreeTheRecord : Prop :=
  ∀ (s : State) (tag : Byte) (panel : Word16), s.awake →
    let c := s.ctl
    let release := fun (d : Controller) (n : Nat) =>
      if (d.pattern n).state = .retiring ∧ (d.pattern n).refs ≤ 1 then
        Controller.raise { d with lib := d.lib.modify (n - 1) (fun _ => Pattern.blank) } .panelPatternFreed (Detail.num n)
      else { d with lib := d.lib.modify (n - 1) (fun x => { x with refs := x.refs - 1 }) }
    let free := fun (d : Controller) (id : Nat) =>
      ({ d with tab := { d.tab with panels := d.tab.panels.filter (fun q => q.id != id) } } : Controller)
    let outOf := fun (l : List Nat) (id : Nat) => l.filter (fun x => x != id)
    exec (.withdrawPanel tag panel) s = s.then (
      if panel = 0#16 then c.answered .badField tag [1#8]
      else match c.panelByNumber panel.toNat with
        | none => c.answered .noSuchRecord tag []
        | some p =>
          if p.state ≠ .scheduled then c.answered .wrongState tag []
          else
            (settled c (free (release
              (reported c { c with tab := { c.tab with queue := outOf c.tab.queue p.id } }) p.pattern) p.id)).answered
              .ok tag []) ∧
    exec (.retirePanel tag panel) s = s.then (
      if panel = 0#16 then c.answered .badField tag [1#8]
      else match c.panelByNumber panel.toNat with
        | none => c.answered .noSuchRecord tag []
        | some p =>
          if p.state ≠ .cut then c.answered .wrongState tag []
          else
            (settled c (free
              (Controller.updateRoll
                (release { c with tab := { c.tab with roster := outOf c.tab.roster p.id } } p.pattern)
                ((p.placed.map Placed.roll).getD 0) (fun r => { r with refs := r.refs - 1 })) p.id)).answered .ok tag [])

/-- REJECT_PANEL (R17, R20): HOST joins the causes and the verdict becomes REJECT, with PANEL.REJECTED when it was not
REJECT already; a panel whose lead cut is sent, or that is CUT, is answered WRONG_STATE; a pending answer is replaced
(log 4). And in general: a cause added to a live panel sets its bit and rejects the panel, unless its lead cut is sent or
it is REJECT already (R17); the verdict at chamber exit (R18). -/
def Obligations.RejectPanelAddsHost : Prop :=
  (∀ (s : State) (tag : Byte) (panel : Word16), s.awake → RecordsSound s.ctl.tab →
    let c := s.ctl
    exec (.rejectPanel tag panel) s = s.then (
      if panel = 0#16 then c.answered .badField tag [1#8]
      else match c.panelByNumber panel.toNat with
        | none => c.answered .noSuchRecord tag []
        | some p =>
          if p.leadSent = true ∨ p.state = .cut then c.answered .wrongState tag []
          else
            let d := c.updatePanel p.id (fun q => { q with causes := q.causes ||| 0x20#8, verdict := .reject })
            (if p.verdict = .reject then d else d.raise .panelRejected (Detail.num p.number)).answered .ok tag [])) ∧
    (∀ (c : Controller) (p : Panel) (k : Cause), c.panelById p.id = some p →
      let caused := fun (q : Panel) => ({ q with causes := q.causes ||| k.bit } : Panel)
      c.addCause p.id k =
        if p.marks.map CutMarks.sent = some true ∨ p.verdict = .reject then c.updatePanel p.id caused
        else Controller.raise (c.updatePanel p.id (fun q => { caused q with verdict := .reject })) .panelRejected
          (Detail.num p.number)) ∧
    (∀ (c : Controller) (id : Nat) (k : Cause), c.panelById id = none → c.addCause id k = c) ∧
    [Cause.seam, .strokeFault, .underset, .overset, .aborted, .host, .cutLate, .cutFault].map Cause.bit =
      [0x01#8, 0x02#8, 0x04#8, 0x08#8, 0x10#8, 0x20#8, 0x40#8, 0x80#8] ∧
    ∀ (c : Controller) (p : Panel) (q : Placed), c.panelById p.id = some p → p.placed = some q →
      c.decideVerdict p.id =
        if p.dose.getD 0 < q.doseMin then c.addCause p.id .underset
        else c.updatePanel p.id (fun r => if r.verdict = .pending then { r with verdict := .good } else r)

/-- A head report (R12, R74, R145): the fabric notice mark is cleared; a head of the line class cancels a changeover,
and a head of another class than the target retargets it, with the setpoints derived again while HEATING. And the gate's
request for a class (R75, R141): the line class and the target bring nothing; in IDLE the changeover drains, and heats at
once when the web is clear (R142); another target is a retarget (R145). -/
def Obligations.HeadReportsSteerTheChangeover : Prop :=
  ∀ c : Controller,
    let d : Controller := { c with line := { c.line with fabricMark := false } }
    let turn := fun (x : Changeover) => ({ d with cham := { d.cham with changeover := x } } : Controller)
    (c.headPanel = none → c.headReport = d) ∧
    (∀ p, c.headPanel = some p →
      let k := c.panelHeat p
      c.headReport =
        match c.cham.changeover with
        | .idle => d
        | .draining t =>
          if k = c.cham.lineClass then turn .idle else if t = k then d else turn (.draining k)
        | .heating t =>
          if k = c.cham.lineClass then (turn .idle).deriveZones
          else if t = k then d else (turn (.heating k)).deriveZones) ∧
    ∀ k : Nat,
      let turned := fun (x : Changeover) => ({ c with cham := { c.cham with changeover := x } } : Controller)
      c.requestClass k =
        if k = c.cham.lineClass then c
        else match c.cham.changeover with
          | .idle => if c.webClear = true then (turned (.heating k)).deriveZones else turned (.draining k)
          | .draining t => if t = k then c else turned (.draining k)
          | .heating t => if t = k then c else (turned (.heating k)).deriveZones

/-! ### The pattern library -/

/-- OPEN_PATTERN (R30). -/
def Obligations.OpenPatternMakesADraft : Prop :=
  ∀ (s : State) (tag n fabric heat : Byte), s.awake → s.ctl.port.pending = none →
    let c := s.ctl
    let draft : Pattern := ⟨.draft, 0, some ⟨fabric.toNat, heat.toNat, []⟩, none⟩
    exec (.openPattern tag n fabric heat) s = s.then (
      if n = 0#8 ∨ 32 < n.toNat then c.answered .noSuchRecord tag []
      else if 15 < fabric.toNat then c.answered .badField tag [2#8]
      else if heat = 0#8 ∨ 8 < heat.toNat then c.answered .badField tag [3#8]
      else if (c.pattern n.toNat).state ≠ .empty then c.answered .wrongState tag []
      else ({ c with lib := c.lib.modify (n.toNat - 1) (fun _ => draft) }).answered .ok tag [])

/-- APPEND_STEPS (R31): all steps or none, checked field by field, then the state, the list and the pool; the index of
a step field out of range is 2 + 5 (j - 1) + k, for the first step j with one and its first such field k in the order
kind, pitch, depth, repeat, taper. A count that does not match the steps is index 2 (log 18); a pending answer is replaced
(log 4). -/
def Obligations.AppendStepsTakesAllOrNone : Prop :=
  (∀ (s : State) (tag n count : Byte) (steps : List RawStep), s.awake →
    let c := s.ctl
    let p := c.pattern n.toNat
    exec (.appendSteps tag n count steps) s = s.then (
      if n = 0#8 ∨ 32 < n.toNat then c.answered .noSuchRecord tag []
      else if count = 0#8 ∨ 8 < count.toNat ∨ steps.length ≠ count.toNat then c.answered .badField tag [2#8]
      else match badStep 1 steps with
        | some i => c.answered .badField tag (field 1 i)
        | none =>
          if p.state ≠ .draft then c.answered .wrongState tag []
          else if 96 < p.steps.length + count.toNat then c.answered .listFull tag []
          else if c.poolFree < count.toNat then c.answered .poolFull tag []
          else
            let d : Controller := { c with lib := c.lib.modify (n.toNat - 1) (fun q =>
              { q with body := q.body.map (fun b => { b with steps := b.steps ++ steps.map stepOfRaw }) }) }
            d.answered .ok tag (field 1 (d.pattern n.toNat).steps.length))) ∧
    (∀ x : RawStep, badStepField x = none ↔
      x.kind.toNat ≤ 4 ∧ (40 ≤ x.pitch.toNat ∧ x.pitch.toNat ≤ 2000) ∧ (10 ≤ x.depth.toNat ∧ x.depth.toNat ≤ 600) ∧
        1 ≤ x.times.toNat ∧ -20 ≤ x.taper.toInt ∧ x.taper.toInt ≤ 20) ∧
    (∀ (x : RawStep) (k : Nat),
      let fits := fun (n : Nat) => match n with
        | 1 => x.kind.toNat ≤ 4
        | 2 => 40 ≤ x.pitch.toNat ∧ x.pitch.toNat ≤ 2000
        | 3 => 10 ≤ x.depth.toNat ∧ x.depth.toNat ≤ 600
        | 4 => 1 ≤ x.times.toNat
        | _ => -20 ≤ x.taper.toInt ∧ x.taper.toInt ≤ 20
      badStepField x = some k ↔ 1 ≤ k ∧ k ≤ 5 ∧ ¬ fits k ∧ ∀ n, 1 ≤ n → n < k → fits n) ∧
    ∀ (front : List RawStep) (x : RawStep) (back : List RawStep) (k : Nat), (∀ y ∈ front, badStepField y = none) →
      badStepField x = some k → badStep 1 (front ++ x :: back) = some (2 + 5 * front.length + k)

/-- CLEAR_STEPS (R32), and the places it gives back to the step pool (R28). -/
def Obligations.ClearStepsEmptiesADraft : Prop :=
  (∀ (s : State) (tag n : Byte), s.awake → s.ctl.port.pending = none →
    let c := s.ctl
    let emptied := fun (q : Pattern) => ({ q with body := q.body.map (fun b => { b with steps := [] }) } : Pattern)
    exec (.clearSteps tag n) s = s.then (
      if n = 0#8 ∨ 32 < n.toNat then c.answered .noSuchRecord tag []
      else if (c.pattern n.toNat).state ≠ .draft then c.answered .wrongState tag []
      else ({ c with lib := c.lib.modify (n.toNat - 1) emptied }).answered .ok tag [])) ∧
    ∀ (s : State) (tag n : Byte), s.awake → 1 ≤ n.toNat → n.toNat ≤ 32 → s.ctl.lib.length = 32 →
      (s.ctl.pattern n.toNat).state = .draft →
      let held := fun (c : Controller) => (c.lib.map (fun p => p.steps.length)).sum
      held s.ctl ≤ 1024 →
      ∃ t : State, exec (.clearSteps tag n) s = .next t ∧ s.ctl.poolFree + held s.ctl = 1024 ∧
        t.ctl.poolFree = s.ctl.poolFree + (s.ctl.pattern n.toNat).steps.length

/-- SEAL_PATTERN (R27, R33): the checks in order, and the span and the stroke count recorded; the step it answers is the
first whose depths leave 10 to 600 or whose running span passes PANEL_MAX. A pending answer is replaced (log 4). -/
def Obligations.SealPatternFreezesSpanAndStrokes : Prop :=
  (∀ (s : State) (tag n : Byte), s.awake →
    let c := s.ctl
    let p := c.pattern n.toNat
    exec (.sealPattern tag n) s = s.then (
      if n = 0#8 ∨ 32 < n.toNat then c.answered .noSuchRecord tag []
      else if p.state ≠ .draft then c.answered .wrongState tag []
      else if c.heatClass ((p.body.map PatternBody.heat).getD 0) = none then c.answered .badField tag [0#8]
      else match sealWalk c.panelMax 1 0 p.steps with
        | some j => c.answered .badField tag (field 1 j)
        | none =>
          if ∀ x ∈ p.steps, x.kind = .skip then c.answered .badField tag [1#8]
          else
            ({ c with lib := c.lib.modify (n.toNat - 1) (fun q =>
              { q with state := .sealed, sealing := some ⟨spanOf q.steps, strokesOf q.steps⟩ }) }).answered .ok tag
              (field 2 (spanOf p.steps) ++ field 2 (strokesOf p.steps)))) ∧
    ∀ (panelMax : Nat) (steps : List Step) (k : Nat),
      let fits := fun (i : Nat) (x : Step) => x.graded = true ∧ spanOf (steps.take (i + 1)) ≤ panelMax
      sealWalk panelMax 1 0 steps = some (k + 1) ↔
        (∃ x, steps[k]? = some x ∧ ¬ fits k x) ∧ ∀ i x, i < k → steps[i]? = some x → fits i x

/-- UNSEAL_PATTERN (R35). -/
def Obligations.UnsealPatternReturnsToDraft : Prop :=
  ∀ (s : State) (tag n : Byte), s.awake → s.ctl.port.pending = none →
    let c := s.ctl
    let p := c.pattern n.toNat
    exec (.unsealPattern tag n) s = s.then (
      if n = 0#8 ∨ 32 < n.toNat then c.answered .noSuchRecord tag []
      else if p.state = .draft ∨ p.state = .empty then c.answered .wrongState tag []
      else if p.state = .retiring ∨ p.refs ≠ 0 then c.answered .inUse tag []
      else ({ c with lib := c.lib.modify (n.toNat - 1) (fun q => { q with state := .draft, sealing := none }) }).answered
        .ok tag [])

/-- RETIRE_PATTERN (R37): by state and reference count. The answer carries the state the pattern is left in. -/
def Obligations.RetirePatternFreesOrRetires : Prop :=
  ∀ (s : State) (tag n : Byte), s.awake → s.ctl.port.pending = none →
    let c := s.ctl
    let p := c.pattern n.toNat
    exec (.retirePattern tag n) s = s.then (
      if n = 0#8 ∨ 32 < n.toNat then c.answered .noSuchRecord tag []
      else match p.state with
        | .empty => c.answered .wrongState tag []
        | .draft => ({ c with lib := c.lib.modify (n.toNat - 1) (fun _ => Pattern.blank) }).answered .ok tag [0#8]
        | .sealed =>
          if p.refs = 0 then
            ({ c with lib := c.lib.modify (n.toNat - 1) (fun _ => Pattern.blank) }).answered .ok tag [0#8]
          else
            ({ c with lib := c.lib.modify (n.toNat - 1) (fun q => { q with state := .retiring }) }).answered .ok tag [3#8]
        | .retiring => c.answered .ok tag [3#8])

/-! ### The line -/

/-- START_LINE and STOP_LINE by line state (R59, R60); every OK answer carries the line status (log 15). STOP_LINE's
WRONG_STATE in HALTED carries it too or no field: R60 says the one, R185 and R203 the other, and the choice is a free value
(log 31). START_LINE's refusals and NOT_COMMISSIONED carry no field. A pending answer is replaced (log 4). -/
def Obligations.StartAndStopMoveTheLine : Prop :=
  ∀ (s : State) (tag : Byte), s.awake →
    let c := s.ctl
    let status := fun (d : Controller) => d.answered .ok tag (lineStatus d)
    exec (.startLine tag) s = s.then (
      match c.line.state with
      | .config => c.answered .notCommissioned tag []
      | .running => status c
      | .held => status c
      | .halted => c.answered .wrongState tag []
      | .stopped =>
        if c.chainOpen = true ∨ c.runningRoll = none then c.answered .wrongState tag []
        else match c.line.holds.first with
          | none => status (settled c c.enterRunning)
          | some k => status (settled c ((c.enterLine .held).raise .lineHeld (Detail.named k.detail)))) ∧
    exec (.stopLine tag) s = s.then (
      match c.line.state with
      | .config => c.answered .notCommissioned tag []
      | .stopped => status c
      | .running => status (settled c (c.driveHold.enterLine .stopped))
      | .held => status (settled c (c.enterLine .stopped))
      | .halted =>
        if c.chainOpen = true ∨ c.line.report = some .fault then
          c.answered .wrongState tag (if Config.stopRefusalCarriesStatus = true then lineStatus c else [])
        else status (settled c (c.driveHold.enterLine .stopped)))

/-- The line controller's moves: entering RUNNING and DRIVE_HOLD (R58, R63), a hold cause added or removed (R67, R68),
and a halt event (R65, R66), which raises LINE.HALTED with its cause in every line state: what becomes of the line
controller, of channel F, and of the notice. A change of line state is handed to the banking test and to the roll
manager (R58). -/
def Obligations.LineMovesCommandTheDrive : Prop :=
  ∀ c : Controller,
    let stop : Line := { c.line with mode := .hold, resend := 0, origin := c.feedAt, suspended := false }
    (c.enterRunning.line = { c.line with mode := .run, state := .running } ∧
      c.enterRunning.chF = (c.chF.hand (.driveRun c.line.speed)).1 ∧
      c.enterRunning.mot.feed = ⟨c.feedAt, 0, false⟩) ∧
    (c.driveHold.line = stop ∧ c.driveHold.chF = (c.chF.hand .driveHold).1) ∧
    (∀ st, (c.enterLine st).line = { c.line with state := st } ∧ (c.enterLine st).chF = c.chF) ∧
    (∀ st, c.enterLine st = (Controller.bankTest { c with line := { c.line with state := st } }).deriveUnwind) ∧
    (∀ k, c.line.holds.has k = true → c.addHold k = c) ∧
    (∀ k, c.line.holds.has k = false → c.line.state = .running → ∃ d : Controller,
      c.addHold k = d.raise .lineHeld (Detail.named k.detail) ∧
      d.line = { stop with holds := c.line.holds.set k true, state := .held } ∧ d.chF = (c.chF.hand .driveHold).1) ∧
    (∀ k, c.line.holds.has k = false → c.line.state ≠ .running →
      (c.addHold k).line = { c.line with holds := c.line.holds.set k true } ∧ (c.addHold k).chF = c.chF) ∧
    (∀ k, c.line.holds.has k = false → c.removeHold k = c) ∧
    (∀ k, c.line.holds.has k = true → c.line.state = .held → c.line.holds.set k false = HoldCauses.empty →
      ∃ d : Controller, c.removeHold k = d.raise .lineResumed (Detail.named k.detail) ∧
        d.line = { c.line with holds := HoldCauses.empty, mode := .run, state := .running } ∧
        d.chF = (c.chF.hand (.driveRun c.line.speed)).1) ∧
    (∀ k, c.line.holds.has k = true → (c.line.state ≠ .held ∨ c.line.holds.set k false ≠ HoldCauses.empty) →
      (c.removeHold k).line = { c.line with holds := c.line.holds.set k false } ∧ (c.removeHold k).chF = c.chF) ∧
    ∀ k, let told := Controller.raise { c with line := { c.line with lastHalt := some k } } .lineHalted (Detail.named k.detail)
      (c.line.state = .halted → c.halt k = told) ∧
      (c.line.state ≠ .halted → c.halt k = if k = .motion then told.enterLine .halted else told.driveHold.enterLine .halted) ∧
      (c.line.state ≠ .halted → k = .motion → (c.halt k).line = { c.line with lastHalt := some k, state := .halted } ∧
        (c.halt k).chF = told.chF) ∧
      (c.line.state ≠ .halted → k ≠ .motion → (c.halt k).line = { stop with lastHalt := some k, state := .halted } ∧
        (c.halt k).chF = (c.chF.hand .driveHold).1)

/-- SET_SPEED and DRIVE_STATE (R61, R64): the speed is kept and, in RUNNING, sent; a reported state replaces the one
before, and FAULT is a halt event DRIVE, with LINE.DRIVE_FAULT when FAULT was not reported before. At SET_SPEED a pending
answer is replaced (log 4). -/
def Obligations.SpeedAndDriveReports : Prop :=
  (∀ (s : State) (tag : Byte) (speed : Word16), s.awake →
    let c := s.ctl
    let d : Controller := { c with line := { c.line with speed := speed.toNat } }
    let e := if c.line.state = .running then d.hand .f (.driveRun speed.toNat) else d
    exec (.setSpeed tag speed) s = s.then (
      if c.line.state = .config then c.answered .notCommissioned tag []
      else if speed.toNat < 100 ∨ 10000 < speed.toNat then c.answered .badField tag [1#8]
      else e.answered .ok tag (lineStatus e))) ∧
    ∀ (s : State) (m : DriveMotion), s.awake →
      let c := s.ctl
      let d : Controller := { c with line := { c.line with report := some m } }
      exec (.driveState m) s = s.then (
        if c.chF.enabled = false then c
        else if m ≠ .fault then d
        else settled c
          ((if c.line.report = some .fault then d else d.raise .lineDriveFault (Detail.named .f)).halt .drive))

/-- CHAIN_OPEN, CHAIN_CLOSED and SEAM_LEVEL_CHANGE (R52, R53, R65): the input levels, the chain state they give, and the
halt event CHAIN while commissioned (log 12). -/
def Obligations.EdgeInputsSetTheLevels : Prop :=
  ∀ s : State, s.awake →
    let c := s.ctl
    let level := fun (b : Bool) => ({ c with mot := { c.mot with haltHigh := b } } : Controller)
    let seam := fun (b : Bool) => ({ c with mot := { c.mot with seamHigh := b } } : Controller)
    let opened := level (c.haltEdgeSel == 1)
    (opened.chainOpen = true ∧ (level (c.haltEdgeSel != 1)).chainOpen = false) ∧
      exec .chainOpen s = s.then (if c.commissioned = true then settled opened (opened.halt .chain) else opened) ∧
      exec .chainClosed s = s.then (level (c.haltEdgeSel != 1)) ∧
      exec .seamLevelChange s =
        s.then (if c.seamEdgeSel = 0 then seam true else if c.seamEdgeSel = 1 then seam false else c)

/-- HOLD_RESEND, FEED_RESEND_LIMIT, UNWIND_RESEND and UNWIND_RESEND_LIMIT (R69, R70, R94): at HOLD_SLIP past the slip
origin the stop is sent again; with RESEND_LIMIT reached the suspension mark is set and the motion fault taken, or the
splice in progress given up, its SPLICE_CANCEL before an UNWIND_MODE on channel S (log 40); of two spindles A is sent its
stop first (log 33). Away from their condition they change nothing (log 2). -/
def Obligations.StopsAreSentAgainToTheLimit : Prop :=
  ∀ s : State, s.onLine →
    let c := s.ctl
    let feedLine := fun (l : Line) => ({ c with line := l } : Controller)
    let idle : Controller := { c with rolls := { c.rolls with suspended := true } }
    (c.feedSlipped = true → c.line.resend < c.resendLimit →
      exec .holdResend s = s.then
        ((feedLine { c.line with resend := c.line.resend + 1, origin := c.feedAt }).hand .f .driveHold) ∧
      exec .feedResendLimit s = s.then c) ∧
    (c.feedSlipped = true → c.resendLimit ≤ c.line.resend →
      exec .feedResendLimit s = s.then (settled c
        (((feedLine { c.line with suspended := true }).raise .lineMotionFault (Detail.named .feed)).halt .motion)) ∧
      exec .holdResend s = s.then c) ∧
    (c.feedSlipped = false → exec .holdResend s = s.then c ∧ exec .feedResendLimit s = s.then c) ∧
    (c.unwindSlipped = true → c.rolls.resend < c.resendLimit →
      exec .unwindResend s = s.then
        { c.sendStops with rolls := { c.rolls with resend := c.rolls.resend + 1, origin := c.unwAt } } ∧
      exec .unwindResendLimit s = s.then c) ∧
    (c.unwindSlipped = true → c.resendLimit ≤ c.rolls.resend →
      exec .unwindResendLimit s = s.then (settled c
        (match c.rolls.job with
        | .stopping => (((idle.raise .rollSpliceFault (Detail.named .unwind)).hand .s .spliceCancel).moveJob .fault)
        | .splicing => (((idle.raise .rollSpliceFault (Detail.named .unwind)).hand .s .spliceCancel).moveJob .fault)
        | .cancelWait => (idle.raise .rollSpliceFault (Detail.named .unwind)).moveJob .fault
        | _ => (idle.raise .lineMotionFault (Detail.named .unwind)).halt .unwind)) ∧
      exec .unwindResend s = s.then c) ∧
    (c.unwindSlipped = false → exec .unwindResend s = s.then c ∧ exec .unwindResendLimit s = s.then c)

/-- ADMISSION and MAX_GAP_HOLD (R14, R71, R76, R80): under the seven conditions the queue's head joins the roster
FEEDING, with lead A at F, the feed roll, its class's dose limits and its counts at 0, and the last admitted tail is its
own; the roll's reference count rises by one (R89), and a queue left empty raises PANEL.SCHEDULE_EMPTY (R14). The MAX_GAP
cause is added when it is due. And what every evaluation is made of: the seven conditions (R71 to R75), the notice of a
head whose fabric does not fit, once for each head (R74), the request for its heat class (R75), the MAX_GAP test with its
removal test (R79 to R81), then an admission, and after it the same again (R77). -/
def Obligations.AdmissionTakesTheQueueHead : Prop :=
  (∀ (s : State) (p : Panel), s.onLine → Sound s.ctl → s.ctl.headPanel = some p → s.ctl.line.state = .running →
    s.ctl.gateSpacing = true → s.ctl.gateRoll = true → s.ctl.gateSeams p = true → s.ctl.gateFabric p = true →
    s.ctl.gateHeat p = true → s.ctl.mot.limit = false →
    ∃ t : State, exec .admission s = .next t ∧ t.ctl.tab.queue = s.ctl.tab.queue.tail ∧
      t.ctl.tab.roster = s.ctl.tab.roster ++ [p.id] ∧ t.ctl.line.lastTail = some (s.ctl.feedAt + p.flatLength) ∧
      ∃ q ∈ t.ctl.tab.panels, q.id = p.id ∧ q.number = p.number ∧ q.state = .feeding ∧ q.verdict = p.verdict ∧
        q.causes = p.causes ∧ q.total = p.total ∧
        q.placed = some ⟨s.ctl.feedAt, s.ctl.rolls.feedRoll.getD 0,
          ((s.ctl.heatClass (s.ctl.panelHeat p)).map HeatClass.doseMin).getD 0,
          ((s.ctl.heatClass (s.ctl.panelHeat p)).map HeatClass.doseMax).getD 0, 0, 0, 0, 0, 0⟩ ∧
        t.ctl.rolls.slots = s.ctl.rolls.slots.map (fun slot => slot.map (fun r =>
          if some r.id = s.ctl.rolls.feedRoll then { r with refs := r.refs + 1 } else r)) ∧
        (s.ctl.tab.queue.tail = [] → (t.ctl.att.group 2).flags.getLsbD 3 = true ∧
          (t.ctl.att.group 2).details[3]? = some (some (Detail.num p.number)))) ∧
    (∀ s : State, s.awake → s.ctl.admissible = false → exec .admission s = s.then s.ctl) ∧
    (∀ s : State, s.onLine →
      exec .maxGapHold s = s.then (
        if s.ctl.maxGap ≠ 0 ∧ s.ctl.maxGap ≤ s.ctl.gap ∧ s.ctl.webClear = true ∧ s.ctl.removalTest = false then
          settled s.ctl (s.ctl.addHold .maxGap)
        else s.ctl)) ∧
    ∀ c : Controller,
      let fed := c.rolls.feedRoll.bind c.rollById
      (c.gateSpacing = true ↔ ∀ x, c.line.lastTail = some x → x + c.minGap ≤ c.feedAt) ∧
      (c.gateRoll = true ↔ c.rolls.job = .normal ∧ ∃ r, c.runningRoll = some r ∧ c.spliceAt < r.remaining) ∧
      (∀ p : Panel,
        (c.gateSeams p = true ↔
          ∀ e ∈ c.rolls.seams, e.coord < c.feedAt ∨ c.feedAt + p.flatLength + c.seamClear ≤ e.coord) ∧
        (c.gateFabric p = true ↔ ∃ r, fed = some r ∧ (c.panelFabric p = 0 ∨ c.panelFabric p = r.fabric)) ∧
        (c.gateHeat p = true ↔ c.panelHeat p = c.cham.lineClass)) ∧
      (c.admissible = true ↔ ∃ p, c.headPanel = some p ∧ c.line.state = .running ∧ c.gateSpacing = true ∧
        c.gateRoll = true ∧ c.gateSeams p = true ∧ c.gateFabric p = true ∧ c.gateHeat p = true ∧ c.mot.limit = false) ∧
      (c.removalTest = true ↔ ∃ p, c.headPanel = some p ∧ c.mot.limit = false ∧ c.gateRoll = true ∧
        c.gateFabric p = true ∧ c.gateHeat p = true) ∧
      (c.headPanel = none → c.fabricNotice = c ∧ c.heatRequest = c) ∧
      (∀ p, c.headPanel = some p →
        c.fabricNotice = (
          if c.gateFabric p = false ∧ fed ≠ none ∧ c.line.fabricMark = false then
            Controller.raise { c with line := { c.line with fabricMark := true } } .panelAdmitBlocked (Detail.named .fabric)
          else c) ∧
        c.heatRequest = if c.gateHeat p = true then c else c.requestClass (c.panelHeat p)) ∧
      c.maxGapTest = (
        if c.removalTest = true then c.removeHold .maxGap
        else if c.maxGap ≠ 0 ∧ c.maxGap ≤ c.gap ∧ c.webClear = true then c.addHold .maxGap
        else c) ∧
      let tests := fun (d : Controller) => d.fabricNotice.heatRequest.maxGapTest
      c.gate =
        if c.commissioned = false then c
        else match (tests c).headPanel with
          | some p => if (tests c).admissible = true then tests ((tests c).admitPanel p) else tests c
          | none => tests c

/-! ### The rolls and the splice -/

/-- REGISTER_ROLL (R84): the checks in order, and a free slot takes the roll. -/
def Obligations.RegisterRollFillsAFreeSlot : Prop :=
  ∀ (s : State) (tag : Byte) (roll : Word32) (fabric : Byte) (len : Word32), s.awake → s.ctl.port.pending = none →
    let c := s.ctl
    let i : Instr := .registerRoll tag roll fabric len
    let r : Roll := ⟨roll.toNat, fabric.toNat, len.toNat, len.toNat, .registered, none, none, 0⟩
    let inRange := roll ≠ 0#32 ∧ (1 ≤ fabric.toNat ∧ fabric.toNat ≤ 15) ∧ 10000 ≤ len.toNat ∧ len.toNat ≤ 200000000
    (roll = 0#32 → exec i s = s.then (c.answered .badField tag [1#8])) ∧
    (roll ≠ 0#32 → (fabric.toNat = 0 ∨ 15 < fabric.toNat) → exec i s = s.then (c.answered .badField tag [2#8])) ∧
    (roll ≠ 0#32 → 1 ≤ fabric.toNat → fabric.toNat ≤ 15 → (len.toNat < 10000 ∨ 200000000 < len.toNat) →
      exec i s = s.then (c.answered .badField tag [3#8])) ∧
    (inRange → c.rollById roll.toNat ≠ none → exec i s = s.then (c.answered .duplicate tag [])) ∧
    (inRange → c.rollById roll.toNat = none → (∀ x ∈ c.rolls.slots, x ≠ none) →
      exec i s = s.then (c.answered .tableFull tag [])) ∧
    (inRange → c.rollById roll.toNat = none → none ∈ c.rolls.slots →
      ∃ n, c.rolls.slots[n]? = some none ∧
        exec i s = s.then
          (({ c with rolls := { c.rolls with slots := c.rolls.slots.set n (some r) } }).answered .ok tag []))

/-- MOUNT_ROLL, UNMOUNT_ROLL, CLEAR_SPINDLE and RETIRE_ROLL (R85, R86, R88, R89, log 18): the checks in order, the roll
and the spindle, and the roll job's move. A pending answer is replaced (log 4). -/
def Obligations.SpindlesTakeAndGiveRolls : Prop :=
  ∀ (s : State) (tag : Byte), s.awake →
    let c := s.ctl
    let ok := fun (d : Controller) => (settled c d).answered .ok tag []
    let wrong := c.answered .wrongState tag []
    (∀ (roll : Word32) (spindle : Byte), exec (.mountRoll tag roll spindle) s = s.then (
      match spindleOf spindle.toNat with
      | none => c.answered .badField tag [2#8]
      | some x =>
        match c.rollById roll.toNat with
        | none => c.answered .noSuchRecord tag []
        | some r =>
          if r.state ≠ .registered ∨ (c.spindle x).state ≠ .empty then wrong
          else
            let d := (c.updateRoll roll.toNat (fun r => { r with state := .mounted, spindle := some x })).setSpindle x
              { c.spindle x with state := .loaded, roll := some roll.toNat }
            ok (if c.commissioned = true ∧ c.rolls.job = .low ∧ d.idleSpindle = some x then d.enterPending else d))) ∧
    (∀ spindle : Byte, exec (.unmountRoll tag spindle) s = s.then (
      match spindleOf spindle.toNat with
      | none => c.answered .badField tag [1#8]
      | some x =>
        if (c.spindle x).state ≠ .loaded ∨ c.rolls.job = .preparing ∨ c.rolls.job = .stopping ∨
            c.rolls.job = .splicing ∨ c.rolls.job = .cancelWait then wrong
        else
          let d := (c.updateRoll ((c.spindle x).roll.getD 0)
            (fun r => { r with state := .registered, spindle := none })).setSpindle x
              { c.spindle x with state := .empty, roll := none }
          ok (if c.commissioned = true ∧ (c.rolls.job = .pending ∨ c.rolls.job = .retryWait) then
            (if d.rollIsLow = true then d.enterLow else d.enterNormal) else d))) ∧
    (∀ spindle : Byte, exec (.clearSpindle tag spindle) s = s.then (
      if c.commissioned = false then c.answered .notCommissioned tag []
      else match spindleOf spindle.toNat with
        | none => c.answered .badField tag [1#8]
        | some x =>
          if (c.spindle x).state ≠ .stub then wrong
          else ok ((c.mapRolls (fun r => if some r.id = (c.spindle x).roll then { r with spindle := none } else r)).setSpindle x
            { c.spindle x with state := .empty, roll := none }))) ∧
    ∀ roll : Word32,
      let off := fun (x : SpindleRec) => if x.roll = some roll.toNat then { x with roll := none } else x
      let freed : Controller := { c with rolls := { c.rolls with
        slots := c.rolls.slots.map (fun x => if x.map Roll.id = some roll.toNat then none else x)
        spA := off c.rolls.spA
        spB := off c.rolls.spB } }
      exec (.retireRoll tag roll) s = s.then (
        match c.rollById roll.toNat with
        | none => c.answered .noSuchRecord tag []
        | some r =>
          match r.state with
          | .registered => ok freed
          | .spent => if r.refs = 0 then ok freed else c.answered .inUse tag []
          | _ => wrong)

/-- THREAD_ROLL (R87): with the line STOPPED, no roll RUNNING and the spindle LOADED, the roll runs, EXPIRED rolls are
SPENT, the seam list is empty, the feed roll is the threaded one, the runout mark is clear and its test made (R91), and
the job enters NORMAL with the retry count 0 and the SPLICE_AT test (R96). The UNWIND_MODE goes before a
SPLICE_PREPARE on channel S (log 40). A spindle code other than A and B is BAD_FIELD 1 (log 18); a pending answer is
replaced (log 4). -/
def Obligations.ThreadRollStartsTheWeb : Prop :=
  ∀ (s : State) (tag spindle : Byte), s.awake →
    let c := s.ctl
    exec (.threadRoll tag spindle) s = s.then (
      if c.commissioned = false then c.answered .notCommissioned tag []
      else match spindleOf spindle.toNat with
        | none => c.answered .badField tag [1#8]
        | some x =>
          if c.line.state = .stopped ∧ c.runningRoll = none ∧ (c.spindle x).state = .loaded then
            let spent := c.mapRolls (fun r => if r.state = .expired then { r with state := .spent } else r)
            let runs := (spent.mapRolls (fun r =>
              if some r.id = (c.spindle x).roll then { r with state := .running } else r)).setSpindle x
                { c.spindle x with state := .active }
            let threaded : Controller := { runs with rolls := { runs.rolls with
              seams := [], feedRoll := (c.spindle x).roll, runout := false } }
            let tested := threaded.runoutTest
            (settled c (Controller.spliceAtTest (Controller.moveJob
              { tested with rolls := { tested.rolls with retry := 0 } } .normal))).answered .ok tag []
          else c.answered .wrongState tag [])

/-- A splice becomes due (R91, R96, R97, R103): FORCE_SPLICE, SPLICE_DUE and RETRY_WAIT_END move the job to PENDING,
where the clearance is tested, or to LOW with ROLL.ROLL_LOW, or to NORMAL; RUNOUT sets the mark or reports the count.
Away from their condition the event rows change nothing (log 2); at FORCE_SPLICE a pending answer is replaced (log 4). -/
def Obligations.SplicesBecomeDue : Prop :=
  ∀ s : State,
    let c := s.ctl
    let pending := fun (d : Controller) => (d.moveJob .pending).clearanceTest
    let low := fun (d : Controller) => (d.moveJob .low).raise .rollLow d.idleDetail
    let remaining := c.runningRoll.map Roll.remaining
    (∀ tag : Byte, s.awake → exec (.forceSplice tag) s = s.then (
      if c.commissioned = false then c.answered .notCommissioned tag []
      else if (c.rolls.job = .normal ∨ c.rolls.job = .low ∨ c.rolls.job = .fault) ∧ c.idleLoaded = true then
        (settled c (pending { c with rolls := { c.rolls with retry := 0 } })).answered .ok tag []
      else c.answered .wrongState tag [])) ∧
    (s.onLine → exec .spliceDue s = s.then (
      if c.rolls.job = .normal ∧ c.rollIsLow = true then
        settled c (if c.idleLoaded = true then pending c else low c)
      else c)) ∧
    (s.onLine → exec .retryWaitEnd s = s.then (
      if c.rolls.job = .retryWait then
        settled c (if c.idleLoaded = true then pending c else if c.rollIsLow = true then low c
          else Controller.spliceAtTest (Controller.moveJob { c with rolls := { c.rolls with retry := 0 } } .normal))
      else c)) ∧
    (s.onLine → (∀ r, c.runningRoll = some r → c.rolls.runout = false → r.remaining ≤ c.runoutAt →
      exec (.runout false) s = s.then (settled c (Controller.deriveUnwind (Controller.raise
        { c with rolls := { c.rolls with runout := true } } .rollRunout (Detail.named .threshold))))) ∧
      ((c.rolls.runout = true ∨ ∀ r, c.runningRoll = some r → c.runoutAt < r.remaining) →
        exec (.runout false) s = s.then c) ∧
      exec (.runout true) s =
        s.then (if remaining = some 0 then c.raise .rollRunout (Detail.named .count) else c))

/-- A splice runs (R98, R99, R100): SPLICE_PREPARE with its record when U has cleared the last panel and the seam list
has a place, PREPARED to STOPPING, and SPLICE_GO at the unwind stall flag. Away from their condition the rows
SPLICE_PREPARE and SPLICE_GO change nothing (log 2). -/
def Obligations.SplicesPrepareAndGo : Prop :=
  ∀ s : State,
    let c := s.ctl
    let go := fun (d : Controller) => (d.hand .s .spliceGo).moveJob .splicing
    (s.onLine → ∀ x, c.rolls.job = .pending → c.line.lastTail.getD 0 + c.seamClear ≤ c.webU →
      c.rolls.seams.length < 4 → c.activeSpindle = some x →
      exec .splicePrepare s = s.then (settled c ((Controller.hand
        { c with rolls := { c.rolls with splice := some ⟨x, otherSpindle x, c.mot.tick⟩ } } .s
        (.splicePrepare x (otherSpindle x))).moveJob .preparing))) ∧
    (s.onLine → (c.rolls.job ≠ .pending ∨ c.webU < c.line.lastTail.getD 0 + c.seamClear ∨ 4 ≤ c.rolls.seams.length ∨
      c.activeSpindle = none) → exec .splicePrepare s = s.then c) ∧
    (s.awake → c.chS.enabled = true → c.rolls.job = .preparing →
      exec .prepared s = s.then (settled c
        (if c.mot.unw.stall = true then go (c.moveJob .stopping) else c.moveJob .stopping))) ∧
    (s.awake → (c.chS.enabled = false ∨ c.rolls.job ≠ .preparing) → exec .prepared s = s.then c) ∧
    (s.onLine → exec .spliceGo s =
      s.then (if c.rolls.job = .stopping ∧ c.mot.unw.stall = true then settled c (go c) else c))

/-- SPLICE_DONE in SPLICING or CANCEL_WAIT, and SPLICE_CANCELLED in CANCEL_WAIT with the web on the target, complete the
splice (R100, R101, R102): the old roll EXPIRED with its stub length and its spindle STUB, the target's roll RUNNING and
its spindle ACTIVE, the runout tests, a planned entry at U, ROLL.SPLICE_DONE, the retry count 0 and SEAM_WAIT; in another
job state nothing changes. -/
def Obligations.SpliceDoneCompletesTheSplice : Prop :=
  ∀ (s : State) (x : SpliceRec), s.awake → s.ctl.chS.enabled = true → s.ctl.rolls.splice = some x →
    let c := s.ctl
    let expire := c.mapRolls (fun r =>
      if r.state = .running then { r with state := .expired, stub := some r.remaining } else r)
    let off := match c.activeSpindle with
      | some y => expire.setSpindle y { c.spindle y with state := .stub }
      | none => expire
    let runs := (off.mapRolls (fun r =>
      if some r.id = (off.spindle x.target).roll then { r with state := .running } else r)).setSpindle x.target
        { off.spindle x.target with state := .active }
    let tested := Controller.runoutTest { runs with rolls := { runs.rolls with runout := false } }
    let seams := placeSeam ⟨tested.webU, .planned ((c.spindle x.target).roll.getD 0) true false⟩ tested.rolls.seams
    let told := Controller.raise { tested with rolls := { tested.rolls with seams := seams } } .rollSpliceDone
      (Detail.named (spindleDetail x.target))
    let whole := settled c
      (Controller.moveJob { told with rolls := { told.rolls with retry := 0 } } .seamWait).settleSeams
    exec .spliceDone s =
        s.then (if c.rolls.job = .splicing ∨ c.rolls.job = .cancelWait then whole else c) ∧
      (c.rolls.job = .cancelWait → exec (.spliceCancelled x.target) s = s.then whole)

/-- A splice fails (R92, R99, R100, R102, R103): SPLICE_FAIL, SPLICE_CANCELLED with the web on the source, the splice
timeout, the cancel wait's timeout, and UNIT_STATE with WEB_LOST (the order on channel S: logs 32 and 40). A failed attempt is
retried SPLICE_RETRIES times. Away from their condition the rows of the two timeouts change nothing (log 2). -/
def Obligations.FailedSplicesAreRetriedOrGivenUp : Prop :=
  ∀ s : State,
    let c := s.ctl
    let failed := fun (d : Controller) =>
      if d.rolls.retry < d.spliceRetries then
        Controller.moveJob { d with rolls := { d.rolls with retry := d.rolls.retry + 1 } } .retryWait
      else (d.moveJob .fault).raise .rollSpliceFault (Detail.named .retries)
    let splicing := c.rolls.job = .preparing ∨ c.rolls.job = .stopping ∨ c.rolls.job = .splicing
    (∀ cause : Byte, s.awake → c.chS.enabled = true → exec (.spliceFail cause) s = s.then (
      if splicing then
        settled c (failed (c.raise .rollSpliceFail ⟨0#16, if 0xE0 < cause.toNat then 0xE0#8 else cause⟩))
      else if c.rolls.job = .cancelWait then settled c (failed (c.raise .rollSpliceFail (Detail.named .timeout)))
      else c)) ∧
    (∀ web x, s.awake → c.chS.enabled = true → c.rolls.splice = some x → web ≠ x.target →
      exec (.spliceCancelled web) s = s.then (
        if c.rolls.job = .cancelWait then settled c (failed (c.raise .rollSpliceFail (Detail.named .timeout))) else c)) ∧
    (∀ x, s.onLine → c.rolls.splice = some x → exec .spliceTimeout s = s.then (
      if splicing ∧ c.spliceTimeout ≤ c.age x.tick then
        settled c (Controller.moveJob { c.hand .s .spliceCancel with
          rolls := { c.rolls with cancelStart := c.mot.tick } } .cancelWait)
      else c)) ∧
    (s.onLine → exec .cancelWaitTimeout s = s.then (
      if c.rolls.job = .cancelWait ∧ c.replyTimeout ≤ c.age c.rolls.cancelStart then
        settled c ((c.raise .rollSpliceFault (Detail.named .cancel)).moveJob .fault)
      else c)) ∧
    ∀ x : UnitCondition, s.awake → c.chS.enabled = true →
      let d : Controller := { c with rolls := { c.rolls with report := some x } }
      let lost := d.expireRunning.raise .rollRunout (Detail.named .webLost)
      exec (.unitState x) s = s.then (
        if x ≠ .webLost ∨ c.runningRoll = none then d
        else settled c ((
          if splicing then (lost.hand .s .spliceCancel).raise .rollSpliceFault (Detail.named .webLost)
          else if c.rolls.job = .cancelWait then lost.raise .rollSpliceFault (Detail.named .webLost)
          else lost).moveJob .noRoll))

/-- The seam rows (R52, R106 to R110): a seam edge confirms the expected entry within SEAM_TOL or is an unplanned seam,
marked on the panel it falls in and listed while there is room; a lost entry is confirmed where it stands; a planned
entry's passage changes the feed roll; entries leave at F = s + SEAM_CLEAR (logs 12, 20, 21). Of an entry's loss
and its passage or removal at one F the loss is taken first (log 38). Away from their condition the rows SEAM_LOST, PLANNED_SEAM_PASSAGE and SEAM_ENTRY_REMOVAL change nothing (log 2). And the words these are said in:
which entry a seam edge confirms, which are lost or gone, when the list is full, what an unplanned seam marks on the panel
it falls in (R108), and what a change of the feed roll does to the roll before (R110). -/
def Obligations.SeamsAreListedPassedAndRemoved : Prop :=
  (∀ s : State, s.awake →
    let c := s.ctl
    let level := if c.seamEdgeSel = 0 then false else if c.seamEdgeSel = 1 then true else !c.mot.seamHigh
    let d : Controller := { c with mot := { c.mot with seamHigh := level } }
    let x := c.feedAt + c.seamDist
    let number := ((d.panelOver x).map Panel.number).getD 0
    let m := d.markSeam x
    exec .seamEdge s = s.then (
      if c.commissioned = false then d
      else match c.seamMatch x with
        | some e => settled d (Controller.settleSeams
          (d.setSeams (placeSeam ⟨x, e.kind.confirm⟩ (c.rolls.seams.filter (fun y => y != e)))))
        | none =>
          if ∃ e ∈ m.rolls.seams, e.coord = x then settled d (m.raise .rollSeamUnplanned (Detail.num number))
          else if m.seamsFull = true then settled d (m.raise .rollSeamUnplanned (Detail.named .listFull))
          else settled d (Controller.settleSeams
            ((m.setSeams (insertSeam ⟨x, .unplanned⟩ m.rolls.seams)).raise .rollSeamUnplanned (Detail.num number))))) ∧
    (∀ s : State, s.onLine →
      let c := s.ctl
      let remade := fun (e : Seam) (k : SeamKind) =>
        c.rolls.seams.map (fun x => if x = e then { x with kind := k } else x)
      let passes := fun (e : Seam) => e.kind.awaitsPassage && decide (e.coord ≤ c.feedAt)
      (∀ e, c.rolls.seams.find? c.seamIsLost = some e → exec .seamLost s = s.then
        (settled c ((c.raise .rollSeamLost (c.seamLostDetail e.kind.roll)).setSeams (remade e e.kind.confirm)))) ∧
      (c.rolls.seams.find? c.seamIsLost = none → exec .seamLost s = s.then c) ∧
      (∀ e, c.rolls.seams.find? passes = some e → exec .plannedSeamPassage s = s.then
        (settled c ((c.changeFeedRoll e.kind.roll).setSeams (remade e e.kind.markPassed)))) ∧
      (c.rolls.seams.find? passes = none → exec .plannedSeamPassage s = s.then c) ∧
      (c.rolls.seams.any c.seamIsGone = true →
        let p := c.seamPassageTest
        let kept := p.setSeams (p.rolls.seams.filter (fun e => !p.seamIsGone e))
        exec .seamEntryRemoval s = s.then (settled c (Controller.clearanceTest
          (if (∃ e ∈ p.rolls.seams, p.seamIsGone e = true ∧ e.kind.isPlanned = true) ∧ p.rolls.job = .seamWait then
            kept.enterNormal else kept)))) ∧
      (c.rolls.seams.any c.seamIsGone = false → exec .seamEntryRemoval s = s.then c)) ∧
    ∀ c : Controller,
      let inSplice := c.rolls.job = .preparing ∨ c.rolls.job = .stopping ∨ c.rolls.job = .splicing ∨
        c.rolls.job = .cancelWait
      (∀ x, c.seamMatch x = c.rolls.seams.find? (fun e =>
        e.kind.isExpected && decide (x ≤ e.coord + c.seamTol ∧ e.coord ≤ x + c.seamTol))) ∧
      (∀ e, c.seamIsLost e = true ↔ e.kind.isExpected = true ∧ e.coord + c.seamTol < c.feedAt + c.seamDist) ∧
      (∀ e, c.seamIsGone e = true ↔ e.coord + c.seamClear ≤ c.feedAt) ∧
      (c.seamsFull = true ↔ 4 ≤ c.rolls.seams.length ∨ (3 ≤ c.rolls.seams.length ∧ inSplice)) ∧
      (∀ x, c.panelOver x = none → c.markSeam x = c) ∧
      (∀ x p q, c.panelOver x = some p → p.placed = some q →
        (q.leadA ≤ x ∧ x < q.leadA + p.flatLength) ∧
        c.markSeam x = (c.addCause p.id .seam).updatePanel p.id
          (fun r => { r with seamOffset := r.seamOffset.or (some (x - q.leadA)) })) ∧
      ∀ id,
        let spent := fun (r : Roll) =>
          if some r.id = c.rolls.feedRoll ∧ r.state = .expired then { r with state := .spent } else r
        c.changeFeedRoll id = { c with rolls := { c.rolls with
          slots := c.rolls.slots.map (fun slot => slot.map spent), feedRoll := some id } }

/-- The commanded unwind modes after they are derived (R93): STOP for a spindle that is not ACTIVE, and for the ACTIVE
one in STOPPING, SPLICING and CANCEL_WAIT, at runout and in HALTED; the hysteresis choice otherwise. A mode that stands
sends nothing; of two changed modes spindle A's is sent first (log 33). A changed mode clears the suspension mark, and a
change to STOP restarts the re-send count and the slip origin (R94). -/
def Obligations.UnwindModesFollowTheJob : Prop :=
  ∀ c : Controller, c.commissioned = true →
    let wanted := fun (x : Spindle) =>
      if (c.spindle x).state ≠ .active then UnwindMode.stop
      else if c.rolls.job = .stopping ∨ c.rolls.job = .splicing ∨ c.rolls.job = .cancelWait then .stop
      else if c.rolls.runout = true ∨ c.line.state = .halted then .stop
      else match c.rolls.hyst with
        | .refill => .refill
        | .follow => .follow
    let d := c.deriveUnwind
    (∀ x, d.spindle x = { c.spindle x with mode := some (wanted x) }) ∧
      (d.rolls.job = c.rolls.job ∧ d.rolls.slots = c.rolls.slots ∧ d.line = c.line ∧ d.mot = c.mot ∧ d.tab = c.tab) ∧
      ((∀ x, (c.spindle x).mode = some (wanted x)) → d = c) ∧
      ((c.spindle .a).mode ≠ some (wanted .a) → (c.spindle .b).mode = some (wanted .b) →
        d.chS = (c.chS.hand (.unwindMode .a (wanted .a))).1 ∧ d.rolls.suspended = false) ∧
      ((c.spindle .a).mode = some (wanted .a) → (c.spindle .b).mode ≠ some (wanted .b) →
        d.chS = (c.chS.hand (.unwindMode .b (wanted .b))).1 ∧ d.rolls.suspended = false) ∧
      ((c.spindle .a).mode ≠ some (wanted .a) → (c.spindle .b).mode ≠ some (wanted .b) →
        d.chS = ((c.chS.hand (.unwindMode .a (wanted .a))).1.hand (.unwindMode .b (wanted .b))).1 ∧
          d.rolls.suspended = false) ∧
      (∀ x, (c.spindle x).mode ≠ some (wanted x) → wanted x = .stop → d.rolls.resend = 0 ∧ d.rolls.origin = c.unwAt) ∧
      ((∀ x, (c.spindle x).mode ≠ some (wanted x) → wanted x ≠ .stop) →
        d.rolls.resend = c.rolls.resend ∧ d.rolls.origin = c.rolls.origin)

/-! ### The stroke sequencer -/

/-- STROKE_DUE, STROKE and STROKE_LATE (R118 to R122, log 14): a due stroke is issued under its three conditions, waits
without them, or is missed; a waiting stroke is missed past LATE_TOL; the cursor moves on and takes what is reached
already. `rest` is what is left of the bound on one event's crossings. And the strokes themselves (R27, R116, R117): a
step's repeats make strokes in order, a SKIP step only adds its pitches; a stroke's depth is graded by its repeat, its due
coordinate is the panel's lead A, HEAD_DIST and the pitches through it; the cursor goes on to the panel's next stroke, and
from a panel with none left to the oldest panel that has some. -/
def Obligations.StrokesAreIssuedHeldOrMissed : Prop :=
  (∀ (s : State) (k : Cursor), s.onLine → s.ctl.seq.cursor = some k →
    let c := s.ctl
    let on := fun (f : Placed → Placed) => c.tab.panels.map (fun p =>
      if p.id = k.panel then { p with placed := p.placed.map f } else p)
    let sent : Controller := { c with
      chP := (c.chP.hand (.stroke c.seq.next k.kind k.depth)).1
      tab := { c.tab with panels := on (fun q => { q with issued := q.issued + 1 }) }
      seq := { c.seq with
        window := c.seq.window ++ [⟨c.seq.next, k.panel, c.numberOf k.panel, k.due, c.mot.tick⟩]
        next := c.seq.next + 1#8 } }
    let counted := Controller.addCause { c with tab := { c.tab with panels := on (fun q => { q with missed := q.missed + 1 }) } }
      k.panel .strokeFault
    let missed := (counted.raise .pleatStrokeMissed (Detail.num (counted.numberOf k.panel))).advanceCursor k
    let passes := c.seq.window.length < c.windowSize ∧ c.seq.head = .ready ∧ c.seq.mode = .stepping
    let late := k.due + c.lateTol < c.feedAt
    let rest := c.strokeBound - 1
    exec .strokeDue s = s.then (
        if k.waiting = true ∨ c.feedAt < k.due then c
        else if c.seq.mode = .fault ∨ late then settled c (Controller.strokeCrossings rest missed)
        else if passes then settled c (Controller.strokeCrossings rest (sent.advanceCursor k))
        else { c with seq := { c.seq with cursor := some { k with waiting := true } } }) ∧
      exec .stroke s = s.then (
        if k.due ≤ c.feedAt ∧ passes then settled c (sent.advanceCursor k).settleStrokes else c) ∧
      exec .strokeLate s = s.then (
        if k.waiting = true ∧ late ∧ c.seq.mode ≠ .fault then settled c (Controller.strokeCrossings rest missed) else c) ∧
      c.retestStroke = (if k.waiting = true ∧ passes then (sent.advanceCursor k).settleStrokes else c) ∧
      c.strokeCrossing =
        if k.waiting = true then (if late ∧ c.seq.mode ≠ .fault then some missed else none)
        else if c.feedAt < k.due then none
        else if c.seq.mode = .fault ∨ late then some missed
        else if passes then some (sent.advanceCursor k)
        else some { c with seq := { c.seq with cursor := some { k with waiting := true } } }) ∧
    (∀ c : Controller, (c.seq.cursor = none → c.strokeCrossing = none) ∧ Controller.strokeCrossings 0 c = c ∧
      ∀ n, Controller.strokeCrossings (n + 1) c =
        match c.strokeCrossing with
        | none => c
        | some d => Controller.strokeCrossings n d) ∧
    (∀ (x : Step) (rest : List Step) (i r o : Nat), x.kind ≠ .skip →
      nextStroke (x :: rest) i r o = if r < x.times then some (i, r, o + x.pitch, x) else nextStroke rest (i + 1) 0 o) ∧
    (∀ (skips rest : List Step) (i o : Nat), (∀ y ∈ skips, y.kind = .skip) →
      nextStroke (skips ++ rest) i 0 o = nextStroke rest (i + skips.length) 0 (o + spanOf skips)) ∧
    (∀ i r o, nextStroke [] i r o = none) ∧
    ∀ (c : Controller) (p : Panel),
      let point := fun (m : Option Cursor) => ({ c with seq := { c.seq with cursor := m } } : Controller)
      let idle := fun (x : Panel) => x.bTail ≠ none ∨ x.strokesLeft = 0
      (∀ q i r o, p.placed = some q → c.strokeFrom p i r o =
        (nextStroke ((c.pattern p.pattern).steps.drop i) i r o).map (fun x =>
          ⟨p.id, x.1, x.2.1, x.2.2.1, x.2.2.2.kind, ((x.2.2.2.depth : Int) + x.2.2.2.taper * (x.2.1 : Int)).toNat,
            q.leadA + c.headDist + x.2.2.1, false⟩)) ∧
      ((∀ x ∈ c.rosterPanels, idle x) → c.seekCursor = point none) ∧
      (∀ front back m, c.rosterPanels = front ++ p :: back → (∀ x ∈ front, idle x) → ¬ idle p →
        c.strokeFrom p 0 0 0 = some m → c.seekCursor = point (some m)) ∧
      (∀ k m, c.panelById k.panel = some p → p.strokesLeft ≠ 0 → c.strokeFrom p k.step (k.rep + 1) k.cum = some m →
        c.advanceCursor k = point (some m)) ∧
      ∀ k, (c.panelById k.panel = none ∨ (c.panelById k.panel = some p ∧
          (p.strokesLeft = 0 ∨ c.strokeFrom p k.step (k.rep + 1) k.cum = none))) →
        c.advanceCursor k = c.seekCursor

/-- STROKE_DONE and STROKE_FAULT (R124, R125): the oldest entry's number is counted done, or faulted with the cause and
PLEAT.STROKE_FAULT, then the CONVEYED test and the waiting stroke's issue test; another number is LINK.PROTOCOL and a
resync; out of STEPPING nothing is counted. `e` is the controller after RESUME_ANY (R130). And the CONVEYED test (R114): a
PLEATING panel whose tail has passed the head, with no stroke left to issue and none in the window, becomes CONVEYED. A
resync takes the window's entries oldest first (log 41). -/
def Obligations.AcknowledgementsCountTheOldest : Prop :=
  (∀ (s : State) (seq : Byte), s.awake →
    let c := s.ctl
    let e := c.resumeAnyStep
    let lost := settled c ((e.raise .linkProtocol (Detail.named .p)).startResync)
    let done := fun (w : WindowEntry) (rest : List WindowEntry) (f : Placed → Placed) =>
      Controller.countOn { e with seq := { e.seq with window := rest } } w.panel f
    (c.chP.enabled = false →
      exec (.strokeDone seq) s = s.then c ∧ ∀ cause, exec (.strokeFault seq cause) s = s.then c) ∧
    (c.chP.enabled = true → exec (.strokeDone seq) s = s.then (
      if e.seq.mode ≠ .stepping then settled c e
      else match e.seq.window with
        | [] => lost
        | w :: rest =>
          if w.seq ≠ seq then lost
          else settled c (((done w rest (fun q => { q with done := q.done + 1 })).conveyedTest w.panel).retestStroke))) ∧
    (c.chP.enabled = true → ∀ cause, exec (.strokeFault seq cause) s = s.then (
      if e.seq.mode ≠ .stepping then settled c e
      else match e.seq.window with
        | [] => lost
        | w :: rest =>
          if w.seq ≠ seq then lost
          else settled c ((((((done w rest (fun q => { q with faulted := q.faulted + 1 })).addCause w.panel
            .strokeFault).raise .pleatStrokeFault ⟨BitVec.ofNat 16 w.number, cause⟩).conveyedTest w.panel).retestStroke))))) ∧
    ∀ (c : Controller) (id : Nat),
      (c.panelById id = none → c.conveyedTest id = c) ∧
      ∀ p, c.panelById id = some p → c.conveyedTest id =
        if p.state = .pleating ∧ p.bTail ≠ none ∧ p.strokesLeft = 0 ∧ ∀ w ∈ c.seq.window, w.panel ≠ id then
          c.updatePanel id (fun q => { q with state := .conveyed })
        else c

/-- ACK_TIMEOUT, RESYNC_ATTEMPT_TIMEOUT, RESYNC_DONE and RESET_HEAD (R126 to R129), and what starting a resync leaves:
an empty window, its strokes faulted on their panels, RESYNC with one attempt from this tick, and a break and RESYNC on
channel P with nothing before them. The entries are taken oldest first (log 41). Away from their condition the rows of the two timeouts change nothing (log 2); at
RESET_HEAD a pending answer is replaced (log 4). -/
def Obligations.ResyncsEmptyTheWindow : Prop :=
  (∀ s : State,
    let c := s.ctl
    (s.onLine → (∀ e rest, c.seq.mode = .stepping → c.seq.window = e :: rest → c.ackTimeout < c.age e.tick →
      exec .ackTimeout s = s.then (settled c (c.raise .pleatAckTimeout (Detail.num e.number)).startResync)) ∧
      ((c.seq.mode ≠ .stepping ∨ ∀ e rest, c.seq.window = e :: rest → c.age e.tick ≤ c.ackTimeout) →
        exec .ackTimeout s = s.then c)) ∧
    (s.onLine →
      let again := c.sendResync
      exec .resyncAttemptTimeout s = s.then (
        if c.seq.mode ≠ .resync ∨ c.age c.seq.attemptTick ≤ c.ackTimeout then c
        else if c.seq.attempts < 3 then
          { again with seq := { c.seq with attempts := c.seq.attempts + 1, attemptTick := c.mot.tick } }
        else settled c (Controller.missWaiting
          (Controller.raise { c with seq := { c.seq with mode := .fault } } .pleatHeadFault (Detail.num 3))))) ∧
    (∀ next : Byte, s.awake → c.chP.enabled = true →
      let e := c.resumeAnyStep
      exec (.resyncDone next) s = s.then (settled c (
        if e.seq.mode ≠ .resync then e
        else Controller.retestStroke (Controller.raise
          { e with seq := { e.seq with next := next, mode := .stepping, attempts := 0, head := .ready } }
          .pleatResyncDone (Detail.num next.toNat))))) ∧
    ∀ tag : Byte, s.awake → exec (.resetHead tag) s = s.then (
      if c.commissioned = false then c.answered .notCommissioned tag []
      else (settled c c.startResync).answered .ok tag [])) ∧
    ∀ c : Controller, RecordsSound c.tab → c.chP.enabled = true →
      let d := c.startResync
      (d.seq = { c.seq with window := [], mode := .resync, attempts := 1, attemptTick := c.mot.tick }) ∧
        (d.chP.tx = some (c.chP.tx.getD .brk) ∧
          d.chP.queue = if c.chP.tx.isSome then [.brk, .resync] else [.resync]) ∧
        ∀ p ∈ c.tab.panels, ∃ q ∈ d.tab.panels, q.id = p.id ∧
          q.placed = p.placed.map (fun x => { x with faulted := x.faulted + inFlight c.seq.window p.id })

/-- HEAD_BUSY, HEAD_READY, HEAD_QUERY and ABORT_PLEAT (R130 to R132): the head state and its notice, the issue test of a
waiting stroke, HEAD_INFO for the panel that covers the head, and the strokes left of a panel counted aborted. At
ABORT_PLEAT a pending answer is replaced (log 4). -/
def Obligations.HeadTelegramsAndAborts : Prop :=
  ∀ s : State, s.awake →
    let c := s.ctl
    let ready := Controller.retestStroke { c with seq := { c.seq with head := .ready } }
    let e := if c.resumeAny = true then ready else c
    let number := match c.seq.cursor with
      | some k => c.numberOf k.panel
      | none => 0
    (c.chP.enabled = false → exec .headBusy s = s.then c ∧ exec .headReady s = s.then c ∧ exec .headQuery s = s.then c) ∧
    (c.chP.enabled = true →
      exec .headBusy s = s.then (Controller.raise { c with seq := { c.seq with head := .busy } } .pleatHeadBusy
        (Detail.num number)) ∧
      exec .headReady s = s.then (settled c ready) ∧
      exec .headQuery s = s.then (settled c (e.hand .p
        (match e.rosterPanels.find? e.atHead with
        | none => .headInfo 0 0 0 0 0
        | some p => .headInfo p.number p.pattern p.total ((p.placed.map Placed.issued).getD 0)
          ((p.placed.map Placed.done).getD 0))))) ∧
    ∀ (tag : Byte) (panel : Word16), exec (.abortPleat tag panel) s = s.then (
      if c.commissioned = false then c.answered .notCommissioned tag []
      else if panel = 0#16 then c.answered .badField tag [1#8]
      else match c.panelByNumber panel.toNat with
        | none => c.answered .noSuchRecord tag []
        | some p =>
          if (p.state = .feeding ∨ p.state = .pleating) ∧ 0 < p.strokesLeft then
            (settled c ((((c.countOn p.id (fun q => { q with aborted := q.aborted + p.strokesLeft })).addCause p.id
              .aborted).leavePanel p.id).conveyedTest p.id)).answered .ok tag (field 2 p.strokesLeft)
          else c.answered .wrongState tag [])

/-! ### A panel's crossings -/

/-- The six crossings of a panel (R47 to R49, R112, R113, R148, R150, R159 to R161, logs 16, 29): each is taken once, when
its threshold is reached, in the state that awaits it; `d` is the panel with the crossing marked taken. A number that no
live record holds has no crossing. And what the crossings leave: the lead cut and the tail cut with their entries (R159,
R161), an entry refused at a full queue (R162, log 35), a cut that fails (R166, R167), and the strokes that the tail
passage finds left (R113). -/
def Obligations.CrossingsMoveThePanel : Prop :=
  (∀ (s : State) (panel : Word16), s.onLine → RecordsSound s.ctl.tab →
    let c := s.ctl
    (c.panelByNumber panel.toNat = none →
      exec (.headArrival panel) s = s.then c ∧ exec (.tailPassage panel) s = s.then c ∧
      exec (.chamberEntry panel) s = s.then c ∧ exec (.chamberExit panel) s = s.then c ∧
      exec (.leadCutterCrossing panel) s = s.then c ∧ exec (.tailCutterCrossing panel) s = s.then c) ∧
    ∀ p, c.panelByNumber panel.toNat = some p →
      let marked := fun (f : Crossed → Crossed) => c.updatePanel p.id (fun x => { x with crossed := f x.crossed })
      (p.placed = none → exec (.headArrival panel) s = s.then c ∧ exec (.tailPassage panel) s = s.then c) ∧
      (p.bLead = none → exec (.chamberEntry panel) s = s.then c ∧ exec (.leadCutterCrossing panel) s = s.then c) ∧
      (p.bTail = none → exec (.chamberExit panel) s = s.then c ∧ exec (.tailCutterCrossing panel) s = s.then c) ∧
      (∀ q, p.placed = some q →
        let d := marked (fun x => { x with head := true })
        exec (.headArrival panel) s = s.then (
          if p.crossed.head = true ∨ c.feedAt < q.leadA + c.headDist then c
          else if p.state = .feeding then
            settled c ((d.updatePanel p.id (fun x =>
              { x with state := .pleating, bLead := x.bLead.or (some c.convAt) })).trackBCrossings p.id)
          else d)) ∧
      (∀ q, p.placed = some q →
        let d := ((marked (fun x => { x with tail := true })).lastStroke p).missRest p.id
        exec (.tailPassage panel) s = s.then (
          if p.crossed.tail = true ∨ c.feedAt < q.leadA + p.flatLength + c.headDist then c
          else settled c (((d.updatePanel p.id (fun x =>
            { x with bTail := x.bTail.or (some d.convAt) })).conveyedTest p.id).trackBCrossings p.id))) ∧
      (∀ b, p.bLead = some b →
        let d := marked (fun x => { x with entry := true })
        let inside := d.updatePanel p.id (fun x => { x with state := .setting, dose := x.dose.or (some 0) })
        exec (.chamberEntry panel) s = s.then (
          if p.crossed.entry = true ∨ c.convAt < b + c.entryDist then c
          else if p.state = .conveyed then settled c inside
          else if p.state = .pleating then
            settled c (if (∃ w ∈ c.seq.window, w.panel = p.id) ∨ 0 < p.strokesLeft then
              inside.addCause p.id .strokeFault else inside)
          else d)) ∧
      (∀ b, p.bTail = some b →
        let d := marked (fun x => { x with exit := true })
        let cooled := (d.updatePanel p.id (fun x => { x with state := .cooling })).decideVerdict p.id
        let taken := if p.crossed.heldLead = true then cooled.takeLeadCut p.id else cooled
        exec (.chamberExit panel) s = s.then (
          if p.crossed.exit = true ∨ c.convAt < b + c.exitDist then c
          else if p.state = .setting then settled c taken.gate.coordHold.drainTest
          else d)) ∧
      (∀ b, p.bLead = some b →
        let d := marked (fun x => { x with lead := true })
        exec (.leadCutterCrossing panel) s = s.then (
          if p.crossed.lead = true ∨ c.convAt < b + c.cutDist then c
          else if p.state = .cooling then settled c (d.takeLeadCut p.id)
          else if p.state = .setting then
            d.updatePanel p.id (fun x => { x with crossed := { x.crossed with heldLead := true } })
          else d)) ∧
      ∀ b, p.bTail = some b →
        let d := marked (fun x => { x with tailCut := true })
        exec (.tailCutterCrossing panel) s = s.then (
          if p.crossed.tailCut = true ∨ c.convAt < b + c.cutDist then c
          else if p.state = .cutting then settled c (d.takeTailCut p.id)
          else if p.state = .cooling then
            d.updatePanel p.id (fun x => { x with crossed := { x.crossed with heldTail := true } })
          else d)) ∧
    ∀ (c : Controller) (p : Panel), c.panelById p.id = some p →
      let alter := fun (d : Controller) (f : Panel → Panel) => d.updatePanel p.id f
      (∀ kind due, c.queueCut p kind due =
        if c.cut.queue.length < 8 then
          { c with cut := { c.cut with queue := c.cut.queue ++ [⟨p.id, p.number, kind, due⟩] } }
        else c.failCut p.id p.number kind 0xF3#8) ∧
      (∀ number kind reason,
        let told := (c.addCause p.id .cutFault).raise .panelCutFault ⟨BitVec.ofNat 16 number, reason⟩
        c.failCut p.id number kind reason = match kind with
          | .lead => told
          | .tail => alter told (fun q => if q.state = .cutting then { q with state := .cut } else q)) ∧
      (∀ b, p.bLead = some b →
        let d := (alter c (fun q => { q with
          state := .cutting
          marks := q.marks.or (some ⟨false, false, false⟩)
          crossed := { q.crossed with heldLead := false } })).queueCut p .lead (b + c.cutDist)
        c.takeLeadCut p.id = if p.crossed.heldTail = true then d.takeTailCut p.id else d) ∧
      (∀ b, p.bTail = some b →
        c.takeTailCut p.id =
          (alter c (fun q => { q with crossed := { q.crossed with heldTail := false } })).queueCut p .tail (b + c.cutDist)) ∧
      (let rest := fun (q : Placed) => { q with missed := q.missed + p.strokesLeft };
        c.missRest p.id =
          if p.strokesLeft = 0 then c.leavePanel p.id
          else ((((alter c (fun q => { q with placed := q.placed.map rest })).addCause p.id .strokeFault).raise
            .pleatStrokeMissed (Detail.num p.number)).leavePanel p.id)) ∧
      (c.leavePanel p.id = if c.seq.cursor.map Cursor.panel = some p.id then c.seekCursor.settleStrokes else c) ∧
      (c.seq.cursor = none → c.lastStroke p = c) ∧
      ∀ k q, c.seq.cursor = some k → p.placed = some q →
        c.lastStroke p =
          if k.panel = p.id ∧ k.due = q.leadA + p.flatLength + c.headDist ∧ k.waiting = false then
            (c.strokeCrossing).getD c
          else c

/-! ### The chamber, its bus and the cutter -/

/-- SET_HEAT_CLASS, and the chamber's own events ZONE_STALE, BANKED, CHANGEOVER_DRAIN_END and CHANGEOVER_DONE (R134, R139,
R142, R144, R147); the setpoints each zone is derived (R137); and the banking test (R146, R147): the bank condition by line
state, the timer it starts and cancels, and the end of banking with STEAM.UNBANKED. Away from their condition the event
rows change nothing (log 2); at SET_HEAT_CLASS a pending answer is replaced (log 4). -/
def Obligations.ChamberHoldsItsClass : Prop :=
  (∀ (s : State) (tag cls : Byte) (r1 r2 r3 r4 r5 r6 : Word16) (band : Byte) (bank lo hi : Word16), s.awake →
    let c := s.ctl
    let runs := [r1.toNat, r2.toNat, r3.toNat, r4.toNat, r5.toNat, r6.toNat]
    let bad := fun (i : Nat) => c.answered .badField tag (field 1 i)
    let d : Controller := { c with cham := { c.cham with
      classes := c.cham.classes.set (cls.toNat - 1) (some ⟨runs, band.toNat, bank.toNat, lo.toNat, hi.toNat⟩) } }
    exec (.setHeatClass tag cls r1 r2 r3 r4 r5 r6 band bank lo hi) s = s.then (
      if cls = 0#8 ∨ 8 < cls.toNat then bad 1
      else match runs.findIdx? (fun x => decide (x < 600 ∨ 1800 < x)) with
        | some i => bad (i + 2)
        | none =>
          if band.toNat < 5 ∨ 100 < band.toNat then bad 8
          else if bank.toNat < 400 ∨ 1500 < bank.toNat then bad 9
          else if lo.toNat < 100 ∨ 60000 < lo.toNat then bad 10
          else if hi.toNat < 100 ∨ 60000 < hi.toNat ∨ hi.toNat ≤ lo.toNat then bad 11
          else if c.cham.lineClass = cls.toNat ∨ c.cham.changeover.target = some cls.toNat then c.answered .inUse tag []
          else d.answered .ok tag (heatRecord d cls.toNat ++ chamberStatus d))) ∧
    (∀ s : State, s.onLine →
      let c := s.ctl
      (∀ zone : Byte, (Instr.zoneStale zone).wf = true → exec (.zoneStale zone) s = s.then (
        if (c.zone zone.toNat).enabled = true ∧ (c.zone zone.toNat).state ≠ .stale ∧
            c.staleLimit < c.age (c.zone zone.toNat).origin then
          (c.updateZone zone.toNat (fun z => { z with state := .stale })).raise .steamStale (Detail.num zone.toNat)
        else c)) ∧
      (∀ t, c.cham.bankTimer = some t → exec .banked s = s.then (
        if c.bankDelay ≤ c.age t then
          Controller.deriveZones (Controller.raise
            { c with cham := { c.cham with banked := true, bankTimer := none } } .steamBanked (Detail.num c.activeClass))
        else c)) ∧
      (c.cham.bankTimer = none → exec .banked s = s.then c) ∧
      exec .changeoverDrainEnd s = s.then (
        match c.cham.changeover with
        | .draining k =>
          if c.webClear = true then Controller.deriveZones { c with cham := { c.cham with changeover := .heating k } } else c
        | _ => c) ∧
      exec .changeoverDone s = s.then (
        match c.cham.changeover with
        | .heating k =>
          if ∀ z ∈ c.cham.zones, z.enabled = true → z.state = .inBand then
            settled c (Controller.raise { c with cham := { c.cham with lineClass := k, changeover := .idle } }
              .steamChangeoverDone (Detail.num k))
          else c
        | _ => c)) ∧
    (∀ (c : Controller) (i : Nat), 1 ≤ i → i ≤ c.cham.zones.length →
      let active := match c.cham.changeover with
        | .heating k => k
        | _ => c.cham.lineClass
      let w : WantedKind × Nat := match c.heatClass active with
        | none => (.off, 0)
        | some h => if c.cham.banked = true then (.bank, h.bank) else (.run, h.run.getD (i - 1) 0)
      c.deriveZones.zone i =
        if (c.zone i).enabled = false then c.zone i
        else { c.zone i with
          kind := w.1
          wanted := w.2
          state := if (c.zone i).state = .fault ∨ (c.zone i).state = .stale then (c.zone i).state
            else match w.1 with
              | .off => .off
              | .run => .heating
              | .bank => .banked }) ∧
    ∀ c : Controller,
      let cond : Bool := match c.line.state with
        | .stopped => true
        | .halted => true
        | .held => c.line.holds.accGuard || c.line.holds.coordLimit
        | .running => c.mot.feed.stall
        | .config => false
      let active := match c.cham.changeover with
        | .heating k => k
        | _ => c.cham.lineClass
      let chamber := fun (x : Chamber) => ({ c with cham := x } : Controller)
      c.bankTest =
        if c.commissioned = false ∨ cond = c.cham.bankOn then c
        else if cond = true then
          (if c.bankDelay = 0 then chamber { c.cham with bankOn := true }
          else chamber { c.cham with bankOn := true, bankTimer := some c.mot.tick })
        else if c.cham.banked = true then
          Controller.deriveZones (Controller.raise
            (chamber { c.cham with bankOn := false, banked := false, bankTimer := none }) .steamUnbanked (Detail.num active))
        else chamber { c.cham with bankOn := false, bankTimer := none }

/-- The arbiter's starts (R151, R154, R163): with no transaction in progress a pending cut comes first, then the lowest
zone with a SET pending, then the next enabled zone after the last polled; the cut is late above CUT_TOL, routed GOOD for
the lead of a GOOD panel, and marks the lead sent. A transaction in progress, or other work due, starts nothing (log 2).
`startNext`, by which the end of a transaction starts the next, makes the same choice. -/
def Obligations.BusWorkStartsInOrder : Prop :=
  ∀ s : State, s.onLine →
    let c := s.ctl
    let bus := fun (d : Controller) (kind : TxnKind) (drop sent : Nat) (x : TxItem) =>
      ({ d with
        cham := { d.cham with txn := some ⟨kind, drop, c.mot.tick, sent⟩ }
        chZ := d.chZ.handBus x } : Controller)
    let pendingSet := fun (i : Nat) => (c.zone i).enabled = true ∧ (c.zone i).commanded ≠ some (c.zone i).wanted
    let nextZone := fun (k : Nat) => (c.cham.lastPolled + k - 1) % 6 + 1
    let noSet := ∀ i, 1 ≤ i → i ≤ 6 → ¬ pendingSet i
    (c.cham.txn ≠ none → exec .cut s = s.then c ∧ exec .zoneSet s = s.then c ∧ exec .zonePoll s = s.then c) ∧
    (∀ e rest, c.cham.txn = none → c.cut.queue = e :: rest →
      let taken : Controller := { c with cut := { c.cut with queue := rest } }
      let d : Controller := if e.due + c.cutTol < c.convAt then
          (taken.addCause e.panel .cutLate).raise .panelCutLate (Detail.num e.number)
        else taken
      let route : CutRoute := match e.kind, d.panelById e.panel with
        | .lead, some p => if p.verdict = .good then .good else .scrap
        | _, _ => .scrap
      let m : Controller := match e.kind with
        | .lead => d.updatePanel e.panel (fun p => { p with marks := p.marks.map (fun x => { x with sent := true }) })
        | .tail => d
      let sent := bus { m with cut := { m.cut with now := some ⟨e.panel, e.number, e.kind⟩ } } .cut 7 0
        (.cut e.number e.kind route)
      exec .cut s = s.then (settled c sent) ∧ c.startNext = sent ∧
      exec .zoneSet s = s.then c ∧ exec .zonePoll s = s.then c) ∧
    (∀ i, c.cham.txn = none → c.cut.queue = [] → 1 ≤ i → i ≤ 6 → pendingSet i → (∀ j, 1 ≤ j → j < i → ¬ pendingSet j) →
      let set := bus c .set i (c.zone i).wanted (.zoneSet i (c.zone i).wanted)
      exec .zoneSet s = s.then set ∧ c.startNext = set ∧
      exec .cut s = s.then c ∧ exec .zonePoll s = s.then c) ∧
    (∀ k, c.cham.txn = none → c.cut.queue = [] → noSet → 1 ≤ k → k ≤ 6 → (c.zone (nextZone k)).enabled = true →
      (∀ j, 1 ≤ j → j < k → (c.zone (nextZone j)).enabled = false) →
      let i := nextZone k
      let poll := bus { c with cham := { c.cham with lastPolled := i } } .poll i 0 (.zonePoll i)
      exec .zonePoll s = s.then poll ∧ c.startNext = poll ∧
      exec .cut s = s.then c ∧ exec .zoneSet s = s.then c) ∧
    (c.cham.txn = none → c.cut.queue = [] → (∀ i, 1 ≤ i → i ≤ 6 → (c.zone i).enabled = false) →
      exec .cut s = s.then c ∧ exec .zoneSet s = s.then c ∧ exec .zonePoll s = s.then c ∧ c.startNext = c)

/-- The replies of the bus, and its timeout (R138, R144, R152, R153, R155, R156, R165 to R167): a reply that the
transaction in progress awaits has its effect, and the next transaction starts; another is LINK.PROTOCOL and ends the
transaction, a cut's as a CUT_FAULT; without a transaction the rows change nothing (log 27), and REPLY_TIMEOUT before its
time neither (log 2); the timeout itself raises no LINK notice (log 42). And what a good report leaves (R138): the reported values, the age restarted, the zone's state, and
the notice on entering FAULT or OUT_OF_BAND. -/
def Obligations.BusRepliesEndTheTransaction : Prop :=
  ∀ s : State,
    let c := s.ctl
    let next := fun (d : Controller) => Controller.startNext { d with cham := { d.cham with txn := none } }
    let failed := fun (d : Controller) (t : Txn) (reason : NamedDetail) =>
      match t.kind, d.cut.now with
      | .cut, some k => next (Controller.failCut { d with cut := { d.cut with now := none } } k.panel k.number k.kind reason.code)
      | _, _ => next d
    let wrong := fun (t : Txn) => settled c (failed (c.raise .linkProtocol (Detail.named .z)) t .protocol)
    (∀ (i temperature valve : Nat) (fault : Bool),
      let z := c.zone i
      let active := match c.cham.changeover with
        | .heating k => k
        | _ => c.cham.lineClass
      let band := ((c.heatClass active).map HeatClass.band).getD 0
      let st : ZoneState :=
        if fault = true then .fault
        else match z.kind with
          | .off => .off
          | .bank => .banked
          | .run =>
            if z.commanded = some z.wanted ∧ temperature ≤ z.wanted + band ∧ z.wanted ≤ temperature + band then .inBand
            else if z.state = .inBand ∨ z.state = .outOfBand then .outOfBand
            else .heating
      let told := c.updateZone i (fun x => { x with last := some (temperature, valve), origin := c.mot.tick, state := st })
      c.zoneReport i temperature valve fault =
        if st = .fault ∧ z.state ≠ .fault then told.raise .steamZoneFault (Detail.num i)
        else if st = .outOfBand ∧ z.state ≠ .outOfBand then told.raise .steamExcursion (Detail.num i)
        else told) ∧
    (c.cham.txn = none → s.awake →
      (∀ x v f, exec (.zoneReport x v f) s = s.then c) ∧ (∀ x, exec (.setAck x) s = s.then c) ∧
      (∀ p k, exec (.cutDone p k) s = s.then c) ∧ (∀ p k x, exec (.cutFault p k x) s = s.then c) ∧
      exec .replyTimeout s = s.then c) ∧
    ∀ t, c.cham.txn = some t →
      (s.onLine → exec .replyTimeout s = s.then (
        if c.replyTimeout ≤ c.age t.start then settled c (failed c t .timeout) else c)) ∧
      (s.awake → c.chZ.enabled = true →
        (∀ (x : Word16) (v : Byte) (f : Bool), exec (.zoneReport x v f) s = s.then (
          if t.kind = .poll ∧ v.toNat ≤ 100 then
            settled c (next (c.zoneReport t.drop x.toNat v.toNat f).completionTest)
          else wrong t)) ∧
        (∀ x : Word16, exec (.setAck x) s = s.then (
          if t.kind = .set ∧ x.toNat = t.sent then
            settled c (next (c.updateZone t.drop (fun z => { z with commanded := some x.toNat })))
          else wrong t)) ∧
        (∀ (p : Word16) (k : CutKind) (code : Byte), c.cut.now = none →
          exec (.cutDone p k) s = s.then (wrong t) ∧ exec (.cutFault p k code) s = s.then (wrong t)) ∧
        ∀ (p : Word16) (k : CutKind), ∀ n, c.cut.now = some n →
          let ended : Controller := { c with cut := { c.cut with now := none } }
          let matching := t.kind = .cut ∧ p.toNat = n.number ∧ k = n.kind
          (k = .lead → exec (.cutDone p k) s = s.then (
            if matching then
              settled c (next (ended.updatePanel n.panel (fun q =>
                { q with marks := q.marks.map (fun m => { m with leadDone := true }) })))
            else wrong t)) ∧
          (k = .tail → exec (.cutDone p k) s = s.then (
            if matching then
              settled c (next ((ended.updatePanel n.panel (fun q =>
                { q with
                  marks := q.marks.map (fun m => { m with tailDone := true })
                  state := if q.state = .cutting then .cut else q.state })).raise .panelCutDone (Detail.num n.number)))
            else wrong t)) ∧
          ∀ code : Byte, exec (.cutFault p k code) s = s.then (
            if matching then
              settled c (next (ended.failCut n.panel n.number n.kind (if 0xE0 < code.toNat then 0xE0#8 else code)))
            else wrong t))

/-! ### The configuration -/

/-- SET_PARAM, COMMISSION and DECOMMISSION (R194, R196 to R199): the checks in order; what COMMISSION leaves (log 15),
with the roll job and its tests, the zones, the telegrams queued behind the breaks (log 33) and the first bus transaction
(R198); and DECOMMISSION's return to CONFIG from a STOPPED line with an empty roster and a quiet roll job. The receivers
no longer wait for their lines to stand idle (log 36). The tick 0 of the sequencer's resync attempt, which R111 gives no
value, is the model's (log 28), and so is the ACTIVE spindle's UNWIND_MODE before a SPLICE_PREPARE (log 40). A pending
answer is replaced (log 4). -/
def Obligations.ConfigurationIsSetAndChecked : Prop :=
  (∀ (s : State) (tag param : Byte) (value : Word32), s.awake →
    let c := s.ctl
    exec (.setParam tag param value) s = s.then (
      if c.line.state ≠ .config then c.answered .notInConfig tag []
      else if param = 0#8 ∨ 46 < param.toNat then c.answered .badField tag [1#8]
      else if paramAccepts param.toNat value.toNat = false then c.answered .badField tag [2#8]
      else ({ c with params := c.params.set (param.toNat - 1) value.toNat }).answered .ok tag
        (field 1 param.toNat ++ field 4 value.toNat))) ∧
    (∀ (s : State) (tag : Byte), s.awake → s.ctl.line.state ≠ .config →
      exec (.commission tag) s = s.then (s.ctl.answered .notInConfig tag [])) ∧
    (∀ (s : State) (tag : Byte) (id : Nat), s.awake → s.ctl.line.state = .config →
      firstFailed s.ctl.commissionChecks = some id →
      exec (.commission tag) s = s.then (s.ctl.answered .badField tag (field 1 id))) ∧
    (∀ (s : State) (tag : Byte), s.awake → s.ctl.line.state = .config → firstFailed s.ctl.commissionChecks = none →
      let c := s.ctl
      ∃ d : Controller, exec (.commission tag) s = s.then (d.answered .ok tag (lineStatus d ++ field 1 d.rolls.job.code)) ∧
        (d.line.state = .stopped ∧ d.line.mode = .hold ∧ d.line.speed = c.lineSpeed ∧ d.line.lastTail = none) ∧
        (∀ i, d.mot.counter i = ⟨0, 0, false⟩) ∧ d.mot.limit = false ∧ d.mot.tick = c.mot.tick ∧
        (d.rolls.fill = c.accInit ∧ d.rolls.seams = [] ∧ d.rolls.feedRoll = c.runningRoll.map Roll.id) ∧
        d.seq = ⟨none, [], 0#8, .ready, .stepping, 0, 0#32⟩ ∧
        (d.cham.lineClass = 0 ∧ d.cham.banked = false ∧ d.cut.queue = []) ∧
        (∀ ch, (d.link ch).enabled = true ∧ (d.link ch).baud = c.baudOf ch ∧ (d.link ch).tx = some .brk) ∧
        (d.tab = c.tab ∧ d.lib = c.lib ∧ d.params = c.params ∧ d.port = c.port) ∧
        (d.line.holds = ⟨decide (c.accInit ≤ c.accGuard), false, false⟩ ∧ d.line.lastHalt = none ∧
          d.line.report = none ∧ d.line.resend = 0 ∧ d.line.origin = 0 ∧ d.line.suspended = false) ∧
        (d.rolls.slots = c.rolls.slots.map (fun slot => slot.map (fun r =>
            if r.state = .expired then { r with state := .spent } else r)) ∧
          d.rolls.rangeMark = false ∧ d.rolls.retry = 0 ∧ d.rolls.report = none ∧
          d.rolls.hyst = (if c.accHigh ≤ c.accInit then .follow else .refill) ∧
          d.rolls.resend = 0 ∧ d.rolls.origin = 0 ∧ d.rolls.suspended = false) ∧
        (d.rolls.runout = true ↔ ∃ r, c.runningRoll = some r ∧ r.remaining ≤ c.runoutAt) ∧
        (c.runningRoll = none → d.rolls.job = .noRoll) ∧
        (∀ r, c.runningRoll = some r →
          (c.spliceAt < r.remaining → d.rolls.job = .normal) ∧
          (r.remaining ≤ c.spliceAt → c.idleLoaded = false → d.rolls.job = .low) ∧
          (r.remaining ≤ c.spliceAt → c.idleLoaded = true →
            d.rolls.job = if c.seamClear ≤ c.accInit then .preparing else .pending)) ∧
        (∀ x, d.spindle x = { c.spindle x with mode := some (
          if (c.spindle x).state ≠ .active ∨ d.rolls.runout = true then .stop else d.rolls.hyst.toMode) }) ∧
        (let runs := fun (x : Spindle) =>
            if (c.spindle x).state = .active ∧ d.rolls.runout = false then [TxItem.unwindMode x d.rolls.hyst.toMode] else []
          let prepare := match c.activeSpindle with
            | some x => if d.rolls.job = .preparing then [TxItem.splicePrepare x (otherSpindle x)] else []
            | none => [];
          ((c.spindle .a).state ≠ .active ∨ (c.spindle .b).state ≠ .active) →
            d.chS.queue = [.unwindMode .a .stop, .unwindMode .b .stop] ++ runs .a ++ runs .b ++ prepare) ∧
        (d.chF.queue = [.driveHold] ∧ d.chP.queue = []) ∧
        (∀ ch, (d.link ch).rx = ⟨.hunting, [], false, false⟩) ∧
        (d.cham.zones.length = 6 ∧ ∀ i, 1 ≤ i → i ≤ 6 →
          (d.zone i).enabled = decide (i ≤ c.zoneCount) ∧ (d.zone i).commanded = none ∧ (d.zone i).last = none ∧
            (d.zone i).origin = c.mot.tick) ∧
        (c.headPanel = none → d.line.fabricMark = false ∧ d.cham.changeover = .idle ∧
          ∀ i, 1 ≤ i → i ≤ 6 → (d.zone i).kind = .off ∧ (d.zone i).wanted = 0 ∧ (d.zone i).state = .off) ∧
        (d.cham.bankOn = true ∧ d.cham.bankTimer = (if c.bankDelay = 0 then none else some c.mot.tick) ∧
          d.cham.lastPolled = c.zoneCount ∧ d.cut.now = none) ∧
        (1 ≤ c.zoneCount → d.cham.txn = some ⟨.set, 1, c.mot.tick, 0⟩ ∧ d.chZ.queue = [.zoneSet 1 0])) ∧
    (∀ c : Controller, firstFailed c.commissionChecks = none ↔
      (∀ p ∈ c.panelsOf c.tab.queue, p.flatLength ≤ c.panelMax) ∧ c.panelMax ≤ c.entryDist ∧
        (∀ i, 1 ≤ i → i ≤ 6 → i ≤ c.zoneCount → (if i = 1 then c.entryDist else c.zoneEnd (i - 1)) + 1000 ≤ c.zoneEnd i) ∧
        c.exitDist + c.panelMax ≤ c.cutDist ∧ c.accHigh < c.accCap ∧ c.accLow < c.accHigh ∧ c.accGuard < c.accLow ∧
        c.accInit ≤ c.accCap ∧ c.runoutAt + c.panelMax ≤ c.spliceAt) ∧
    ∀ (s : State) (tag : Byte), s.awake →
      let c := s.ctl
      let quiet := c.rolls.job = .normal ∨ c.rolls.job = .low ∨ c.rolls.job = .noRoll
      let off := fun (l : Link) => (⟨false, l.baud, .hunting, none, []⟩ : Link)
      let free := fun (x : SpindleRec) => ({ x with mode := none } : SpindleRec)
      let d : Controller := { c with
        line := { c.line with state := .config, holds := HoldCauses.empty, mode := .off }
        mot := { c.mot with limit := false }
        rolls := { c.rolls with seams := [], spA := free c.rolls.spA, spB := free c.rolls.spB }
        cham := { c.cham with
          lineClass := 0, changeover := .idle, banked := false, bankTimer := none, bankOn := false, txn := none }
        cut := { c.cut with now := none }
        chF := off c.chF
        chS := off c.chS
        chP := off c.chP
        chZ := off c.chZ }
      exec (.decommission tag) s = s.then (
        if c.line.state = .config then c.answered .notCommissioned tag []
        else if c.line.state = .stopped ∧ c.tab.roster = [] ∧ quiet then d.answered .ok tag []
        else c.answered .wrongState tag [])

/-! ### Pulses and ticks -/

/-- COUNT_PULSE, DWELL_TICK, STALL and COORD_LIMIT (R43, R44, R45, R50, R54, R55, logs 2, 3): the counter of the pulse,
each block's work once in an order the command carries, with the fill before whatever reads U (R51), and a FEED pulse's
report of the cleared stall flag before all of it (log 37); the fill, the tick number, the stall flag's and the limit
mark's events. In CONFIG pulses are not counted and only the tick number advances.
And the work itself, task by task: each is the work of the event rows that the other statements give, over the roster, the
zones and the inputs in their order; a UNW pulse takes one from the RUNNING roll's length (R91), the seam list takes a
loss before a passage and a removal (log 38), and a tick adds one to the dose of a SETTING panel whose zones are all IN_BAND
(R149). -/
def Obligations.PulsesAndTicksDriveTheBlocks : Prop :=
  (∀ (s : State) (i : CountInput) (order : List PulseTask), s.awake →
    let c := s.ctl
    let k := c.mot.counter i
    let up : Counter := ⟨if k.coord < countCeiling then k.coord + 1 else k.coord, 0, false⟩
    let counted : Controller := { c with mot := c.mot.setCounter i up }
    let begun := if i = .feed then counted.bankTest else counted
    exec (.countPulse i order) s = s.then (
      if c.commissioned = false then c
      else settled c ((fillFirst (schedule order (pulseWork i))).foldl (Controller.pulseTask i) begun))) ∧
    (pulseWork .unw = [.limit, .length, .fill, .slip, .clearance] ∧
      pulseWork .feed = [.limit, .fill, .clearance, .seams, .slip, .gate, .head] ∧
      pulseWork .conv = [.limit, .chamber, .cutter] ∧
      tickWork = [.intervals, .ack, .splice, .stale, .bank, .reply, .dose]) ∧
    (∀ i order, (fillFirst (schedule order (pulseWork i))).Perm (pulseWork i)) ∧
    (∀ i order front t back, i ≠ .conv → fillFirst (schedule order (pulseWork i)) = front ++ t :: back →
      (t = .length ∨ t = .clearance ∨ t = .seams) → .fill ∈ front) ∧
    (∀ (s : State) (order : List TickTask), s.awake →
      let c := s.ctl
      let d : Controller := { c with mot := { c.mot with tick := c.mot.tick + 1#32 } }
      exec (.dwellTick order) s = s.then (
        if c.commissioned = false then d else settled d ((schedule order tickWork).foldl Controller.tickTask d))) ∧
    (∀ order, (schedule order tickWork).Perm tickWork) ∧
    (∀ (c : Controller) (i : CountInput),
      let up := decide (i = .unw)
      let fill := if up = true then c.rolls.fill + 1 else c.rolls.fill - 1
      let clamped := if up = true then c.accCap ≤ c.rolls.fill else c.rolls.fill = 0
      let atBound := c.rolls.fill = 0 ∨ c.rolls.fill = c.accCap
      let moved : Controller := { c with rolls := { c.rolls with
        fill := fill
        rangeMark := c.rolls.rangeMark && !decide atBound
        hyst := if c.accHigh ≤ fill then .follow else if fill ≤ c.accLow then .refill else c.rolls.hyst } }
      let derived := moved.deriveUnwind
      let ranged := Controller.raise { c with rolls := { c.rolls with rangeMark := true } } .rollAccRange
        (Detail.named (if up = true then .full else .empty))
      c.pulseTask i .fill = (
        if clamped then (if c.rolls.rangeMark = true then c else ranged)
        else if fill ≤ c.accGuard then derived.addHold .accGuard
        else if c.accLow ≤ fill then derived.removeHold .accGuard
        else derived)) ∧
    (∀ (c : Controller) (i : CountInput),
      let roster := fun (d : Controller) (f : Controller → Nat → Controller) => d.tab.roster.foldl f d
      c.pulseTask i .limit = c.limitTest i ∧ c.pulseTask i .length = c.lengthPulse ∧
      c.pulseTask i .clearance = c.clearanceTest ∧
      c.pulseTask .unw .slip = (if c.rolls.resend < c.resendLimit then c.unwindResend else c.unwindResendFault) ∧
      c.pulseTask .feed .slip = (if c.line.resend < c.resendLimit then c.feedResend else c.feedResendFault) ∧
      c.pulseTask i .seams = c.seamLossTest.seamPassageTest.seamRemovalTest ∧ c.pulseTask i .gate = c.gate ∧
      c.pulseTask i .head =
        roster (roster (Controller.strokeCrossings c.strokeBound c) Controller.headArrival) Controller.tailPassage ∧
      c.pulseTask i .chamber = roster (roster c Controller.chamberEntry) Controller.chamberExit ∧
      c.pulseTask i .cutter = roster c (fun d id => (d.leadCrossing id).tailCrossing id)) ∧
    (∀ c : Controller,
      let counting := fun (d : Controller) (i : CountInput) =>
        let k := d.mot.counter i
        let up : Counter := { k with interval := if k.interval < counterCeiling then k.interval + 1 else k.interval }
        Controller.stallTest { d with mot := d.mot.setCounter i up } i
      c.tickTask .intervals = counting (counting (counting c .unw) .feed) .conv ∧
      c.tickTask .ack = (if c.seq.mode = .stepping then c.ackTimeoutTest else c.attemptTest) ∧
      c.tickTask .splice = c.retryWaitTest.cancelWaitTest.spliceTimeoutTest ∧
      c.tickTask .stale = [1, 2, 3, 4, 5, 6].foldl Controller.staleTest c ∧ c.tickTask .bank = c.bankDue ∧
      c.tickTask .reply = c.replyTest ∧ c.tickTask .dose = c.rosterPanels.foldl Controller.dosePanel c) ∧
    (∀ c : Controller,
      ((c.runningRoll = none ∨ ∃ r, c.runningRoll = some r ∧ r.remaining = 0) → c.lengthPulse = c) ∧
      ∀ r, c.runningRoll = some r → r.remaining ≠ 0 →
        let d := (c.updateRoll r.id (fun x => { x with remaining := x.remaining - 1 })).runoutTest
        c.lengthPulse = (if r.remaining = 1 then d.raise .rollRunout (Detail.named .count) else d).spliceAtTest) ∧
    (∀ (c : Controller) (p : Panel),
      let meets := fun (i : Nat) => (1 ≤ i ∧ i ≤ 6 ∧ i ≤ c.zoneCount) ∧ c.inZone p i = true
      (c.gathersDose p = true ↔ (∃ i, meets i) ∧ ∀ i, meets i → (c.zone i).state = .inBand) ∧
      ((p.state ≠ .setting ∨ p.dose = none ∨ p.placed = none) → c.dosePanel p = c) ∧
      ∀ n q, p.state = .setting → p.dose = some n → p.placed = some q →
        let more := c.updatePanel p.id (fun x => { x with dose := some (n + 1) })
        c.dosePanel p =
          if c.gathersDose p = true ∧ n < 65535 then (if n = q.doseMax then more.addCause p.id .overset else more) else c) ∧
    (∀ s : State, s.onLine →
      let c := s.ctl
      let does := fun (i : Instr) (d : Controller) => exec i s = s.then (settled c d)
      (does .holdResend c.feedResend ∧ does .feedResendLimit c.feedResendFault ∧ does .unwindResend c.unwindResend ∧
        does .unwindResendLimit c.unwindResendFault) ∧
      (does .splicePrepare c.clearanceTest ∧ does .spliceDue c.spliceAtTest ∧ does (.runout false) c.runoutTest ∧
        does .retryWaitEnd c.retryWaitTest ∧ does .cancelWaitTimeout c.cancelWaitTest ∧
        does .spliceTimeout c.spliceTimeoutTest) ∧
      (does .seamLost c.seamLossTest ∧ does .plannedSeamPassage c.seamPassageTest ∧
        does .seamEntryRemoval c.seamRemovalTest) ∧
      (does .ackTimeout c.ackTimeoutTest ∧ does .resyncAttemptTimeout c.attemptTest ∧ does .replyTimeout c.replyTest ∧
        does .banked c.bankDue ∧ ∀ zone : Byte, does (.zoneStale zone) (c.staleTest zone.toNat)) ∧
      (∀ i, does (.stall i) (c.stallTest i) ∧ does (.coordLimit i) (c.limitTest i)) ∧
      ∀ (panel : Word16) (p : Panel), c.panelByNumber panel.toNat = some p →
        (does (.headArrival panel) (c.headArrival p.id) ∧ does (.tailPassage panel) (c.tailPassage p.id)) ∧
        (does (.chamberEntry panel) (c.chamberEntry p.id) ∧ does (.chamberExit panel) (c.chamberExit p.id)) ∧
        does (.leadCutterCrossing panel) (c.leadCrossing p.id) ∧ does (.tailCutterCrossing panel) (c.tailCrossing p.id)) ∧
    ∀ (s : State) (i : CountInput), s.onLine →
      let c := s.ctl
      let k := c.mot.counter i
      let stalled : Controller := { c with mot := c.mot.setCounter i { k with stall := true } }
      let limited := Controller.raise { c with mot := { c.mot with limit := true } } .lineCoordLimit
        (Detail.named (inputDetail i))
      exec (.stall i) s = s.then (
        if k.stall = true ∨ k.interval ≠ c.stallLimit then c
        else match i with
          | .unw => settled c (if c.rolls.job = .stopping then (stalled.hand .s .spliceGo).moveJob .splicing else stalled)
          | .feed => settled c
            (if c.line.state = .running then stalled.raise .lineStall (Detail.named .feed) else stalled).bankTest
          | .conv => stalled) ∧
      exec (.coordLimit i) s = s.then (
        if c.mot.limit = true ∨ k.coord ≠ 4000000000 then c
        else settled c (if c.webClear = true then limited.addHold .coordLimit else limited))
end

