-- ==== Sys2Proof/Laws/State.lean ====
section
/-! SUPPORT. What each plain update of the controller leaves, field by field. -/

namespace Sys2Proof.Machine

@[simp] theorem State.withCtl_ctl (s : State) (c : Controller) : (s.withCtl c).ctl = c := rfl
@[simp] theorem State.withCtl_pending (s : State) (c : Controller) : (s.withCtl c).pending = s.pending := rfl


/-! ### updatePanel -/

@[simp] theorem Controller.updatePanel_lib (c : Controller) (id : Nat) (f : Panel → Panel) : (c.updatePanel id f).lib = c.lib := rfl
@[simp] theorem Controller.updatePanel_mot (c : Controller) (id : Nat) (f : Panel → Panel) : (c.updatePanel id f).mot = c.mot := rfl
@[simp] theorem Controller.updatePanel_line (c : Controller) (id : Nat) (f : Panel → Panel) : (c.updatePanel id f).line = c.line := rfl
@[simp] theorem Controller.updatePanel_rolls (c : Controller) (id : Nat) (f : Panel → Panel) : (c.updatePanel id f).rolls = c.rolls := rfl
@[simp] theorem Controller.updatePanel_seq (c : Controller) (id : Nat) (f : Panel → Panel) : (c.updatePanel id f).seq = c.seq := rfl
@[simp] theorem Controller.updatePanel_cham (c : Controller) (id : Nat) (f : Panel → Panel) : (c.updatePanel id f).cham = c.cham := rfl
@[simp] theorem Controller.updatePanel_cut (c : Controller) (id : Nat) (f : Panel → Panel) : (c.updatePanel id f).cut = c.cut := rfl
@[simp] theorem Controller.updatePanel_chF (c : Controller) (id : Nat) (f : Panel → Panel) : (c.updatePanel id f).chF = c.chF := rfl
@[simp] theorem Controller.updatePanel_chS (c : Controller) (id : Nat) (f : Panel → Panel) : (c.updatePanel id f).chS = c.chS := rfl
@[simp] theorem Controller.updatePanel_chP (c : Controller) (id : Nat) (f : Panel → Panel) : (c.updatePanel id f).chP = c.chP := rfl
@[simp] theorem Controller.updatePanel_chZ (c : Controller) (id : Nat) (f : Panel → Panel) : (c.updatePanel id f).chZ = c.chZ := rfl
@[simp] theorem Controller.updatePanel_port (c : Controller) (id : Nat) (f : Panel → Panel) : (c.updatePanel id f).port = c.port := rfl
@[simp] theorem Controller.updatePanel_att (c : Controller) (id : Nat) (f : Panel → Panel) : (c.updatePanel id f).att = c.att := rfl
@[simp] theorem Controller.updatePanel_params (c : Controller) (id : Nat) (f : Panel → Panel) : (c.updatePanel id f).params = c.params := rfl
@[simp] theorem Controller.updatePanel_resetHeld (c : Controller) (id : Nat) (f : Panel → Panel) : (c.updatePanel id f).resetHeld = c.resetHeld := rfl

/-! ### updatePattern -/

@[simp] theorem Controller.updatePattern_tab (c : Controller) (n : Nat) (f : Pattern → Pattern) : (c.updatePattern n f).tab = c.tab := rfl
@[simp] theorem Controller.updatePattern_mot (c : Controller) (n : Nat) (f : Pattern → Pattern) : (c.updatePattern n f).mot = c.mot := rfl
@[simp] theorem Controller.updatePattern_line (c : Controller) (n : Nat) (f : Pattern → Pattern) : (c.updatePattern n f).line = c.line := rfl
@[simp] theorem Controller.updatePattern_rolls (c : Controller) (n : Nat) (f : Pattern → Pattern) : (c.updatePattern n f).rolls = c.rolls := rfl
@[simp] theorem Controller.updatePattern_seq (c : Controller) (n : Nat) (f : Pattern → Pattern) : (c.updatePattern n f).seq = c.seq := rfl
@[simp] theorem Controller.updatePattern_cham (c : Controller) (n : Nat) (f : Pattern → Pattern) : (c.updatePattern n f).cham = c.cham := rfl
@[simp] theorem Controller.updatePattern_cut (c : Controller) (n : Nat) (f : Pattern → Pattern) : (c.updatePattern n f).cut = c.cut := rfl
@[simp] theorem Controller.updatePattern_chF (c : Controller) (n : Nat) (f : Pattern → Pattern) : (c.updatePattern n f).chF = c.chF := rfl
@[simp] theorem Controller.updatePattern_chS (c : Controller) (n : Nat) (f : Pattern → Pattern) : (c.updatePattern n f).chS = c.chS := rfl
@[simp] theorem Controller.updatePattern_chP (c : Controller) (n : Nat) (f : Pattern → Pattern) : (c.updatePattern n f).chP = c.chP := rfl
@[simp] theorem Controller.updatePattern_chZ (c : Controller) (n : Nat) (f : Pattern → Pattern) : (c.updatePattern n f).chZ = c.chZ := rfl
@[simp] theorem Controller.updatePattern_port (c : Controller) (n : Nat) (f : Pattern → Pattern) : (c.updatePattern n f).port = c.port := rfl
@[simp] theorem Controller.updatePattern_att (c : Controller) (n : Nat) (f : Pattern → Pattern) : (c.updatePattern n f).att = c.att := rfl
@[simp] theorem Controller.updatePattern_params (c : Controller) (n : Nat) (f : Pattern → Pattern) : (c.updatePattern n f).params = c.params := rfl
@[simp] theorem Controller.updatePattern_resetHeld (c : Controller) (n : Nat) (f : Pattern → Pattern) : (c.updatePattern n f).resetHeld = c.resetHeld := rfl

/-! ### mapRolls -/

@[simp] theorem Controller.mapRolls_tab (c : Controller) (f : Roll → Roll) : (c.mapRolls f).tab = c.tab := rfl
@[simp] theorem Controller.mapRolls_lib (c : Controller) (f : Roll → Roll) : (c.mapRolls f).lib = c.lib := rfl
@[simp] theorem Controller.mapRolls_mot (c : Controller) (f : Roll → Roll) : (c.mapRolls f).mot = c.mot := rfl
@[simp] theorem Controller.mapRolls_line (c : Controller) (f : Roll → Roll) : (c.mapRolls f).line = c.line := rfl
@[simp] theorem Controller.mapRolls_seq (c : Controller) (f : Roll → Roll) : (c.mapRolls f).seq = c.seq := rfl
@[simp] theorem Controller.mapRolls_cham (c : Controller) (f : Roll → Roll) : (c.mapRolls f).cham = c.cham := rfl
@[simp] theorem Controller.mapRolls_cut (c : Controller) (f : Roll → Roll) : (c.mapRolls f).cut = c.cut := rfl
@[simp] theorem Controller.mapRolls_chF (c : Controller) (f : Roll → Roll) : (c.mapRolls f).chF = c.chF := rfl
@[simp] theorem Controller.mapRolls_chS (c : Controller) (f : Roll → Roll) : (c.mapRolls f).chS = c.chS := rfl
@[simp] theorem Controller.mapRolls_chP (c : Controller) (f : Roll → Roll) : (c.mapRolls f).chP = c.chP := rfl
@[simp] theorem Controller.mapRolls_chZ (c : Controller) (f : Roll → Roll) : (c.mapRolls f).chZ = c.chZ := rfl
@[simp] theorem Controller.mapRolls_port (c : Controller) (f : Roll → Roll) : (c.mapRolls f).port = c.port := rfl
@[simp] theorem Controller.mapRolls_att (c : Controller) (f : Roll → Roll) : (c.mapRolls f).att = c.att := rfl
@[simp] theorem Controller.mapRolls_params (c : Controller) (f : Roll → Roll) : (c.mapRolls f).params = c.params := rfl
@[simp] theorem Controller.mapRolls_resetHeld (c : Controller) (f : Roll → Roll) : (c.mapRolls f).resetHeld = c.resetHeld := rfl

/-! ### updateRoll -/

@[simp] theorem Controller.updateRoll_tab (c : Controller) (id : Nat) (f : Roll → Roll) : (c.updateRoll id f).tab = c.tab := rfl
@[simp] theorem Controller.updateRoll_lib (c : Controller) (id : Nat) (f : Roll → Roll) : (c.updateRoll id f).lib = c.lib := rfl
@[simp] theorem Controller.updateRoll_mot (c : Controller) (id : Nat) (f : Roll → Roll) : (c.updateRoll id f).mot = c.mot := rfl
@[simp] theorem Controller.updateRoll_line (c : Controller) (id : Nat) (f : Roll → Roll) : (c.updateRoll id f).line = c.line := rfl
@[simp] theorem Controller.updateRoll_seq (c : Controller) (id : Nat) (f : Roll → Roll) : (c.updateRoll id f).seq = c.seq := rfl
@[simp] theorem Controller.updateRoll_cham (c : Controller) (id : Nat) (f : Roll → Roll) : (c.updateRoll id f).cham = c.cham := rfl
@[simp] theorem Controller.updateRoll_cut (c : Controller) (id : Nat) (f : Roll → Roll) : (c.updateRoll id f).cut = c.cut := rfl
@[simp] theorem Controller.updateRoll_chF (c : Controller) (id : Nat) (f : Roll → Roll) : (c.updateRoll id f).chF = c.chF := rfl
@[simp] theorem Controller.updateRoll_chS (c : Controller) (id : Nat) (f : Roll → Roll) : (c.updateRoll id f).chS = c.chS := rfl
@[simp] theorem Controller.updateRoll_chP (c : Controller) (id : Nat) (f : Roll → Roll) : (c.updateRoll id f).chP = c.chP := rfl
@[simp] theorem Controller.updateRoll_chZ (c : Controller) (id : Nat) (f : Roll → Roll) : (c.updateRoll id f).chZ = c.chZ := rfl
@[simp] theorem Controller.updateRoll_port (c : Controller) (id : Nat) (f : Roll → Roll) : (c.updateRoll id f).port = c.port := rfl
@[simp] theorem Controller.updateRoll_att (c : Controller) (id : Nat) (f : Roll → Roll) : (c.updateRoll id f).att = c.att := rfl
@[simp] theorem Controller.updateRoll_params (c : Controller) (id : Nat) (f : Roll → Roll) : (c.updateRoll id f).params = c.params := rfl
@[simp] theorem Controller.updateRoll_resetHeld (c : Controller) (id : Nat) (f : Roll → Roll) : (c.updateRoll id f).resetHeld = c.resetHeld := rfl

/-! ### setSpindle -/

@[simp] theorem Controller.setSpindle_tab (c : Controller) (sp : Spindle) (r : SpindleRec) : (c.setSpindle sp r).tab = c.tab := by cases sp <;> rfl
@[simp] theorem Controller.setSpindle_lib (c : Controller) (sp : Spindle) (r : SpindleRec) : (c.setSpindle sp r).lib = c.lib := by cases sp <;> rfl
@[simp] theorem Controller.setSpindle_mot (c : Controller) (sp : Spindle) (r : SpindleRec) : (c.setSpindle sp r).mot = c.mot := by cases sp <;> rfl
@[simp] theorem Controller.setSpindle_line (c : Controller) (sp : Spindle) (r : SpindleRec) : (c.setSpindle sp r).line = c.line := by cases sp <;> rfl
@[simp] theorem Controller.setSpindle_seq (c : Controller) (sp : Spindle) (r : SpindleRec) : (c.setSpindle sp r).seq = c.seq := by cases sp <;> rfl
@[simp] theorem Controller.setSpindle_cham (c : Controller) (sp : Spindle) (r : SpindleRec) : (c.setSpindle sp r).cham = c.cham := by cases sp <;> rfl
@[simp] theorem Controller.setSpindle_cut (c : Controller) (sp : Spindle) (r : SpindleRec) : (c.setSpindle sp r).cut = c.cut := by cases sp <;> rfl
@[simp] theorem Controller.setSpindle_chF (c : Controller) (sp : Spindle) (r : SpindleRec) : (c.setSpindle sp r).chF = c.chF := by cases sp <;> rfl
@[simp] theorem Controller.setSpindle_chS (c : Controller) (sp : Spindle) (r : SpindleRec) : (c.setSpindle sp r).chS = c.chS := by cases sp <;> rfl
@[simp] theorem Controller.setSpindle_chP (c : Controller) (sp : Spindle) (r : SpindleRec) : (c.setSpindle sp r).chP = c.chP := by cases sp <;> rfl
@[simp] theorem Controller.setSpindle_chZ (c : Controller) (sp : Spindle) (r : SpindleRec) : (c.setSpindle sp r).chZ = c.chZ := by cases sp <;> rfl
@[simp] theorem Controller.setSpindle_port (c : Controller) (sp : Spindle) (r : SpindleRec) : (c.setSpindle sp r).port = c.port := by cases sp <;> rfl
@[simp] theorem Controller.setSpindle_att (c : Controller) (sp : Spindle) (r : SpindleRec) : (c.setSpindle sp r).att = c.att := by cases sp <;> rfl
@[simp] theorem Controller.setSpindle_params (c : Controller) (sp : Spindle) (r : SpindleRec) : (c.setSpindle sp r).params = c.params := by cases sp <;> rfl
@[simp] theorem Controller.setSpindle_resetHeld (c : Controller) (sp : Spindle) (r : SpindleRec) : (c.setSpindle sp r).resetHeld = c.resetHeld := by cases sp <;> rfl

/-! ### updateZone -/

@[simp] theorem Controller.updateZone_tab (c : Controller) (i : Nat) (f : Zone → Zone) : (c.updateZone i f).tab = c.tab := rfl
@[simp] theorem Controller.updateZone_lib (c : Controller) (i : Nat) (f : Zone → Zone) : (c.updateZone i f).lib = c.lib := rfl
@[simp] theorem Controller.updateZone_mot (c : Controller) (i : Nat) (f : Zone → Zone) : (c.updateZone i f).mot = c.mot := rfl
@[simp] theorem Controller.updateZone_line (c : Controller) (i : Nat) (f : Zone → Zone) : (c.updateZone i f).line = c.line := rfl
@[simp] theorem Controller.updateZone_rolls (c : Controller) (i : Nat) (f : Zone → Zone) : (c.updateZone i f).rolls = c.rolls := rfl
@[simp] theorem Controller.updateZone_seq (c : Controller) (i : Nat) (f : Zone → Zone) : (c.updateZone i f).seq = c.seq := rfl
@[simp] theorem Controller.updateZone_cut (c : Controller) (i : Nat) (f : Zone → Zone) : (c.updateZone i f).cut = c.cut := rfl
@[simp] theorem Controller.updateZone_chF (c : Controller) (i : Nat) (f : Zone → Zone) : (c.updateZone i f).chF = c.chF := rfl
@[simp] theorem Controller.updateZone_chS (c : Controller) (i : Nat) (f : Zone → Zone) : (c.updateZone i f).chS = c.chS := rfl
@[simp] theorem Controller.updateZone_chP (c : Controller) (i : Nat) (f : Zone → Zone) : (c.updateZone i f).chP = c.chP := rfl
@[simp] theorem Controller.updateZone_chZ (c : Controller) (i : Nat) (f : Zone → Zone) : (c.updateZone i f).chZ = c.chZ := rfl
@[simp] theorem Controller.updateZone_port (c : Controller) (i : Nat) (f : Zone → Zone) : (c.updateZone i f).port = c.port := rfl
@[simp] theorem Controller.updateZone_att (c : Controller) (i : Nat) (f : Zone → Zone) : (c.updateZone i f).att = c.att := rfl
@[simp] theorem Controller.updateZone_params (c : Controller) (i : Nat) (f : Zone → Zone) : (c.updateZone i f).params = c.params := rfl
@[simp] theorem Controller.updateZone_resetHeld (c : Controller) (i : Nat) (f : Zone → Zone) : (c.updateZone i f).resetHeld = c.resetHeld := rfl

/-! ### setChangeover -/

@[simp] theorem Controller.setChangeover_tab (c : Controller) (x : Changeover) : (c.setChangeover x).tab = c.tab := rfl
@[simp] theorem Controller.setChangeover_lib (c : Controller) (x : Changeover) : (c.setChangeover x).lib = c.lib := rfl
@[simp] theorem Controller.setChangeover_mot (c : Controller) (x : Changeover) : (c.setChangeover x).mot = c.mot := rfl
@[simp] theorem Controller.setChangeover_line (c : Controller) (x : Changeover) : (c.setChangeover x).line = c.line := rfl
@[simp] theorem Controller.setChangeover_rolls (c : Controller) (x : Changeover) : (c.setChangeover x).rolls = c.rolls := rfl
@[simp] theorem Controller.setChangeover_seq (c : Controller) (x : Changeover) : (c.setChangeover x).seq = c.seq := rfl
@[simp] theorem Controller.setChangeover_cut (c : Controller) (x : Changeover) : (c.setChangeover x).cut = c.cut := rfl
@[simp] theorem Controller.setChangeover_chF (c : Controller) (x : Changeover) : (c.setChangeover x).chF = c.chF := rfl
@[simp] theorem Controller.setChangeover_chS (c : Controller) (x : Changeover) : (c.setChangeover x).chS = c.chS := rfl
@[simp] theorem Controller.setChangeover_chP (c : Controller) (x : Changeover) : (c.setChangeover x).chP = c.chP := rfl
@[simp] theorem Controller.setChangeover_chZ (c : Controller) (x : Changeover) : (c.setChangeover x).chZ = c.chZ := rfl
@[simp] theorem Controller.setChangeover_port (c : Controller) (x : Changeover) : (c.setChangeover x).port = c.port := rfl
@[simp] theorem Controller.setChangeover_att (c : Controller) (x : Changeover) : (c.setChangeover x).att = c.att := rfl
@[simp] theorem Controller.setChangeover_params (c : Controller) (x : Changeover) : (c.setChangeover x).params = c.params := rfl
@[simp] theorem Controller.setChangeover_resetHeld (c : Controller) (x : Changeover) : (c.setChangeover x).resetHeld = c.resetHeld := rfl

/-! ### deriveZones -/

@[simp] theorem Controller.deriveZones_tab (c : Controller) : (c.deriveZones).tab = c.tab := rfl
@[simp] theorem Controller.deriveZones_lib (c : Controller) : (c.deriveZones).lib = c.lib := rfl
@[simp] theorem Controller.deriveZones_mot (c : Controller) : (c.deriveZones).mot = c.mot := rfl
@[simp] theorem Controller.deriveZones_line (c : Controller) : (c.deriveZones).line = c.line := rfl
@[simp] theorem Controller.deriveZones_rolls (c : Controller) : (c.deriveZones).rolls = c.rolls := rfl
@[simp] theorem Controller.deriveZones_seq (c : Controller) : (c.deriveZones).seq = c.seq := rfl
@[simp] theorem Controller.deriveZones_cut (c : Controller) : (c.deriveZones).cut = c.cut := rfl
@[simp] theorem Controller.deriveZones_chF (c : Controller) : (c.deriveZones).chF = c.chF := rfl
@[simp] theorem Controller.deriveZones_chS (c : Controller) : (c.deriveZones).chS = c.chS := rfl
@[simp] theorem Controller.deriveZones_chP (c : Controller) : (c.deriveZones).chP = c.chP := rfl
@[simp] theorem Controller.deriveZones_chZ (c : Controller) : (c.deriveZones).chZ = c.chZ := rfl
@[simp] theorem Controller.deriveZones_port (c : Controller) : (c.deriveZones).port = c.port := rfl
@[simp] theorem Controller.deriveZones_att (c : Controller) : (c.deriveZones).att = c.att := rfl
@[simp] theorem Controller.deriveZones_params (c : Controller) : (c.deriveZones).params = c.params := rfl
@[simp] theorem Controller.deriveZones_resetHeld (c : Controller) : (c.deriveZones).resetHeld = c.resetHeld := rfl

/-! ### setSeams -/

@[simp] theorem Controller.setSeams_tab (c : Controller) (l : List Seam) : (c.setSeams l).tab = c.tab := rfl
@[simp] theorem Controller.setSeams_lib (c : Controller) (l : List Seam) : (c.setSeams l).lib = c.lib := rfl
@[simp] theorem Controller.setSeams_mot (c : Controller) (l : List Seam) : (c.setSeams l).mot = c.mot := rfl
@[simp] theorem Controller.setSeams_line (c : Controller) (l : List Seam) : (c.setSeams l).line = c.line := rfl
@[simp] theorem Controller.setSeams_seq (c : Controller) (l : List Seam) : (c.setSeams l).seq = c.seq := rfl
@[simp] theorem Controller.setSeams_cham (c : Controller) (l : List Seam) : (c.setSeams l).cham = c.cham := rfl
@[simp] theorem Controller.setSeams_cut (c : Controller) (l : List Seam) : (c.setSeams l).cut = c.cut := rfl
@[simp] theorem Controller.setSeams_chF (c : Controller) (l : List Seam) : (c.setSeams l).chF = c.chF := rfl
@[simp] theorem Controller.setSeams_chS (c : Controller) (l : List Seam) : (c.setSeams l).chS = c.chS := rfl
@[simp] theorem Controller.setSeams_chP (c : Controller) (l : List Seam) : (c.setSeams l).chP = c.chP := rfl
@[simp] theorem Controller.setSeams_chZ (c : Controller) (l : List Seam) : (c.setSeams l).chZ = c.chZ := rfl
@[simp] theorem Controller.setSeams_port (c : Controller) (l : List Seam) : (c.setSeams l).port = c.port := rfl
@[simp] theorem Controller.setSeams_att (c : Controller) (l : List Seam) : (c.setSeams l).att = c.att := rfl
@[simp] theorem Controller.setSeams_params (c : Controller) (l : List Seam) : (c.setSeams l).params = c.params := rfl
@[simp] theorem Controller.setSeams_resetHeld (c : Controller) (l : List Seam) : (c.setSeams l).resetHeld = c.resetHeld := rfl

/-! ### setHold -/

@[simp] theorem Controller.setHold_tab (c : Controller) (k : HoldCause) (b : Bool) : (c.setHold k b).tab = c.tab := rfl
@[simp] theorem Controller.setHold_lib (c : Controller) (k : HoldCause) (b : Bool) : (c.setHold k b).lib = c.lib := rfl
@[simp] theorem Controller.setHold_mot (c : Controller) (k : HoldCause) (b : Bool) : (c.setHold k b).mot = c.mot := rfl
@[simp] theorem Controller.setHold_rolls (c : Controller) (k : HoldCause) (b : Bool) : (c.setHold k b).rolls = c.rolls := rfl
@[simp] theorem Controller.setHold_seq (c : Controller) (k : HoldCause) (b : Bool) : (c.setHold k b).seq = c.seq := rfl
@[simp] theorem Controller.setHold_cham (c : Controller) (k : HoldCause) (b : Bool) : (c.setHold k b).cham = c.cham := rfl
@[simp] theorem Controller.setHold_cut (c : Controller) (k : HoldCause) (b : Bool) : (c.setHold k b).cut = c.cut := rfl
@[simp] theorem Controller.setHold_chF (c : Controller) (k : HoldCause) (b : Bool) : (c.setHold k b).chF = c.chF := rfl
@[simp] theorem Controller.setHold_chS (c : Controller) (k : HoldCause) (b : Bool) : (c.setHold k b).chS = c.chS := rfl
@[simp] theorem Controller.setHold_chP (c : Controller) (k : HoldCause) (b : Bool) : (c.setHold k b).chP = c.chP := rfl
@[simp] theorem Controller.setHold_chZ (c : Controller) (k : HoldCause) (b : Bool) : (c.setHold k b).chZ = c.chZ := rfl
@[simp] theorem Controller.setHold_port (c : Controller) (k : HoldCause) (b : Bool) : (c.setHold k b).port = c.port := rfl
@[simp] theorem Controller.setHold_att (c : Controller) (k : HoldCause) (b : Bool) : (c.setHold k b).att = c.att := rfl
@[simp] theorem Controller.setHold_params (c : Controller) (k : HoldCause) (b : Bool) : (c.setHold k b).params = c.params := rfl
@[simp] theorem Controller.setHold_resetHeld (c : Controller) (k : HoldCause) (b : Bool) : (c.setHold k b).resetHeld = c.resetHeld := rfl

/-! ### raise -/

@[simp] theorem Controller.raise_tab (c : Controller) (n : Notice) (d : Detail) : (c.raise n d).tab = c.tab := rfl
@[simp] theorem Controller.raise_lib (c : Controller) (n : Notice) (d : Detail) : (c.raise n d).lib = c.lib := rfl
@[simp] theorem Controller.raise_mot (c : Controller) (n : Notice) (d : Detail) : (c.raise n d).mot = c.mot := rfl
@[simp] theorem Controller.raise_line (c : Controller) (n : Notice) (d : Detail) : (c.raise n d).line = c.line := rfl
@[simp] theorem Controller.raise_rolls (c : Controller) (n : Notice) (d : Detail) : (c.raise n d).rolls = c.rolls := rfl
@[simp] theorem Controller.raise_seq (c : Controller) (n : Notice) (d : Detail) : (c.raise n d).seq = c.seq := rfl
@[simp] theorem Controller.raise_cham (c : Controller) (n : Notice) (d : Detail) : (c.raise n d).cham = c.cham := rfl
@[simp] theorem Controller.raise_cut (c : Controller) (n : Notice) (d : Detail) : (c.raise n d).cut = c.cut := rfl
@[simp] theorem Controller.raise_chF (c : Controller) (n : Notice) (d : Detail) : (c.raise n d).chF = c.chF := rfl
@[simp] theorem Controller.raise_chS (c : Controller) (n : Notice) (d : Detail) : (c.raise n d).chS = c.chS := rfl
@[simp] theorem Controller.raise_chP (c : Controller) (n : Notice) (d : Detail) : (c.raise n d).chP = c.chP := rfl
@[simp] theorem Controller.raise_chZ (c : Controller) (n : Notice) (d : Detail) : (c.raise n d).chZ = c.chZ := rfl
@[simp] theorem Controller.raise_port (c : Controller) (n : Notice) (d : Detail) : (c.raise n d).port = c.port := rfl
@[simp] theorem Controller.raise_params (c : Controller) (n : Notice) (d : Detail) : (c.raise n d).params = c.params := rfl
@[simp] theorem Controller.raise_resetHeld (c : Controller) (n : Notice) (d : Detail) : (c.raise n d).resetHeld = c.resetHeld := rfl

/-! ### setLink -/

@[simp] theorem Controller.setLink_tab (c : Controller) (ch : Channel) (l : Link) : (c.setLink ch l).tab = c.tab := by cases ch <;> rfl
@[simp] theorem Controller.setLink_lib (c : Controller) (ch : Channel) (l : Link) : (c.setLink ch l).lib = c.lib := by cases ch <;> rfl
@[simp] theorem Controller.setLink_mot (c : Controller) (ch : Channel) (l : Link) : (c.setLink ch l).mot = c.mot := by cases ch <;> rfl
@[simp] theorem Controller.setLink_line (c : Controller) (ch : Channel) (l : Link) : (c.setLink ch l).line = c.line := by cases ch <;> rfl
@[simp] theorem Controller.setLink_rolls (c : Controller) (ch : Channel) (l : Link) : (c.setLink ch l).rolls = c.rolls := by cases ch <;> rfl
@[simp] theorem Controller.setLink_seq (c : Controller) (ch : Channel) (l : Link) : (c.setLink ch l).seq = c.seq := by cases ch <;> rfl
@[simp] theorem Controller.setLink_cham (c : Controller) (ch : Channel) (l : Link) : (c.setLink ch l).cham = c.cham := by cases ch <;> rfl
@[simp] theorem Controller.setLink_cut (c : Controller) (ch : Channel) (l : Link) : (c.setLink ch l).cut = c.cut := by cases ch <;> rfl
@[simp] theorem Controller.setLink_port (c : Controller) (ch : Channel) (l : Link) : (c.setLink ch l).port = c.port := by cases ch <;> rfl
@[simp] theorem Controller.setLink_att (c : Controller) (ch : Channel) (l : Link) : (c.setLink ch l).att = c.att := by cases ch <;> rfl
@[simp] theorem Controller.setLink_params (c : Controller) (ch : Channel) (l : Link) : (c.setLink ch l).params = c.params := by cases ch <;> rfl
@[simp] theorem Controller.setLink_resetHeld (c : Controller) (ch : Channel) (l : Link) : (c.setLink ch l).resetHeld = c.resetHeld := by cases ch <;> rfl

/-! ### setRx -/

@[simp] theorem Controller.setRx_tab (c : Controller) (ch : Channel) (rx : Receiver) : (c.setRx ch rx).tab = c.tab := by cases ch <;> rfl
@[simp] theorem Controller.setRx_lib (c : Controller) (ch : Channel) (rx : Receiver) : (c.setRx ch rx).lib = c.lib := by cases ch <;> rfl
@[simp] theorem Controller.setRx_mot (c : Controller) (ch : Channel) (rx : Receiver) : (c.setRx ch rx).mot = c.mot := by cases ch <;> rfl
@[simp] theorem Controller.setRx_line (c : Controller) (ch : Channel) (rx : Receiver) : (c.setRx ch rx).line = c.line := by cases ch <;> rfl
@[simp] theorem Controller.setRx_rolls (c : Controller) (ch : Channel) (rx : Receiver) : (c.setRx ch rx).rolls = c.rolls := by cases ch <;> rfl
@[simp] theorem Controller.setRx_seq (c : Controller) (ch : Channel) (rx : Receiver) : (c.setRx ch rx).seq = c.seq := by cases ch <;> rfl
@[simp] theorem Controller.setRx_cham (c : Controller) (ch : Channel) (rx : Receiver) : (c.setRx ch rx).cham = c.cham := by cases ch <;> rfl
@[simp] theorem Controller.setRx_cut (c : Controller) (ch : Channel) (rx : Receiver) : (c.setRx ch rx).cut = c.cut := by cases ch <;> rfl
@[simp] theorem Controller.setRx_port (c : Controller) (ch : Channel) (rx : Receiver) : (c.setRx ch rx).port = c.port := by cases ch <;> rfl
@[simp] theorem Controller.setRx_att (c : Controller) (ch : Channel) (rx : Receiver) : (c.setRx ch rx).att = c.att := by cases ch <;> rfl
@[simp] theorem Controller.setRx_params (c : Controller) (ch : Channel) (rx : Receiver) : (c.setRx ch rx).params = c.params := by cases ch <;> rfl
@[simp] theorem Controller.setRx_resetHeld (c : Controller) (ch : Channel) (rx : Receiver) : (c.setRx ch rx).resetHeld = c.resetHeld := by cases ch <;> rfl

/-! ### transmitted -/

@[simp] theorem Controller.transmitted_tab (c : Controller) (ch : Channel) : (c.transmitted ch).tab = c.tab := by cases ch <;> rfl
@[simp] theorem Controller.transmitted_lib (c : Controller) (ch : Channel) : (c.transmitted ch).lib = c.lib := by cases ch <;> rfl
@[simp] theorem Controller.transmitted_mot (c : Controller) (ch : Channel) : (c.transmitted ch).mot = c.mot := by cases ch <;> rfl
@[simp] theorem Controller.transmitted_line (c : Controller) (ch : Channel) : (c.transmitted ch).line = c.line := by cases ch <;> rfl
@[simp] theorem Controller.transmitted_rolls (c : Controller) (ch : Channel) : (c.transmitted ch).rolls = c.rolls := by cases ch <;> rfl
@[simp] theorem Controller.transmitted_seq (c : Controller) (ch : Channel) : (c.transmitted ch).seq = c.seq := by cases ch <;> rfl
@[simp] theorem Controller.transmitted_cham (c : Controller) (ch : Channel) : (c.transmitted ch).cham = c.cham := by cases ch <;> rfl
@[simp] theorem Controller.transmitted_cut (c : Controller) (ch : Channel) : (c.transmitted ch).cut = c.cut := by cases ch <;> rfl
@[simp] theorem Controller.transmitted_port (c : Controller) (ch : Channel) : (c.transmitted ch).port = c.port := by cases ch <;> rfl
@[simp] theorem Controller.transmitted_att (c : Controller) (ch : Channel) : (c.transmitted ch).att = c.att := by cases ch <;> rfl
@[simp] theorem Controller.transmitted_params (c : Controller) (ch : Channel) : (c.transmitted ch).params = c.params := by cases ch <;> rfl
@[simp] theorem Controller.transmitted_resetHeld (c : Controller) (ch : Channel) : (c.transmitted ch).resetHeld = c.resetHeld := by cases ch <;> rfl

/-! ### handBus -/

@[simp] theorem Controller.handBus_tab (c : Controller) (item : TxItem) : (c.handBus item).tab = c.tab := rfl
@[simp] theorem Controller.handBus_lib (c : Controller) (item : TxItem) : (c.handBus item).lib = c.lib := rfl
@[simp] theorem Controller.handBus_mot (c : Controller) (item : TxItem) : (c.handBus item).mot = c.mot := rfl
@[simp] theorem Controller.handBus_line (c : Controller) (item : TxItem) : (c.handBus item).line = c.line := rfl
@[simp] theorem Controller.handBus_rolls (c : Controller) (item : TxItem) : (c.handBus item).rolls = c.rolls := rfl
@[simp] theorem Controller.handBus_seq (c : Controller) (item : TxItem) : (c.handBus item).seq = c.seq := rfl
@[simp] theorem Controller.handBus_cham (c : Controller) (item : TxItem) : (c.handBus item).cham = c.cham := rfl
@[simp] theorem Controller.handBus_cut (c : Controller) (item : TxItem) : (c.handBus item).cut = c.cut := rfl
@[simp] theorem Controller.handBus_chF (c : Controller) (item : TxItem) : (c.handBus item).chF = c.chF := rfl
@[simp] theorem Controller.handBus_chS (c : Controller) (item : TxItem) : (c.handBus item).chS = c.chS := rfl
@[simp] theorem Controller.handBus_chP (c : Controller) (item : TxItem) : (c.handBus item).chP = c.chP := rfl
@[simp] theorem Controller.handBus_port (c : Controller) (item : TxItem) : (c.handBus item).port = c.port := rfl
@[simp] theorem Controller.handBus_att (c : Controller) (item : TxItem) : (c.handBus item).att = c.att := rfl
@[simp] theorem Controller.handBus_params (c : Controller) (item : TxItem) : (c.handBus item).params = c.params := rfl
@[simp] theorem Controller.handBus_resetHeld (c : Controller) (item : TxItem) : (c.handBus item).resetHeld = c.resetHeld := rfl

/-! ### withdrawHead -/

@[simp] theorem Controller.withdrawHead_tab (c : Controller) : (c.withdrawHead).tab = c.tab := rfl
@[simp] theorem Controller.withdrawHead_lib (c : Controller) : (c.withdrawHead).lib = c.lib := rfl
@[simp] theorem Controller.withdrawHead_mot (c : Controller) : (c.withdrawHead).mot = c.mot := rfl
@[simp] theorem Controller.withdrawHead_line (c : Controller) : (c.withdrawHead).line = c.line := rfl
@[simp] theorem Controller.withdrawHead_rolls (c : Controller) : (c.withdrawHead).rolls = c.rolls := rfl
@[simp] theorem Controller.withdrawHead_seq (c : Controller) : (c.withdrawHead).seq = c.seq := rfl
@[simp] theorem Controller.withdrawHead_cham (c : Controller) : (c.withdrawHead).cham = c.cham := rfl
@[simp] theorem Controller.withdrawHead_cut (c : Controller) : (c.withdrawHead).cut = c.cut := rfl
@[simp] theorem Controller.withdrawHead_chF (c : Controller) : (c.withdrawHead).chF = c.chF := rfl
@[simp] theorem Controller.withdrawHead_chS (c : Controller) : (c.withdrawHead).chS = c.chS := rfl
@[simp] theorem Controller.withdrawHead_chZ (c : Controller) : (c.withdrawHead).chZ = c.chZ := rfl
@[simp] theorem Controller.withdrawHead_port (c : Controller) : (c.withdrawHead).port = c.port := rfl
@[simp] theorem Controller.withdrawHead_att (c : Controller) : (c.withdrawHead).att = c.att := rfl
@[simp] theorem Controller.withdrawHead_params (c : Controller) : (c.withdrawHead).params = c.params := rfl
@[simp] theorem Controller.withdrawHead_resetHeld (c : Controller) : (c.withdrawHead).resetHeld = c.resetHeld := rfl

/-! ### countOn -/

@[simp] theorem Controller.countOn_lib (c : Controller) (id : Nat) (f : Placed → Placed) : (c.countOn id f).lib = c.lib := rfl
@[simp] theorem Controller.countOn_mot (c : Controller) (id : Nat) (f : Placed → Placed) : (c.countOn id f).mot = c.mot := rfl
@[simp] theorem Controller.countOn_line (c : Controller) (id : Nat) (f : Placed → Placed) : (c.countOn id f).line = c.line := rfl
@[simp] theorem Controller.countOn_rolls (c : Controller) (id : Nat) (f : Placed → Placed) : (c.countOn id f).rolls = c.rolls := rfl
@[simp] theorem Controller.countOn_seq (c : Controller) (id : Nat) (f : Placed → Placed) : (c.countOn id f).seq = c.seq := rfl
@[simp] theorem Controller.countOn_cham (c : Controller) (id : Nat) (f : Placed → Placed) : (c.countOn id f).cham = c.cham := rfl
@[simp] theorem Controller.countOn_cut (c : Controller) (id : Nat) (f : Placed → Placed) : (c.countOn id f).cut = c.cut := rfl
@[simp] theorem Controller.countOn_chF (c : Controller) (id : Nat) (f : Placed → Placed) : (c.countOn id f).chF = c.chF := rfl
@[simp] theorem Controller.countOn_chS (c : Controller) (id : Nat) (f : Placed → Placed) : (c.countOn id f).chS = c.chS := rfl
@[simp] theorem Controller.countOn_chP (c : Controller) (id : Nat) (f : Placed → Placed) : (c.countOn id f).chP = c.chP := rfl
@[simp] theorem Controller.countOn_chZ (c : Controller) (id : Nat) (f : Placed → Placed) : (c.countOn id f).chZ = c.chZ := rfl
@[simp] theorem Controller.countOn_port (c : Controller) (id : Nat) (f : Placed → Placed) : (c.countOn id f).port = c.port := rfl
@[simp] theorem Controller.countOn_att (c : Controller) (id : Nat) (f : Placed → Placed) : (c.countOn id f).att = c.att := rfl
@[simp] theorem Controller.countOn_params (c : Controller) (id : Nat) (f : Placed → Placed) : (c.countOn id f).params = c.params := rfl
@[simp] theorem Controller.countOn_resetHeld (c : Controller) (id : Nat) (f : Placed → Placed) : (c.countOn id f).resetHeld = c.resetHeld := rfl

/-! ### seekCursor -/

@[simp] theorem Controller.seekCursor_tab (c : Controller) : (c.seekCursor).tab = c.tab := rfl
@[simp] theorem Controller.seekCursor_lib (c : Controller) : (c.seekCursor).lib = c.lib := rfl
@[simp] theorem Controller.seekCursor_mot (c : Controller) : (c.seekCursor).mot = c.mot := rfl
@[simp] theorem Controller.seekCursor_line (c : Controller) : (c.seekCursor).line = c.line := rfl
@[simp] theorem Controller.seekCursor_rolls (c : Controller) : (c.seekCursor).rolls = c.rolls := rfl
@[simp] theorem Controller.seekCursor_cham (c : Controller) : (c.seekCursor).cham = c.cham := rfl
@[simp] theorem Controller.seekCursor_cut (c : Controller) : (c.seekCursor).cut = c.cut := rfl
@[simp] theorem Controller.seekCursor_chF (c : Controller) : (c.seekCursor).chF = c.chF := rfl
@[simp] theorem Controller.seekCursor_chS (c : Controller) : (c.seekCursor).chS = c.chS := rfl
@[simp] theorem Controller.seekCursor_chP (c : Controller) : (c.seekCursor).chP = c.chP := rfl
@[simp] theorem Controller.seekCursor_chZ (c : Controller) : (c.seekCursor).chZ = c.chZ := rfl
@[simp] theorem Controller.seekCursor_port (c : Controller) : (c.seekCursor).port = c.port := rfl
@[simp] theorem Controller.seekCursor_att (c : Controller) : (c.seekCursor).att = c.att := rfl
@[simp] theorem Controller.seekCursor_params (c : Controller) : (c.seekCursor).params = c.params := rfl
@[simp] theorem Controller.seekCursor_resetHeld (c : Controller) : (c.seekCursor).resetHeld = c.resetHeld := rfl

/-! ### answered -/

@[simp] theorem Controller.answered_tab (c : Controller) (code : AnswerCode) (tag : Byte) (body : List Byte) : (c.answered code tag body).tab = c.tab := rfl
@[simp] theorem Controller.answered_lib (c : Controller) (code : AnswerCode) (tag : Byte) (body : List Byte) : (c.answered code tag body).lib = c.lib := rfl
@[simp] theorem Controller.answered_mot (c : Controller) (code : AnswerCode) (tag : Byte) (body : List Byte) : (c.answered code tag body).mot = c.mot := rfl
@[simp] theorem Controller.answered_line (c : Controller) (code : AnswerCode) (tag : Byte) (body : List Byte) : (c.answered code tag body).line = c.line := rfl
@[simp] theorem Controller.answered_rolls (c : Controller) (code : AnswerCode) (tag : Byte) (body : List Byte) : (c.answered code tag body).rolls = c.rolls := rfl
@[simp] theorem Controller.answered_seq (c : Controller) (code : AnswerCode) (tag : Byte) (body : List Byte) : (c.answered code tag body).seq = c.seq := rfl
@[simp] theorem Controller.answered_cham (c : Controller) (code : AnswerCode) (tag : Byte) (body : List Byte) : (c.answered code tag body).cham = c.cham := rfl
@[simp] theorem Controller.answered_cut (c : Controller) (code : AnswerCode) (tag : Byte) (body : List Byte) : (c.answered code tag body).cut = c.cut := rfl
@[simp] theorem Controller.answered_chF (c : Controller) (code : AnswerCode) (tag : Byte) (body : List Byte) : (c.answered code tag body).chF = c.chF := rfl
@[simp] theorem Controller.answered_chS (c : Controller) (code : AnswerCode) (tag : Byte) (body : List Byte) : (c.answered code tag body).chS = c.chS := rfl
@[simp] theorem Controller.answered_chP (c : Controller) (code : AnswerCode) (tag : Byte) (body : List Byte) : (c.answered code tag body).chP = c.chP := rfl
@[simp] theorem Controller.answered_chZ (c : Controller) (code : AnswerCode) (tag : Byte) (body : List Byte) : (c.answered code tag body).chZ = c.chZ := rfl
@[simp] theorem Controller.answered_att (c : Controller) (code : AnswerCode) (tag : Byte) (body : List Byte) : (c.answered code tag body).att = c.att := rfl
@[simp] theorem Controller.answered_params (c : Controller) (code : AnswerCode) (tag : Byte) (body : List Byte) : (c.answered code tag body).params = c.params := rfl
@[simp] theorem Controller.answered_resetHeld (c : Controller) (code : AnswerCode) (tag : Byte) (body : List Byte) : (c.answered code tag body).resetHeld = c.resetHeld := rfl

/-! ### Inside the record that an update changes -/

@[simp] theorem Controller.mapRolls_rolls_hyst (c : Controller) (f : Roll → Roll) : (c.mapRolls f).rolls.hyst = c.rolls.hyst := rfl
@[simp] theorem Controller.updateRoll_rolls_hyst (c : Controller) (id : Nat) (f : Roll → Roll) :
    (c.updateRoll id f).rolls.hyst = c.rolls.hyst := rfl
@[simp] theorem Controller.mapRolls_rolls_job (c : Controller) (f : Roll → Roll) : (c.mapRolls f).rolls.job = c.rolls.job := rfl
@[simp] theorem Controller.updateRoll_rolls_job (c : Controller) (id : Nat) (f : Roll → Roll) :
    (c.updateRoll id f).rolls.job = c.rolls.job := rfl
@[simp] theorem Controller.mapRolls_rolls_splice (c : Controller) (f : Roll → Roll) : (c.mapRolls f).rolls.splice = c.rolls.splice := rfl
@[simp] theorem Controller.updateRoll_rolls_splice (c : Controller) (id : Nat) (f : Roll → Roll) :
    (c.updateRoll id f).rolls.splice = c.rolls.splice := rfl
@[simp] theorem Controller.mapRolls_rolls_cancelStart (c : Controller) (f : Roll → Roll) : (c.mapRolls f).rolls.cancelStart = c.rolls.cancelStart := rfl
@[simp] theorem Controller.updateRoll_rolls_cancelStart (c : Controller) (id : Nat) (f : Roll → Roll) :
    (c.updateRoll id f).rolls.cancelStart = c.rolls.cancelStart := rfl
@[simp] theorem Controller.mapRolls_rolls_retry (c : Controller) (f : Roll → Roll) : (c.mapRolls f).rolls.retry = c.rolls.retry := rfl
@[simp] theorem Controller.updateRoll_rolls_retry (c : Controller) (id : Nat) (f : Roll → Roll) :
    (c.updateRoll id f).rolls.retry = c.rolls.retry := rfl
@[simp] theorem Controller.mapRolls_rolls_resend (c : Controller) (f : Roll → Roll) : (c.mapRolls f).rolls.resend = c.rolls.resend := rfl
@[simp] theorem Controller.updateRoll_rolls_resend (c : Controller) (id : Nat) (f : Roll → Roll) :
    (c.updateRoll id f).rolls.resend = c.rolls.resend := rfl
@[simp] theorem Controller.mapRolls_rolls_origin (c : Controller) (f : Roll → Roll) : (c.mapRolls f).rolls.origin = c.rolls.origin := rfl
@[simp] theorem Controller.updateRoll_rolls_origin (c : Controller) (id : Nat) (f : Roll → Roll) :
    (c.updateRoll id f).rolls.origin = c.rolls.origin := rfl
@[simp] theorem Controller.mapRolls_rolls_suspended (c : Controller) (f : Roll → Roll) : (c.mapRolls f).rolls.suspended = c.rolls.suspended := rfl
@[simp] theorem Controller.updateRoll_rolls_suspended (c : Controller) (id : Nat) (f : Roll → Roll) :
    (c.updateRoll id f).rolls.suspended = c.rolls.suspended := rfl
@[simp] theorem Controller.mapRolls_rolls_runout (c : Controller) (f : Roll → Roll) : (c.mapRolls f).rolls.runout = c.rolls.runout := rfl
@[simp] theorem Controller.updateRoll_rolls_runout (c : Controller) (id : Nat) (f : Roll → Roll) :
    (c.updateRoll id f).rolls.runout = c.rolls.runout := rfl
@[simp] theorem Controller.mapRolls_rolls_feedRoll (c : Controller) (f : Roll → Roll) : (c.mapRolls f).rolls.feedRoll = c.rolls.feedRoll := rfl
@[simp] theorem Controller.updateRoll_rolls_feedRoll (c : Controller) (id : Nat) (f : Roll → Roll) :
    (c.updateRoll id f).rolls.feedRoll = c.rolls.feedRoll := rfl
@[simp] theorem Controller.mapRolls_rolls_report (c : Controller) (f : Roll → Roll) : (c.mapRolls f).rolls.report = c.rolls.report := rfl
@[simp] theorem Controller.updateRoll_rolls_report (c : Controller) (id : Nat) (f : Roll → Roll) :
    (c.updateRoll id f).rolls.report = c.rolls.report := rfl
@[simp] theorem Controller.mapRolls_rolls_seams (c : Controller) (f : Roll → Roll) : (c.mapRolls f).rolls.seams = c.rolls.seams := rfl
@[simp] theorem Controller.updateRoll_rolls_seams (c : Controller) (id : Nat) (f : Roll → Roll) :
    (c.updateRoll id f).rolls.seams = c.rolls.seams := rfl
@[simp] theorem Controller.mapRolls_rolls_fill (c : Controller) (f : Roll → Roll) : (c.mapRolls f).rolls.fill = c.rolls.fill := rfl
@[simp] theorem Controller.updateRoll_rolls_fill (c : Controller) (id : Nat) (f : Roll → Roll) :
    (c.updateRoll id f).rolls.fill = c.rolls.fill := rfl
@[simp] theorem Controller.mapRolls_rolls_rangeMark (c : Controller) (f : Roll → Roll) : (c.mapRolls f).rolls.rangeMark = c.rolls.rangeMark := rfl
@[simp] theorem Controller.updateRoll_rolls_rangeMark (c : Controller) (id : Nat) (f : Roll → Roll) :
    (c.updateRoll id f).rolls.rangeMark = c.rolls.rangeMark := rfl
@[simp] theorem Controller.mapRolls_rolls_spA (c : Controller) (f : Roll → Roll) : (c.mapRolls f).rolls.spA = c.rolls.spA := rfl
@[simp] theorem Controller.updateRoll_rolls_spA (c : Controller) (id : Nat) (f : Roll → Roll) :
    (c.updateRoll id f).rolls.spA = c.rolls.spA := rfl
@[simp] theorem Controller.mapRolls_rolls_spB (c : Controller) (f : Roll → Roll) : (c.mapRolls f).rolls.spB = c.rolls.spB := rfl
@[simp] theorem Controller.updateRoll_rolls_spB (c : Controller) (id : Nat) (f : Roll → Roll) :
    (c.updateRoll id f).rolls.spB = c.rolls.spB := rfl
@[simp] theorem Controller.setSpindle_rolls_hyst (c : Controller) (sp : Spindle) (r : SpindleRec) :
    (c.setSpindle sp r).rolls.hyst = c.rolls.hyst := by cases sp <;> rfl
@[simp] theorem Controller.setSpindle_rolls_job (c : Controller) (sp : Spindle) (r : SpindleRec) :
    (c.setSpindle sp r).rolls.job = c.rolls.job := by cases sp <;> rfl
@[simp] theorem Controller.setSpindle_rolls_splice (c : Controller) (sp : Spindle) (r : SpindleRec) :
    (c.setSpindle sp r).rolls.splice = c.rolls.splice := by cases sp <;> rfl
@[simp] theorem Controller.setSpindle_rolls_cancelStart (c : Controller) (sp : Spindle) (r : SpindleRec) :
    (c.setSpindle sp r).rolls.cancelStart = c.rolls.cancelStart := by cases sp <;> rfl
@[simp] theorem Controller.setSpindle_rolls_retry (c : Controller) (sp : Spindle) (r : SpindleRec) :
    (c.setSpindle sp r).rolls.retry = c.rolls.retry := by cases sp <;> rfl
@[simp] theorem Controller.setSpindle_rolls_resend (c : Controller) (sp : Spindle) (r : SpindleRec) :
    (c.setSpindle sp r).rolls.resend = c.rolls.resend := by cases sp <;> rfl
@[simp] theorem Controller.setSpindle_rolls_origin (c : Controller) (sp : Spindle) (r : SpindleRec) :
    (c.setSpindle sp r).rolls.origin = c.rolls.origin := by cases sp <;> rfl
@[simp] theorem Controller.setSpindle_rolls_suspended (c : Controller) (sp : Spindle) (r : SpindleRec) :
    (c.setSpindle sp r).rolls.suspended = c.rolls.suspended := by cases sp <;> rfl
@[simp] theorem Controller.setSpindle_rolls_runout (c : Controller) (sp : Spindle) (r : SpindleRec) :
    (c.setSpindle sp r).rolls.runout = c.rolls.runout := by cases sp <;> rfl
@[simp] theorem Controller.setSpindle_rolls_feedRoll (c : Controller) (sp : Spindle) (r : SpindleRec) :
    (c.setSpindle sp r).rolls.feedRoll = c.rolls.feedRoll := by cases sp <;> rfl
@[simp] theorem Controller.setSpindle_rolls_report (c : Controller) (sp : Spindle) (r : SpindleRec) :
    (c.setSpindle sp r).rolls.report = c.rolls.report := by cases sp <;> rfl
@[simp] theorem Controller.setSpindle_rolls_seams (c : Controller) (sp : Spindle) (r : SpindleRec) :
    (c.setSpindle sp r).rolls.seams = c.rolls.seams := by cases sp <;> rfl
@[simp] theorem Controller.setSpindle_rolls_fill (c : Controller) (sp : Spindle) (r : SpindleRec) :
    (c.setSpindle sp r).rolls.fill = c.rolls.fill := by cases sp <;> rfl
@[simp] theorem Controller.setSpindle_rolls_rangeMark (c : Controller) (sp : Spindle) (r : SpindleRec) :
    (c.setSpindle sp r).rolls.rangeMark = c.rolls.rangeMark := by cases sp <;> rfl
@[simp] theorem Controller.setSpindle_rolls_slots (c : Controller) (sp : Spindle) (r : SpindleRec) :
    (c.setSpindle sp r).rolls.slots = c.rolls.slots := by cases sp <;> rfl
@[simp] theorem Controller.setSeams_rolls_hyst (c : Controller) (l : List Seam) : (c.setSeams l).rolls.hyst = c.rolls.hyst := rfl
@[simp] theorem Controller.setSeams_rolls_job (c : Controller) (l : List Seam) : (c.setSeams l).rolls.job = c.rolls.job := rfl
@[simp] theorem Controller.setSeams_rolls_splice (c : Controller) (l : List Seam) : (c.setSeams l).rolls.splice = c.rolls.splice := rfl
@[simp] theorem Controller.setSeams_rolls_cancelStart (c : Controller) (l : List Seam) : (c.setSeams l).rolls.cancelStart = c.rolls.cancelStart := rfl
@[simp] theorem Controller.setSeams_rolls_retry (c : Controller) (l : List Seam) : (c.setSeams l).rolls.retry = c.rolls.retry := rfl
@[simp] theorem Controller.setSeams_rolls_resend (c : Controller) (l : List Seam) : (c.setSeams l).rolls.resend = c.rolls.resend := rfl
@[simp] theorem Controller.setSeams_rolls_origin (c : Controller) (l : List Seam) : (c.setSeams l).rolls.origin = c.rolls.origin := rfl
@[simp] theorem Controller.setSeams_rolls_suspended (c : Controller) (l : List Seam) : (c.setSeams l).rolls.suspended = c.rolls.suspended := rfl
@[simp] theorem Controller.setSeams_rolls_runout (c : Controller) (l : List Seam) : (c.setSeams l).rolls.runout = c.rolls.runout := rfl
@[simp] theorem Controller.setSeams_rolls_feedRoll (c : Controller) (l : List Seam) : (c.setSeams l).rolls.feedRoll = c.rolls.feedRoll := rfl
@[simp] theorem Controller.setSeams_rolls_report (c : Controller) (l : List Seam) : (c.setSeams l).rolls.report = c.rolls.report := rfl
@[simp] theorem Controller.setSeams_rolls_fill (c : Controller) (l : List Seam) : (c.setSeams l).rolls.fill = c.rolls.fill := rfl
@[simp] theorem Controller.setSeams_rolls_rangeMark (c : Controller) (l : List Seam) : (c.setSeams l).rolls.rangeMark = c.rolls.rangeMark := rfl
@[simp] theorem Controller.setSeams_rolls_slots (c : Controller) (l : List Seam) : (c.setSeams l).rolls.slots = c.rolls.slots := rfl
@[simp] theorem Controller.setSeams_rolls_spA (c : Controller) (l : List Seam) : (c.setSeams l).rolls.spA = c.rolls.spA := rfl
@[simp] theorem Controller.setSeams_rolls_spB (c : Controller) (l : List Seam) : (c.setSeams l).rolls.spB = c.rolls.spB := rfl
@[simp] theorem Controller.updatePanel_tab_queue (c : Controller) (id : Nat) (f : Panel → Panel) :
    (c.updatePanel id f).tab.queue = c.tab.queue := rfl
@[simp] theorem Controller.updatePanel_tab_roster (c : Controller) (id : Nat) (f : Panel → Panel) :
    (c.updatePanel id f).tab.roster = c.tab.roster := rfl
@[simp] theorem Controller.updatePanel_tab_nextId (c : Controller) (id : Nat) (f : Panel → Panel) :
    (c.updatePanel id f).tab.nextId = c.tab.nextId := rfl
@[simp] theorem Controller.setHold_line_state (c : Controller) (k : HoldCause) (b : Bool) :
    (c.setHold k b).line.state = c.line.state := rfl
@[simp] theorem Controller.setHold_line_lastHalt (c : Controller) (k : HoldCause) (b : Bool) :
    (c.setHold k b).line.lastHalt = c.line.lastHalt := rfl
@[simp] theorem Controller.setHold_line_speed (c : Controller) (k : HoldCause) (b : Bool) :
    (c.setHold k b).line.speed = c.line.speed := rfl
@[simp] theorem Controller.setHold_line_mode (c : Controller) (k : HoldCause) (b : Bool) :
    (c.setHold k b).line.mode = c.line.mode := rfl
@[simp] theorem Controller.setHold_line_resend (c : Controller) (k : HoldCause) (b : Bool) :
    (c.setHold k b).line.resend = c.line.resend := rfl
@[simp] theorem Controller.setHold_line_origin (c : Controller) (k : HoldCause) (b : Bool) :
    (c.setHold k b).line.origin = c.line.origin := rfl
@[simp] theorem Controller.setHold_line_suspended (c : Controller) (k : HoldCause) (b : Bool) :
    (c.setHold k b).line.suspended = c.line.suspended := rfl
@[simp] theorem Controller.setHold_line_report (c : Controller) (k : HoldCause) (b : Bool) :
    (c.setHold k b).line.report = c.line.report := rfl
@[simp] theorem Controller.setHold_line_lastTail (c : Controller) (k : HoldCause) (b : Bool) :
    (c.setHold k b).line.lastTail = c.line.lastTail := rfl
@[simp] theorem Controller.setHold_line_fabricMark (c : Controller) (k : HoldCause) (b : Bool) :
    (c.setHold k b).line.fabricMark = c.line.fabricMark := rfl
@[simp] theorem Controller.updateZone_cham_classes (c : Controller) (i : Nat) (f : Zone → Zone) :
    (c.updateZone i f).cham.classes = c.cham.classes := rfl
@[simp] theorem Controller.updateZone_cham_lineClass (c : Controller) (i : Nat) (f : Zone → Zone) :
    (c.updateZone i f).cham.lineClass = c.cham.lineClass := rfl
@[simp] theorem Controller.updateZone_cham_changeover (c : Controller) (i : Nat) (f : Zone → Zone) :
    (c.updateZone i f).cham.changeover = c.cham.changeover := rfl
@[simp] theorem Controller.updateZone_cham_bankOn (c : Controller) (i : Nat) (f : Zone → Zone) :
    (c.updateZone i f).cham.bankOn = c.cham.bankOn := rfl
@[simp] theorem Controller.updateZone_cham_bankTimer (c : Controller) (i : Nat) (f : Zone → Zone) :
    (c.updateZone i f).cham.bankTimer = c.cham.bankTimer := rfl
@[simp] theorem Controller.updateZone_cham_banked (c : Controller) (i : Nat) (f : Zone → Zone) :
    (c.updateZone i f).cham.banked = c.cham.banked := rfl
@[simp] theorem Controller.updateZone_cham_txn (c : Controller) (i : Nat) (f : Zone → Zone) :
    (c.updateZone i f).cham.txn = c.cham.txn := rfl
@[simp] theorem Controller.updateZone_cham_lastPolled (c : Controller) (i : Nat) (f : Zone → Zone) :
    (c.updateZone i f).cham.lastPolled = c.cham.lastPolled := rfl
@[simp] theorem Controller.setChangeover_cham_classes (c : Controller) (x : Changeover) :
    (c.setChangeover x).cham.classes = c.cham.classes := rfl
@[simp] theorem Controller.setChangeover_cham_zones (c : Controller) (x : Changeover) :
    (c.setChangeover x).cham.zones = c.cham.zones := rfl
@[simp] theorem Controller.setChangeover_cham_lineClass (c : Controller) (x : Changeover) :
    (c.setChangeover x).cham.lineClass = c.cham.lineClass := rfl
@[simp] theorem Controller.setChangeover_cham_bankOn (c : Controller) (x : Changeover) :
    (c.setChangeover x).cham.bankOn = c.cham.bankOn := rfl
@[simp] theorem Controller.setChangeover_cham_bankTimer (c : Controller) (x : Changeover) :
    (c.setChangeover x).cham.bankTimer = c.cham.bankTimer := rfl
@[simp] theorem Controller.setChangeover_cham_banked (c : Controller) (x : Changeover) :
    (c.setChangeover x).cham.banked = c.cham.banked := rfl
@[simp] theorem Controller.setChangeover_cham_txn (c : Controller) (x : Changeover) :
    (c.setChangeover x).cham.txn = c.cham.txn := rfl
@[simp] theorem Controller.setChangeover_cham_lastPolled (c : Controller) (x : Changeover) :
    (c.setChangeover x).cham.lastPolled = c.cham.lastPolled := rfl
@[simp] theorem Controller.deriveZones_cham_classes (c : Controller) :
    (c.deriveZones).cham.classes = c.cham.classes := rfl
@[simp] theorem Controller.deriveZones_cham_lineClass (c : Controller) :
    (c.deriveZones).cham.lineClass = c.cham.lineClass := rfl
@[simp] theorem Controller.deriveZones_cham_changeover (c : Controller) :
    (c.deriveZones).cham.changeover = c.cham.changeover := rfl
@[simp] theorem Controller.deriveZones_cham_bankOn (c : Controller) :
    (c.deriveZones).cham.bankOn = c.cham.bankOn := rfl
@[simp] theorem Controller.deriveZones_cham_bankTimer (c : Controller) :
    (c.deriveZones).cham.bankTimer = c.cham.bankTimer := rfl
@[simp] theorem Controller.deriveZones_cham_banked (c : Controller) :
    (c.deriveZones).cham.banked = c.cham.banked := rfl
@[simp] theorem Controller.deriveZones_cham_txn (c : Controller) :
    (c.deriveZones).cham.txn = c.cham.txn := rfl
@[simp] theorem Controller.deriveZones_cham_lastPolled (c : Controller) :
    (c.deriveZones).cham.lastPolled = c.cham.lastPolled := rfl
@[simp] theorem Controller.seekCursor_seq_window (c : Controller) : c.seekCursor.seq.window = c.seq.window := rfl
@[simp] theorem Controller.seekCursor_seq_next (c : Controller) : c.seekCursor.seq.next = c.seq.next := rfl
@[simp] theorem Controller.seekCursor_seq_head (c : Controller) : c.seekCursor.seq.head = c.seq.head := rfl
@[simp] theorem Controller.seekCursor_seq_mode (c : Controller) : c.seekCursor.seq.mode = c.seq.mode := rfl
@[simp] theorem Controller.seekCursor_seq_attempts (c : Controller) : c.seekCursor.seq.attempts = c.seq.attempts := rfl
@[simp] theorem Controller.seekCursor_seq_attemptTick (c : Controller) : c.seekCursor.seq.attemptTick = c.seq.attemptTick := rfl
@[simp] theorem Controller.setChangeover_changeover (c : Controller) (x : Changeover) :
    (c.setChangeover x).cham.changeover = x := rfl
@[simp] theorem Controller.setSeams_seams (c : Controller) (l : List Seam) : (c.setSeams l).rolls.seams = l := rfl
@[simp] theorem Controller.setSpindle_spindle (c : Controller) (sp : Spindle) (r : SpindleRec) :
    (c.setSpindle sp r).spindle sp = r := by cases sp <;> rfl
@[simp] theorem Controller.setLink_link (c : Controller) (ch : Channel) (l : Link) : (c.setLink ch l).link ch = l := by
  cases ch <;> rfl

end Sys2Proof.Machine
end

