-- ==== Sys2Proof/Laws/Queues.lean ====
section
/-! SUPPORT. What handing an item to a link, and the end of a transmission, leave of its queue (R177, R179). -/

namespace Sys2Proof.Machine

theorem TxItem.supersedes_removable {a b : TxItem} (h : a.supersedes b = true) : b.removable = true := by
  cases a <;> cases b <;> simp_all [TxItem.supersedes, TxItem.removable]

theorem TxItem.removable_not_stroke {a : TxItem} (h : a.removable = true) : a.isStroke = false := by
  cases a <;> simp_all [TxItem.isStroke, TxItem.removable]

theorem TxItem.removable_not_brk {a : TxItem} (h : a.removable = true) : (a == TxItem.brk) = false := by
  cases a <;> simp_all [TxItem.removable]

theorem TxItem.place_cases (a : TxItem) : a.isStroke = true ∨ a.removable = true ∨ a = .brk := by
  cases a <;> simp [TxItem.isStroke, TxItem.removable]

theorem length_eraseP_any {α : Type} (p : α → Bool) (l : List α) (h : l.any p = true) :
    (l.eraseP p).length + 1 = l.length := by
  obtain ⟨a, ha, hp⟩ := List.any_eq_true.mp h
  have := List.length_eraseP_of_mem ha hp
  have : 0 < l.length := List.length_pos_of_mem ha
  omega

/-- On a queue of removable items, the queue keeps within 4 places and holds removable items only. -/
theorem LineQueueSound.enqueue {l : Link} (h : LineQueueSound l) {item : TxItem} (hi : item.removable = true) :
    (Machine.enqueue l.queue item).1.length ≤ 4 ∧ ∀ i ∈ (Machine.enqueue l.queue item).1, i.removable = true := by
  obtain ⟨hl, hr⟩ := h
  have hs : item.isStroke = false := TxItem.removable_not_stroke hi
  have hw : waitingPlaces l.queue = l.queue.length := by
    unfold waitingPlaces
    rw [List.filter_eq_self.mpr]
    intro a ha
    simp [TxItem.removable_not_stroke (hr a ha)]
  have mem : ∀ p : TxItem → Bool, ∀ i ∈ l.queue.eraseP p ++ [item], i.removable = true := by
    intro p i hm
    rcases List.mem_append.mp hm with hm | hm
    · exact hr i (List.mem_of_mem_eraseP hm)
    · rw [List.mem_singleton.mp hm]; exact hi
  unfold Machine.enqueue
  split
  · rename_i hc
    simp only [hs, Bool.false_or, decide_eq_true_eq, hw] at hc
    refine ⟨by simp; omega, ?_⟩
    intro i hm
    rcases List.mem_append.mp hm with hm | hm
    · exact hr i hm
    · rw [List.mem_singleton.mp hm]; exact hi
  · split
    · rename_i hc
      have := length_eraseP_any _ _ hc
      exact ⟨by simp; omega, mem _⟩
    · split
      · rename_i hc
        have := length_eraseP_any _ _ hc
        exact ⟨by simp; omega, mem _⟩
      · rename_i hc _ hn
        exfalso
        simp only [hs, Bool.false_or, decide_eq_true_eq, hw] at hc
        apply hn
        cases hq : l.queue with
        | nil => rw [hq] at hc; simp at hc
        | cons a rest => simp [hr a (by rw [hq]; simp)]

theorem LineQueueSound.hand {l : Link} (h : LineQueueSound l) {item : TxItem} (hi : item.removable = true) :
    LineQueueSound (l.hand item).1 := by
  unfold Link.hand
  split
  · exact h
  · split
    · exact h
    · exact h.enqueue hi

theorem waitingPlaces_append (q r : List TxItem) : waitingPlaces (q ++ r) = waitingPlaces q + waitingPlaces r := by
  simp [waitingPlaces]

theorem waitingPlaces_eraseP {p : TxItem → Bool} (hp : ∀ a, p a = true → a.removable = true) :
    ∀ q : List TxItem, q.any p = true → waitingPlaces (q.eraseP p) + 1 = waitingPlaces q
  | [], h => by simp at h
  | a :: rest, h => by
    by_cases ha : p a = true
    · have hs := TxItem.removable_not_stroke (hp a ha)
      simp [ha, waitingPlaces, hs]
    · have hr : rest.any p = true := by simpa [ha] using h
      have := waitingPlaces_eraseP hp rest hr
      have ha' : p a = false := by simpa using ha
      rw [List.eraseP_cons_of_neg (by simp [ha'])]
      cases hs : a.isStroke
      · simp only [waitingPlaces, List.filter_cons, hs, Bool.not_false, if_true, List.length_cons] at *; omega
      · simp only [waitingPlaces, List.filter_cons, hs, Bool.not_true, Bool.false_eq_true, if_false] at *; omega

/-- How many breaks wait. -/
def breaks (q : List TxItem) : Nat := (q.filter (fun i => i == TxItem.brk)).length

theorem breaks_append (q r : List TxItem) : breaks (q ++ r) = breaks q + breaks r := by simp [breaks]

theorem breaks_eraseP_le (p : TxItem → Bool) (q : List TxItem) : breaks (q.eraseP p) ≤ breaks q :=
  (List.Sublist.filter _ List.eraseP_sublist).length_le

theorem waitingPlaces_le_breaks :
    ∀ q : List TxItem, q.any TxItem.removable = false → waitingPlaces q = breaks q
  | [], _ => rfl
  | a :: rest, h => by
    simp only [List.any_cons, Bool.or_eq_false_iff] at h
    have ih := waitingPlaces_le_breaks rest h.2
    rcases a.place_cases with hs | hr | hb
    · have hb : (a == TxItem.brk) = false := by cases a <;> simp_all [TxItem.isStroke]
      simp_all [waitingPlaces, breaks]
    · rw [h.1] at hr; exact absurd hr (by simp)
    · subst hb
      simp_all [waitingPlaces, breaks, TxItem.isStroke]

/-- On channel P: at most 4 places are taken, and a break joins only a queue without one. -/
theorem HeadQueueSound.enqueue {l : Link} (h : HeadQueueSound l) {item : TxItem}
    (hi : item ≠ .brk ∨ l.queue = []) :
    waitingPlaces (Machine.enqueue l.queue item).1 ≤ 4 ∧ breaks (Machine.enqueue l.queue item).1 ≤ 1 := by
  obtain ⟨hp, hb⟩ := h
  change breaks l.queue ≤ 1 at hb
  have one : waitingPlaces [item] ≤ 1 := by
    unfold waitingPlaces; exact (List.length_filter_le _ _)
  have bone : item ≠ .brk → breaks [item] = 0 := by
    intro hne
    have : (item == TxItem.brk) = false := by simpa using hne
    simp [breaks, this]
  have bone' : breaks [item] ≤ 1 := by
    unfold breaks; exact (List.length_filter_le _ _)
  have bsum : ∀ q : List TxItem, breaks q ≤ breaks l.queue → breaks (q ++ [item]) ≤ 1 := by
    intro q hq
    rw [breaks_append]
    rcases hi with hi | hi
    · rw [bone hi]; omega
    · rw [hi] at hq; have : breaks ([] : List TxItem) = 0 := rfl; omega
  unfold Machine.enqueue
  split
  · rename_i hc
    refine ⟨?_, bsum _ (Nat.le_refl _)⟩
    rw [waitingPlaces_append]
    simp only [Bool.or_eq_true, decide_eq_true_eq] at hc
    rcases hc with hc | hc
    · have : waitingPlaces [item] = 0 := by simp [waitingPlaces, hc]
      omega
    · omega
  · split
    · rename_i hc
      have := waitingPlaces_eraseP (p := item.supersedes) (fun _ h => TxItem.supersedes_removable h) _ hc
      refine ⟨?_, bsum _ (breaks_eraseP_le _ _)⟩
      rw [waitingPlaces_append]; omega
    · split
      · rename_i hc
        have := waitingPlaces_eraseP (p := TxItem.removable) (fun _ h => h) _ hc
        refine ⟨?_, bsum _ (breaks_eraseP_le _ _)⟩
        rw [waitingPlaces_append]; omega
      · rename_i hc _ hn
        exfalso
        have := waitingPlaces_le_breaks l.queue (by simpa using hn)
        simp only [Bool.or_eq_true, decide_eq_true_eq, not_or] at hc
        omega

theorem HeadQueueSound.hand {l : Link} (h : HeadQueueSound l) {item : TxItem} (hi : item ≠ .brk ∨ l.queue = []) :
    HeadQueueSound (l.hand item).1 := by
  unfold Link.hand
  split
  · exact h
  · split
    · exact h
    · exact h.enqueue hi

@[simp] theorem Link.hand_enabled (l : Link) (item : TxItem) : (l.hand item).1.enabled = l.enabled := by
  unfold Link.hand; split
  · rfl
  · split <;> rfl

@[simp] theorem Link.hand_rx (l : Link) (item : TxItem) : (l.hand item).1.rx = l.rx := by
  unfold Link.hand; split
  · rfl
  · split <;> rfl

@[simp] theorem Link.hand_baud (l : Link) (item : TxItem) : (l.hand item).1.baud = l.baud := by
  unfold Link.hand; split
  · rfl
  · split <;> rfl

@[simp] theorem Link.handBus_enabled (l : Link) (item : TxItem) : (l.handBus item).enabled = l.enabled := by
  unfold Link.handBus; split
  · rfl
  · split <;> rfl

theorem BusQueueSound.handBus {l : Link} (h : BusQueueSound l) (item : TxItem) : BusQueueSound (l.handBus item) := by
  unfold Link.handBus
  split
  · exact h
  · split
    · rename_i ht
      exact ⟨by simp, fun _ => ht⟩
    · exact ⟨by simp, fun x => absurd rfl x⟩

@[simp] theorem Link.complete_enabled (l : Link) : l.complete.enabled = l.enabled := by
  unfold Link.complete; split <;> rfl

theorem LinkIdle.hand {l : Link} (h : LinkIdle l) (item : TxItem) : LinkIdle (l.hand item).1 := by
  intro he
  rw [Link.hand_enabled] at he
  have : l.hand item = (l, false) := by simp [Link.hand, he]
  rw [this]; exact h he

theorem LinkIdle.handBus {l : Link} (h : LinkIdle l) (item : TxItem) : LinkIdle (l.handBus item) := by
  intro he
  rw [Link.handBus_enabled] at he
  have : l.handBus item = l := by simp [Link.handBus, he]
  rw [this]; exact h he

theorem LinkIdle.complete {l : Link} (h : LinkIdle l) : LinkIdle l.complete := by
  intro he
  rw [Link.complete_enabled] at he
  have ht := (h he).2.1
  have : l.complete = l := by simp [Link.complete, ht]
  rw [this]; exact h he

theorem LineQueueSound.complete {l : Link} (h : LineQueueSound l) : LineQueueSound l.complete := by
  unfold Link.complete
  split
  · exact h
  · refine ⟨?_, fun i hi => h.2 i (List.mem_of_mem_tail hi)⟩
    have := h.1
    simp only [List.length_tail]; omega

theorem HeadQueueSound.complete {l : Link} (h : HeadQueueSound l) : HeadQueueSound l.complete := by
  unfold Link.complete
  split
  · exact h
  · have hs := List.tail_sublist l.queue
    exact ⟨Nat.le_trans (List.Sublist.filter _ hs).length_le h.1, Nat.le_trans (List.Sublist.filter _ hs).length_le h.2⟩

theorem BusQueueSound.complete {l : Link} (h : BusQueueSound l) : BusQueueSound l.complete := by
  unfold Link.complete
  split
  · exact h
  · have h1 := h.1
    have : l.queue.tail = [] := List.eq_nil_of_length_eq_zero (by simp only [List.length_tail]; omega)
    exact ⟨by simp [this], fun x => absurd this x⟩

/-- Handing an item leaves the other channels, the attention unit's tables, and everything else but a notice. -/
theorem Controller.hand_eq (c : Controller) (ch : Channel) (item : TxItem) :
    c.hand ch item =
      if ((c.link ch).hand item).2 then
        (c.setLink ch ((c.link ch).hand item).1).raise .linkTimeout (Detail.channelNamed ch .transmit)
      else c.setLink ch ((c.link ch).hand item).1 := rfl

end Sys2Proof.Machine
end

