-- ==== Sys2Proof/Laws/Attention.lean ====
section
/-! SUPPORT. The attention unit: a notice sets its own flag and detail and no other (R188), and every update leaves the
output at the level R189 asks for. -/

namespace Sys2Proof.Machine

theorem Notice.group_range (n : Notice) : 1 ≤ n.group ∧ n.group ≤ 6 := by cases n <;> decide
theorem Notice.source_range (n : Notice) : 1 ≤ n.source ∧ n.source ≤ 8 := by cases n <;> decide

/-- A notice's source exists in its group (10.2). -/
theorem Notice.source_exists (n : Notice) : sourceBit n.source &&& sourcelessBits n.group = 0#8 := by
  cases n <;> decide

@[simp] theorem Attention.refresh_groups (a : Attention) : a.refresh.groups = a.groups := rfl
@[simp] theorem Attention.refresh_last (a : Attention) : a.refresh.last = a.last := rfl
@[simp] theorem Attention.refresh_output (a : Attention) : a.refresh.output = a.wanted := rfl
@[simp] theorem Attention.refresh_group (a : Attention) (g : Nat) : a.refresh.group g = a.group g := rfl
theorem Attention.refresh_wanted (a : Attention) : a.refresh.wanted = a.wanted := rfl

/-- Changing group `k` changes no other group. -/
theorem Attention.group_modify (a : Attention) (h6 : a.groups.length = 6) (k : Nat) (hk : 1 ≤ k ∧ k ≤ 6)
    (f : NoticeGroup → NoticeGroup) (m : Nat) (hm : 1 ≤ m) :
    Attention.group { a with groups := a.groups.modify (k - 1) f } m = if m = k then f (a.group m) else a.group m := by
  unfold Attention.group
  simp only [List.getD_eq_getElem?_getD, List.getElem?_modify]
  by_cases hmk : m = k
  · subst hmk
    have : m - 1 < a.groups.length := by omega
    simp [List.getElem?_eq_getElem this]
  · have : k - 1 ≠ m - 1 := by omega
    simp [hmk, this]

/-- The groups after an update of group `k` that clears no sourceless bit's state: what every update keeps. -/
theorem AttentionSound.modify {a : Attention} (h : AttentionSound a false) (k : Nat) (hk : 1 ≤ k ∧ k ≤ 6)
    (f : NoticeGroup → NoticeGroup) (last : Option (Nat × Nat))
    (hd : ∀ g : NoticeGroup, g.details.length = 8 → (f g).details.length = 8)
    (hf : ∀ g : NoticeGroup, g.flags &&& sourcelessBits k = 0#8 → (f g).flags &&& sourcelessBits k = 0#8) :
    AttentionSound (Attention.refresh { a with groups := a.groups.modify (k - 1) f, last := last }) false where
  six := by simp [h.six]
  eight := by
    intro g hg
    simp only [Attention.refresh_groups] at hg
    obtain ⟨i, hi, rfl⟩ := List.getElem_of_mem hg
    rw [List.getElem_modify]
    have hi' : i < a.groups.length := by simpa using hi
    split
    · exact hd _ (h.eight _ (List.getElem_mem hi'))
    · exact h.eight _ (List.getElem_mem hi')
  sourceless := by
    intro m h1 h6
    have e : (Attention.refresh { a with groups := a.groups.modify (k - 1) f, last := last }).group m =
        Attention.group { a with groups := a.groups.modify (k - 1) f } m := rfl
    rw [e, Attention.group_modify a h.six k hk f m h1]
    split
    · rename_i hmk; subst hmk; exact hf _ (h.sourceless m h1 h6)
    · exact h.sourceless m h1 h6
  output := by simp [Attention.refresh_wanted]

theorem NoticeGroup.set_sourceless (n : Notice) (d : Detail) (g : NoticeGroup)
    (h : g.flags &&& sourcelessBits n.group = 0#8) : (g.set n.source d).flags &&& sourcelessBits n.group = 0#8 := by
  have hs := n.source_exists
  have e : (g.set n.source d).flags = g.flags ||| sourceBit n.source := rfl
  rw [e]
  generalize sourcelessBits n.group = m at *
  generalize sourceBit n.source = b at *
  generalize g.flags = x at *
  have : (x ||| b) &&& m = (x &&& m) ||| (b &&& m) := by
    ext i; simp; cases x[i] <;> cases b[i] <;> cases m[i] <;> rfl
  rw [this, h, hs]; rfl

theorem AttentionSound.raise {a : Attention} (h : AttentionSound a false) (n : Notice) (d : Detail) :
    AttentionSound (a.raise n d) false := by
  have := h.modify n.group n.group_range (fun g => g.set n.source d) a.last
    (by intro g hg; simp [NoticeGroup.set, hg]) (NoticeGroup.set_sourceless n d)
  exact this

theorem AttentionSound.deliver {a : Attention} (h : AttentionSound a false) (g n : Nat) (hg : 1 ≤ g ∧ g ≤ 6) :
    AttentionSound (a.deliver g n) false := by
  refine h.modify g hg (fun x => { x with flags := x.flags &&& ~~~(sourceBit n), gateOpen := false }) (some (g, n)) ?_ ?_
  · intro x hx; exact hx
  · intro x hx
    have : x.flags &&& ~~~(sourceBit n) &&& sourcelessBits g = x.flags &&& sourcelessBits g &&& ~~~(sourceBit n) := by
      rw [BitVec.and_assoc, BitVec.and_comm (~~~(sourceBit n)), BitVec.and_assoc]
    show x.flags &&& ~~~(sourceBit n) &&& sourcelessBits g = 0#8
    rw [this, hx]; simp

theorem AttentionSound.openGate {a : Attention} (h : AttentionSound a false) (g : Nat) (hg : 1 ≤ g ∧ g ≤ 6) :
    AttentionSound (a.openGate g) false :=
  h.modify g hg (fun x => { x with gateOpen := true }) a.last (fun _ hx => hx) (fun _ hx => hx)

theorem AttentionSound.enable {a : Attention} (h : AttentionSound a false) (g : Nat) (mask : Byte) (hg : 1 ≤ g ∧ g ≤ 6) :
    AttentionSound (a.enable g mask) false :=
  h.modify g hg (fun x => { x with enables := mask }) a.last (fun _ hx => hx) (fun _ hx => hx)

theorem AttentionSound.reset (s h : Bool) : AttentionSound (Controller.fresh s h).att false where
  six := by rfl
  eight := by intro g hg; simp [Controller.fresh, NoticeGroup.clear] at hg; subst hg; rfl
  sourceless := by
    intro n h1 h6
    have : n = 1 ∨ n = 2 ∨ n = 3 ∨ n = 4 ∨ n = 5 ∨ n = 6 := by omega
    rcases this with rfl | rfl | rfl | rfl | rfl | rfl <;> (simp [Controller.fresh, Attention.group, NoticeGroup.clear])
  output := by rfl

/-- What the first deliverable notice is: it stands in an open group, set and enabled (R190). -/
theorem lowestSource_spec (bits : Byte) :
    ∀ k n m, lowestSource bits k n = some m → n ≤ m ∧ m < n + k ∧ bits &&& sourceBit m ≠ 0#8
  | 0, _, _, h => by simp [lowestSource] at h
  | k + 1, n, m, h => by
    unfold lowestSource at h
    split at h
    · rename_i hb
      injection h with h; subst h
      exact ⟨Nat.le_refl _, by omega, by simpa using hb⟩
    · have := lowestSource_spec bits k (n + 1) m h
      exact ⟨by omega, by omega, this.2.2⟩

theorem firstDeliverable_range :
    ∀ (groups : List NoticeGroup) (g0 g n : Nat), firstDeliverable groups g0 = some (g, n) →
      g0 ≤ g ∧ g < g0 + groups.length ∧ 1 ≤ n ∧ n ≤ 8
  | [], _, _, _, h => by simp [firstDeliverable] at h
  | grp :: rest, g0, g, n, h => by
    unfold firstDeliverable at h
    split at h
    · rename_i m hm
      injection h with h
      injection h with h1 h2
      subst h1; subst h2
      have := lowestSource_spec _ _ _ _ hm
      exact ⟨Nat.le_refl _, by simp, by omega, by omega⟩
    · have := firstDeliverable_range rest (g0 + 1) g n h
      simp only [List.length_cons]
      exact ⟨by omega, by omega, this.2.2⟩

end Sys2Proof.Machine
end

