-- ==== Sys2Proof/Laws/Rolls.lean ====
section
/-! SUPPORT. What each change of the roll manager leaves of its invariant. -/

namespace Sys2Proof.Machine

/-! ### Lookups and maps -/

theorem mem_rolls {r : RollManager} {x : Roll} : x ∈ r.rolls ↔ some x ∈ r.slots := by
  simp [RollManager.rolls]

/-- The slots mapped. -/
theorem rolls_map (slots : List (Option Roll)) (f : Roll → Roll) :
    (slots.map (fun slot => slot.map f)).filterMap (fun slot => slot) = (slots.filterMap (fun slot => slot)).map f := by
  induction slots with
  | nil => rfl
  | cons a rest ih => cases a <;> simp [ih]

theorem mapRolls_rolls (c : Controller) (f : Roll → Roll) : (c.mapRolls f).rolls.rolls = c.rolls.rolls.map f :=
  rolls_map _ _

theorem findSome_slot {β : Type} {slots : List (Option Roll)} {f : Option Roll → Option β} {y : β}
    (h : slots.findSome? f = some y) : ∃ s ∈ slots, f s = some y := List.exists_of_findSome?_eq_some h

theorem rollById_mem {c : Controller} {id : Nat} {x : Roll} (h : c.rollById id = some x) : x ∈ c.rolls.rolls ∧ x.id = id := by
  obtain ⟨s, hs, hx⟩ := findSome_slot h
  split at hx
  · split at hx
    · cases hx; exact ⟨mem_rolls.mpr hs, ‹_›⟩
    · cases hx
  · cases hx

theorem rollById_none {c : Controller} {id : Nat} (h : c.rollById id = none) : ∀ x ∈ c.rolls.rolls, x.id ≠ id := by
  intro x hx e
  have := (List.findSome?_eq_none_iff.mp h) _ (mem_rolls.mp hx)
  simp [e] at this

theorem runningRoll_mem {c : Controller} {x : Roll} (h : c.runningRoll = some x) :
    x ∈ c.rolls.rolls ∧ x.state = .running := by
  obtain ⟨s, hs, hx⟩ := findSome_slot h
  split at hx
  · split at hx
    · cases hx; exact ⟨mem_rolls.mpr hs, ‹_›⟩
    · cases hx
  · cases hx

theorem runningRoll_none {c : Controller} (h : c.runningRoll = none) : ∀ x ∈ c.rolls.rolls, x.state ≠ .running := by
  intro x hx e
  have := (List.findSome?_eq_none_iff.mp h) _ (mem_rolls.mp hx)
  simp [e] at this

theorem activeSpindle_state {c : Controller} {sp : Spindle} (h : c.activeSpindle = some sp) :
    (c.rolls.spindle sp).state = .active := by
  unfold Controller.activeSpindle at h
  split at h
  · cases h; assumption
  · split at h
    · cases h; assumption
    · cases h

theorem spindle_rolls (c : Controller) (sp : Spindle) : c.spindle sp = c.rolls.spindle sp := by cases sp <;> rfl

/-- The idle spindle LOADED beside an ACTIVE one. -/
theorem idleLoaded_spec {c : Controller} (h : c.idleLoaded = true) :
    ∃ sp, c.activeSpindle = some sp ∧ (c.rolls.spindle sp).state = .active ∧
      (c.rolls.spindle (otherSpindle sp)).state = .loaded := by
  unfold Controller.idleLoaded Controller.idleSpindle at h
  cases ha : c.activeSpindle with
  | none => rw [ha] at h; cases h
  | some sp =>
    rw [ha] at h
    simp only [Option.map_some, beq_iff_eq, spindle_rolls] at h
    exact ⟨sp, rfl, activeSpindle_state ha, h⟩

/-! ### The table of rolls -/

theorem RollTable.unique {l : List Roll} (h : RollTable l) {x y : Roll} (hx : x ∈ l) (hy : y ∈ l) (e : x.id = y.id) :
    x = y := List.inj_on_of_nodup_map h.ids hx hy e

/-- Changed rolls that keep their ids: none begins to run, and none becomes new that a panel names. -/
theorem RollTable.map {l : List Roll} (h : RollTable l) (f : Roll → Roll) (hid : ∀ x ∈ l, (f x).id = x.id)
    (hrun : ∀ x ∈ l, (f x).state = .running → x.state = .running)
    (hnew : ∀ x ∈ l, (f x).isNew → (f x).refs = 0) : RollTable (l.map f) where
  ids := by
    have : (l.map f).map Roll.id = l.map Roll.id := by
      rw [List.map_map]; exact List.map_congr_left hid
    rw [this]; exact h.ids
  oneRunning := by
    intro x hx y hy h1 h2
    obtain ⟨a, ha, rfl⟩ := List.mem_map.mp hx
    obtain ⟨b, hb, rfl⟩ := List.mem_map.mp hy
    rw [h.oneRunning a ha b hb (hrun a ha h1) (hrun b hb h2)]
  unnamed := by
    intro x hx h1
    obtain ⟨a, ha, rfl⟩ := List.mem_map.mp hx
    exact hnew a ha h1

/-- The roll of id `i` begins to run where none runs. -/
theorem RollTable.run {l : List Roll} (h : RollTable l) (hn : ∀ x ∈ l, x.state ≠ .running) (i : Option Nat) :
    RollTable (l.map (fun x => if some x.id = i then { x with state := .running } else x)) where
  ids := by
    have : (l.map (fun x => if some x.id = i then { x with state := .running } else x)).map Roll.id = l.map Roll.id := by
      rw [List.map_map]
      refine List.map_congr_left (fun x _ => ?_)
      show (if some x.id = i then ({ x with state := .running } : Roll) else x).id = x.id
      split <;> rfl
    rw [this]; exact h.ids
  oneRunning := by
    have key : ∀ a ∈ l, (if some a.id = i then ({ a with state := .running } : Roll) else a).state = .running →
        some a.id = i := by
      intro a ha h1
      by_contra hne
      rw [if_neg hne] at h1
      exact hn a ha h1
    intro x hx y hy h1 h2
    obtain ⟨a, ha, rfl⟩ := List.mem_map.mp hx
    obtain ⟨b, hb, rfl⟩ := List.mem_map.mp hy
    have e : a.id = b.id := Option.some.inj ((key a ha h1).trans (key b hb h2).symm)
    rw [h.unique ha hb e]
  unnamed := by
    intro x hx h1
    obtain ⟨a, ha, rfl⟩ := List.mem_map.mp hx
    split at h1
    · rcases h1 with h1 | h1 <;> cases h1
    · rename_i hne
      rw [if_neg hne]
      exact h.unnamed a ha h1

/-- A sublist of the rolls. -/
theorem RollTable.sublist {l k : List Roll} (h : RollTable l) (hs : k.Sublist l) : RollTable k :=
  ⟨(hs.map Roll.id).nodup h.ids, fun x hx y hy => h.oneRunning x (hs.subset hx) y (hs.subset hy),
    fun x hx => h.unnamed x (hs.subset hx)⟩

/-! ### Spindles and the feed -/

theorem SpindlesLoaded.map {l : List Roll} {s : Spindle → SpindleRec} (h : SpindlesLoaded l s) (f : Roll → Roll)
    (hid : ∀ x ∈ l, (f x).id = x.id) (hm : ∀ x ∈ l, x.state = .mounted → (f x).state = .mounted) :
    SpindlesLoaded (l.map f) s := by
  refine ⟨fun sp hs => ?_, h.apart⟩
  obtain ⟨x, hx, h1, h2⟩ := h.mounted sp hs
  exact ⟨f x, List.mem_map_of_mem hx, by rw [hid x hx]; exact h1, hm x hx h2⟩

theorem FeedSound.map {l : List Roll} {i : Option Nat} {seams : List Seam} (h : FeedSound l i seams) (f : Roll → Roll)
    (hid : ∀ x ∈ l, (f x).id = x.id) (hw : ∀ x ∈ l, x.onWeb → (f x).onWeb) : FeedSound (l.map f) i seams where
  feed := by
    intro id hi
    obtain ⟨x, hx, h1, h2⟩ := h.feed id hi
    exact ⟨f x, List.mem_map_of_mem hx, by rw [hid x hx]; exact h1, hw x hx h2⟩
  awaited := by
    intro e he ha
    obtain ⟨x, hx, h1, h2⟩ := h.awaited e he ha
    exact ⟨f x, List.mem_map_of_mem hx, by rw [hid x hx]; exact h1, hw x hx h2⟩
  later := h.later
  once := h.once

/-- Entries that stand for entries of the list: what awaits its passage stands in it. -/
theorem FeedSound.seams {l : List Roll} {i : Option Nat} {seams : List Seam} (h : FeedSound l i seams)
    (new : List Seam)
    (hnew : ∀ e ∈ new, e.kind.awaitsPassage = true → ∃ f ∈ seams, f.kind.awaitsPassage = true ∧ f.kind.roll = e.kind.roll)
    (honce : ∀ e ∈ new, ∀ f ∈ new, e.kind.awaitsPassage = true → f.kind.awaitsPassage = true →
      e.kind.roll = f.kind.roll → e = f) : FeedSound l i new where
  feed := h.feed
  awaited := by
    intro e he ha
    obtain ⟨f, hf, h1, h2⟩ := hnew e he ha
    rw [← h2]; exact h.awaited f hf h1
  later := by
    intro e he ha
    obtain ⟨f, hf, h1, h2⟩ := hnew e he ha
    rw [← h2]; exact h.later f hf h1
  once := honce

theorem FeedSound.subset {l : List Roll} {i : Option Nat} {seams : List Seam} (h : FeedSound l i seams)
    (new : List Seam) (hs : ∀ e ∈ new, e ∈ seams) : FeedSound l i new :=
  h.seams new (fun e he ha => ⟨e, hs e he, ha, rfl⟩) (fun e he f hf => h.once e (hs e he) f (hs f hf))

/-- Kinds changed in place that keep what awaits its passage. -/
theorem FeedSound.kinds {l : List Roll} {i : Option Nat} {seams : List Seam} (h : FeedSound l i seams) (g : Seam → Seam)
    (hg : ∀ e ∈ seams, (g e).kind.awaitsPassage = true → e.kind.awaitsPassage = true ∧ (g e).kind.roll = e.kind.roll) :
    FeedSound l i (seams.map g) := by
  refine h.seams _ ?_ ?_
  · intro e he ha
    obtain ⟨x, hx, rfl⟩ := List.mem_map.mp he
    obtain ⟨h1, h2⟩ := hg x hx ha
    exact ⟨x, hx, h1, h2.symm⟩
  · intro e he f hf ha hb hr
    obtain ⟨x, hx, rfl⟩ := List.mem_map.mp he
    obtain ⟨y, hy, rfl⟩ := List.mem_map.mp hf
    obtain ⟨h1, h2⟩ := hg x hx ha
    obtain ⟨h3, h4⟩ := hg y hy hb
    rw [h.once x hx y hy h1 h3 (by rw [← h2, ← h4]; exact hr)]

/-! ### The whole -/

/-- What `RollsSound` reads of the roll manager. -/
structure RollCore where
  slots : List (Option Roll)
  a : SpindleState × Option Nat
  b : SpindleState × Option Nat
  feed : Option Nat
  seams : List Seam
  splice : Option SpliceRec
  job : RollJob

def RollManager.core (r : RollManager) : RollCore :=
  ⟨r.slots, (r.spA.state, r.spA.roll), (r.spB.state, r.spB.roll), r.feedRoll, r.seams, r.splice, r.job⟩

theorem core_spindle {r q : RollManager} (h : q.core = r.core) (sp : Spindle) :
    (q.spindle sp).state = (r.spindle sp).state ∧ (q.spindle sp).roll = (r.spindle sp).roll := by
  have ha := congrArg RollCore.a h
  have hb := congrArg RollCore.b h
  cases sp
  · exact ⟨congrArg Prod.fst ha, congrArg Prod.snd ha⟩
  · exact ⟨congrArg Prod.fst hb, congrArg Prod.snd hb⟩

theorem RollsSound.of_core {r q : RollManager} {on : Bool} (h : q.core = r.core) (s : RollsSound r on) : RollsSound q on := by
  have hslots : q.slots = r.slots := congrArg RollCore.slots h
  have hrolls : q.rolls = r.rolls := by unfold RollManager.rolls; rw [hslots]
  have hfeed : q.feedRoll = r.feedRoll := congrArg RollCore.feed h
  have hseams : q.seams = r.seams := congrArg RollCore.seams h
  have hsplice : q.splice = r.splice := congrArg RollCore.splice h
  have hjob : q.job = r.job := congrArg RollCore.job h
  refine ⟨by rw [hrolls]; exact s.table, ⟨fun sp hs => ?_, ?_⟩, by rw [hrolls, hfeed, hseams]; exact s.feed,
    ⟨fun hj => ?_, fun hj => ?_, fun hc => ?_⟩⟩
  · rw [(core_spindle h sp).1] at hs
    rw [hrolls, (core_spindle h sp).2]; exact s.spindles.mounted sp hs
  · rw [(core_spindle h .a).1, (core_spindle h .b).1, (core_spindle h .a).2, (core_spindle h .b).2]
    exact s.spindles.apart
  · rw [hjob] at hj
    obtain ⟨x, h1, h2⟩ := s.job.target hj
    exact ⟨x, hsplice.trans h1, by rw [(core_spindle h _).1]; exact h2⟩
  · rw [hjob] at hj
    intro sp ha
    rw [(core_spindle h _).1] at ha ⊢
    exact s.job.pending hj sp ha
  · rw [hjob]; exact s.job.quiet hc

/-- A job state that asks for no target. -/
def RollJob.plain (j : RollJob) : Prop := j.inSplice = false ∧ j ≠ .pending

theorem JobSound.plain {r : RollManager} (h : r.job.plain) : JobSound r true :=
  ⟨fun x => (Bool.false_ne_true (h.1.symm.trans x)).elim, fun x => absurd x h.2, fun x => by cases x⟩

/-- The job moves to a state that asks for no target. -/
theorem RollsSound.toPlain {r : RollManager} (s : RollsSound r true) {j : RollJob} (hj : j.plain) :
    RollsSound { r with job := j } true := ⟨s.table, s.spindles, s.feed, JobSound.plain hj⟩

/-- The job moves to another state of the splice in progress. -/
theorem RollsSound.alongSplice {r : RollManager} {on : Bool} (s : RollsSound r true) {j : RollJob}
    (h : r.job.inSplice = true) (hj : j.inSplice = true) (ho : on = true) : RollsSound { r with job := j } on := by
  subst ho
  refine ⟨s.table, s.spindles, s.feed, ⟨fun _ => s.job.target h, fun x => ?_, fun x => by cases x⟩⟩
  have x' : j = .pending := x
  rw [x'] at hj; cases hj

/-- Rolls changed in place: new ones, mounted ones and those on the web stay so, and none begins to run. -/
structure Mild (f : Roll → Roll) (l : List Roll) : Prop where
  id : ∀ x ∈ l, (f x).id = x.id
  refs : ∀ x ∈ l, (f x).refs = x.refs
  running : ∀ x ∈ l, (f x).state = .running → x.state = .running
  new : ∀ x ∈ l, (f x).isNew → x.isNew
  mounted : ∀ x ∈ l, x.state = .mounted → (f x).state = .mounted
  onWeb : ∀ x ∈ l, x.onWeb → (f x).onWeb

theorem Mild.plain {f : Roll → Roll} (h : ∀ x, (f x).id = x.id ∧ (f x).refs = x.refs ∧ (f x).state = x.state)
    (l : List Roll) : Mild f l :=
  ⟨fun x _ => (h x).1, fun x _ => (h x).2.1, fun x _ => by rw [(h x).2.2]; exact fun y => y,
    fun x _ => by unfold Roll.isNew; rw [(h x).2.2]; exact fun y => y, fun x _ => by rw [(h x).2.2]; exact fun y => y,
    fun x _ => by unfold Roll.onWeb; rw [(h x).2.2]; exact fun y => y⟩

theorem RollTable.mild {l : List Roll} (h : RollTable l) {f : Roll → Roll} (hf : Mild f l) : RollTable (l.map f) :=
  h.map f hf.id hf.running (fun x hx hn => (hf.refs x hx).trans (h.unnamed x hx (hf.new x hx hn)))

/-- The running rolls EXPIRED. -/
theorem expire_mild (l : List Roll) :
    Mild (fun r => if r.state = .running then { r with state := .expired, stub := some r.remaining } else r) l := by
  refine ⟨fun x _ => ?_, fun x _ => ?_, fun x _ h => ?_, fun x _ h => ?_, fun x _ h => ?_, fun x _ h => ?_⟩
  · split <;> rfl
  · split <;> rfl
  · split at h
    · cases h
    · exact h
  · split at h
    · rcases h with h | h <;> cases h
    · exact h
  · rw [if_neg (by rw [h]; decide)]; exact h
  · split
    · exact Or.inr rfl
    · exact h

/-- The slots mapped by a mild change, the rest as it stands. -/
theorem RollsSound.mapSlots {r : RollManager} {on : Bool} (s : RollsSound r on) {f : Roll → Roll} (hf : Mild f r.rolls) :
    RollsSound { r with slots := r.slots.map (fun slot => slot.map f) } on := by
  have e : RollManager.rolls { r with slots := r.slots.map (fun slot => slot.map f) } = r.rolls.map f := rolls_map _ _
  exact ⟨by rw [e]; exact s.table.mild hf, by rw [e]; exact s.spindles.map f hf.id hf.mounted,
    by rw [e]; exact s.feed.map f hf.id hf.onWeb, ⟨s.job.target, s.job.pending, s.job.quiet⟩⟩

/-- Other reference counts: the rolls that are new keep 0. -/
theorem RollsSound.mapRefs {r : RollManager} {on : Bool} (s : RollsSound r on) {f : Roll → Roll}
    (hid : ∀ x, (f x).id = x.id) (hst : ∀ x, (f x).state = x.state)
    (hnew : ∀ x ∈ r.rolls, (f x).isNew → (f x).refs = 0) :
    RollsSound { r with slots := r.slots.map (fun slot => slot.map f) } on := by
  have e : RollManager.rolls { r with slots := r.slots.map (fun slot => slot.map f) } = r.rolls.map f := rolls_map _ _
  refine ⟨?_, ?_, ?_, ⟨s.job.target, s.job.pending, s.job.quiet⟩⟩
  · rw [e]; exact s.table.map f (fun x _ => hid x) (fun x _ h => (hst x).symm.trans h) hnew
  · rw [e]; exact s.spindles.map f (fun x _ => hid x) (fun x _ h => (hst x).trans h)
  · rw [e]; exact s.feed.map f (fun x _ => hid x) (fun x _ h => by unfold Roll.onWeb; rw [hst]; exact h)

/-- Another seam list. -/
theorem RollsSound.setSeams {r : RollManager} {on : Bool} (s : RollsSound r on) (l : List Seam)
    (h : FeedSound r.rolls r.feedRoll l) : RollsSound { r with seams := l } on :=
  ⟨s.table, s.spindles, h, ⟨s.job.target, s.job.pending, s.job.quiet⟩⟩

/-- A roll manager with another record on one spindle. -/
def RollManager.withSpindle (r : RollManager) : Spindle → SpindleRec → RollManager
  | .a, x => { r with spA := x }
  | .b, x => { r with spB := x }

theorem setSpindle_rolls (c : Controller) (sp : Spindle) (x : SpindleRec) :
    c.setSpindle sp x = { c with rolls := c.rolls.withSpindle sp x } := by cases sp <;> rfl

theorem spindle_with (r : RollManager) (sp : Spindle) (x : SpindleRec) (q : Spindle) :
    (r.withSpindle sp x).spindle q = if q = sp then x else r.spindle q := by cases sp <;> cases q <;> rfl

theorem withSpindle_rest (r : RollManager) (sp : Spindle) (x : SpindleRec) :
    (r.withSpindle sp x).slots = r.slots ∧ (r.withSpindle sp x).feedRoll = r.feedRoll ∧
      (r.withSpindle sp x).seams = r.seams ∧ (r.withSpindle sp x).splice = r.splice ∧
      (r.withSpindle sp x).job = r.job := by cases sp <;> exact ⟨rfl, rfl, rfl, rfl, rfl⟩

theorem withSpindle_rolls (r : RollManager) (sp : Spindle) (x : SpindleRec) : (r.withSpindle sp x).rolls = r.rolls := by
  unfold RollManager.rolls; rw [(withSpindle_rest r sp x).1]

/-- A spindle that does not become LOADED. -/
theorem SpindlesLoaded.unloaded {l : List Roll} {r : RollManager} (h : SpindlesLoaded l r.spindle) (sp : Spindle)
    (x : SpindleRec) (hx : x.state ≠ .loaded) : SpindlesLoaded l (r.withSpindle sp x).spindle := by
  refine ⟨fun q hq => ?_, fun h1 h2 => ?_⟩
  · rw [spindle_with] at hq ⊢
    split at hq
    · exact absurd hq hx
    · rw [if_neg ‹_›]; exact h.mounted q hq
  · rw [spindle_with] at h1 h2
    rw [spindle_with, spindle_with]
    split at h1
    · exact absurd h1 hx
    · split at h2
      · exact absurd h2 hx
      · rw [if_neg ‹_›, if_neg ‹_›]; exact h.apart h1 h2

/-- The reference counts as the slots hold them. -/
def RollManager.refTable (r : RollManager) : List (Nat × Nat) := r.rolls.map (fun x => (x.id, x.refs))

theorem RollsCounted.of_refs {t : RecordUnit} {r q : RollManager} (h : RollsCounted t r) (e : q.refTable = r.refTable) :
    RollsCounted t q := by
  refine ⟨fun p hp x hx => ?_, fun y hy => ?_⟩
  · obtain ⟨y, hy, hid⟩ := h.slot p hp x hx
    have : (y.id, y.refs) ∈ q.refTable := by rw [e]; exact List.mem_map.mpr ⟨y, hy, rfl⟩
    obtain ⟨z, hz, hz2⟩ := List.mem_map.mp this
    exact ⟨z, hz, by rw [← hid]; exact congrArg Prod.fst hz2⟩
  · have : (y.id, y.refs) ∈ r.refTable := by rw [← e]; exact List.mem_map.mpr ⟨y, hy, rfl⟩
    obtain ⟨z, hz, hz2⟩ := List.mem_map.mp this
    have h1 : z.id = y.id := congrArg Prod.fst hz2
    have h2 : z.refs = y.refs := congrArg Prod.snd hz2
    rw [← h1, ← h2]; exact h.count z hz

theorem refTable_map {r : RollManager} {f : Roll → Roll} (hid : ∀ x ∈ r.rolls, (f x).id = x.id)
    (hrefs : ∀ x ∈ r.rolls, (f x).refs = x.refs) :
    RollManager.refTable { r with slots := r.slots.map (fun slot => slot.map f) } = r.refTable := by
  have e : RollManager.rolls { r with slots := r.slots.map (fun slot => slot.map f) } = r.rolls.map f := rolls_map _ _
  unfold RollManager.refTable
  rw [e, List.map_map]
  refine List.map_congr_left (fun x hx => ?_)
  show ((f x).id, (f x).refs) = _
  rw [hid x hx, hrefs x hx]

theorem refTable_of_slots {r q : RollManager} (h : q.slots = r.slots) : q.refTable = r.refTable := by
  unfold RollManager.refTable RollManager.rolls; rw [h]

/-- The roll on the LOADED spindle `sp` begins to run where none runs. -/
theorem RollsSound.run {r : RollManager} (s : RollsSound r true) {sp : Spindle} (hl : (r.spindle sp).state = .loaded)
    (hn : ∀ x ∈ r.rolls, x.state ≠ .running) {i : Option Nat} {l : List Seam} {j : RollJob} (hj : j.plain)
    (hf : FeedSound (r.rolls.map (fun x => if some x.id = (r.spindle sp).roll then { x with state := .running } else x)) i l)
    {q : RollManager} (hslots : q.slots = r.slots.map (fun slot => slot.map (fun x =>
      if some x.id = (r.spindle sp).roll then { x with state := .running } else x)))
    (hsp : ∀ k, (q.spindle k).state = (if k = sp then .active else (r.spindle k).state) ∧
      (q.spindle k).roll = (r.spindle k).roll)
    (hfeed : q.feedRoll = i) (hseams : q.seams = l) (hjob : q.job = j) : RollsSound q true := by
  have eq : q.rolls = r.rolls.map (fun x => if some x.id = (r.spindle sp).roll then { x with state := .running } else x) := by
    unfold RollManager.rolls; rw [hslots]; exact rolls_map _ _
  refine ⟨?_, ⟨fun k hk => ?_, fun h1 h2 => ?_⟩, by rw [eq, hfeed, hseams]; exact hf, ?_⟩
  · rw [eq]; exact s.table.run hn _
  · rw [(hsp k).1] at hk
    split at hk
    · cases hk
    · rename_i hne
      obtain ⟨x, hx, h1, h2⟩ := s.spindles.mounted k hk
      have apart : (r.spindle k).roll ≠ (r.spindle sp).roll := by
        intro e
        cases k <;> cases sp <;> first
          | exact absurd rfl hne
          | exact s.spindles.apart (by assumption) (by assumption) e
          | exact s.spindles.apart (by assumption) (by assumption) e.symm
      rw [eq, (hsp k).2]
      refine ⟨_, List.mem_map_of_mem hx, ?_, ?_⟩
      · rw [h1]; split <;> rfl
      · rw [if_neg (fun e => apart (h1.trans e))]; exact h2
  · rw [(hsp .a).1] at h1
    rw [(hsp .b).1] at h2
    rw [(hsp .a).2, (hsp .b).2]
    split at h1
    · cases h1
    · split at h2
      · cases h2
      · exact s.spindles.apart h1 h2
  · exact JobSound.plain (by rw [hjob]; exact hj)

/-! ### Mounting, unmounting, registering and retiring -/

/-- An EXPIRED roll as it becomes SPENT. -/
def spentRoll (r : Roll) : Roll := if r.state = .expired then { r with state := .spent } else r

/-- Every EXPIRED roll SPENT, the seam list emptied, and a RUNNING roll or none the feed roll. -/
theorem RollsSound.spend {r : RollManager} {on : Bool} (s : RollsSound r on) {i : Option Nat}
    (hi : ∀ id, i = some id → ∃ x ∈ r.rolls.map spentRoll, x.id = id ∧ x.onWeb) :
    RollsSound { r with slots := r.slots.map (fun slot => slot.map spentRoll), feedRoll := i, seams := [] } on := by
  have e : RollManager.rolls { r with
      slots := r.slots.map (fun slot => slot.map spentRoll), feedRoll := i, seams := [] } = r.rolls.map spentRoll :=
    rolls_map _ _
  have fid : ∀ x, (spentRoll x).id = x.id := by intro x; unfold spentRoll; split <;> rfl
  refine ⟨?_, ?_, ?_, ⟨s.job.target, s.job.pending, s.job.quiet⟩⟩
  · rw [e]
    refine s.table.map _ (fun x _ => fid x) (fun x _ h => ?_) (fun x hx h => ?_)
    · unfold spentRoll at h
      split at h
      · cases h
      · exact h
    · unfold spentRoll at h ⊢
      split at h
      · rcases h with h | h <;> cases h
      · rw [if_neg ‹_›]; exact s.table.unnamed x hx h
  · rw [e]
    refine s.spindles.map _ (fun x _ => fid x) (fun x _ h => ?_)
    unfold spentRoll
    rw [if_neg (by rw [h]; decide)]; exact h
  · rw [e]
    exact ⟨hi, (fun _ h => by cases h), (fun _ h => by cases h), (fun _ h => by cases h)⟩

theorem Roll.not_onWeb {x : Roll} (h : x.isNew ∨ x.state = .spent) : ¬ x.onWeb := by
  rintro (k | k) <;> rcases h with (h | h) | h <;> (rw [h] at k; cases k)

/-- The roll as it is mounted. -/
def mountedOn (id : Nat) (sp : Spindle) (r : Roll) : Roll :=
  if r.id = id then { r with state := .mounted, spindle := some sp } else r

theorem mount_mild {l : List Roll} (h : RollTable l) {x : Roll} (hx : x ∈ l) (hr : x.state = .registered) (sp : Spindle) :
    Mild (mountedOn x.id sp) l := by
  have only : ∀ y ∈ l, y.id = x.id → y = x := fun y hy e => h.unique hy hx e
  unfold mountedOn
  refine ⟨fun y _ => ?_, fun y _ => ?_, fun y _ k => ?_, fun y hy k => ?_, fun y _ k => ?_, fun y hy k => ?_⟩
  · split <;> rfl
  · split <;> rfl
  · split at k
    · cases k
    · exact k
  · split at k
    · rw [only y hy ‹_›]; exact Or.inl hr
    · exact k
  · split
    · rfl
    · exact k
  · split
    · rename_i e
      rw [only y hy e] at k
      exact absurd k (Roll.not_onWeb (Or.inl (Or.inl hr)))
    · exact k

/-- A REGISTERED roll mounted on an EMPTY spindle (R85). -/
theorem RollsSound.mount {r : RollManager} {on : Bool} (s : RollsSound r on) {x : Roll} (hx : x ∈ r.rolls)
    (hr : x.state = .registered) {sp : Spindle} (he : (r.spindle sp).state = .empty) (m : SpindleRec)
    (hm : m.state = .loaded ∧ m.roll = some x.id) :
    RollsSound (RollManager.withSpindle { r with slots := r.slots.map (fun slot => slot.map (mountedOn x.id sp)) } sp m)
      on := by
  have mild := mount_mild s.table hx hr sp
  have s1 := s.mapSlots mild
  have e1 : RollManager.rolls { r with slots := r.slots.map (fun slot => slot.map (mountedOn x.id sp)) } =
      r.rolls.map (mountedOn x.id sp) := rolls_map _ _
  have other : ∀ k, k ≠ sp → (r.spindle k).state = .loaded → (r.spindle k).roll ≠ some x.id := by
    intro k _ hk e
    obtain ⟨y, hy, h1, h2⟩ := s.spindles.mounted k hk
    rw [s.table.unique hy hx (Option.some.inj (h1.symm.trans e)), hr] at h2
    cases h2
  obtain ⟨_, w2, w3, w4, w5⟩ := withSpindle_rest { r with slots := r.slots.map (fun slot => slot.map (mountedOn x.id sp)) } sp m
  refine ⟨by rw [withSpindle_rolls]; exact s1.table, ⟨fun k hk => ?_, fun h1 h2 => ?_⟩,
    by rw [withSpindle_rolls, w2, w3]; exact s1.feed, ⟨fun hj => ?_, fun hj k hk => ?_, by rw [w5]; exact s.job.quiet⟩⟩
  · rw [withSpindle_rolls]
    rw [spindle_with] at hk ⊢
    split
    · refine ⟨mountedOn x.id sp x, by rw [e1]; exact List.mem_map_of_mem hx, ?_, ?_⟩
      · rw [hm.2, mild.id x hx]
      · unfold mountedOn; rw [if_pos rfl]
    · rename_i hne
      rw [if_neg hne] at hk
      exact s1.spindles.mounted k hk
  · rw [spindle_with] at h1 h2
    rw [spindle_with, spindle_with]
    by_cases ha : Spindle.a = sp
    · subst ha
      rw [if_pos rfl, if_neg (by decide)]
      rw [if_neg (by decide)] at h2
      rw [hm.2]; exact fun e => other .b (by decide) h2 e.symm
    · rw [if_neg ha] at h1 ⊢
      split at h2
      · rw [if_pos ‹_›, hm.2]; exact other .a ha h1
      · rw [if_neg ‹_›]; exact s.spindles.apart h1 h2
  · rw [w5] at hj
    obtain ⟨y, hy, hl⟩ := s.job.target hj
    refine ⟨y, w4.trans hy, ?_⟩
    rw [spindle_with]
    split
    · exact hm.1
    · exact hl
  · rw [w5] at hj
    rw [spindle_with] at hk ⊢
    split
    · exact hm.1
    · split at hk
      · rw [hm.1] at hk; cases hk
      · exact s.job.pending hj k hk

/-- The roll as it is unmounted. -/
def unmounted (id : Nat) (r : Roll) : Roll := if r.id = id then { r with state := .registered, spindle := none } else r

/-- A roll unmounted from a LOADED spindle, the job at rest (R86). -/
theorem RollsSound.unmount {r : RollManager} {on : Bool} (s : RollsSound r on) {sp : Spindle}
    (hl : (r.spindle sp).state = .loaded) (m : SpindleRec) (hm : m.state = .empty) {j : RollJob} (hj : j.plain)
    (hq : on = false → j = .normal ∨ j = .low ∨ j = .noRoll) (retry : Nat) :
    RollsSound { RollManager.withSpindle
      { r with slots := r.slots.map (fun slot => slot.map (unmounted ((r.spindle sp).roll.getD 0))) } sp m with
      retry := retry, job := j } on := by
  obtain ⟨x, hx, h1, h2⟩ := s.spindles.mounted sp hl
  have hid : (r.spindle sp).roll.getD 0 = x.id := by rw [h1]; rfl
  rw [hid]
  have only : ∀ y ∈ r.rolls, y.id = x.id → y = x := fun y hy e => s.table.unique hy hx e
  have e1 : RollManager.rolls { r with slots := r.slots.map (fun slot => slot.map (unmounted x.id)) } =
      r.rolls.map (unmounted x.id) := rolls_map _ _
  have fid : ∀ y, (unmounted x.id y).id = y.id := by intro y; unfold unmounted; split <;> rfl
  obtain ⟨_, w2, w3, w4, w5⟩ := withSpindle_rest { r with slots := r.slots.map (fun slot => slot.map (unmounted x.id)) } sp m
  have er : RollManager.rolls { RollManager.withSpindle
      { r with slots := r.slots.map (fun slot => slot.map (unmounted x.id)) } sp m with retry := retry, job := j } =
      r.rolls.map (unmounted x.id) := (withSpindle_rolls _ _ _).trans e1
  refine ⟨?_, ⟨fun k hk => ?_, fun k1 k2 => ?_⟩, ?_, ⟨fun hi => ?_, fun hi => ?_, hq⟩⟩
  · rw [er]
    refine s.table.map _ (fun y _ => fid y) (fun y _ k => ?_) (fun y hy k => ?_)
    · unfold unmounted at k
      split at k
      · cases k
      · exact k
    · unfold unmounted at k ⊢
      split
      · exact s.table.unnamed y hy (by rw [only y hy ‹_›]; exact Or.inr h2)
      · rw [if_neg ‹_›] at k; exact s.table.unnamed y hy k
  · rw [er]
    rw [show RollManager.spindle { RollManager.withSpindle _ sp m with retry := retry, job := j } k =
      (RollManager.withSpindle { r with slots := r.slots.map (fun slot => slot.map (unmounted x.id)) } sp m).spindle k from by
        cases k <;> rfl, spindle_with] at hk ⊢
    split
    · rw [if_pos ‹_›, hm] at hk; cases hk
    · rename_i hne
      rw [if_neg hne] at hk
      obtain ⟨y, hy, k1, k2⟩ := s.spindles.mounted k hk
      have apart : y.id ≠ x.id := by
        intro e
        have e' : (r.spindle k).roll = (r.spindle sp).roll := by rw [k1, h1, e]
        cases k <;> cases sp <;> first
          | exact absurd rfl hne
          | exact s.spindles.apart (by assumption) (by assumption) e'
          | exact s.spindles.apart (by assumption) (by assumption) e'.symm
      refine ⟨_, List.mem_map_of_mem hy, by rw [fid]; exact k1, ?_⟩
      unfold unmounted; rw [if_neg apart]; exact k2
  · exact (s.spindles.unloaded (r := { r with slots := r.slots.map (fun slot => slot.map (unmounted x.id)) }) sp m
      (by rw [hm]; decide)).apart k1 k2
  · rw [er]
    show FeedSound _ (RollManager.withSpindle _ sp m).feedRoll (RollManager.withSpindle _ sp m).seams
    rw [w2, w3]
    refine s.feed.map _ (fun y _ => fid y) (fun y hy k => ?_)
    unfold unmounted
    split
    · rename_i e
      rw [only y hy e] at k
      exact absurd k (Roll.not_onWeb (Or.inl (Or.inr h2)))
    · exact k
  · have : j.inSplice = true := hi
    rw [hj.1] at this; cases this
  · exact absurd hi hj.2

theorem placeRoll_perm (r : Roll) : ∀ {slots : List (Option Roll)}, none ∈ slots →
    ((placeRoll r slots).filterMap (fun slot => slot)).Perm (r :: slots.filterMap (fun slot => slot))
  | [], h => by cases h
  | none :: rest, _ => List.Perm.refl _
  | some x :: rest, h => by
    have := placeRoll_perm r (slots := rest) (by simpa using h)
    simp only [placeRoll, List.filterMap_cons]
    exact (this.cons x).trans (List.Perm.swap r x _)

/-- The roll manager with a new roll in a free slot. -/
theorem RollsSound.register {r : RollManager} {on : Bool} (s : RollsSound r on) (x : Roll) (hfree : none ∈ r.slots)
    (hnew : ∀ y ∈ r.rolls, y.id ≠ x.id) (hst : x.state = .registered) (href : x.refs = 0) :
    RollsSound { r with slots := placeRoll x r.slots } on := by
  have hp : (RollManager.rolls { r with slots := placeRoll x r.slots }).Perm (x :: r.rolls) := placeRoll_perm x hfree
  have mem : ∀ y, y ∈ RollManager.rolls { r with slots := placeRoll x r.slots } ↔ y = x ∨ y ∈ r.rolls := by
    intro y; rw [hp.mem_iff, List.mem_cons]
  have keep : ∀ y ∈ r.rolls, y ∈ RollManager.rolls { r with slots := placeRoll x r.slots } := fun y hy => (mem y).mpr (Or.inr hy)
  refine ⟨⟨?_, ?_, ?_⟩, ⟨fun sp hs => ?_, s.spindles.apart⟩, ⟨fun id hi => ?_, fun e he ha => ?_, s.feed.later, s.feed.once⟩,
    ⟨s.job.target, s.job.pending, s.job.quiet⟩⟩
  · rw [(hp.map Roll.id).nodup_iff, List.map_cons, List.nodup_cons]
    refine ⟨fun h => ?_, s.table.ids⟩
    obtain ⟨y, hy, e⟩ := List.mem_map.mp h
    exact hnew y hy e
  · intro y hy z hz h1 h2
    rcases (mem y).mp hy with rfl | hy
    · rw [hst] at h1; cases h1
    · rcases (mem z).mp hz with rfl | hz
      · rw [hst] at h2; cases h2
      · exact s.table.oneRunning y hy z hz h1 h2
  · intro y hy h
    rcases (mem y).mp hy with rfl | hy
    · exact href
    · exact s.table.unnamed y hy h
  · obtain ⟨y, hy, h⟩ := s.spindles.mounted sp hs
    exact ⟨y, keep y hy, h⟩
  · obtain ⟨y, hy, h⟩ := s.feed.feed id hi
    exact ⟨y, keep y hy, h⟩
  · obtain ⟨y, hy, h⟩ := s.feed.awaited e he ha
    exact ⟨y, keep y hy, h⟩

theorem retired_rolls (id : Nat) (slots : List (Option Roll)) :
    (slots.map (fun slot => if slot.map Roll.id = some id then none else slot)).filterMap (fun slot => slot) =
      (slots.filterMap (fun slot => slot)).filter (fun x => x.id != id) := by
  induction slots with
  | nil => rfl
  | cons a rest ih =>
    cases a with
    | none => simpa using ih
    | some x =>
      by_cases h : x.id = id
      · simpa [h] using ih
      · simpa [h] using ih

/-- The roll manager with the slot of a roll freed that is neither mounted nor on the web (R89). -/
theorem RollsSound.retire {r : RollManager} {on : Bool} (s : RollsSound r on) {x : Roll} (hx : x ∈ r.rolls)
    (hst : x.state = .registered ∨ x.state = .spent) {q : RollManager}
    (hslots : q.slots = r.slots.map (fun slot => if slot.map Roll.id = some x.id then none else slot))
    (hsp : ∀ k, (q.spindle k).state = (r.spindle k).state ∧
      (q.spindle k).roll = (if (r.spindle k).roll = some x.id then none else (r.spindle k).roll))
    (hrest : q.feedRoll = r.feedRoll ∧ q.seams = r.seams ∧ q.splice = r.splice ∧ q.job = r.job) : RollsSound q on := by
  have e : q.rolls = r.rolls.filter (fun y => y.id != x.id) := by
    unfold RollManager.rolls; rw [hslots]; exact retired_rolls _ _
  have keep : ∀ y ∈ r.rolls, y.state = .mounted ∨ y.onWeb → y ∈ q.rolls := by
    intro y hy h
    rw [e, List.mem_filter]
    refine ⟨hy, bne_iff_ne.mpr (fun h' => ?_)⟩
    rw [s.table.unique hy hx h'] at h
    rcases h with h | h | h <;> rcases hst with k | k <;> (rw [k] at h; cases h)
  have loaded : ∀ k, (r.spindle k).state = .loaded → (q.spindle k).roll = (r.spindle k).roll := by
    intro k hk
    rw [(hsp k).2, if_neg]
    intro h
    obtain ⟨y, hy, h1, h2⟩ := s.spindles.mounted k hk
    rw [s.table.unique hy hx (Option.some.inj (h1.symm.trans h))] at h2
    rcases hst with k | k <;> (rw [k] at h2; cases h2)
  obtain ⟨r1, r2, r3, r4⟩ := hrest
  refine ⟨by rw [e]; exact s.table.sublist List.filter_sublist, ⟨fun k hk => ?_, fun h1 h2 => ?_⟩,
    ⟨fun id hi => ?_, fun f hf ha => ?_, by rw [r1, r2]; exact s.feed.later, by rw [r2]; exact s.feed.once⟩,
    ⟨fun hj => ?_, fun hj k hk => ?_, by rw [r4]; exact s.job.quiet⟩⟩
  · rw [(hsp k).1] at hk
    obtain ⟨y, hy, h1, h2⟩ := s.spindles.mounted k hk
    exact ⟨y, keep y hy (Or.inl h2), by rw [loaded k hk]; exact h1, h2⟩
  · rw [(hsp _).1] at h1 h2
    rw [loaded _ h1, loaded _ h2]; exact s.spindles.apart h1 h2
  · rw [r1] at hi
    obtain ⟨y, hy, h1, h2⟩ := s.feed.feed id hi
    exact ⟨y, keep y hy (Or.inr h2), h1, h2⟩
  · rw [r2] at hf
    obtain ⟨y, hy, h1, h2⟩ := s.feed.awaited f hf ha
    exact ⟨y, keep y hy (Or.inr h2), h1, h2⟩
  · rw [r4] at hj
    obtain ⟨y, hy, h⟩ := s.job.target hj
    exact ⟨y, r3.trans hy, (hsp _).1.trans h⟩
  · rw [r4] at hj
    rw [(hsp _).1] at hk ⊢
    exact s.job.pending hj k hk

/-- No panel names a roll whose reference count is 0. -/
theorem RollsCounted.unnamed {t : RecordUnit} {r : RollManager} (h : RollsCounted t r) {x : Roll} (hx : x ∈ r.rolls)
    (h0 : x.refs = 0) (p : Panel) (hp : p ∈ t.panels) : p.placed.map Placed.roll ≠ some x.id := by
  intro e
  have := h.count x hx
  rw [h0] at this
  unfold RecordUnit.rollNames at this
  have hmem : p ∈ t.panels.filter (fun p => p.placed.map Placed.roll == some x.id) :=
    List.mem_filter.mpr ⟨hp, by simp [e]⟩
  rw [List.length_eq_zero_iff.mp this.symm] at hmem
  cases hmem

/-- What the rolls keep, with the panels that name them. -/
structure RollsGood (c : Controller) : Prop where
  sound : RollsSound c.rolls c.commissioned
  counted : RollsCounted c.tab c.rolls

/-- Another table with the same panels. -/
theorem RollsGood.setTab {c : Controller} (g : RollsGood c) {t : RecordUnit} (h : t.panels = c.tab.panels) :
    RollsGood { c with tab := t } := by
  refine ⟨g.sound, ⟨fun p hp => g.counted.slot p (h ▸ hp), fun y hy => ?_⟩⟩
  rw [g.counted.count y hy]
  show _ = (t.panels.filter _).length
  rw [h]; rfl

theorem RollsGood.of_core {c d : Controller} (h : RollsGood c) (hc : d.commissioned = c.commissioned) (ht : d.tab = c.tab)
    (hr : d.rolls.core = c.rolls.core) : RollsGood d := by
  refine ⟨by rw [hc]; exact h.sound.of_core hr, ?_⟩
  rw [ht]
  refine h.counted.of_refs ?_
  have e : d.rolls.slots = c.rolls.slots := congrArg RollCore.slots hr
  unfold RollManager.refTable RollManager.rolls
  rw [e]

end Sys2Proof.Machine
end

