-- ==== Sys2Proof/Laws/Away.lean ====
section
/-! SUPPORT. The operations that leave the record unit, the stroke sequencer and cut control alone: what they keep. -/

namespace Sys2Proof.Machine

/-- Commissioned, and RESET not held. -/
structure Live (c : Controller) : Prop where
  awake : c.resetHeld = false
  on : c.commissioned = true

theorem Live.of_steady {c d : Controller} (h : d.steady = c.steady) (hl : Live c) : Live d :=
  ⟨(congrArg Steady.resetHeld h).trans hl.awake, (congrArg Steady.commissioned h).trans hl.on⟩

/-- What stays away from the record unit, the stroke sequencer and cut control, the rolls apart. -/
structure Near (c d : Controller) : Prop where
  tab : d.tab = c.tab
  seq : d.seq = c.seq
  cut : d.cut = c.cut
  steady : d.steady = c.steady
  blocks : BlocksSound c → BlocksSound d

structure Away (c d : Controller) : Prop extends Near c d where
  rolls : RollsGood c → RollsGood d

theorem Near.trans {a b c : Controller} (h : Near a b) (k : Near b c) : Near a c :=
  ⟨k.tab.trans h.tab, k.seq.trans h.seq, k.cut.trans h.cut, k.steady.trans h.steady, fun x => k.blocks (h.blocks x)⟩

theorem Away.refl (c : Controller) : Away c c := ⟨⟨rfl, rfl, rfl, rfl, id⟩, id⟩

theorem Away.trans {a b c : Controller} (h : Away a b) (k : Away b c) : Away a c :=
  ⟨h.toNear.trans k.toNear, fun x => k.rolls (h.rolls x)⟩

/-- What does not touch the rolls' part of the invariant. -/
theorem Near.away {c d : Controller} (h : Near c d) (hr : d.rolls.core = c.rolls.core) : Away c d :=
  ⟨h, fun g => g.of_core (congrArg Steady.commissioned h.steady) h.tab hr⟩

theorem Near.live {c d : Controller} (h : Near c d) (hl : Live c) : Live d := hl.of_steady h.steady

theorem Away.live {c d : Controller} (h : Away c d) (hl : Live c) : Live d := hl.of_steady h.steady

/-- An operation that keeps away, in a live controller. -/
def Calm (g : Controller → Controller) : Prop := ∀ c, Live c → Away c (g c)

/-- One operation after another. -/
theorem Away.andThen {c d : Controller} (h : Away c d) (hl : Live c) {g : Controller → Controller} (hg : Calm g) :
    Away c (g d) := h.trans (hg d (h.live hl))

theorem Calm.id : Calm (fun c => c) := fun c _ => Away.refl c

theorem Calm.comp {f g : Controller → Controller} (hg : Calm g) (hf : Calm f) : Calm (fun c => g (f c)) :=
  fun c hl => (hf c hl).andThen hl hg

theorem Calm.ite {p : Controller → Prop} [∀ c, Decidable (p c)] {f g : Controller → Controller}
    (hf : Calm f) (hg : Calm g) : Calm (fun c => if p c then f c else g c) := by
  intro c hl
  show Away c (if p c then f c else g c)
  split
  · exact hf c hl
  · exact hg c hl

/-! ### Replacing one block -/

theorem Away.setLine (c : Controller) (l : Line) (h : (l.state != .config) = (c.line.state != .config)) :
    Away c { c with line := l } := by
  have hc : Controller.commissioned { c with line := l } = c.commissioned := h
  refine Near.away ⟨rfl, rfl, rfl, ?_, fun b => ?_⟩ rfl
  · simp only [Controller.steady, hc]
  · exact { b with enabled := fun ch => (b.enabled ch).trans hc.symm }

theorem Near.setRolls (c : Controller) (r : RollManager) (hs : r.slots.length = c.rolls.slots.length)
    (hj : SeamsSound c.rolls.job c.rolls.seams → SeamsSound r.job r.seams) : Near c { c with rolls := r } :=
  ⟨rfl, rfl, rfl, rfl, fun b => { b with seams := hj b.seams, rolls := hs.trans b.rolls }⟩

theorem mapRolls_near (c : Controller) (f : Roll → Roll) : Near c (c.mapRolls f) :=
  Near.setRolls c _ (by simp) (fun h => h)

/-- Another roll manager whose rolls keep their reference counts. -/
theorem Away.setRolls (c : Controller) (r : RollManager) (hs : r.slots.length = c.rolls.slots.length)
    (hj : SeamsSound c.rolls.job c.rolls.seams → SeamsSound r.job r.seams)
    (hr : RollsSound c.rolls c.commissioned → RollsSound r c.commissioned) (hn : r.refTable = c.rolls.refTable) :
    Away c { c with rolls := r } :=
  ⟨Near.setRolls c r hs hj, fun g => ⟨hr g.sound, g.counted.of_refs hn⟩⟩

/-- Rolls with the same core. -/
theorem Away.setRolls' (c : Controller) (r : RollManager) (h : r.core = c.rolls.core) : Away c { c with rolls := r } := by
  have hs : r.slots = c.rolls.slots := congrArg RollCore.slots h
  have hj : r.job = c.rolls.job := congrArg RollCore.job h
  have hl : r.seams = c.rolls.seams := congrArg RollCore.seams h
  exact (Near.setRolls c r (by rw [hs]) (by rw [hj, hl]; exact fun x => x)).away h

/-- The rolls changed in place. -/
theorem Away.mapRolls (c : Controller) {f : Roll → Roll} (hf : Mild f c.rolls.rolls) : Away c (c.mapRolls f) :=
  Away.setRolls c _ (by simp) (fun h => h) (fun s => s.mapSlots hf) (refTable_map hf.id hf.refs)

theorem Away.setCham (c : Controller) (x : Chamber) (hk : x.classes = c.cham.classes)
    (hz : x.zones.length = c.cham.zones.length) : Away c { c with cham := x } := by
  refine Near.away ⟨rfl, rfl, rfl, ?_, fun b => { b with classes := ?_, zones := hz.trans b.zones }⟩ rfl
  · simp only [Controller.steady, hk]; rfl
  · show x.classes.length = 8
    rw [hk]; exact b.classes

theorem Away.setAtt (c : Controller) (a : Attention) (h : AttentionSound c.att c.resetHeld → AttentionSound a c.resetHeld) :
    Away c { c with att := a } :=
  Near.away ⟨rfl, rfl, rfl, rfl, fun b => { b with attention := h b.attention }⟩ rfl

theorem Away.setLimit (c : Controller) (x : Bool) : Away c { c with mot := { c.mot with limit := x } } :=
  Near.away ⟨rfl, rfl, rfl, rfl, fun b => { b with counts := fun i => by cases i; exacts [b.counts .unw, b.counts .feed, b.counts .conv] }⟩
    rfl

/-- A count input's counter and flag, the coordinate as it stood. -/
theorem Away.setCounter (c : Controller) (i : CountInput) (k : Counter) (hc : k.coord = (c.mot.counter i).coord)
    (hk : CounterSound (c.mot.counter i) → CounterSound k) : Away c { c with mot := c.mot.setCounter i k } := by
  refine Near.away ⟨rfl, rfl, rfl, ?_, fun b => { b with counts := ?_ }⟩ rfl
  · cases i <;> (simp only [Motion.counter] at hc; simp only [Controller.steady, Motion.setCounter, hc]; rfl)
  · intro j
    have hi := hk (b.counts i)
    have hj := b.counts j
    cases i <;> cases j <;> assumption

theorem Away.setLink (c : Controller) (ch : Channel) (l : Link) (he : l.enabled = (c.link ch).enabled)
    (hi : LinkIdle (c.link ch) → LinkIdle l)
    (hq : match ch with
      | .f | .s => LineQueueSound (c.link ch) → LineQueueSound l
      | .p => HeadQueueSound (c.link ch) → HeadQueueSound l
      | .z => BusQueueSound (c.link ch) → BusQueueSound l) : Away c (c.setLink ch l) := by
  cases ch <;> refine Near.away ⟨rfl, rfl, rfl, rfl, fun b => ?_⟩ rfl
  · exact { b with
      enabled := fun ch => by cases ch; exacts [he.trans (b.enabled .f), b.enabled .s, b.enabled .p, b.enabled .z]
      idle := fun ch => by cases ch; exacts [hi (b.idle .f), b.idle .s, b.idle .p, b.idle .z]
      feedLink := hq b.feedLink }
  · exact { b with
      enabled := fun ch => by cases ch; exacts [b.enabled .f, he.trans (b.enabled .s), b.enabled .p, b.enabled .z]
      idle := fun ch => by cases ch; exacts [b.idle .f, hi (b.idle .s), b.idle .p, b.idle .z]
      spliceLink := hq b.spliceLink }
  · exact { b with
      enabled := fun ch => by cases ch; exacts [b.enabled .f, b.enabled .s, he.trans (b.enabled .p), b.enabled .z]
      idle := fun ch => by cases ch; exacts [b.idle .f, b.idle .s, hi (b.idle .p), b.idle .z]
      headLink := hq b.headLink }
  · exact { b with
      enabled := fun ch => by cases ch; exacts [b.enabled .f, b.enabled .s, b.enabled .p, he.trans (b.enabled .z)]
      idle := fun ch => by cases ch; exacts [b.idle .f, b.idle .s, b.idle .p, hi (b.idle .z)]
      busLink := hq b.busLink }

/-! ### Notices and items -/

theorem raise_away' (c : Controller) (h : c.resetHeld = false) (n : Notice) (d : Detail) : Away c (c.raise n d) := by
  refine Away.setAtt c (c.att.raise n d) ?_
  rw [h]; exact fun a => a.raise n d

theorem raise_calm (n : Notice) (d : Detail) : Calm (fun c => c.raise n d) := fun c hl => raise_away' c hl.awake n d

/-- A notice whose detail depends on the controller. -/
theorem Away.raise {c d : Controller} (h : Away c d) (hl : Live c) (n : Notice) (x : Detail) : Away c (d.raise n x) :=
  h.trans (raise_away' d (h.live hl).awake n x)

/-- The items a queue takes: on F and S what may be removed, on P a break only when nothing waits; channel Z has its own
operation. -/
def fits (ch : Channel) (item : TxItem) (queue : List TxItem) : Prop :=
  match ch with
  | .f | .s => item.removable = true
  | .p => item ≠ .brk ∨ queue = []
  | .z => False

theorem hand_away (c : Controller) (h : c.resetHeld = false) (ch : Channel) (item : TxItem)
    (hf : fits ch item (c.link ch).queue) : Away c (c.hand ch item) := by
  have key : Away c (c.setLink ch ((c.link ch).hand item).1) := by
    refine Away.setLink c ch _ (Link.hand_enabled _ _) (fun x => x.hand item) ?_
    cases ch
    · exact fun x => x.hand hf
    · exact fun x => x.hand hf
    · exact fun x => x.hand hf
    · exact hf.elim
  rw [Controller.hand_eq]
  split
  · have := (congrArg Steady.resetHeld key.steady).trans h
    exact key.trans (raise_away' _ this _ _)
  · exact key

theorem Away.hand {c d : Controller} (h : Away c d) (hl : Live c) (ch : Channel) (item : TxItem)
    (hf : fits ch item (d.link ch).queue) : Away c (d.hand ch item) :=
  h.trans (hand_away d (h.live hl).awake ch item hf)

theorem handBus_calm (item : TxItem) : Calm (fun c => c.handBus item) := by
  intro c _
  exact Away.setLink c .z (c.chZ.handBus item) (Link.handBus_enabled _ _) (fun x => x.handBus item)
    (fun x => x.handBus item)

end Sys2Proof.Machine
end

