-- ==== Sys2Proof/Laws/Blocks.lean ====
section
/-! SUPPORT. The shared operations of the line controller, the roll manager and the chamber controller keep away from the
record unit, the stroke sequencer and cut control. -/

namespace Sys2Proof.Machine

/-! ### Unwind modes and the roll job -/

/-- Another commanded mode. -/
theorem setMode_away (c : Controller) (sp : Spindle) (m : Option UnwindMode) :
    Away c (c.setSpindle sp { c.spindle sp with mode := m }) := by cases sp <;> exact Away.setRolls' c _ rfl

theorem commandUnwind_calm (sp : Spindle) (m : UnwindMode) : Calm (fun c => c.commandUnwind sp m) := by
  intro c hl
  have h1 := (setMode_away c sp (some m)).hand hl .s (.unwindMode sp m) rfl
  have h2 := h1.trans (Away.setRolls' _ { ((c.setSpindle sp { c.spindle sp with mode := some m }).hand .s
    (.unwindMode sp m)).rolls with suspended := false } rfl)
  unfold Controller.commandUnwind
  simp only
  split
  · exact h2.trans (Away.setRolls' _ _ rfl)
  · exact h2

theorem deriveSpindle_calm (sp : Spindle) : Calm (fun c => c.deriveSpindle sp) := by
  intro c hl
  show Away c (c.deriveSpindle sp)
  unfold Controller.deriveSpindle
  split
  · exact Away.refl c
  · exact commandUnwind_calm _ _ c hl

theorem deriveUnwind_calm : Calm Controller.deriveUnwind := by
  intro c hl
  unfold Controller.deriveUnwind
  rw [if_pos hl.on]
  exact (deriveSpindle_calm .a c hl).andThen hl (deriveSpindle_calm .b)

/-- The job's move, by what its new state asks of the seam list and of the rolls. -/
theorem moveJob_away {c : Controller} (hl : Live c) (j : RollJob)
    (h : SeamsSound c.rolls.job c.rolls.seams → SeamsSound j c.rolls.seams)
    (hr : RollsSound c.rolls true → RollsSound { c.rolls with job := j } true) : Away c (c.moveJob j) := by
  refine (Away.setRolls c { c.rolls with job := j } rfl h ?_ rfl).andThen hl deriveUnwind_calm
  rw [hl.on]; exact hr

theorem SeamsSound.toPlain {i j : RollJob} {l : List Seam} (h : SeamsSound i l) (hj : j.inSplice = false) : SeamsSound j l :=
  ⟨h.room, fun x => (Bool.false_ne_true (hj.symm.trans x)).elim, h.ordered⟩

theorem SeamsSound.ofSplice {i j : RollJob} {l : List Seam} (hi : i.inSplice = true) (h : SeamsSound i l) : SeamsSound j l :=
  ⟨h.room, fun _ => h.kept hi, h.ordered⟩

theorem movePlain_calm (j : RollJob) (hj : j.plain) : Calm (fun c => c.moveJob j) :=
  fun _ hl => moveJob_away hl j (fun h => h.toPlain hj.1) (fun s => s.toPlain hj)

/-- A move along the splice in progress. -/
theorem moveAlong_away {c : Controller} (hl : Live c) {j : RollJob} (hc : c.rolls.job.inSplice = true)
    (hj : j.inSplice = true) : Away c (c.moveJob j) :=
  moveJob_away hl j (fun h => h.ofSplice hc) (fun s => s.alongSplice hc hj rfl)

/-! ### The chamber -/

theorem deriveZones_calm : Calm Controller.deriveZones := by
  intro c _
  exact Away.setCham c { c.cham with zones := c.cham.zones.mapIdx (fun k z => z.derive (c.wantedOf (k + 1))) } rfl
    (by simp)

theorem setChangeover_calm (x : Changeover) : Calm (fun c => c.setChangeover x) :=
  fun c _ => Away.setCham c _ rfl rfl

theorem heatTo_calm (k : Nat) : Calm (fun c => (c.setChangeover (.heating k)).deriveZones) :=
  deriveZones_calm.comp (setChangeover_calm _)

theorem drainTest_calm : Calm Controller.drainTest := by
  intro c hl
  unfold Controller.drainTest
  split
  · split
    · exact heatTo_calm _ c hl
    · exact Away.refl c
  · exact Away.refl c

theorem retarget_calm (k : Nat) : Calm (fun c => c.retarget k) := by
  intro c hl
  show Away c (c.retarget k)
  unfold Controller.retarget
  split
  · exact Away.refl c
  · exact setChangeover_calm _ c hl
  · exact heatTo_calm _ c hl

theorem requestClass_calm (k : Nat) : Calm (fun c => c.requestClass k) := by
  intro c hl
  show Away c (c.requestClass k)
  unfold Controller.requestClass
  split
  · exact Away.refl c
  · split
    · exact (setChangeover_calm _ c hl).andThen hl drainTest_calm
    · exact retarget_calm k c hl

theorem cancelChangeover_calm : Calm Controller.cancelChangeover := by
  intro c hl
  unfold Controller.cancelChangeover
  split
  · exact Away.refl c
  · exact setChangeover_calm _ c hl
  · exact (setChangeover_calm _ c hl).andThen hl deriveZones_calm

theorem chamberHeadReport_calm : Calm Controller.chamberHeadReport := by
  intro c hl
  unfold Controller.chamberHeadReport
  split
  · exact Away.refl c
  · split
    · exact cancelChangeover_calm c hl
    · split
      · exact Away.refl c
      · exact retarget_calm _ c hl

theorem completionTest_calm : Calm Controller.completionTest := by
  intro c hl
  unfold Controller.completionTest
  split
  · split
    · exact (Away.setCham c _ (by exact rfl) (by exact rfl)).raise hl _ _
    · exact Away.refl c
  · exact Away.refl c

theorem setBanked_calm (b : Bool) : Calm (fun c => c.setBanked b) := by
  intro c hl
  exact ((Away.setCham c { c.cham with banked := b, bankTimer := none } rfl rfl).raise hl _ _).andThen hl deriveZones_calm

theorem bankTest_calm : Calm Controller.bankTest := by
  intro c hl
  unfold Controller.bankTest
  have h := Away.setCham c { c.cham with bankOn := c.bankCondition } rfl rfl
  split
  · exact Away.refl c
  · simp only
    split
    · split
      · exact h
      · exact h.trans (Away.setCham _ _ rfl rfl)
    · split
      · exact h.andThen hl (setBanked_calm false)
      · exact h.trans (Away.setCham _ _ rfl rfl)

theorem bankDue_calm : Calm Controller.bankDue := by
  intro c hl
  unfold Controller.bankDue
  split
  · split
    · exact setBanked_calm true c hl
    · exact Away.refl c
  · exact Away.refl c

/-! ### The line -/

theorem enterLine_calm (st : LineState) (hst : st ≠ .config) : Calm (fun c => c.enterLine st) := by
  intro c hl
  have hc : (c.line.state != .config) = true := hl.on
  have h := Away.setLine c { c.line with state := st } (by rw [hc]; cases st <;> simp_all)
  exact (h.andThen hl bankTest_calm).andThen hl deriveUnwind_calm

theorem driveHold_calm : Calm Controller.driveHold := by
  intro c hl
  exact (Away.setLine c { c.line with mode := .hold, resend := 0, origin := c.feedAt, suspended := false } rfl).hand hl
    .f .driveHold rfl

theorem enterRunning_calm : Calm Controller.enterRunning := by
  intro c hl
  have h1 := (Away.setLine c { c.line with mode := .run } rfl).hand hl .f (.driveRun c.line.speed) rfl
  have h2 := h1.trans (Away.setCounter _ .feed
    { (Controller.hand { c with line := { c.line with mode := .run } } .f (.driveRun c.line.speed)).mot.feed with
      interval := 0, stall := false } rfl (fun k => ⟨k.1, Nat.zero_le _⟩))
  exact h2.andThen hl (enterLine_calm .running (by decide))

theorem setHold_away (c : Controller) (k : HoldCause) (b : Bool) : Away c (c.setHold k b) := Away.setLine c _ rfl

theorem addHold_calm (k : HoldCause) : Calm (fun c => c.addHold k) := by
  intro c hl
  show Away c (c.addHold k)
  unfold Controller.addHold
  split
  · exact Away.refl c
  · split
    · exact ((((setHold_away c k true).andThen hl driveHold_calm).andThen hl
        (enterLine_calm .held (by decide)))).raise hl _ _
    · exact (setHold_away c k true).andThen hl bankTest_calm

theorem removeHold_calm (k : HoldCause) : Calm (fun c => c.removeHold k) := by
  intro c hl
  show Away c (c.removeHold k)
  unfold Controller.removeHold
  split
  · exact Away.refl c
  · split
    · exact ((setHold_away c k false).andThen hl enterRunning_calm).raise hl _ _
    · exact (setHold_away c k false).andThen hl bankTest_calm

theorem coordHold_calm : Calm Controller.coordHold := by
  intro c hl
  unfold Controller.coordHold
  split
  · exact addHold_calm _ c hl
  · exact Away.refl c

theorem halt_calm (k : HaltCause) : Calm (fun c => c.halt k) := by
  intro c hl
  show Away c (c.halt k)
  unfold Controller.halt
  have h := (Away.setLine c { c.line with lastHalt := some k } rfl).raise hl .lineHalted (Detail.named k.detail)
  simp only
  split
  · exact h
  · split
    · exact h.andThen hl (enterLine_calm .halted (by decide))
    · exact (h.andThen hl driveHold_calm).andThen hl (enterLine_calm .halted (by decide))

theorem unwindFault_calm : Calm Controller.unwindFault :=
  (halt_calm .unwind).comp (raise_calm .lineMotionFault (Detail.named .unwind))

theorem feedResend_calm : Calm Controller.feedResend := by
  intro c hl
  unfold Controller.feedResend
  split
  · exact (Away.setLine c { c.line with resend := c.line.resend + 1, origin := c.feedAt } rfl).hand hl .f .driveHold rfl
  · exact Away.refl c

theorem feedResendFault_calm : Calm Controller.feedResendFault := by
  intro c hl
  unfold Controller.feedResendFault
  split
  · exact ((Away.setLine c { c.line with suspended := true } rfl).raise hl _ _).andThen hl (halt_calm .motion)
  · exact Away.refl c

theorem feedSlipTest_calm : Calm Controller.feedSlipTest := by
  intro c hl
  unfold Controller.feedSlipTest
  split
  · exact feedResend_calm c hl
  · exact feedResendFault_calm c hl

/-! ### The gate's tests -/

theorem headReport_calm : Calm Controller.headReport := by
  intro c hl
  exact (Away.setLine c { c.line with fabricMark := false } rfl).andThen hl chamberHeadReport_calm

theorem fabricNotice_calm : Calm Controller.fabricNotice := by
  intro c hl
  unfold Controller.fabricNotice
  split
  · exact Away.refl c
  · split
    · exact (Away.setLine c { c.line with fabricMark := true } rfl).raise hl _ _
    · exact Away.refl c

theorem heatRequest_calm : Calm Controller.heatRequest := by
  intro c hl
  unfold Controller.heatRequest
  split
  · exact Away.refl c
  · split
    · exact Away.refl c
    · exact requestClass_calm _ c hl

theorem maxGapTest_calm : Calm Controller.maxGapTest := by
  intro c hl
  unfold Controller.maxGapTest
  split
  · exact removeHold_calm _ c hl
  · split
    · exact addHold_calm _ c hl
    · exact Away.refl c

theorem gateTests_calm : Calm Controller.gateTests := maxGapTest_calm.comp (heatRequest_calm.comp fabricNotice_calm)

/-! ### Rolls -/

theorem mapRolls_calm {f : Roll → Roll} (hf : ∀ l, Mild f l) : Calm (fun c => c.mapRolls f) :=
  fun c _ => Away.mapRolls c (hf _)

theorem hand_rolls (c : Controller) (ch : Channel) (item : TxItem) : (c.hand ch item).rolls = c.rolls := by
  rw [Controller.hand_eq]; cases ch <;> split <;> rfl

theorem otherSpindle_ne (sp : Spindle) : otherSpindle sp ≠ sp := by cases sp <;> decide

theorem eq_other {sp q : Spindle} (h : q ≠ sp) : q = otherSpindle sp := by cases sp <;> cases q <;> simp_all [otherSpindle]

theorem clearanceTest_calm : Calm Controller.clearanceTest := by
  intro c hl
  unfold Controller.clearanceTest
  split
  · rename_i hc
    simp only [Controller.clearanceHolds, Bool.and_eq_true, decide_eq_true_eq, beq_iff_eq] at hc
    have hlen : c.rolls.seams.length < 4 := hc.2
    have hjob : c.rolls.job = .pending := hc.1.1
    split
    · rename_i sp hsp
      have h1 := (Away.setRolls c { c.rolls with splice := some ⟨sp, otherSpindle sp, c.mot.tick⟩ } rfl (fun x => x)
        (fun s => ⟨s.table, s.spindles, s.feed, ⟨fun x => (Bool.false_ne_true ((congrArg RollJob.inSplice hjob).symm.trans x)).elim,
          s.job.pending, s.job.quiet⟩⟩) rfl).hand
        hl .s (.splicePrepare sp (otherSpindle sp)) rfl
      refine h1.trans (moveJob_away (h1.live hl) .preparing (fun s => ?_) (fun s => ?_))
      · rw [hand_rolls] at s ⊢
        exact ⟨by show c.rolls.seams.length ≤ 4; omega, fun _ => by show c.rolls.seams.length ≤ 3; omega, s.ordered⟩
      · rw [hand_rolls] at s ⊢
        exact ⟨s.table, s.spindles, s.feed, ⟨fun _ => ⟨_, rfl, s.job.pending hjob sp (activeSpindle_state hsp)⟩,
          (fun x => by cases x), (fun x => by cases x)⟩⟩
    · exact Away.refl c
  · exact Away.refl c

/-- The job moves to PENDING with the idle spindle LOADED. -/
theorem enterPending_away {c : Controller} (hl : Live c)
    (h : ∀ sp, (c.rolls.spindle sp).state = .active → (c.rolls.spindle (otherSpindle sp)).state = .loaded) :
    Away c c.enterPending := by
  refine (moveJob_away hl .pending (fun s => s.toPlain rfl) (fun s => ?_)).andThen hl clearanceTest_calm
  exact ⟨s.table, s.spindles, s.feed, ⟨(fun x => by cases x), fun _ => h, (fun x => by cases x)⟩⟩

theorem idleLoaded_target {c : Controller} (h : c.idleLoaded = true) (sp : Spindle)
    (ha : (c.rolls.spindle sp).state = .active) : (c.rolls.spindle (otherSpindle sp)).state = .loaded := by
  obtain ⟨q, _, _, h2⟩ := idleLoaded_spec h
  have : sp = q := by
    by_contra hne
    rw [eq_other hne, h2] at ha; cases ha
  rw [this]; exact h2

theorem enterLow_calm : Calm Controller.enterLow := fun c hl => (movePlain_calm .low ⟨rfl, by decide⟩ c hl).raise hl _ _

theorem spliceAtTest_calm : Calm Controller.spliceAtTest := by
  intro c hl
  unfold Controller.spliceAtTest
  split
  · split
    · rename_i h; exact enterPending_away hl (idleLoaded_target h)
    · exact enterLow_calm c hl
  · exact Away.refl c

theorem setRetry_away (c : Controller) (n : Nat) : Away c { c with rolls := { c.rolls with retry := n } } :=
  Away.setRolls' c _ rfl

theorem enterNormal_calm : Calm Controller.enterNormal := by
  intro c hl
  exact ((setRetry_away c 0).andThen hl (movePlain_calm .normal ⟨rfl, by decide⟩)).andThen hl spliceAtTest_calm

theorem goTest_calm : Calm Controller.goTest := by
  intro c hl
  unfold Controller.goTest
  split
  · rename_i hc
    have hj : c.rolls.job = .stopping := by
      simp only [Bool.and_eq_true, beq_iff_eq] at hc; exact hc.1
    have h1 := (Away.refl c).hand hl .s .spliceGo rfl
    exact h1.trans (moveAlong_away (h1.live hl) (by rw [hand_rolls, hj]; rfl) rfl)
  · exact Away.refl c

theorem takePrepared_calm : Calm Controller.takePrepared := by
  intro c hl
  unfold Controller.takePrepared
  split
  · rename_i hj
    exact (moveAlong_away hl (by rw [hj]; rfl) rfl).andThen hl goTest_calm
  · exact Away.refl c

theorem runoutTest_calm : Calm Controller.runoutTest := by
  intro c hl
  unfold Controller.runoutTest
  split
  · exact Away.refl c
  · split
    · exact ((Away.setRolls' c { c.rolls with runout := true } rfl).raise hl _ _).andThen hl deriveUnwind_calm
    · exact Away.refl c

theorem runoutRestart_calm : Calm Controller.runoutRestart := by
  intro c hl
  exact (Away.setRolls' c { c.rolls with runout := false } rfl).andThen hl runoutTest_calm

theorem runoutCount_calm : Calm Controller.runoutCount := raise_calm _ _

theorem lengthPulse_calm : Calm Controller.lengthPulse := by
  intro c hl
  unfold Controller.lengthPulse
  split
  · exact Away.refl c
  · split
    · exact Away.refl c
    · rename_i r _ _
      have h1 := (mapRolls_calm (f := fun x => if x.id = r.id then { x with remaining := x.remaining - 1 } else x)
        (Mild.plain (fun x => by split <;> exact ⟨rfl, rfl, rfl⟩)) c hl).andThen
        hl runoutTest_calm
      simp only
      split
      · exact (h1.andThen hl runoutCount_calm).andThen hl spliceAtTest_calm
      · exact h1.andThen hl spliceAtTest_calm

/-! ### The seam list -/

theorem insertSeam_length (e : Seam) : ∀ l : List Seam, (insertSeam e l).length = l.length + 1
  | [] => rfl
  | x :: rest => by
    unfold insertSeam
    split
    · rfl
    · simp [insertSeam_length e rest]

theorem placeSeam_length (e : Seam) (l : List Seam) : (placeSeam e l).length ≤ l.length + 1 := by
  rw [placeSeam, insertSeam_length]
  exact Nat.succ_le_succ (List.length_filter_le _ _)

theorem insertSeam_mem {e x : Seam} : ∀ {l : List Seam}, x ∈ insertSeam e l → x = e ∨ x ∈ l
  | [], h => Or.inl (List.mem_singleton.mp h)
  | y :: rest, h => by
    unfold insertSeam at h
    split at h
    · exact List.mem_cons.mp h
    · rcases List.mem_cons.mp h with h | h
      · exact Or.inr (h ▸ List.mem_cons_self)
      · rcases insertSeam_mem h with h | h
        · exact Or.inl h
        · exact Or.inr (List.mem_cons_of_mem _ h)

/-- Entries in the order of their coordinates, no two at one. -/
abbrev Ordered (l : List Seam) : Prop := (l.map Seam.coord).Pairwise (· < ·)

theorem insertSeam_ordered {e : Seam} : ∀ {l : List Seam}, Ordered l → (∀ x ∈ l, x.coord ≠ e.coord) →
    Ordered (insertSeam e l)
  | [], _, _ => List.pairwise_singleton _ _
  | y :: rest, h, hn => by
    have h' := List.pairwise_cons.mp h
    unfold insertSeam
    split
    · rename_i hle
      refine List.pairwise_cons.mpr ⟨fun n hm => ?_, h⟩
      have hy := hn y List.mem_cons_self
      rcases List.mem_cons.mp hm with rfl | hm
      · omega
      · have := h'.1 n hm; omega
    · rename_i hle
      refine List.pairwise_cons.mpr ⟨fun n hm => ?_, insertSeam_ordered h'.2 (fun x hx => hn x (List.mem_cons_of_mem _ hx))⟩
      obtain ⟨x, hx, rfl⟩ := List.mem_map.mp hm
      rcases insertSeam_mem hx with rfl | hx
      · omega
      · exact h'.1 _ (List.mem_map_of_mem hx)

theorem Ordered.filter {l : List Seam} (h : Ordered l) (p : Seam → Bool) : Ordered (l.filter p) :=
  h.sublist (List.Sublist.map _ List.filter_sublist)

theorem placeSeam_ordered {e : Seam} {l : List Seam} (h : Ordered l) : Ordered (placeSeam e l) := by
  refine insertSeam_ordered (h.filter _) (fun x hx => ?_)
  have := (List.mem_filter.mp hx).2
  simpa using this

/-- New kinds at the same coordinates. -/
theorem Ordered.kinds {l : List Seam} (h : Ordered l) (g : Seam → Seam) (hg : ∀ x, (g x).coord = x.coord) :
    Ordered (l.map g) := by
  have : (l.map g).map Seam.coord = l.map Seam.coord := by
    rw [List.map_map]; exact List.map_congr_left (fun x _ => hg x)
  show ((l.map g).map Seam.coord).Pairwise _
  rw [this]; exact h

/-- A list no longer than the one it replaces, in order. -/
theorem setSeams_away (c : Controller) (l : List Seam) (h : l.length ≤ c.rolls.seams.length)
    (ho : Ordered c.rolls.seams → Ordered l)
    (hf : FeedSound c.rolls.rolls c.rolls.feedRoll c.rolls.seams → FeedSound c.rolls.rolls c.rolls.feedRoll l) :
    Away c (c.setSeams l) :=
  Away.setRolls c _ rfl (fun s => ⟨Nat.le_trans h s.room, fun j => Nat.le_trans h (s.kept j), ho s.ordered⟩)
    (fun s => s.setSeams l (hf s.feed)) rfl

theorem remade_coord (e : Seam) (k : SeamKind → SeamKind) (x : Seam) :
    (if x = e then { x with kind := k x.kind } else x).coord = x.coord := by split <;> rfl

theorem confirm_awaits (k : SeamKind) : k.confirm.awaitsPassage = k.awaitsPassage ∧ k.confirm.roll = k.roll := by
  cases k <;> exact ⟨rfl, rfl⟩

theorem seamLossTest_calm : Calm Controller.seamLossTest := by
  intro c hl
  unfold Controller.seamLossTest
  split
  · exact Away.refl c
  · refine ((Away.refl c).raise hl _ _).trans
      (setSeams_away _ _ (by simp [Controller.raise]) (fun o => o.kinds _ (remade_coord _ _)) (fun f => f.kinds _ ?_))
    intro x _ ha
    split at ha
    · rw [if_pos ‹_›]
      exact ⟨(confirm_awaits x.kind).1 ▸ ha, (confirm_awaits x.kind).2⟩
    · rw [if_neg ‹_›]; exact ⟨ha, rfl⟩

/-- The passage of the planned seam `e`: its roll is the feed roll, and the old one SPENT if it had EXPIRED (R110). -/
theorem passage_sound {r : RollManager} {on : Bool} (s : RollsSound r on) {e : Seam} (he : e ∈ r.seams)
    (ha : e.kind.awaitsPassage = true) :
    RollsSound { r with
      slots := r.slots.map (fun slot => slot.map (fun x => if some x.id = r.feedRoll ∧ x.state = .expired then
        { x with state := .spent } else x))
      feedRoll := some e.kind.roll
      seams := r.seams.map (fun x => if x = e then { x with kind := x.kind.markPassed } else x) } on := by
  have eq : RollManager.rolls { r with
      slots := r.slots.map (fun slot => slot.map (fun x => if some x.id = r.feedRoll ∧ x.state = .expired then
        { x with state := .spent } else x))
      feedRoll := some e.kind.roll
      seams := r.seams.map (fun x => if x = e then { x with kind := x.kind.markPassed } else x) } =
      r.rolls.map (fun x => if some x.id = r.feedRoll ∧ x.state = .expired then { x with state := .spent } else x) :=
    rolls_map _ _
  have hid : ∀ x : Roll, (if some x.id = r.feedRoll ∧ x.state = .expired then { x with state := .spent } else x).id = x.id := by
    intro x; split <;> rfl
  have stay : ∀ x ∈ r.rolls, x.onWeb → r.feedRoll ≠ some x.id →
      ∃ y ∈ r.rolls.map (fun x => if some x.id = r.feedRoll ∧ x.state = .expired then { x with state := .spent } else x),
        y.id = x.id ∧ y.onWeb := by
    intro x hx hw hne
    refine ⟨_, List.mem_map_of_mem hx, hid x, ?_⟩
    rw [if_neg (fun h => hne h.1.symm)]; exact hw
  have unmarked : ∀ f ∈ r.seams.map (fun x => if x = e then { x with kind := x.kind.markPassed } else x),
      f.kind.awaitsPassage = true → f ∈ r.seams ∧ f ≠ e := by
    intro f hf hfa
    obtain ⟨g, hg, rfl⟩ := List.mem_map.mp hf
    split at hfa
    · exfalso; revert hfa; cases g.kind <;> simp [SeamKind.markPassed, SeamKind.awaitsPassage]
    · rename_i hne
      rw [if_neg hne]; exact ⟨hg, hne⟩
  refine ⟨?_, ?_, ?_, ⟨s.job.target, s.job.pending, s.job.quiet⟩⟩
  · rw [eq]
    refine s.table.map _ (fun x _ => hid x) (fun x _ h => ?_) (fun x hx h => ?_)
    · split at h
      · cases h
      · exact h
    · split at h
      · rcases h with h | h <;> cases h
      · rw [if_neg ‹_›]; exact s.table.unnamed x hx h
  · rw [eq]
    refine s.spindles.map _ (fun x _ => hid x) (fun x _ h => ?_)
    rw [if_neg (fun y => by rw [h] at y; cases y.2)]; exact h
  · rw [eq]
    refine ⟨?_, ?_, ?_, ?_⟩
    · intro id hi
      cases hi
      obtain ⟨x, hx, h1, h2⟩ := s.feed.awaited e he ha
      rw [← h1]
      exact stay x hx h2 (by rw [h1]; exact s.feed.later e he ha)
    · intro f hf hfa
      obtain ⟨hm, _⟩ := unmarked f hf hfa
      obtain ⟨x, hx, h1, h2⟩ := s.feed.awaited f hm hfa
      rw [← h1]
      exact stay x hx h2 (by rw [h1]; exact s.feed.later f hm hfa)
    · intro f hf hfa h
      obtain ⟨hm, hne⟩ := unmarked f hf hfa
      exact hne (s.feed.once f hm e he hfa ha (Option.some.inj h).symm)
    · intro f hf g hg hfa hga h
      exact s.feed.once f (unmarked f hf hfa).1 g (unmarked g hg hga).1 hfa hga h

theorem seamPassageTest_calm : Calm Controller.seamPassageTest := by
  intro c hl
  unfold Controller.seamPassageTest
  split
  · exact Away.refl c
  · rename_i e he
    have hp := List.find?_some he
    simp only [Bool.and_eq_true] at hp
    exact Away.setRolls c _ (by simp [Controller.changeFeedRoll, Controller.mapRolls])
      (fun s => ⟨by rw [List.length_map]; exact s.room, fun j => by rw [List.length_map]; exact s.kept j,
        Ordered.kinds s.ordered _ (remade_coord _ _)⟩)
      (fun s => passage_sound s (List.mem_of_find?_eq_some he) hp.1)
      (refTable_map (fun x _ => by split <;> rfl) (fun x _ => by split <;> rfl))

theorem seamRemovalTest_calm : Calm Controller.seamRemovalTest := by
  intro c hl
  unfold Controller.seamRemovalTest
  split
  · have h1 := (seamPassageTest_calm c hl).trans (setSeams_away c.seamPassageTest
      (c.seamPassageTest.rolls.seams.filter (fun e => !c.seamPassageTest.seamIsGone e)) (List.length_filter_le _ _)
      (fun o => o.filter _) (fun f => f.subset _ (fun _ he => (List.mem_filter.mp he).1)))
    simp only
    split
    · exact (h1.andThen hl enterNormal_calm).andThen hl clearanceTest_calm
    · exact h1.andThen hl clearanceTest_calm
  · exact Away.refl c

theorem settleSeams_calm : Calm Controller.settleSeams :=
  seamRemovalTest_calm.comp (seamPassageTest_calm.comp seamLossTest_calm)

theorem placeSeam_mem {e x : Seam} {l : List Seam} (h : x ∈ placeSeam e l) : x = e ∨ x ∈ l := by
  rcases insertSeam_mem h with h | h
  · exact Or.inl h
  · exact Or.inr (List.mem_filter.mp h).1

/-- An entry beside the list: it awaits no passage, or its roll is on the web, neither the feed roll nor another entry's. -/
theorem FeedSound.join {l : List Roll} {i : Option Nat} {seams : List Seam} (h : FeedSound l i seams) (e : Seam)
    (new : List Seam) (hnew : ∀ x ∈ new, x = e ∨ x ∈ seams)
    (he : e.kind.awaitsPassage = true → (∃ x ∈ l, x.id = e.kind.roll ∧ x.onWeb) ∧ i ≠ some e.kind.roll ∧
      ∀ f ∈ new, f ≠ e → f.kind.awaitsPassage = true → f.kind.roll ≠ e.kind.roll) : FeedSound l i new where
  feed := h.feed
  awaited := by
    intro x hx ha
    rcases hnew x hx with rfl | hm
    · exact (he ha).1
    · exact h.awaited x hm ha
  later := by
    intro x hx ha
    rcases hnew x hx with rfl | hm
    · exact (he ha).2.1
    · exact h.later x hm ha
  once := by
    intro x hx y hy ha hb hr
    by_cases hxe : x = e
    · by_cases hye : y = e
      · rw [hxe, hye]
      · exact absurd (hr.symm.trans (by rw [hxe])) ((he (hxe ▸ ha)).2.2 y hy hye hb)
    · by_cases hye : y = e
      · exact absurd (hr.trans (by rw [hye])) ((he (hye ▸ hb)).2.2 x hx hxe ha)
      · exact h.once x ((hnew x hx).resolve_left hxe) y ((hnew y hy).resolve_left hye) ha hb hr

theorem confirmSeam_away {c : Controller} (hl : Live c) (e : Seam) (s : Nat) (he : e ∈ c.rolls.seams) :
    Away c (c.confirmSeam e s) := by
  refine (setSeams_away c _ ?_ (fun o => placeSeam_ordered (o.filter _)) (fun f => ?_)).andThen hl settleSeams_calm
  · refine Nat.le_trans (placeSeam_length _ _) ?_
    have : (c.rolls.seams.filter (fun x => x != e)).length < c.rolls.seams.length := by
      rw [← List.countP_eq_length_filter]
      refine Nat.lt_of_le_of_ne List.countP_le_length (fun h => ?_)
      have := List.countP_eq_length.mp h e he
      simp at this
    exact this
  · refine (f.subset (c.rolls.seams.filter (fun x => x != e)) (fun x hx => (List.mem_filter.mp hx).1)).join _ _
      (fun x hx => placeSeam_mem hx) (fun ha => ?_)
    obtain ⟨h1, h2⟩ := confirm_awaits e.kind
    have hae : e.kind.awaitsPassage = true := h1.symm.trans ha
    refine ⟨?_, ?_, ?_⟩
    · obtain ⟨x, hx, e1, e2⟩ := f.awaited e he hae
      exact ⟨x, hx, e1.trans h2.symm, e2⟩
    · show c.rolls.feedRoll ≠ some e.kind.confirm.roll
      rw [h2]; exact f.later e he hae
    · intro g hg hne hga hr
      have hm := (placeSeam_mem hg).resolve_left hne
      obtain ⟨hm1, hm2⟩ := List.mem_filter.mp hm
      have := f.once g hm1 e he hga hae (hr.trans h2)
      simp [this] at hm2

/-- An entry of an unplanned seam joins a list that is not full. -/
theorem joinSeam_away {c : Controller} (h : c.seamsFull = false) (s : Nat) (he : ∀ x ∈ c.rolls.seams, x.coord ≠ s) :
    Away c (c.setSeams (insertSeam ⟨s, .unplanned⟩ c.rolls.seams)) := by
  refine Away.setRolls c _ rfl (fun s => ?_)
    (fun s => s.setSeams _ (s.feed.join _ _ (fun x hx => insertSeam_mem hx) (fun ha => by cases ha))) rfl
  simp only [Controller.seamsFull, Bool.or_eq_false_iff, decide_eq_false_iff_not, Bool.and_eq_false_iff] at h
  refine ⟨by rw [insertSeam_length]; omega, fun j => ?_, insertSeam_ordered s.ordered he⟩
  rw [insertSeam_length]
  rcases h.2 with h2 | h2
  · omega
  · have j' : c.rolls.job.inSplice = true := j
    cases hx : c.rolls.job <;> rw [hx] at h2 j' <;> simp [RollJob.inSplice] at h2 j'

/-! ### Outcomes of a splice -/

/-- The RUNNING roll EXPIRED and the ACTIVE spindle STUB. -/
theorem expireRunning_calm : Calm Controller.expireRunning := by
  intro c hl
  have h1 : Away c (c.mapRolls (fun r =>
      if r.state = .running then { r with state := .expired, stub := some r.remaining } else r)) :=
    mapRolls_calm expire_mild c hl
  unfold Controller.expireRunning
  simp only
  split
  · rename_i sp hsp
    refine h1.trans ?_
    rw [setSpindle_rolls]
    generalize hd : c.mapRolls _ = d at h1 ⊢
    have hact : (d.rolls.spindle sp).state = .active := by rw [← hd]; exact activeSpindle_state hsp
    refine Away.setRolls d _ (by rw [(withSpindle_rest d.rolls sp { d.spindle sp with state := .stub }).1]) (fun s => ?_) (fun s => ?_)
      (refTable_of_slots (withSpindle_rest _ _ _).1)
    · rw [(withSpindle_rest _ _ _).2.2.1, (withSpindle_rest _ _ _).2.2.2.2]; exact s
    · obtain ⟨_, e2, e3, e4, e5⟩ := withSpindle_rest d.rolls sp { d.spindle sp with state := .stub }
      refine ⟨by rw [withSpindle_rolls]; exact s.table, by rw [withSpindle_rolls]; exact s.spindles.unloaded sp _ (fun x => by cases x),
        by rw [withSpindle_rolls, e2, e3]; exact s.feed, ⟨fun hj => ?_, fun hj => ?_, by rw [e5]; exact s.job.quiet⟩⟩
      · rw [e5] at hj
        obtain ⟨x, hx, hx2⟩ := s.job.target hj
        refine ⟨x, e4.trans hx, ?_⟩
        rw [spindle_with, if_neg (fun e => by rw [e, hact] at hx2; cases hx2)]; exact hx2
      · rw [e5] at hj
        intro k hk
        rw [spindle_with] at hk ⊢
        split at hk
        · cases hk
        · have hload := s.job.pending hj k hk
          rw [if_neg (fun e => by rw [e, hact] at hload; cases hload)]; exact hload
  · exact h1

theorem expireRunning_none (c : Controller) : ∀ x ∈ c.expireRunning.rolls.rolls, x.state ≠ .running := by
  have key : ∀ x ∈ (c.mapRolls (fun r => if r.state = .running then { r with state := .expired, stub := some r.remaining }
      else r)).rolls.rolls, x.state ≠ .running := by
    intro x hx
    rw [show (c.mapRolls _).rolls.rolls = c.rolls.rolls.map _ from rolls_map _ _] at hx
    obtain ⟨y, _, rfl⟩ := List.mem_map.mp hx
    split
    · intro h; cases h
    · assumption
  unfold Controller.expireRunning
  simp only
  split
  · rw [setSpindle_rolls]
    intro x hx
    rw [withSpindle_rolls] at hx
    exact key x hx
  · exact key

theorem expireRunning_rest (c : Controller) : c.expireRunning.rolls.job = c.rolls.job ∧
    c.expireRunning.rolls.splice = c.rolls.splice ∧ c.expireRunning.rolls.feedRoll = c.rolls.feedRoll ∧
    c.expireRunning.rolls.seams = c.rolls.seams ∧
    (∀ sp, (c.rolls.spindle sp).state = .loaded → c.expireRunning.rolls.spindle sp = c.rolls.spindle sp) ∧
    ∀ sp, (c.expireRunning.rolls.spindle sp).roll = (c.rolls.spindle sp).roll := by
  unfold Controller.expireRunning
  simp only
  split
  · rename_i q hq
    have hact := activeSpindle_state hq
    rw [setSpindle_rolls]
    obtain ⟨_, e2, e3, e4, e5⟩ := withSpindle_rest (c.mapRolls (fun r => if r.state = .running then
      { r with state := .expired, stub := some r.remaining } else r)).rolls q
      { (c.mapRolls (fun r => if r.state = .running then { r with state := .expired, stub := some r.remaining } else r)
        ).spindle q with state := .stub }
    refine ⟨e5, e4, e2, e3, fun sp hs => ?_, fun sp => ?_⟩
    · rw [spindle_with, if_neg (fun e => by rw [e, hact] at hs; cases hs)]; rfl
    · rw [spindle_with]
      split
      · rename_i e; rw [e]; cases q <;> rfl
      · rfl
  · exact ⟨rfl, rfl, rfl, rfl, fun _ _ => rfl, fun _ => rfl⟩

theorem setMode_core (c : Controller) (sp : Spindle) (m : Option UnwindMode) :
    (c.setSpindle sp { c.spindle sp with mode := m }).rolls.core = c.rolls.core := by cases sp <;> rfl

theorem commandUnwind_core (c : Controller) (sp : Spindle) (m : UnwindMode) :
    (c.commandUnwind sp m).rolls.core = c.rolls.core := by
  unfold Controller.commandUnwind
  simp only
  split <;> (simp only [hand_rolls]; exact setMode_core _ _ _)

theorem deriveSpindle_core (c : Controller) (sp : Spindle) : (c.deriveSpindle sp).rolls.core = c.rolls.core := by
  unfold Controller.deriveSpindle
  split
  · rfl
  · exact commandUnwind_core _ _ _

theorem deriveUnwind_core (c : Controller) : c.deriveUnwind.rolls.core = c.rolls.core := by
  unfold Controller.deriveUnwind
  split
  · rw [deriveSpindle_core, deriveSpindle_core]
  · rfl

theorem runoutTest_core (c : Controller) : c.runoutTest.rolls.core = c.rolls.core := by
  unfold Controller.runoutTest
  split
  · rfl
  · split
    · rw [deriveUnwind_core]; rfl
    · rfl

theorem runoutRestart_core (c : Controller) : c.runoutRestart.rolls.core = c.rolls.core := by
  unfold Controller.runoutRestart
  rw [runoutTest_core]; rfl

/-- The roll on a spindle runs, the rolls' own invariant apart. -/
theorem runSpindle_near (c : Controller) (sp : Spindle) : Near c (c.runSpindle sp) := by
  unfold Controller.runSpindle
  cases sp <;> exact Near.setRolls c _ (by simp [Controller.mapRolls]) (fun s => s)

theorem runSpindle_rolls (c : Controller) (sp : Spindle) :
    (c.runSpindle sp).rolls.slots = c.rolls.slots.map (fun slot => slot.map (fun x =>
      if some x.id = (c.rolls.spindle sp).roll then { x with state := .running } else x)) ∧
    (∀ k, ((c.runSpindle sp).rolls.spindle k).state = (if k = sp then .active else (c.rolls.spindle k).state) ∧
      ((c.runSpindle sp).rolls.spindle k).roll = (c.rolls.spindle k).roll) ∧
    (c.runSpindle sp).rolls.feedRoll = c.rolls.feedRoll ∧ (c.runSpindle sp).rolls.seams = c.rolls.seams ∧
    (c.runSpindle sp).rolls.job = c.rolls.job := by
  cases sp <;> refine ⟨rfl, fun k => ?_, rfl, rfl, rfl⟩ <;> cases k <;> exact ⟨rfl, rfl⟩

theorem completeSplice_away {c : Controller} (hl : Live c) (hj : c.rolls.job.inSplice = true) : Away c c.completeSplice := by
  unfold Controller.completeSplice
  split
  · exact Away.refl c
  · rename_i rec_ hrec
    have h0 := expireRunning_calm c hl
    obtain ⟨e1, e2, e3, e4, e5, e6⟩ := expireRunning_rest c
    have none := expireRunning_none c
    have hroll : (c.spindle rec_.target).roll = (c.expireRunning.rolls.spindle rec_.target).roll := by
      rw [spindle_rolls, e6]
    revert h0 e1 e2 none hroll
    clear e3 e4 e5 e6
    generalize c.expireRunning = d
    intro h0 e1 e2 none hroll
    have hld : Live d := h0.live hl
    obtain ⟨r1, r2, r3, r4, r5⟩ := runSpindle_rolls d rec_.target
    have n1 : Near d (d.runSpindle rec_.target).runoutRestart :=
      (runSpindle_near d _).trans (runoutRestart_calm _ ((runSpindle_near d _).live hld)).toNear
    have hcore := runoutRestart_core (d.runSpindle rec_.target)
    revert n1 hcore
    generalize (d.runSpindle rec_.target).runoutRestart = f
    intro n1 hcore
    rw [hroll]
    have hfs : f.rolls.slots = _ := (congrArg RollCore.slots hcore).trans r1
    have hfseams : f.rolls.seams = d.rolls.seams := (congrArg RollCore.seams hcore).trans r4
    have hffeed : f.rolls.feedRoll = d.rolls.feedRoll := (congrArg RollCore.feed hcore).trans r3
    have hfjob : f.rolls.job = d.rolls.job := (congrArg RollCore.job hcore).trans r5
    have n2 := (n1.trans (raise_calm .rollSpliceDone (Detail.named (spindleDetail rec_.target)) f (n1.live hld)).toNear)
    have n3 := n2.trans (Near.setRolls _ { f.rolls with
      seams := placeSeam ⟨f.webU, .planned ((d.rolls.spindle rec_.target).roll.getD 0) true false⟩ f.rolls.seams
      retry := 0
      job := .seamWait } rfl (fun s => ⟨Nat.le_trans (placeSeam_length _ _) (by
        have := s.kept (show f.rolls.job.inSplice = true by rw [hfjob, e1]; exact hj)
        show f.rolls.seams.length + 1 ≤ 4
        exact Nat.succ_le_succ this), fun x => (by cases x), placeSeam_ordered s.ordered⟩))
    have a3 : Away d _ := ⟨n3, fun g => ⟨?_, ?_⟩⟩
    · exact ((h0.trans a3).andThen hl deriveUnwind_calm).andThen hl settleSeams_calm
    · have gs := g.sound
      rw [hld.on] at gs
      have ht : (d.rolls.spindle rec_.target).state = .loaded := by
        obtain ⟨x, hx, hx2⟩ := gs.job.target (by rw [e1]; exact hj)
        rw [e2, hrec] at hx; cases hx; exact hx2
      obtain ⟨x, hx, hx1, hx2⟩ := gs.spindles.mounted _ ht
      have hxid : (d.rolls.spindle rec_.target).roll.getD 0 = x.id := by rw [hx1]; rfl
      have off : ∀ i : Nat, (∃ y ∈ d.rolls.rolls, y.id = i ∧ y.onWeb) → i ≠ x.id := by
        rintro i ⟨y, hy, hy1, hy2⟩ e
        rw [gs.table.unique hy hx (hy1.trans e)] at hy2
        rcases hy2 with h | h <;> (rw [hx2] at h; cases h)
      have hon : Controller.commissioned _ = true := (n3.live hld).on
      rw [hon]
      refine gs.run ht none (i := d.rolls.feedRoll) (j := .seamWait)
        (l := placeSeam ⟨f.webU, .planned ((d.rolls.spindle rec_.target).roll.getD 0) true false⟩ d.rolls.seams)
        ⟨rfl, by decide⟩ ?_ hfs (fun k => ?_) hffeed (by rw [hfseams]) rfl
      · refine (gs.feed.map (fun x => if some x.id = (d.rolls.spindle rec_.target).roll then { x with state := .running } else x)
          (fun y _ => by split <;> rfl) (fun y _ hw => ?_)).join _ _ (fun y hy => placeSeam_mem hy) (fun _ => ⟨?_, ?_, ?_⟩)
        · split
          · exact Or.inl rfl
          · exact hw
        · refine ⟨_, List.mem_map_of_mem hx, ?_, ?_⟩
          · rw [if_pos hx1.symm]; exact hxid.symm
          · rw [if_pos hx1.symm]; exact Or.inl rfl
        · intro h
          exact off _ (gs.feed.feed _ h) hxid
        · intro y hy hne hya h
          exact off _ (gs.feed.awaited y ((placeSeam_mem hy).resolve_left hne) hya) (h.trans hxid)
      · have c1 := core_spindle hcore k
        exact ⟨c1.1.trans (r2 k).1, c1.2.trans (r2 k).2⟩
    · show RollsCounted _ _
      rw [n3.tab]
      refine g.counted.of_refs ?_
      have e : RollManager.rolls f.rolls = d.rolls.rolls.map (fun x =>
          if some x.id = (d.rolls.spindle rec_.target).roll then { x with state := .running } else x) := by
        unfold RollManager.rolls
        rw [hfs]; exact rolls_map _ _
      show f.rolls.refTable = _
      unfold RollManager.refTable
      rw [e, List.map_map]
      refine List.map_congr_left (fun y _ => ?_)
      simp only [Function.comp]
      split <;> rfl

theorem failAttempt_calm : Calm Controller.failAttempt := by
  intro c hl
  unfold Controller.failAttempt
  split
  · exact (setRetry_away c _).andThen hl (movePlain_calm .retryWait ⟨rfl, by decide⟩)
  · exact (movePlain_calm .fault ⟨rfl, by decide⟩ c hl).raise hl _ _

theorem takeSpliceDone_calm : Calm Controller.takeSpliceDone := by
  intro c hl
  unfold Controller.takeSpliceDone
  split
  · rename_i h; exact completeSplice_away hl (by rw [h]; rfl)
  · rename_i h; exact completeSplice_away hl (by rw [h]; rfl)
  · exact Away.refl c

theorem failed_calm (d : Detail) : Calm (fun c => (c.raise .rollSpliceFail d).failAttempt) :=
  failAttempt_calm.comp (raise_calm _ _)

theorem takeSpliceFail_calm (cause : Byte) : Calm (fun c => c.takeSpliceFail cause) := by
  intro c hl
  show Away c (c.takeSpliceFail cause)
  unfold Controller.takeSpliceFail
  split
  · exact failed_calm _ c hl
  · exact failed_calm _ c hl
  · exact failed_calm _ c hl
  · exact failed_calm _ c hl
  · exact Away.refl c

theorem takeSpliceCancelled_calm (web : Spindle) : Calm (fun c => c.takeSpliceCancelled web) := by
  intro c hl
  show Away c (c.takeSpliceCancelled web)
  unfold Controller.takeSpliceCancelled
  split
  · rename_i h
    split
    · split
      · exact completeSplice_away hl (by rw [h]; rfl)
      · exact failed_calm _ c hl
    · exact Away.refl c
  · exact Away.refl c

theorem giveUp_away {c : Controller} (hl : Live c) (hj : c.rolls.job.inSplice = true) :
    Away c (Controller.moveJob { c.hand .s .spliceCancel with rolls := { (c.hand .s .spliceCancel).rolls with
      cancelStart := c.mot.tick } } .cancelWait) := by
  have h1 := (Away.refl c).hand hl .s .spliceCancel rfl
  have h2 := h1.trans (Away.setRolls' (c.hand .s .spliceCancel)
    { (c.hand .s .spliceCancel).rolls with cancelStart := c.mot.tick } rfl)
  exact h2.trans (moveAlong_away (h2.live hl) (by show (c.hand _ _).rolls.job.inSplice = true; rw [hand_rolls]; exact hj) rfl)

theorem spliceTimeoutTest_calm : Calm Controller.spliceTimeoutTest := by
  intro c hl
  unfold Controller.spliceTimeoutTest
  split
  · rename_i h _
    split
    · exact giveUp_away hl (by rw [h]; rfl)
    · exact Away.refl c
  · rename_i h _
    split
    · exact giveUp_away hl (by rw [h]; rfl)
    · exact Away.refl c
  · rename_i h _
    split
    · exact giveUp_away hl (by rw [h]; rfl)
    · exact Away.refl c
  · exact Away.refl c

theorem cancelWaitTest_calm : Calm Controller.cancelWaitTest := by
  intro c hl
  unfold Controller.cancelWaitTest
  split
  · exact ((Away.refl c).raise hl _ _).andThen hl (movePlain_calm .fault ⟨rfl, by decide⟩)
  · exact Away.refl c

theorem retryWaitTest_calm : Calm Controller.retryWaitTest := by
  intro c hl
  unfold Controller.retryWaitTest
  split
  · split
    · rename_i h; exact enterPending_away hl (idleLoaded_target h)
    · split
      · exact enterLow_calm c hl
      · exact enterNormal_calm c hl
  · exact Away.refl c

theorem webLost_calm : Calm Controller.webLost := by
  intro c hl
  unfold Controller.webLost
  split
  · exact Away.refl c
  · have h1 := (expireRunning_calm c hl).raise hl .rollRunout (Detail.named .webLost)
    simp only
    split
    · exact ((h1.hand hl .s .spliceCancel rfl).raise hl _ _).andThen hl (movePlain_calm .noRoll ⟨rfl, by decide⟩)
    · exact ((h1.hand hl .s .spliceCancel rfl).raise hl _ _).andThen hl (movePlain_calm .noRoll ⟨rfl, by decide⟩)
    · exact ((h1.hand hl .s .spliceCancel rfl).raise hl _ _).andThen hl (movePlain_calm .noRoll ⟨rfl, by decide⟩)
    · exact (h1.raise hl _ _).andThen hl (movePlain_calm .noRoll ⟨rfl, by decide⟩)
    · exact h1.andThen hl (movePlain_calm .noRoll ⟨rfl, by decide⟩)

/-! ### Fill and unwind slip -/

theorem guardTest_calm : Calm Controller.guardTest := by
  intro c hl
  unfold Controller.guardTest
  split
  · exact addHold_calm _ c hl
  · split
    · exact removeHold_calm _ c hl
    · exact Away.refl c

theorem fillChanged_calm : Calm Controller.fillChanged := by
  intro c hl
  exact ((Away.setRolls' c { c.rolls with hyst := c.hysteresis } rfl).andThen hl deriveUnwind_calm).andThen hl
    guardTest_calm

theorem fillPulse_calm (up : Bool) : Calm (fun c => c.fillPulse up) := by
  intro c hl
  show Away c (c.fillPulse up)
  unfold Controller.fillPulse
  split
  · split
    · exact Away.refl c
    · exact (Away.setRolls' c { c.rolls with rangeMark := true } rfl).raise hl _ _
  · simp only
    refine Away.andThen (Away.setRolls' c ?_ ?_) hl fillChanged_calm
    rfl

theorem sendStops_calm : Calm Controller.sendStops := by
  intro c hl
  unfold Controller.sendStops
  split
  · rename_i sp _
    exact (Away.refl c).hand hl .s (.unwindMode sp .stop) rfl
  · exact ((Away.refl c).hand hl .s (.unwindMode .a .stop) rfl).hand hl .s (.unwindMode .b .stop) rfl

theorem unwindResend_calm : Calm Controller.unwindResend := by
  intro c hl
  unfold Controller.unwindResend
  split
  · exact (sendStops_calm c hl).trans (Away.setRolls' _ _ rfl)
  · exact Away.refl c

theorem unwindResendFault_calm : Calm Controller.unwindResendFault := by
  intro c hl
  unfold Controller.unwindResendFault
  split
  · have h1 := Away.setRolls' c { c.rolls with suspended := true } rfl
    simp only
    split
    · exact ((h1.raise hl _ _).hand hl .s .spliceCancel rfl).andThen hl (movePlain_calm .fault ⟨rfl, by decide⟩)
    · exact ((h1.raise hl _ _).hand hl .s .spliceCancel rfl).andThen hl (movePlain_calm .fault ⟨rfl, by decide⟩)
    · exact (h1.raise hl _ _).andThen hl (movePlain_calm .fault ⟨rfl, by decide⟩)
    · exact h1.andThen hl unwindFault_calm
  · exact Away.refl c

theorem unwindSlipTest_calm : Calm Controller.unwindSlipTest := by
  intro c hl
  unfold Controller.unwindSlipTest
  split
  · exact unwindResend_calm c hl
  · exact unwindResendFault_calm c hl

/-! ### Limit, stall, drive and unit reports -/

theorem limitTest_calm (i : CountInput) : Calm (fun c => c.limitTest i) := by
  intro c hl
  show Away c (c.limitTest i)
  unfold Controller.limitTest
  split
  · exact ((Away.setLimit c true).raise hl _ _).andThen hl coordHold_calm
  · exact Away.refl c

theorem setStall_calm (i : CountInput) : Calm (fun c => c.setStall i) := by
  intro c hl
  show Away c (c.setStall i)
  have h1 := Away.setCounter c i { c.mot.counter i with stall := true } rfl (fun k => k)
  unfold Controller.setStall
  simp only
  split
  · exact h1.andThen hl goTest_calm
  · split
    · exact (h1.raise hl _ _).andThen hl bankTest_calm
    · exact h1.andThen hl bankTest_calm
  · exact h1

theorem stallTest_calm (i : CountInput) : Calm (fun c => c.stallTest i) := by
  intro c hl
  show Away c (c.stallTest i)
  unfold Controller.stallTest
  split
  · exact setStall_calm i c hl
  · exact Away.refl c

theorem intervalTick_calm (i : CountInput) : Calm (fun c => c.intervalTick i) := by
  intro c hl
  have h := Away.setCounter c i (c.mot.counter i).tick rfl (fun k => ⟨k.1, by
    have := k.2
    show (if _ then _ else _) ≤ counterCeiling
    split
    · assumption
    · exact this⟩)
  exact h.trans (stallTest_calm i _ (h.live hl))

theorem updateZone_calm (i : Nat) (f : Zone → Zone) : Calm (fun c => c.updateZone i f) :=
  fun c _ => Away.setCham c _ rfl (by simp)

theorem staleTest_calm (i : Nat) : Calm (fun c => c.staleTest i) := by
  intro c hl
  show Away c (c.staleTest i)
  unfold Controller.staleTest
  split
  · exact (updateZone_calm i _ c hl).raise hl _ _
  · exact Away.refl c

theorem takeDriveState_calm (m : DriveMotion) : Calm (fun c => c.takeDriveState m) := by
  intro c hl
  show Away c (c.takeDriveState m)
  have h1 := Away.setLine c { c.line with report := some m } rfl
  unfold Controller.takeDriveState
  simp only
  split
  · split
    · exact h1.andThen hl (halt_calm .drive)
    · exact (h1.raise hl _ _).andThen hl (halt_calm .drive)
  · exact h1

theorem takeUnitState_calm (x : UnitCondition) : Calm (fun c => c.takeUnitState x) := by
  intro c hl
  show Away c (c.takeUnitState x)
  have h1 := Away.setRolls' c { c.rolls with report := some x } rfl
  unfold Controller.takeUnitState
  simp only
  split
  · exact h1.andThen hl webLost_calm
  · exact h1

/-! ### The receive assembly -/

theorem setRx_away {c : Controller} (ch : Channel) (rx : Receiver) (he : (c.link ch).enabled = true) :
    Away c (c.setRx ch rx) := by
  refine Away.setLink c ch { c.link ch with rx := rx } rfl (fun _ h => ?_) ?_
  · exact absurd (he.symm.trans h) (by decide)
  · cases ch
    · exact fun q => q
    · exact fun q => q
    · exact fun q => q
    · exact fun q => q

end Sys2Proof.Machine
end

