-- ==== Sys2Proof/Laws/Kept.lean ====
section
/-! SUPPORT. What the operations inside an event keep when they touch the record unit, the stroke sequencer or cut
control: the tools. -/

namespace Sys2Proof.Machine

structure Safe (c : Controller) : Prop where
  sound : Sound c
  live : Live c

/-- Record `id` lives and is past SCHEDULED. -/
def OnWeb (c : Controller) (id : Nat) : Prop := ∃ p ∈ c.tab.panels, p.id = id ∧ p.state ≠ .scheduled

/-- What an operation inside an event keeps. -/
structure Kept (c d : Controller) : Prop where
  safe : Safe d
  steady : d.steady = c.steady
  onWeb : ∀ id, OnWeb c id → OnWeb d id

/-- An operation that keeps the invariant. -/
def Firm (g : Controller → Controller) : Prop := ∀ c, Safe c → Kept c (g c)

theorem Kept.refl {c : Controller} (h : Safe c) : Kept c c := ⟨h, rfl, fun _ x => x⟩

theorem Kept.trans {a b c : Controller} (h : Kept a b) (k : Kept b c) : Kept a c :=
  ⟨k.safe, k.steady.trans h.steady, fun id x => k.onWeb id (h.onWeb id x)⟩

theorem Kept.andThen {c d : Controller} (h : Kept c d) {g : Controller → Controller} (hg : Firm g) : Kept c (g d) :=
  h.trans (hg d h.safe)

theorem Firm.id : Firm (fun c => c) := fun _ h => Kept.refl h

theorem Firm.comp {f g : Controller → Controller} (hg : Firm g) (hf : Firm f) : Firm (fun c => g (f c)) :=
  fun c h => (hf c h).andThen hg

theorem windowSize_of_steady {c d : Controller} (h : d.steady = c.steady) : d.windowSize = c.windowSize := by
  have : d.params = c.params := congrArg Steady.params h
  simp only [Controller.windowSize, Controller.param, this]

theorem Sound.good {c : Controller} (h : Sound c) : RollsGood c := ⟨h.rolls, h.fed⟩

theorem Away.kept {c d : Controller} (h : Away c d) (hs : Safe c) : Kept c d := by
  refine ⟨⟨⟨h.blocks hs.sound.blocks, ?_, ?_, (h.rolls hs.sound.good).sound, ?_, (h.rolls hs.sound.good).counted, ?_, ?_⟩,
    h.live hs.live⟩, h.steady, ?_⟩
  · rw [h.tab]; exact hs.sound.records
  · rw [h.tab, h.seq]; exact hs.sound.strokes
  · rw [h.tab, show d.lib = c.lib from congrArg Steady.lib h.steady]; exact hs.sound.patterns
  · intro _
    rw [h.seq, windowSize_of_steady h.steady]
    exact hs.sound.window hs.live.on
  · intro hc
    have := (h.live hs.live).on
    rw [hc] at this; cases this
  · intro id ⟨p, hp, hi⟩
    exact ⟨p, by rw [h.tab]; exact hp, hi⟩

theorem Calm.firm {g : Controller → Controller} (h : Calm g) : Firm g := fun c hs => (h c hs.live).kept hs

theorem Kept.raise {c d : Controller} (h : Kept c d) (n : Notice) (x : Detail) : Kept c (d.raise n x) :=
  h.andThen (raise_calm n x).firm

theorem Kept.calm {c d : Controller} (h : Kept c d) {g : Controller → Controller} (hg : Calm g) : Kept c (g d) :=
  h.andThen hg.firm

/-! ### Records -/

theorem panelById_mem {c : Controller} {id : Nat} {p : Panel} (h : c.panelById id = some p) :
    p ∈ c.tab.panels ∧ p.id = id := by
  refine ⟨List.mem_of_find?_eq_some h, ?_⟩
  have := List.find?_some h
  simpa using this

theorem RecordsSound.unique {t : RecordUnit} (h : RecordsSound t) {p q : Panel} (hp : p ∈ t.panels) (hq : q ∈ t.panels)
    (e : p.id = q.id) : p = q := List.inj_on_of_nodup_map h.ids hp hq e

/-- What an update of a panel must leave: the record, its place in the lists, and what it names. -/
structure Gentle (p q : Panel) : Prop where
  id : q.id = p.id
  number : q.number = p.number
  scheduled : q.state = .scheduled ↔ p.state = .scheduled
  roll : q.placed.map Placed.roll = p.placed.map Placed.roll
  pattern : q.pattern = p.pattern

theorem Gentle.placed {p q : Panel} (h : Gentle p q) : q.placed.isSome = p.placed.isSome := by
  have := congrArg Option.isSome h.roll
  simpa using this

/-- The counts of R123 stand as they did. -/
structure SameCounts (p q : Panel) : Prop where
  total : q.total = p.total
  counts : ∀ y, q.placed = some y → ∃ x, p.placed = some x ∧ y.done + y.faulted = x.done + x.faulted ∧
    y.issued = x.issued ∧ y.issued + y.missed + y.aborted = x.issued + x.missed + x.aborted

theorem Gentle.refl (p : Panel) : Gentle p p := ⟨rfl, rfl, Iff.rfl, rfl, rfl⟩
theorem SameCounts.refl (p : Panel) : SameCounts p p := ⟨rfl, fun y h => ⟨y, h, rfl, rfl, rfl⟩⟩

/-- The strokes left of a panel on the web, by its counts. -/
theorem strokesLeft_placed {p : Panel} {x : Placed} (h : p.placed = some x) :
    p.strokesLeft = p.total - (x.issued + x.missed + x.aborted) := by
  unfold Panel.strokesLeft; rw [h]

theorem SameCounts.left {p q : Panel} (h : SameCounts p q) (hp : q.placed.isSome = p.placed.isSome) :
    q.strokesLeft = p.strokesLeft := by
  cases hq : q.placed with
  | none =>
    have : p.placed = none := by rw [hq] at hp; simpa using hp.symm
    unfold Panel.strokesLeft; rw [hq, this]
  | some y =>
    obtain ⟨x, hx, _, _, hs⟩ := h.counts y hq
    rw [strokesLeft_placed hq, strokesLeft_placed hx, hs, h.total]

theorem RecordsSound.map {t : RecordUnit} (h : RecordsSound t) (g : Panel → Panel) (hg : ∀ p ∈ t.panels, Gentle p (g p)) :
    RecordsSound { t with panels := t.panels.map g } where
  room := by simpa using h.room
  known := by
    intro q hq
    obtain ⟨p, hp, rfl⟩ := List.mem_map.mp hq
    rw [(hg p hp).id]; exact h.known p hp
  ids := by
    have : (t.panels.map g).map Panel.id = t.panels.map Panel.id := by
      rw [List.map_map]; exact List.map_congr_left (fun p hp => (hg p hp).id)
    rw [this]; exact h.ids
  numbers := by
    have : (t.panels.map g).map Panel.number = t.panels.map Panel.number := by
      rw [List.map_map]; exact List.map_congr_left (fun p hp => (hg p hp).number)
    rw [this]; exact h.numbers
  queueOnce := h.queueOnce
  rosterOnce := h.rosterOnce
  queued := by
    intro id
    rw [h.queued id]
    constructor
    · rintro ⟨p, hp, hi, hs⟩
      exact ⟨g p, List.mem_map_of_mem hp, by rw [(hg p hp).id, hi], (hg p hp).scheduled.mpr hs⟩
    · rintro ⟨q, hq, hi, hs⟩
      obtain ⟨p, hp, rfl⟩ := List.mem_map.mp hq
      exact ⟨p, hp, by rw [← (hg p hp).id, hi], (hg p hp).scheduled.mp hs⟩
  onRoster := by
    intro id
    rw [h.onRoster id]
    constructor
    · rintro ⟨p, hp, hi, hs⟩
      exact ⟨g p, List.mem_map_of_mem hp, by rw [(hg p hp).id, hi], fun x => hs ((hg p hp).scheduled.mp x)⟩
    · rintro ⟨q, hq, hi, hs⟩
      obtain ⟨p, hp, rfl⟩ := List.mem_map.mp hq
      exact ⟨p, hp, by rw [← (hg p hp).id, hi], fun x => hs ((hg p hp).scheduled.mpr x)⟩
  placed := by
    intro q hq
    obtain ⟨p, hp, rfl⟩ := List.mem_map.mp hq
    rw [(hg p hp).placed, h.placed p hp]
    exact not_congr (hg p hp).scheduled.symm

theorem NamesOnWeb.map {t : RecordUnit} {g : Panel → Panel} (hg : ∀ p ∈ t.panels, Gentle p (g p)) {id : Nat}
    (h : NamesOnWeb t id) : NamesOnWeb { t with panels := t.panels.map g } id := by
  refine ⟨h.1, ?_⟩
  intro q hq hi
  obtain ⟨p, hp, rfl⟩ := List.mem_map.mp hq
  rw [(hg p hp).placed]
  exact h.2 p hp (by rw [← (hg p hp).id, hi])

/-- A live panel with its fields from FEEDING is on the web. -/
theorem RecordsSound.names {t : RecordUnit} (h : RecordsSound t) {p : Panel} (hp : p ∈ t.panels)
    (hs : p.placed.isSome = true) : NamesOnWeb t p.id := by
  refine ⟨h.known p hp, fun q hq e => ?_⟩
  rw [h.unique hq hp e]; exact hs

theorem StrokesSound.map {t : RecordUnit} {q : Sequencer} (h : StrokesSound t q) (g : Panel → Panel)
    (hg : ∀ p ∈ t.panels, Gentle p (g p)) (hc : ∀ p ∈ t.panels, SameCounts p (g p)) :
    StrokesSound { t with panels := t.panels.map g } q where
  consecutive := h.consecutive
  stepping := h.stepping
  windowNames := fun e he => (h.windowNames e he).map hg
  cursorNames := fun k hk => (h.cursorNames k hk).map hg
  cursorLeft := by
    intro k hk r hr e
    obtain ⟨p, hp, rfl⟩ := List.mem_map.mp hr
    rw [(hc p hp).left (hg p hp).placed]
    exact h.cursorLeft k hk p hp (by rw [← (hg p hp).id]; exact e)
  count := by
    intro r hr y hy
    obtain ⟨p, hp, rfl⟩ := List.mem_map.mp hr
    obtain ⟨x, hx, h1, h2, _⟩ := (hc p hp).counts y hy
    have := h.count p hp x hx
    rw [(hg p hp).id]; omega
  total := by
    intro r hr y hy
    obtain ⟨p, hp, rfl⟩ := List.mem_map.mp hr
    obtain ⟨x, hx, _, _, h3⟩ := (hc p hp).counts y hy
    have := h.total p hp x hx
    rw [(hc p hp).total]; omega

theorem filter_map_length {α : Type} (l : List α) (g : α → α) (P : α → Bool) (h : ∀ x ∈ l, P (g x) = P x) :
    ((l.map g).filter P).length = (l.filter P).length := by
  rw [List.filter_map, List.length_map]
  exact congrArg List.length (List.filter_congr h)

/-- A count over the panels when the one of record `p.id` changes. -/
theorem countNames_update {l : List Panel} (hn : (l.map Panel.id).Nodup) {p : Panel} (hp : p ∈ l) (g : Panel → Panel)
    (P : Panel → Bool) :
    ((l.map (fun q => if q.id = p.id then g q else q)).filter P).length + (if P p then 1 else 0) =
      (l.filter P).length + (if P (g p) then 1 else 0) := by
  obtain ⟨a, b, rfl⟩ := List.append_of_mem hp
  rw [List.map_append, List.nodup_append, List.map_cons, List.nodup_cons] at hn
  have ha : a.map (fun q => if q.id = p.id then g q else q) = a := by
    conv_rhs => rw [← List.map_id a]
    exact List.map_congr_left (fun q hq => if_neg (fun e => hn.2.2 q.id (List.mem_map_of_mem hq) p.id List.mem_cons_self e))
  have hb : b.map (fun q => if q.id = p.id then g q else q) = b := by
    conv_rhs => rw [← List.map_id b]
    exact List.map_congr_left (fun q hq => if_neg (fun (e : q.id = p.id) => hn.2.1.1 (e ▸ List.mem_map_of_mem hq)))
  rw [List.map_append, List.map_cons, ha, hb, if_pos rfl, List.filter_append, List.filter_append, List.length_append,
    List.length_append, List.filter_cons, List.filter_cons]
  split <;> split <;> simp <;> omega

/-- A count over the panels when record `p.id` goes. -/
theorem countNames_remove {l : List Panel} (hn : (l.map Panel.id).Nodup) {p : Panel} (hp : p ∈ l) (P : Panel → Bool) :
    ((l.filter (fun q => q.id != p.id)).filter P).length + (if P p then 1 else 0) = (l.filter P).length := by
  obtain ⟨a, b, rfl⟩ := List.append_of_mem hp
  rw [List.map_append, List.nodup_append, List.map_cons, List.nodup_cons] at hn
  have ha : a.filter (fun q => q.id != p.id) = a := List.filter_eq_self.mpr (fun q hq =>
    bne_iff_ne.mpr (hn.2.2 q.id (List.mem_map_of_mem hq) p.id List.mem_cons_self))
  have hb : b.filter (fun q => q.id != p.id) = b := List.filter_eq_self.mpr (fun q hq =>
    bne_iff_ne.mpr (fun e => hn.2.1.1 (e ▸ List.mem_map_of_mem hq)))
  rw [List.filter_append, List.filter_cons, ha, hb, if_neg (by simp), List.filter_append, List.filter_append,
    List.filter_cons, List.length_append, List.length_append]
  split
  · simp; omega
  · simp

theorem PatternsCounted.map {t : RecordUnit} {lib : List Pattern} (h : PatternsCounted t lib) (g : Panel → Panel)
    (hg : ∀ p ∈ t.panels, (g p).pattern = p.pattern) : PatternsCounted { t with panels := t.panels.map g } lib where
  named := by
    intro q hq
    obtain ⟨p, hp, rfl⟩ := List.mem_map.mp hq
    rw [hg p hp]; exact h.named p hp
  count := by
    intro n h1 h2
    rw [h.count n h1 h2]
    exact (filter_map_length _ _ _ (fun p hp => by rw [hg p hp])).symm
  free := h.free

theorem RollsCounted.map {t : RecordUnit} {r : RollManager} (h : RollsCounted t r) (g : Panel → Panel)
    (hg : ∀ p ∈ t.panels, (g p).placed.map Placed.roll = p.placed.map Placed.roll) :
    RollsCounted { t with panels := t.panels.map g } r where
  slot := by
    intro q hq y hy
    obtain ⟨p, hp, rfl⟩ := List.mem_map.mp hq
    have := hg p hp
    rw [hy] at this
    obtain ⟨x, hx, e⟩ := Option.map_eq_some_iff.mp this.symm
    rw [← e]; exact h.slot p hp x hx
  count := by
    intro y hy
    rw [h.count y hy]
    exact (filter_map_length _ _ _ (fun p hp => by rw [hg p hp])).symm

/-! ### Replacing the record unit and the sequencer -/

theorem Safe.setTabSeq {c : Controller} (hs : Safe c) {t : RecordUnit} {q : Sequencer} (hr : RecordsSound t)
    (hq : StrokesSound t q) (hn : PatternsCounted t c.lib) (hf : RollsCounted t c.rolls)
    (hw : q.window.length ≤ c.windowSize) : Safe { c with tab := t, seq := q } :=
  ⟨⟨{ hs.sound.blocks with cuts := hs.sound.blocks.cuts }, hr, hq, hs.sound.rolls, hn, hf, fun _ => hw,
    fun h => absurd (h.symm.trans hs.live.on) (by decide)⟩, ⟨hs.live.awake, hs.live.on⟩⟩

theorem Kept.setTabSeq {c : Controller} (hs : Safe c) {t : RecordUnit} {q : Sequencer} (hr : RecordsSound t)
    (hq : StrokesSound t q) (hn : PatternsCounted t c.lib) (hf : RollsCounted t c.rolls)
    (hw : q.window.length ≤ c.windowSize)
    (ho : ∀ id, OnWeb c id → ∃ p ∈ t.panels, p.id = id ∧ p.state ≠ .scheduled) :
    Kept c { c with tab := t, seq := q } :=
  ⟨hs.setTabSeq hr hq hn hf hw, rfl, ho⟩

theorem Kept.setSeq {c : Controller} (hs : Safe c) {q : Sequencer} (hq : StrokesSound c.tab q)
    (hw : q.window.length ≤ c.windowSize) : Kept c { c with seq := q } :=
  Kept.setTabSeq (t := c.tab) hs hs.sound.records hq hs.sound.patterns hs.sound.fed hw (fun _ h => h)

/-- The panels changed in place, each gently. -/
theorem Kept.setPanels {c : Controller} (hs : Safe c) {q : Sequencer} (g : Panel → Panel)
    (hg : ∀ p ∈ c.tab.panels, Gentle p (g p)) (hq : StrokesSound { c.tab with panels := c.tab.panels.map g } q)
    (hw : q.window.length ≤ c.windowSize) :
    Kept c { c with tab := { c.tab with panels := c.tab.panels.map g }, seq := q } := by
  refine Kept.setTabSeq hs (hs.sound.records.map _ hg) hq (hs.sound.patterns.map _ (fun p hp => (hg p hp).pattern))
    (hs.sound.fed.map _ (fun p hp => (hg p hp).roll)) hw ?_
  rintro i ⟨r, hr, e, hst⟩
  exact ⟨_, List.mem_map_of_mem hr, by rw [(hg r hr).id, e], fun x => hst ((hg r hr).scheduled.mp x)⟩

/-- The cursor alone. -/
theorem Kept.setCursor {c : Controller} (hs : Safe c) (k : Option Cursor)
    (hk : ∀ x, k = some x → NamesOnWeb c.tab x.panel ∧ ∀ p ∈ c.tab.panels, p.id = x.panel → 0 < p.strokesLeft) :
    Kept c { c with seq := { c.seq with cursor := k } } := by
  have h := hs.sound.strokes
  exact Kept.setSeq hs ⟨h.consecutive, h.stepping, h.windowNames, fun x hx => (hk x hx).1, fun x hx => (hk x hx).2,
    h.count, h.total⟩ (hs.sound.window hs.live.on)

/-- Fields that no clause speaks of. -/
theorem Kept.setSeqPlain {c : Controller} (hs : Safe c) (q : Sequencer) (hw : q.window = c.seq.window)
    (hn : q.next = c.seq.next) (hc : q.cursor = c.seq.cursor) (hm : q.mode = c.seq.mode ∨ c.seq.window = []) :
    Kept c { c with seq := q } := by
  have h := hs.sound.strokes
  refine Kept.setSeq hs ⟨?_, ?_, ?_, ?_, ?_, ?_, h.total⟩ ?_
  · rw [hw, hn]; exact h.consecutive
  · intro hx
    rw [hw]
    rcases hm with hm | hm
    · rw [hm] at hx; exact h.stepping hx
    · exact hm
  · rw [hw]; exact h.windowNames
  · rw [hc]; exact h.cursorNames
  · rw [hc]; exact h.cursorLeft
  · rw [hw]; exact h.count
  · rw [hw]; exact hs.sound.window hs.live.on

theorem Kept.setCut {c : Controller} (hs : Safe c) (x : CutControl)
    (hx : c.cut.queue.length ≤ 8 → x.queue.length ≤ 8) : Kept c { c with cut := x } :=
  ⟨⟨⟨{ hs.sound.blocks with cuts := hx hs.sound.blocks.cuts }, hs.sound.records, hs.sound.strokes, hs.sound.rolls,
    hs.sound.patterns, hs.sound.fed, hs.sound.window, hs.sound.offline⟩, ⟨hs.live.awake, hs.live.on⟩⟩, rfl, fun _ h => h⟩

/-- An update of the panel that `id` names. -/
theorem Kept.updatePanel {c : Controller} (hs : Safe c) {id : Nat} {p : Panel} (hp : c.panelById id = some p)
    {f : Panel → Panel} (hf : Gentle p (f p)) (hc : SameCounts p (f p)) : Kept c (c.updatePanel id f) := by
  obtain ⟨hm, hi⟩ := panelById_mem hp
  have gentle : ∀ r ∈ c.tab.panels, Gentle r (if r.id = id then f r else r) := by
    intro r hr
    split
    · rename_i e
      rw [hs.sound.records.unique hr hm (e.trans hi.symm)]; exact hf
    · exact Gentle.refl r
  have counts : ∀ r ∈ c.tab.panels, SameCounts r (if r.id = id then f r else r) := by
    intro r hr
    split
    · rename_i e
      rw [hs.sound.records.unique hr hm (e.trans hi.symm)]; exact hc
    · exact SameCounts.refl r
  exact Kept.setPanels (q := c.seq) hs _ gentle (hs.sound.strokes.map _ gentle counts) (hs.sound.window hs.live.on)

/-- An update that is gentle on every panel. -/
theorem Firm.updatePanel (id : Nat) (f : Panel → Panel) (hf : ∀ p, Gentle p (f p)) (hc : ∀ p, SameCounts p (f p)) :
    Firm (fun c => c.updatePanel id f) := by
  intro c hs
  show Kept c (c.updatePanel id f)
  cases hp : c.panelById id with
  | some p => exact Kept.updatePanel hs hp (hf p) (hc p)
  | none =>
    have : c.updatePanel id f = c := by
      have hmap : c.tab.panels.map (fun p => if p.id = id then f p else p) = c.tab.panels := by
        have hn : ∀ p ∈ c.tab.panels, ¬ (p.id = id) := by
          intro p hm e
          have := List.find?_eq_none.mp hp p hm
          simp [e] at this
        conv => rhs; rw [← List.map_id c.tab.panels]
        exact List.map_congr_left (fun p hm => by simp [hn p hm])
      unfold Controller.updatePanel
      rw [hmap]
    rw [this]; exact Kept.refl hs

theorem OnWeb.of {c : Controller} {id : Nat} {p : Panel} (hp : c.panelById id = some p) (h : p.state ≠ .scheduled) :
    OnWeb c id := ⟨p, (panelById_mem hp).1, (panelById_mem hp).2, h⟩

theorem OnWeb.state {c : Controller} (hs : Safe c) {id : Nat} {p : Panel} (h : OnWeb c id)
    (hp : c.panelById id = some p) : p.state ≠ .scheduled := by
  obtain ⟨q, hq, e, hst⟩ := h
  obtain ⟨hm, hi⟩ := panelById_mem hp
  rw [← hs.sound.records.unique hq hm (e.trans hi.symm)]; exact hst

theorem OnWeb.names {c : Controller} (hs : Safe c) {id : Nat} (h : OnWeb c id) : NamesOnWeb c.tab id := by
  obtain ⟨q, hq, rfl, hst⟩ := h
  exact hs.sound.records.names hq ((hs.sound.records.placed q hq).mpr hst)

/-! ### Plain updates of a panel -/

theorem Gentle.mapCrossed (p : Panel) (g : Crossed → Crossed) : Gentle p (p.mapCrossed g) := ⟨rfl, rfl, Iff.rfl, rfl, rfl⟩
theorem Gentle.withCause (p : Panel) (k : Cause) : Gentle p (p.withCause k) := ⟨rfl, rfl, Iff.rfl, rfl, rfl⟩
theorem Gentle.mapPlaced (p : Panel) (f : Placed → Placed) (hf : ∀ x, (f x).roll = x.roll) : Gentle p (p.mapPlaced f) :=
  ⟨rfl, rfl, Iff.rfl, by unfold Panel.mapPlaced; cases p.placed <;> simp [hf], rfl⟩

theorem Gentle.trans {p q r : Panel} (h : Gentle p q) (k : Gentle q r) : Gentle p r :=
  ⟨k.id.trans h.id, k.number.trans h.number, k.scheduled.trans h.scheduled, k.roll.trans h.roll,
    k.pattern.trans h.pattern⟩

/-- A change between two states past SCHEDULED. -/
theorem Gentle.inState {p : Panel} (st : PanelState) (h : p.state ≠ .scheduled) (hst : st ≠ .scheduled) :
    Gentle p (p.inState st) := ⟨rfl, rfl, ⟨fun x => absurd x hst, fun x => absurd x h⟩, rfl, rfl⟩

theorem SameCounts.of_placed {p q : Panel} (h : q.placed = p.placed) (ht : q.total = p.total := by rfl) :
    SameCounts p q := ⟨ht, fun y hy => ⟨y, by rw [← h]; exact hy, rfl, rfl, rfl⟩⟩

theorem SameCounts.mapPlaced (p : Panel) (f : Placed → Placed)
    (hf : ∀ x, (f x).done + (f x).faulted = x.done + x.faulted ∧ (f x).issued = x.issued ∧
      (f x).issued + (f x).missed + (f x).aborted = x.issued + x.missed + x.aborted) :
    SameCounts p (p.mapPlaced f) := by
  refine ⟨rfl, fun y hy => ?_⟩
  unfold Panel.mapPlaced at hy
  cases hx : p.placed with
  | none => simp [hx] at hy
  | some x =>
    simp only [hx, Option.map_some, Option.some.injEq] at hy
    exact ⟨x, rfl, by rw [← hy]; exact (hf x).1, by rw [← hy]; exact (hf x).2.1, by rw [← hy]; exact (hf x).2.2⟩

theorem mapCrossed_firm (id : Nat) (g : Crossed → Crossed) : Firm (fun c => c.updatePanel id (fun p => p.mapCrossed g)) :=
  Firm.updatePanel id _ (fun p => Gentle.mapCrossed p g) (fun _ => SameCounts.of_placed rfl)

theorem addCause_firm (id : Nat) (k : Cause) : Firm (fun c => c.addCause id k) := by
  intro c hs
  show Kept c (c.addCause id k)
  unfold Controller.addCause
  split
  · exact Kept.refl hs
  · split
    · exact (Firm.updatePanel id (fun q => { q.withCause k with verdict := .reject }) (fun p => ⟨rfl, rfl, Iff.rfl, rfl, rfl⟩)
        (fun _ => SameCounts.of_placed rfl) c hs).raise _ _
    · exact Firm.updatePanel id _ (fun p => Gentle.withCause p k) (fun _ => SameCounts.of_placed rfl) c hs

theorem decideVerdict_firm (id : Nat) : Firm (fun c => c.decideVerdict id) := by
  intro c hs
  show Kept c (c.decideVerdict id)
  unfold Controller.decideVerdict
  split
  · exact Kept.refl hs
  · split
    · exact Kept.refl hs
    · split
      · exact addCause_firm id .underset c hs
      · refine Firm.updatePanel id _ (fun p => ?_) (fun p => ?_) c hs
        · split
          · exact ⟨rfl, rfl, Iff.rfl, rfl, rfl⟩
          · exact Gentle.refl p
        · split <;> exact SameCounts.of_placed rfl

/-- Strokes of panel `id` counted missed or aborted within its total, while the cursor does not name it. -/
theorem spend_kept {c : Controller} (hs : Safe c) (id : Nat) (f : Placed → Placed)
    (hcur : ∀ k, c.seq.cursor = some k → k.panel ≠ id)
    (hf : ∀ x, (f x).done + (f x).faulted = x.done + x.faulted ∧ (f x).issued = x.issued ∧ (f x).roll = x.roll)
    (hspend : ∀ p ∈ c.tab.panels, p.id = id → ∀ x, p.placed = some x →
      (f x).issued + (f x).missed + (f x).aborted ≤ p.total) : Kept c (c.countOn id f) := by
  have gentle : ∀ p ∈ c.tab.panels, Gentle p (if p.id = id then p.mapPlaced f else p) := by
    intro p _
    split
    · exact Gentle.mapPlaced p f (fun x => (hf x).2.2)
    · exact Gentle.refl p
  have h := hs.sound.strokes
  have mapped : ∀ (p : Panel) (y : Placed), (p.mapPlaced f).placed = some y → ∃ x, p.placed = some x ∧ f x = y := by
    intro p y hy
    unfold Panel.mapPlaced at hy
    cases hx : p.placed with
    | none => simp [hx] at hy
    | some x => exact ⟨x, rfl, by simpa [hx] using hy⟩
  refine Kept.setPanels (q := c.seq) hs _ gentle ?_ (hs.sound.window hs.live.on)
  · refine ⟨h.consecutive, h.stepping, fun e he => (h.windowNames e he).map gentle,
      fun k hk => (h.cursorNames k hk).map gentle, ?_, ?_, ?_⟩
    · intro k hk r hr e
      obtain ⟨p, hp, rfl⟩ := List.mem_map.mp hr
      rw [(gentle p hp).id] at e
      rw [if_neg (fun z => hcur k hk (e.symm.trans z))]
      exact h.cursorLeft k hk p hp e
    · intro r hr y hy
      obtain ⟨p, hp, rfl⟩ := List.mem_map.mp hr
      rw [(gentle p hp).id]
      split at hy
      · obtain ⟨x, hx, rfl⟩ := mapped p y hy
        have := h.count p hp x hx
        rw [(hf x).1, (hf x).2.1]; exact this
      · exact h.count p hp y hy
    · intro r hr y hy
      obtain ⟨p, hp, rfl⟩ := List.mem_map.mp hr
      split at hy
      · rename_i e
        obtain ⟨x, hx, rfl⟩ := mapped p y hy
        rw [if_pos e]
        exact hspend p hp e x hx
      · rename_i e
        rw [if_neg e]
        exact h.total p hp y hy

end Sys2Proof.Machine
end

