-- ==== Sys2Proof/Laws/StrokesKept.lean ====
section
/-! SUPPORT. The stroke sequencer's operations keep the invariant: the count law and the consecutive numbers of R123. -/

namespace Sys2Proof.Machine

/-! ### The cursor -/

theorem strokeFrom_panel {c : Controller} {p : Panel} {i r o : Nat} {k : Cursor} (h : c.strokeFrom p i r o = some k) :
    k.panel = p.id ∧ p.placed.isSome = true := by
  unfold Controller.strokeFrom at h
  split at h
  · cases h
  · rename_i q hq
    cases hn : nextStroke ((c.pattern p.pattern).steps.drop i) i r o with
    | none => simp [hn] at h
    | some x =>
      simp only [hn, Option.map_some, Option.some.injEq] at h
      exact ⟨by rw [← h]; rfl, by rw [hq]; rfl⟩

theorem rosterPanels_mem {c : Controller} {p : Panel} (h : p ∈ c.rosterPanels) : p ∈ c.tab.panels := by
  unfold Controller.rosterPanels at h
  obtain ⟨id, _, hi⟩ := List.mem_filterMap.mp h
  exact (panelById_mem hi).1

theorem seekCursor_firm : Firm Controller.seekCursor := by
  intro c hs
  refine Kept.setCursor hs _ (fun k hk => ?_)
  obtain ⟨p, hp, hx⟩ := List.exists_of_findSome?_eq_some hk
  split at hx
  · rename_i ht
    simp only [Panel.cursorTakes, Bool.and_eq_true, decide_eq_true_eq] at ht
    obtain ⟨h1, h2⟩ := strokeFrom_panel hx
    rw [h1]
    refine ⟨hs.sound.records.names (rosterPanels_mem hp) h2, fun r hr e => ?_⟩
    rw [hs.sound.records.unique hr (rosterPanels_mem hp) e]; exact ht.2
  · cases hx

/-- The controller with its cursor naming no panel. -/
def Controller.uncursored (c : Controller) : Controller := { c with seq := { c.seq with cursor := none } }

theorem seekCursor_uncursored (c : Controller) : c.uncursored.seekCursor = c.seekCursor := rfl

theorem uncursored_firm : Firm Controller.uncursored := fun _ hs => Kept.setCursor hs none (fun _ h => by cases h)

theorem addCause_seq (c : Controller) (q : Sequencer) (id : Nat) (k : Cause) :
    Controller.addCause { c with seq := q } id k = { c.addCause id k with seq := q } := by
  have e : Controller.panelById { c with seq := q } id = c.panelById id := rfl
  unfold Controller.addCause
  rw [e]
  split
  · rfl
  · split <;> rfl

theorem addCause_seq_eq (c : Controller) (id : Nat) (k : Cause) : (c.addCause id k).seq = c.seq := by
  unfold Controller.addCause
  split
  · rfl
  · split <;> rfl

theorem addCause_uncursored (c : Controller) (id : Nat) (k : Cause) :
    c.uncursored.addCause id k = (c.addCause id k).uncursored := by
  have := addCause_seq c { c.seq with cursor := none } id k
  unfold Controller.uncursored
  rw [addCause_seq_eq]; exact this

theorem advanceCursor_firm (k : Cursor) : Firm (fun c => c.advanceCursor k) := by
  intro c hs
  show Kept c (c.advanceCursor k)
  unfold Controller.advanceCursor
  split
  · rename_i k' hk
    refine Kept.setCursor hs _ (fun x hx => ?_)
    cases hx
    cases hp : c.panelById k.panel with
    | none => simp [hp] at hk
    | some p =>
      simp only [hp, Option.bind_some] at hk
      split at hk
      · cases hk
      · rename_i hleft
        obtain ⟨h1, h2⟩ := strokeFrom_panel hk
        rw [h1]
        refine ⟨hs.sound.records.names (panelById_mem hp).1 h2, fun r hr e => ?_⟩
        rw [hs.sound.records.unique hr (panelById_mem hp).1 e]; omega
  · exact seekCursor_firm c hs

/-- Where the cursor goes next does not depend on where it stands. -/
theorem advanceCursor_uncursored (c : Controller) (k : Cursor) : c.uncursored.advanceCursor k = c.advanceCursor k := by
  have e : c.uncursored.panelById k.panel = c.panelById k.panel := rfl
  unfold Controller.advanceCursor
  rw [e]
  have e2 : ∀ (p : Panel) (i r o : Nat), c.uncursored.strokeFrom p i r o = c.strokeFrom p i r o := fun _ _ _ _ => rfl
  simp only [e2]
  split <;> rfl

theorem missStroke_uncursored (c : Controller) (k : Cursor) : c.uncursored.missStroke k = c.missStroke k := by
  have e : c.uncursored.countOn k.panel (fun q => { q with missed := q.missed + 1 }) =
      (c.countOn k.panel (fun q => { q with missed := q.missed + 1 })).uncursored := rfl
  unfold Controller.missStroke
  simp only
  rw [e, addCause_uncursored]
  exact advanceCursor_uncursored ((((c.countOn k.panel (fun q => { q with missed := q.missed + 1 })).addCause k.panel
    .strokeFault)).raise .pleatStrokeMissed _) k

/-- The cursor's stroke counted missed. -/
theorem missStroke_kept {c : Controller} (hs : Safe c) {k : Cursor} (hk : c.seq.cursor = some k) :
    Kept c (c.missStroke k) := by
  have h0 := uncursored_firm c hs
  have h1 := h0.trans (spend_kept h0.safe k.panel (fun q => { q with missed := q.missed + 1 }) (fun _ h => by cases h)
    (fun _ => ⟨rfl, rfl, rfl⟩) (fun p hp e x hx => by
      have := hs.sound.strokes.cursorLeft k hk p hp e
      rw [strokesLeft_placed hx] at this
      simp only; omega))
  rw [← missStroke_uncursored]
  exact ((h1.andThen (addCause_firm k.panel .strokeFault)).raise _ _).andThen (advanceCursor_firm k)

/-! ### Issue -/

theorem runsUpTo_snoc : ∀ (w : List WindowEntry) (n : Byte) (e : WindowEntry), runsUpTo w n → e.seq = n →
    runsUpTo (w ++ [e]) (n + 1#8)
  | [], _, e, _, he => ⟨by simp [he], trivial⟩
  | a :: rest, n, e, h, he => by
    refine ⟨?_, runsUpTo_snoc rest n e h.2 he⟩
    have := h.1
    show a.seq + BitVec.ofNat 8 ((rest ++ [e]).length + 1) = n + 1#8
    rw [List.length_append, ← this]
    simp only [List.length_singleton, BitVec.ofNat_add, BitVec.add_assoc]

theorem inFlight_append (v w : List WindowEntry) (id : Nat) : inFlight (v ++ w) id = inFlight v id + inFlight w id := by
  simp [inFlight]

theorem inFlight_one (e : WindowEntry) (id : Nat) : inFlight [e] id = if e.panel = id then 1 else 0 := by
  unfold inFlight
  by_cases h : e.panel = id <;> simp [h]

theorem inFlight_cons (e : WindowEntry) (w : List WindowEntry) (id : Nat) :
    inFlight (e :: w) id = (if e.panel = id then 1 else 0) + inFlight w id := by
  rw [← inFlight_one]; exact inFlight_append [e] w id

theorem isStroke_fits (seq : Byte) (kind : StepKind) (depth : Nat) (q : List TxItem) :
    fits .p (.stroke seq kind depth) q := Or.inl (by intro h; cases h)

/-- A change of the counts of R123 on one panel together with the window. -/
theorem Kept.countWindow {c : Controller} (hs : Safe c) (id : Nat) (f : Placed → Placed) (q : Sequencer)
    (hcons : runsUpTo q.window q.next) (hstep : q.mode ≠ .stepping → q.window = [])
    (hnames : ∀ e ∈ q.window, NamesOnWeb c.tab e.panel) (hcur : q.cursor = c.seq.cursor)
    (hsize : q.window.length ≤ c.windowSize)
    (hroll : ∀ x, (f x).roll = x.roll)
    (hspend : q.cursor = none ∨ ∀ x, (f x).issued + (f x).missed + (f x).aborted = x.issued + x.missed + x.aborted)
    (htotal : ∀ p ∈ c.tab.panels, p.id = id → ∀ x, p.placed = some x →
      (f x).issued + (f x).missed + (f x).aborted ≤ p.total)
    (hcount : ∀ p ∈ c.tab.panels, ∀ x, p.placed = some x →
      if p.id = id then (f x).done + (f x).faulted + inFlight q.window p.id = (f x).issued
      else inFlight q.window p.id = inFlight c.seq.window p.id) :
    Kept c (Controller.countOn { c with seq := q } id f) := by
  have gentle : ∀ p ∈ c.tab.panels, Gentle p (if p.id = id then p.mapPlaced f else p) := by
    intro p _
    split
    · exact Gentle.mapPlaced p f hroll
    · exact Gentle.refl p
  refine Kept.setPanels (q := q) hs _ gentle ?_ hsize
  · refine ⟨hcons, hstep, fun e he => (hnames e he).map gentle, fun k hk => ?_, ?_, ?_, ?_⟩
    · rw [hcur] at hk
      exact (hs.sound.strokes.cursorNames k hk).map gentle
    · intro k hk r hr e
      rcases hspend with hn | hsame
      · rw [hn] at hk; cases hk
      · obtain ⟨p, hp, rfl⟩ := List.mem_map.mp hr
        rw [(gentle p hp).id] at e
        have old := hs.sound.strokes.cursorLeft k (hcur ▸ hk) p hp e
        split
        · cases hx : p.placed with
          | none => rw [Panel.strokesLeft, hx] at old; cases old
          | some x =>
            have : (p.mapPlaced f).placed = some (f x) := by simp [Panel.mapPlaced, hx]
            rw [strokesLeft_placed this, hsame x]
            rw [strokesLeft_placed hx] at old
            exact old
        · exact old
    · intro r hr y hy
      obtain ⟨p, hp, rfl⟩ := List.mem_map.mp hr
      rw [(gentle p hp).id]
      have old := hs.sound.strokes.count p hp
      by_cases e : p.id = id
      · simp only [e, if_true] at hy
        cases hx : p.placed with
        | none => simp [Panel.mapPlaced, hx] at hy
        | some x =>
          simp only [Panel.mapPlaced, hx, Option.map_some, Option.some.injEq] at hy
          have := hcount p hp x hx
          rw [if_pos e] at this
          rw [← hy]; exact this
      · simp only [e, if_false] at hy
        have := hcount p hp y hy
        rw [if_neg e] at this
        rw [this]; exact old y hy
    · intro r hr y hy
      obtain ⟨p, hp, rfl⟩ := List.mem_map.mp hr
      by_cases e : p.id = id
      · simp only [e, if_true] at hy ⊢
        cases hx : p.placed with
        | none => simp [Panel.mapPlaced, hx] at hy
        | some x =>
          simp only [Panel.mapPlaced, hx, Option.map_some, Option.some.injEq] at hy
          rw [← hy]; exact htotal p hp e x hx
      · simp only [e, if_false] at hy ⊢
        exact hs.sound.strokes.total p hp y hy

theorem issueStroke_uncursored (c : Controller) (k : Cursor) : c.uncursored.issueStroke k = c.issueStroke k := by
  have e : c.uncursored.hand .p (.stroke c.seq.next k.kind k.depth) =
      (c.hand .p (.stroke c.seq.next k.kind k.depth)).uncursored := by
    rw [Controller.hand_eq, Controller.hand_eq]
    show (if ((c.link .p).hand _).2 then _ else _) = _
    split <;> rfl
  unfold Controller.issueStroke
  simp only
  conv_rhs => rw [← advanceCursor_uncursored]
  refine congrArg (fun d => Controller.advanceCursor d k) ?_
  have e' : c.uncursored.hand .p (.stroke c.uncursored.seq.next k.kind k.depth) =
      (c.hand .p (.stroke c.seq.next k.kind k.depth)).uncursored := e
  rw [e']
  rfl

/-- A stroke issued to a panel with strokes left, the cursor naming none. -/
theorem issueFree_kept {c : Controller} (hs : Safe c) (k : Cursor) (hn : c.seq.cursor = none)
    (hp : c.issuePasses = true) (hname : NamesOnWeb c.tab k.panel)
    (hleft : ∀ p ∈ c.tab.panels, p.id = k.panel → 0 < p.strokesLeft) : Kept c (c.issueStroke k) := by
  simp only [Controller.issuePasses, Bool.and_eq_true, decide_eq_true_eq, beq_iff_eq] at hp
  obtain ⟨⟨hw, _⟩, hm⟩ := hp
  have away := hand_away c hs.live.awake .p (.stroke c.seq.next k.kind k.depth) (isStroke_fits _ _ _ _)
  have h1 := away.kept hs
  have hseq : (c.hand .p (.stroke c.seq.next k.kind k.depth)).seq = c.seq := away.seq
  have htab : (c.hand .p (.stroke c.seq.next k.kind k.depth)).tab = c.tab := away.tab
  have hnum : ∀ e : WindowEntry, e.seq = c.seq.next → e.panel = k.panel →
      Kept (c.hand .p (.stroke c.seq.next k.kind k.depth)) (Controller.countOn
        { c.hand .p (.stroke c.seq.next k.kind k.depth) with seq :=
          { (c.hand .p (.stroke c.seq.next k.kind k.depth)).seq with
            window := (c.hand .p (.stroke c.seq.next k.kind k.depth)).seq.window ++ [e]
            next := (c.hand .p (.stroke c.seq.next k.kind k.depth)).seq.next + 1#8 } }
        k.panel (fun q => { q with issued := q.issued + 1 })) := by
    intro e he hep
    have hst := h1.safe.sound.strokes
    refine Kept.countWindow h1.safe k.panel _ _ ?_ ?_ ?_ rfl ?_ (fun _ => rfl) (Or.inl ?_) ?_ ?_
    · exact runsUpTo_snoc _ _ _ hst.consecutive (by rw [he, hseq])
    · intro x
      exact absurd (show (c.hand .p _).seq.mode = .stepping by rw [hseq]; exact hm) x
    · intro x hx
      rcases List.mem_append.mp hx with hx | hx
      · exact hst.windowNames x hx
      · rw [List.mem_singleton.mp hx, hep, htab]; exact hname
    · show ((c.hand .p _).seq.window ++ [e]).length ≤ _
      rw [windowSize_of_steady h1.steady, hseq, List.length_append, List.length_singleton]; omega
    · show (c.hand .p _).seq.cursor = none
      rw [hseq]; exact hn
    · intro p hpm e' x hx
      rw [htab] at hpm
      have := hleft p hpm e'
      rw [strokesLeft_placed hx] at this
      simp only; omega
    · intro p hpm x hx
      show if p.id = k.panel then _ + _ + inFlight (_ ++ [e]) _ = _ else inFlight (_ ++ [e]) _ = _
      rw [inFlight_append, inFlight_one, hep]
      have := hst.count p hpm x hx
      split
      · rename_i e'
        rw [if_pos e'.symm]
        show x.done + x.faulted + _ = x.issued + 1
        omega
      · rename_i e'
        rw [if_neg (fun z => e' z.symm)]; rfl
  have h2 := h1.trans (hnum ⟨c.seq.next, k.panel, c.numberOf k.panel, k.due, c.mot.tick⟩ rfl rfl)
  exact h2.andThen (advanceCursor_firm k)

theorem issueStroke_kept {c : Controller} (hs : Safe c) (k : Cursor) (hk : c.seq.cursor = some k)
    (hp : c.issuePasses = true) : Kept c (c.issueStroke k) := by
  have h0 := uncursored_firm c hs
  rw [← issueStroke_uncursored]
  exact h0.trans (issueFree_kept h0.safe k rfl hp (hs.sound.strokes.cursorNames k hk) (hs.sound.strokes.cursorLeft k hk))

/-! ### Crossings -/

theorem strokeCrossing_kept {c d : Controller} (hs : Safe c) (h : c.strokeCrossing = some d) : Kept c d := by
  unfold Controller.strokeCrossing at h
  split at h
  · cases h
  · rename_i k hk
    split at h
    · split at h
      · cases h; exact missStroke_kept hs hk
      · cases h
    · split at h
      · cases h
      · split at h
        · cases h; exact missStroke_kept hs hk
        · split at h
          · rename_i hp
            cases h; exact issueStroke_kept hs k hk hp
          · cases h
            refine Kept.setCursor hs _ (fun x hx => ?_)
            cases hx
            exact ⟨hs.sound.strokes.cursorNames k hk, hs.sound.strokes.cursorLeft k hk⟩

theorem strokeCrossings_firm : ∀ n : Nat, Firm (Controller.strokeCrossings n)
  | 0 => fun _ hs => Kept.refl hs
  | n + 1 => by
    intro c hs
    unfold Controller.strokeCrossings
    split
    · exact Kept.refl hs
    · rename_i d hd
      exact (strokeCrossing_kept hs hd).andThen (strokeCrossings_firm n)

theorem settleStrokes_firm : Firm Controller.settleStrokes := fun c hs => strokeCrossings_firm _ c hs

theorem retestStroke_firm : Firm Controller.retestStroke := by
  intro c hs
  unfold Controller.retestStroke
  split
  · exact Kept.refl hs
  · rename_i k hk
    split
    · rename_i hp
      simp only [Bool.and_eq_true] at hp
      exact (issueStroke_kept hs k hk hp.2).andThen settleStrokes_firm
    · exact Kept.refl hs

theorem leavePanel_firm (id : Nat) : Firm (fun c => c.leavePanel id) := by
  intro c hs
  show Kept c (c.leavePanel id)
  unfold Controller.leavePanel
  split
  · exact Kept.refl hs
  · split
    · exact (seekCursor_firm c hs).andThen settleStrokes_firm
    · exact Kept.refl hs

theorem conveyedTest_firm (id : Nat) : Firm (fun c => c.conveyedTest id) := by
  intro c hs
  show Kept c (c.conveyedTest id)
  unfold Controller.conveyedTest
  split
  · exact Kept.refl hs
  · rename_i p hp
    split
    · rename_i h
      exact Kept.updatePanel hs hp (Gentle.inState _ (by rw [h.1]; decide) (by decide)) (SameCounts.of_placed rfl)
    · exact Kept.refl hs

/-! ### Resync -/

theorem faultEntry_seq (c : Controller) (q : Sequencer) (e : WindowEntry) :
    Controller.faultEntry { c with seq := q } e = { c.faultEntry e with seq := q } :=
  addCause_seq (c.countOn e.panel (fun x => { x with faulted := x.faulted + 1 })) q e.panel .strokeFault

theorem foldl_faultEntry_seq (q : Sequencer) : ∀ (w : List WindowEntry) (c : Controller),
    w.foldl Controller.faultEntry { c with seq := q } = { w.foldl Controller.faultEntry c with seq := q }
  | [], _ => rfl
  | e :: rest, c => by
    simp only [List.foldl_cons, faultEntry_seq]
    exact foldl_faultEntry_seq q rest (c.faultEntry e)

theorem faultEntry_seq_eq (c : Controller) (e : WindowEntry) : (c.faultEntry e).seq = c.seq := by
  show (Controller.addCause _ _ _).seq = _
  unfold Controller.addCause
  split
  · rfl
  · split <;> rfl

theorem foldl_faultEntry_seq_eq : ∀ (w : List WindowEntry) (c : Controller), (w.foldl Controller.faultEntry c).seq = c.seq
  | [], _ => rfl
  | e :: rest, c => by
    rw [List.foldl_cons, foldl_faultEntry_seq_eq rest, faultEntry_seq_eq]

/-- The oldest entry leaves the window as its stroke is counted done or faulted. -/
theorem popEntry_kept {c : Controller} (hs : Safe c) {e : WindowEntry} {rest : List WindowEntry}
    (hw : c.seq.window = e :: rest) (f : Placed → Placed)
    (hf : ∀ x, (f x).done + (f x).faulted = x.done + x.faulted + 1 ∧ (f x).issued = x.issued ∧ (f x).roll = x.roll ∧
      (f x).issued + (f x).missed + (f x).aborted = x.issued + x.missed + x.aborted) :
    Kept c (Controller.countOn { c with seq := { c.seq with window := rest } } e.panel f) := by
  have h := hs.sound.strokes
  refine Kept.countWindow hs e.panel f _ ?_ ?_ ?_ rfl ?_ (fun x => (hf x).2.2.1) (Or.inr (fun x => (hf x).2.2.2))
    (fun p hp _ x hx => by rw [(hf x).2.2.2]; exact h.total p hp x hx) ?_
  · have := h.consecutive
    rw [hw] at this; exact this.2
  · intro x
    have := h.stepping x
    rw [hw] at this; cases this
  · intro x hx
    exact h.windowNames x (by rw [hw]; exact List.mem_cons_of_mem e hx)
  · have := hs.sound.window hs.live.on
    rw [hw] at this
    exact Nat.le_of_succ_le this
  · intro p hp x hx
    have := h.count p hp x hx
    rw [hw, inFlight_cons] at this
    show if p.id = e.panel then _ + _ + inFlight rest _ = _ else inFlight rest _ = inFlight c.seq.window _
    rw [hw, inFlight_cons]
    split
    · rename_i e'
      rw [if_pos e'.symm] at this
      rw [(hf x).1, (hf x).2.1]; omega
    · rename_i e'
      rw [if_neg (fun z => e' z.symm)]; omega

/-- Every entry counted faulted, and the window emptied (R127). -/
theorem faultAll_kept : ∀ (w : List WindowEntry) {c : Controller}, Safe c → c.seq.window = w →
    Kept c { w.foldl Controller.faultEntry c with seq := { c.seq with window := [] } }
  | [], c, hs, hw => by
    have : ({ c with seq := { c.seq with window := [] } } : Controller) = c := by
      rw [← hw]
    show Kept c { c with seq := { c.seq with window := [] } }
    rw [this]; exact Kept.refl hs
  | e :: rest, c, hs, hw => by
    have h1 := popEntry_kept hs hw (fun q => { q with faulted := q.faulted + 1 }) (fun x => ⟨by simp; omega, rfl, rfl, rfl⟩)
    have h2 := h1.andThen (addCause_firm e.panel .strokeFault)
    have e2 : Controller.addCause (Controller.countOn { c with seq := { c.seq with window := rest } } e.panel
        (fun q => { q with faulted := q.faulted + 1 })) e.panel .strokeFault =
        { c.faultEntry e with seq := { c.seq with window := rest } } :=
      faultEntry_seq c { c.seq with window := rest } e
    simp only [e2] at h2
    have h3 := h2.trans (faultAll_kept rest h2.safe rfl)
    have e3 : ({ rest.foldl Controller.faultEntry { c.faultEntry e with seq := { c.seq with window := rest } } with
          seq := { { c.seq with window := rest } with window := [] } } : Controller) =
        { (e :: rest).foldl Controller.faultEntry c with seq := { c.seq with window := [] } } := by
      rw [foldl_faultEntry_seq]; rfl
    rw [← e3]; exact h3

theorem sendResync_calm : Calm Controller.sendResync := by
  intro c hl
  have h0 : Away c c.withdrawHead := Away.setLink c .p { c.chP with queue := [] } rfl
    (fun i he => ⟨(i he).1, (i he).2.1, rfl⟩) (fun _ => ⟨Nat.zero_le _, Nat.zero_le _⟩)
  have h1 := h0.hand hl .p .brk (Or.inr rfl)
  exact h1.hand hl .p .resync (Or.inl (by intro h; cases h))

theorem sendResync_seq (c : Controller) : c.sendResync.seq = c.seq := by
  unfold Controller.sendResync
  rw [Controller.hand_eq, Controller.hand_eq]
  split <;> split <;> rfl

theorem conveyedTests_firm : ∀ w : List WindowEntry,
    Firm (fun c => w.foldl (fun d (e : WindowEntry) => d.conveyedTest e.panel) c)
  | [] => fun _ hs => Kept.refl hs
  | e :: rest => fun c hs => (conveyedTest_firm e.panel c hs).andThen (conveyedTests_firm rest)

theorem conveyedTest_seq (c : Controller) (id : Nat) : (c.conveyedTest id).seq = c.seq := by
  unfold Controller.conveyedTest
  split
  · rfl
  · split <;> rfl

theorem conveyedTests_seq : ∀ (w : List WindowEntry) (c : Controller),
    (w.foldl (fun d (e : WindowEntry) => d.conveyedTest e.panel) c).seq = c.seq
  | [], _ => rfl
  | e :: rest, c => by rw [List.foldl_cons, conveyedTests_seq rest, conveyedTest_seq]

theorem startResync_firm : Firm Controller.startResync := by
  intro c hs
  have h1 := faultAll_kept c.seq.window hs rfl
  have h2 := h1.andThen (conveyedTests_firm c.seq.window)
  have h3 := h2.calm sendResync_calm
  have e0 : ({ c.seq.window.foldl Controller.faultEntry c with seq :=
      { (c.seq.window.foldl Controller.faultEntry c).seq with window := [] } } : Controller) =
      { c.seq.window.foldl Controller.faultEntry c with seq := { c.seq with window := [] } } := by
    rw [foldl_faultEntry_seq_eq]
  unfold Controller.startResync
  simp only [e0]
  refine h3.trans (Kept.setSeqPlain h3.safe _ rfl rfl rfl (Or.inr ?_))
  rw [sendResync_seq, conveyedTests_seq]

theorem ackTimeoutTest_firm : Firm Controller.ackTimeoutTest := by
  intro c hs
  unfold Controller.ackTimeoutTest
  split
  · exact ((Kept.refl hs).raise _ _).andThen startResync_firm
  · exact Kept.refl hs

theorem missWaiting_firm : Firm Controller.missWaiting := by
  intro c hs
  unfold Controller.missWaiting
  split
  · rename_i k hk
    split
    · exact (missStroke_kept hs hk).andThen settleStrokes_firm
    · exact Kept.refl hs
  · exact Kept.refl hs

theorem attemptTest_firm : Firm Controller.attemptTest := by
  intro c hs
  unfold Controller.attemptTest
  split
  · rename_i h
    have hm : c.seq.mode = .resync := by
      simp only [Controller.attemptOverdue, Bool.and_eq_true, beq_iff_eq] at h; exact h.1
    have hw := hs.sound.strokes.stepping (by rw [hm]; decide)
    split
    · have h1 := (Kept.refl hs).calm sendResync_calm
      exact h1.trans (Kept.setSeqPlain h1.safe _ rfl rfl rfl (Or.inr (by rw [sendResync_seq]; exact hw)))
    · exact ((Kept.setSeqPlain hs { c.seq with mode := .fault } rfl rfl rfl (Or.inr hw)).raise _ _).andThen
        missWaiting_firm
  · exact Kept.refl hs

/-! ### The head's telegrams -/

theorem headReady_firm : Firm Controller.headReady := by
  intro c hs
  exact (Kept.setSeqPlain hs { c.seq with head := .ready } rfl rfl rfl (Or.inl rfl)).andThen retestStroke_firm

theorem resumeAnyStep_firm : Firm Controller.resumeAnyStep := by
  intro c hs
  unfold Controller.resumeAnyStep
  split
  · exact headReady_firm c hs
  · exact Kept.refl hs

/-- An acknowledgement whose outcome keeps the count law as it takes the oldest entry. -/
theorem acknowledge_firm (seq : Byte) (outcome : Controller → WindowEntry → Controller)
    (ho : ∀ (c : Controller) (e : WindowEntry) (rest : List WindowEntry), Safe c → c.seq.window = e :: rest →
      Kept c (outcome { c with seq := { c.seq with window := rest } } e)) : Firm (fun c => c.acknowledge seq outcome) := by
  intro c hs
  show Kept c (c.acknowledge seq outcome)
  unfold Controller.acknowledge
  split
  · split
    · exact ((Kept.refl hs).raise _ _).andThen startResync_firm
    · rename_i e rest hw
      split
      · exact ((ho c e rest hs hw).andThen (conveyedTest_firm e.panel)).andThen retestStroke_firm
      · exact ((Kept.refl hs).raise _ _).andThen startResync_firm
  · exact Kept.refl hs

theorem strokeDone_firm (seq : Byte) : Firm (fun c => c.acknowledge seq Controller.doneEntry) :=
  acknowledge_firm seq _ (fun _ _ _ hs hw => popEntry_kept hs hw _ (fun _ => ⟨by simp only; omega, rfl, rfl, rfl⟩))

theorem strokeFault_firm (seq cause : Byte) : Firm (fun c => c.acknowledge seq (Controller.faultedEntry cause)) :=
  acknowledge_firm seq _ (fun _ e _ hs hw =>
    ((popEntry_kept hs hw (fun q => { q with faulted := q.faulted + 1 }) (fun _ => ⟨by simp only; omega, rfl, rfl, rfl⟩)).andThen
      (addCause_firm e.panel .strokeFault)).raise _ _)

theorem resyncDone_firm (next : Byte) : Firm (fun c => c.resyncDone next) := by
  intro c hs
  show Kept c (c.resyncDone next)
  unfold Controller.resyncDone
  split
  · rename_i hm
    have h := hs.sound.strokes
    have hw := h.stepping (by rw [hm]; decide)
    have h1 : Kept c { c with seq := { c.seq with next := next, mode := .stepping, attempts := 0, head := .ready } } := by
      refine Kept.setSeq hs ⟨?_, ?_, ?_, ?_, ?_, ?_, h.total⟩ (hs.sound.window hs.live.on)
      · show runsUpTo c.seq.window next
        rw [hw]; trivial
      · intro x; exact absurd rfl x
      · exact h.windowNames
      · exact h.cursorNames
      · exact h.cursorLeft
      · exact h.count
    exact (h1.raise _ _).andThen retestStroke_firm
  · exact Kept.refl hs

/-- The strokes left of a live panel counted missed or aborted, with their cause, and the cursor taken off the panel. -/
theorem spendLeave_kept {c : Controller} (hs : Safe c) {p : Panel} (hp : p ∈ c.tab.panels) (f : Placed → Placed)
    (hf : ∀ x, (f x).done + (f x).faulted = x.done + x.faulted ∧ (f x).issued = x.issued ∧ (f x).roll = x.roll)
    (hspend : ∀ x, (f x).issued + (f x).missed + (f x).aborted = x.issued + x.missed + x.aborted + p.strokesLeft)
    (k : Cause) (g : Controller → Controller) (hg : Calm g) (hseq : ∀ d, (g d).seq = d.seq)
    (hun : ∀ d, g d.uncursored = (g d).uncursored) :
    Kept c ((g ((c.countOn p.id f).addCause p.id k)).leavePanel p.id) := by
  have bound : ∀ q ∈ c.tab.panels, q.id = p.id → ∀ x, q.placed = some x →
      (f x).issued + (f x).missed + (f x).aborted ≤ q.total := by
    intro q hq e x hx
    rw [hs.sound.records.unique hq hp e] at hx ⊢
    have := hs.sound.strokes.total p hp x hx
    rw [hspend x, strokesLeft_placed hx]; omega
  have seq_eq : (g ((c.countOn p.id f).addCause p.id k)).seq = c.seq := by rw [hseq, addCause_seq_eq]; rfl
  by_cases hcur : ∃ x, c.seq.cursor = some x ∧ x.panel = p.id
  · obtain ⟨x, hx, he⟩ := hcur
    have h0 := uncursored_firm c hs
    have h1 := h0.trans (spend_kept h0.safe p.id f (fun _ h => by cases h) hf bound)
    have h2 := (((h1.andThen (addCause_firm p.id k)).calm hg).andThen seekCursor_firm).andThen settleStrokes_firm
    have e1 : c.uncursored.countOn p.id f = (c.countOn p.id f).uncursored := rfl
    have e2 : (g ((c.countOn p.id f).addCause p.id k)).leavePanel p.id =
        (g ((c.uncursored.countOn p.id f).addCause p.id k)).seekCursor.settleStrokes := by
      rw [e1, addCause_uncursored, hun, seekCursor_uncursored]
      unfold Controller.leavePanel
      rw [seq_eq, hx]
      simp only [he, if_true]
    rw [e2]; exact h2
  · have hne : ∀ x, c.seq.cursor = some x → x.panel ≠ p.id := fun x hx e => hcur ⟨x, hx, e⟩
    exact (((spend_kept hs p.id f hne hf bound).andThen (addCause_firm p.id k)).calm hg).andThen (leavePanel_firm p.id)

theorem abortStrokes_kept {c : Controller} (hs : Safe c) {p : Panel} (hp : p ∈ c.tab.panels) :
    Kept c (c.abortStrokes p) :=
  (spendLeave_kept hs hp (fun q => { q with aborted := q.aborted + p.strokesLeft }) (fun _ => ⟨rfl, rfl, rfl⟩)
    (fun _ => by simp only; omega) .aborted (fun d => d) Calm.id (fun _ => rfl) (fun _ => rfl)).andThen
    (conveyedTest_firm p.id)

theorem takeHeadBusy_firm : Firm Controller.takeHeadBusy := by
  intro c hs
  exact (Kept.setSeqPlain hs { c.seq with head := .busy } rfl rfl rfl (Or.inl rfl)).raise _ _

theorem headInfo_fits (c : Controller) (q : List TxItem) : fits .p c.headInfo q := by
  refine Or.inl ?_
  unfold Controller.headInfo
  split
  · split <;> (intro h; cases h)
  · intro h; cases h

theorem headQuery_firm : Firm (fun c => c.resumeAnyStep.hand .p c.resumeAnyStep.headInfo) := by
  intro c hs
  have h := resumeAnyStep_firm c hs
  exact h.trans ((hand_away _ h.safe.live.awake .p _ (headInfo_fits _ _)).kept h.safe)

end Sys2Proof.Machine
end

