-- ==== Sys2Proof/Laws/GateKept.lean ====
section
/-! SUPPORT. Admission and the gate keep the invariant: the panel leaves the queue for the roster in one event (R5). -/

namespace Sys2Proof.Machine

/-- What an operation keeps beside the record unit. -/
structure Beside (c d : Controller) : Prop where
  seq : d.seq = c.seq
  steady : d.steady = c.steady
  blocks : BlocksSound c → BlocksSound d

theorem Near.beside {c d : Controller} (h : Near c d) : Beside c d := ⟨h.seq, h.steady, h.blocks⟩

theorem Beside.trans {a b c : Controller} (h : Beside a b) (k : Beside b c) : Beside a c :=
  ⟨k.seq.trans h.seq, k.steady.trans h.steady, fun x => k.blocks (h.blocks x)⟩

theorem Beside.setTab (c : Controller) (t : RecordUnit) : Beside c { c with tab := t } :=
  ⟨rfl, rfl, fun b => { b with cuts := b.cuts }⟩

theorem Beside.live {c d : Controller} (h : Beside c d) (hl : Live c) : Live d := hl.of_steady h.steady

theorem Beside.calm {c d : Controller} (h : Beside c d) (hl : Live c) {g : Controller → Controller} (hg : Calm g) :
    Beside c (g d) := h.trans (hg d (h.live hl)).beside

/-- A change of the schedule queue with its head report. -/
theorem setQueue_beside {c : Controller} (hl : Live c) (queue : List Nat) :
    Beside c (c.setQueue queue) ∧ (c.setQueue queue).tab = { c.tab with queue := queue } ∧
      (RollsGood c → RollsGood (c.setQueue queue)) := by
  unfold Controller.setQueue
  simp only
  have h := Beside.setTab c { c.tab with queue := queue }
  split
  · exact ⟨h, rfl, fun g => g.setTab rfl⟩
  · have a := headReport_calm _ (h.live hl)
    exact ⟨h.calm hl headReport_calm, a.tab, fun g => a.rolls (g.setTab rfl)⟩

/-- The safe state after changes beside the record unit and a sound new table. -/
theorem Beside.kept {c d : Controller} (h : Beside c d) (hs : Safe c) (hr : RecordsSound d.tab)
    (hq : StrokesSound d.tab c.seq) (hg : RollsGood d) (hn : PatternsCounted d.tab c.lib)
    (ho : ∀ id, OnWeb c id → OnWeb d id) : Kept c d := by
  refine ⟨⟨⟨h.blocks hs.sound.blocks, hr, by rw [h.seq]; exact hq, hg.sound, ?_, hg.counted, ?_, ?_⟩, h.live hs.live⟩,
    h.steady, ho⟩
  · rw [show d.lib = c.lib from congrArg Steady.lib h.steady]; exact hn
  · intro _
    rw [h.seq, windowSize_of_steady h.steady]
    exact hs.sound.window hs.live.on
  · intro hc
    have := (h.live hs.live).on
    rw [hc] at this; cases this

theorem headPanel_spec {c : Controller} {p : Panel} (h : c.headPanel = some p) :
    ∃ rest, c.tab.queue = p.id :: rest ∧ c.panelById p.id = some p := by
  unfold Controller.headPanel at h
  cases hq : c.tab.queue with
  | nil => rw [hq] at h; cases h
  | cons i rest =>
    rw [hq] at h
    have h' : c.panelById i = some p := h
    have := (panelById_mem h').2
    subst this
    exact ⟨rest, rfl, h'⟩

/-- The table as admission leaves it. -/
def admitted (t : RecordUnit) (id : Nat) (g : Panel → Panel) : RecordUnit :=
  { t with
    panels := t.panels.map (fun q => if q.id = id then g q else q)
    roster := t.roster ++ [id]
    queue := t.queue.tail }

theorem RecordsSound.admitted {t : RecordUnit} (h : RecordsSound t) {p : Panel} {rest : List Nat}
    (hp : p ∈ t.panels) (hq : t.queue = p.id :: rest) (g : Panel → Panel)
    (hg : ∀ q, (g q).id = q.id ∧ (g q).number = q.number ∧ (g q).state ≠ .scheduled ∧ (g q).placed.isSome = true) :
    RecordsSound (Machine.admitted t p.id g) := by
  have hid : ∀ q : Panel, (if q.id = p.id then g q else q).id = q.id := by
    intro q; split
    · exact (hg q).1
    · rfl
  have hsched : p.state = .scheduled := by
    obtain ⟨r, hr, e, hs⟩ := (h.queued p.id).mp (by rw [hq]; exact List.mem_cons_self)
    rw [← h.unique hr hp e]; exact hs
  have notTail : p.id ∉ rest := by
    have := h.queueOnce; rw [hq] at this; exact (List.nodup_cons.mp this).1
  have notRoster : p.id ∉ t.roster := by
    intro hx
    obtain ⟨r, hr, e, hs⟩ := (h.onRoster p.id).mp hx
    rw [h.unique hr hp e] at hs; exact hs hsched
  refine ⟨?_, ?_, ?_, ?_, ?_, ?_, ?_, ?_, ?_⟩
  · simpa [Machine.admitted] using h.room
  · intro q hq'
    obtain ⟨r, hr, rfl⟩ := List.mem_map.mp hq'
    rw [hid]; exact h.known r hr
  · have : (Machine.admitted t p.id g).panels.map Panel.id = t.panels.map Panel.id := by
      show (t.panels.map _).map Panel.id = _
      rw [List.map_map]; exact List.map_congr_left (fun q _ => hid q)
    rw [this]; exact h.ids
  · have : (Machine.admitted t p.id g).panels.map Panel.number = t.panels.map Panel.number := by
      show (t.panels.map _).map Panel.number = _
      rw [List.map_map]
      refine List.map_congr_left (fun q _ => ?_)
      show (if q.id = p.id then g q else q).number = q.number
      split
      · exact (hg q).2.1
      · rfl
    rw [this]; exact h.numbers
  · have := h.queueOnce
    rw [hq] at this
    show t.queue.tail.Nodup
    rw [hq]; exact (List.nodup_cons.mp this).2
  · show (t.roster ++ [p.id]).Nodup
    rw [List.nodup_append]
    refine ⟨h.rosterOnce, by simp, ?_⟩
    intro a ha b hb e
    rw [List.mem_singleton.mp hb] at e
    exact notRoster (e ▸ ha)
  · intro id
    show id ∈ t.queue.tail ↔ _
    rw [hq]
    constructor
    · intro hx
      obtain ⟨r, hr, e, hs⟩ := (h.queued id).mp (by rw [hq]; exact List.mem_cons_of_mem _ hx)
      refine ⟨_, List.mem_map_of_mem hr, by rw [hid]; exact e, ?_⟩
      rw [if_neg]
      · exact hs
      · intro e'; rw [← e, e'] at hx; exact notTail hx
    · rintro ⟨q, hq', e, hs⟩
      obtain ⟨r, hr, rfl⟩ := List.mem_map.mp hq'
      rw [hid] at e
      by_cases e' : r.id = p.id
      · rw [if_pos e'] at hs; exact absurd hs (hg r).2.2.1
      · rw [if_neg e'] at hs
        have := (h.queued id).mpr ⟨r, hr, e, hs⟩
        rw [hq] at this
        rcases List.mem_cons.mp this with x | x
        · exact absurd (e.trans x) e'
        · exact x
  · intro id
    show id ∈ t.roster ++ [p.id] ↔ _
    rw [List.mem_append, List.mem_singleton]
    constructor
    · rintro (hx | hx)
      · obtain ⟨r, hr, e, hs⟩ := (h.onRoster id).mp hx
        refine ⟨_, List.mem_map_of_mem hr, by rw [hid]; exact e, ?_⟩
        split
        · exact (hg r).2.2.1
        · exact hs
      · refine ⟨_, List.mem_map_of_mem hp, by rw [hid]; exact hx.symm, ?_⟩
        rw [if_pos rfl]; exact (hg p).2.2.1
    · rintro ⟨q, hq', e, hs⟩
      obtain ⟨r, hr, rfl⟩ := List.mem_map.mp hq'
      rw [hid] at e
      by_cases e' : r.id = p.id
      · exact Or.inr (e.symm.trans e')
      · rw [if_neg e'] at hs
        exact Or.inl ((h.onRoster id).mpr ⟨r, hr, e, hs⟩)
  · intro q hq'
    obtain ⟨r, hr, rfl⟩ := List.mem_map.mp hq'
    split
    · exact ⟨fun _ => (hg r).2.2.1, fun _ => (hg r).2.2.2⟩
    · exact h.placed r hr

theorem StrokesSound.admitted {t : RecordUnit} {q : Sequencer} (hr : RecordsSound t) (h : StrokesSound t q) {p : Panel}
    (hp : p ∈ t.panels) (hs : p.state = .scheduled) (g : Panel → Panel)
    (hg : ∀ r, (g r).id = r.id ∧ ∃ x, (g r).placed = some x ∧ x.done = 0 ∧ x.faulted = 0 ∧ x.issued = 0 ∧
      x.missed = 0 ∧ x.aborted = 0) :
    StrokesSound (Machine.admitted t p.id g) q := by
  have names : ∀ id, NamesOnWeb t id → NamesOnWeb (Machine.admitted t p.id g) id := by
    intro id hn
    refine ⟨hn.1, ?_⟩
    intro r hr' e
    obtain ⟨r0, hr0, rfl⟩ := List.mem_map.mp hr'
    by_cases e' : r0.id = p.id
    · rw [if_pos e']
      obtain ⟨x, hx, _⟩ := (hg r0).2
      rw [hx]; rfl
    · rw [if_neg e'] at e ⊢
      exact hn.2 r0 hr0 e
  have none0 : inFlight q.window p.id = 0 := by
    unfold inFlight
    rw [List.length_eq_zero_iff, List.filter_eq_nil_iff]
    intro e he
    have hn := (h.windowNames e he).2 p hp
    intro hx
    have := hn (by simpa using (beq_iff_eq.mp hx).symm)
    rw [hr.placed p hp] at this
    exact this hs
  have notNamed : ∀ k, q.cursor = some k → k.panel ≠ p.id := by
    intro k hk e
    have := (h.cursorNames k hk).2 p hp e.symm
    rw [hr.placed p hp] at this
    exact this hs
  refine ⟨h.consecutive, h.stepping, fun e he => names _ (h.windowNames e he), fun k hk => names _ (h.cursorNames k hk),
    ?_, ?_, ?_⟩
  · intro k hk r hr' e
    obtain ⟨r0, hr0, rfl⟩ := List.mem_map.mp hr'
    by_cases e' : r0.id = p.id
    · rw [if_pos e', (hg r0).1, e'] at e
      exact absurd e.symm (notNamed k hk)
    · rw [if_neg e'] at e ⊢
      exact h.cursorLeft k hk r0 hr0 e
  · intro r hr' x hx
    obtain ⟨r0, hr0, rfl⟩ := List.mem_map.mp hr'
    by_cases e' : r0.id = p.id
    · rw [if_pos e'] at hx ⊢
      obtain ⟨y, hy, h1, h2, h3, _⟩ := (hg r0).2
      rw [hy] at hx; cases hx
      rw [(hg r0).1, e', none0, h1, h2, h3]
    · rw [if_neg e'] at hx ⊢
      exact h.count r0 hr0 x hx
  · intro r hr' x hx
    obtain ⟨r0, hr0, rfl⟩ := List.mem_map.mp hr'
    by_cases e' : r0.id = p.id
    · rw [if_pos e'] at hx ⊢
      obtain ⟨y, hy, _, _, h3, h4, h5⟩ := (hg r0).2
      rw [hy] at hx; cases hx
      rw [h3, h4, h5]; exact Nat.zero_le _
    · rw [if_neg e'] at hx ⊢
      exact h.total r0 hr0 x hx

/-- A SCHEDULED panel is admitted onto a roll that is on the web, whose count goes up. -/
theorem RollsGood.takenOn {c : Controller} (g : RollsGood c) (hr : RecordsSound c.tab) {p : Panel} (hp : p ∈ c.tab.panels)
    (hs : p.state = .scheduled) (x : Placed) (hx : ∃ y ∈ c.rolls.rolls, y.id = x.roll ∧ y.onWeb) :
    RollsGood ((c.updatePanel p.id (fun q => { q with state := .feeding, placed := some x })).mapRolls
      (fun r => if r.id = x.roll then { r with refs := r.refs + 1 } else r)) := by
  have hpl : p.placed = none := by
    cases h : p.placed with
    | none => rfl
    | some y => exact absurd hs ((hr.placed p hp).mp (by rw [h]; rfl))
  obtain ⟨w, hw, hw1, hw2⟩ := hx
  have hid : ∀ r : Roll, (if r.id = x.roll then { r with refs := r.refs + 1 } else r).id = r.id := by
    intro r; split <;> rfl
  have hst : ∀ r : Roll, (if r.id = x.roll then { r with refs := r.refs + 1 } else r).state = r.state := by
    intro r; split <;> rfl
  refine ⟨g.sound.mapRefs hid hst (fun r hr' hn => ?_), ⟨fun q hq y hy => ?_, fun y hy => ?_⟩⟩
  · have hn' : r.isNew := by rcases hn with h | h <;> rw [hst] at h <;> [exact Or.inl h; exact Or.inr h]
    rw [if_neg (fun e => ?_)]
    · exact g.sound.table.unnamed r hr' hn'
    · rw [g.sound.table.unique hw hr' (hw1.trans e.symm)] at hw2
      rcases hw2 with h | h <;> rcases hn' with k | k <;> (rw [h] at k; cases k)
  · obtain ⟨q0, hq0, rfl⟩ := List.mem_map.mp hq
    have : ∃ z ∈ c.rolls.rolls, z.id = y.roll := by
      split at hy
      · cases hy; exact ⟨w, hw, hw1⟩
      · exact g.counted.slot q0 hq0 y hy
    obtain ⟨z, hz, hz1⟩ := this
    refine ⟨_, ?_, (hid z).trans hz1⟩
    rw [mapRolls_rolls]
    exact List.mem_map_of_mem hz
  · rw [mapRolls_rolls] at hy
    obtain ⟨z, hz, rfl⟩ := List.mem_map.mp hy
    rw [hid]
    have hc := g.counted.count z hz
    have := countNames_update hr.ids hp (fun q => { q with state := .feeding, placed := some x })
      (fun q => q.placed.map Placed.roll == some z.id)
    show _ = ((c.tab.panels.map _).filter _).length
    unfold RecordUnit.rollNames at hc
    rw [hpl] at this
    simp only [Option.map_none, Option.map_some] at this
    split
    · rename_i e
      simp [e] at this hc ⊢
      omega
    · rename_i e
      have e' : ¬ x.roll = z.id := fun h => e h.symm
      simp [e'] at this hc ⊢
      omega

theorem takeOn_kept {c : Controller} (hs : Safe c) {p : Panel} (hp : c.headPanel = some p) (x : Placed)
    (hx : x.done = 0 ∧ x.faulted = 0 ∧ x.issued = 0 ∧ x.missed = 0 ∧ x.aborted = 0)
    (hroll : ∃ y ∈ c.rolls.rolls, y.id = x.roll ∧ y.onWeb) : Kept c (c.takeOn p x) := by
  obtain ⟨rest, hq, hpid⟩ := headPanel_spec hp
  obtain ⟨hm, _⟩ := panelById_mem hpid
  have hl := hs.live
  have hsched : p.state = .scheduled := by
    obtain ⟨r, hr, e, hst⟩ := (hs.sound.records.queued p.id).mp (by rw [hq]; exact List.mem_cons_self)
    rw [← hs.sound.records.unique hr hm e]; exact hst
  have g2 := hs.sound.good.takenOn hs.sound.records hm hsched x hroll
  have b1 : Beside c ((c.updatePanel p.id (fun q => { q with state := .feeding, placed := some x })).mapRolls
      (fun r => if r.id = x.roll then { r with refs := r.refs + 1 } else r)) :=
    (Beside.setTab c _).trans (mapRolls_near _ _).beside
  have a2 : Away _ (Controller.removeHold _ .maxGap) := removeHold_calm .maxGap _ (b1.live hl)
  have b2 := b1.trans a2.beside
  have t2 := a2.tab
  have g3 := a2.rolls g2
  unfold Controller.takeOn Controller.countRoll Controller.updateRoll
  simp only
  revert b2 t2 g3
  generalize ((c.updatePanel p.id (fun q => { q with state := .feeding, placed := some x })).mapRolls
    (fun r => if r.id = x.roll then { r with refs := r.refs + 1 } else r)).removeHold .maxGap = d
  intro b2 t2 g3
  have a4 : Away d { d with line := { d.line with lastTail := some (x.leadA + p.flatLength) } } := Away.setLine d _ rfl
  have b3 : Beside c { d with
      line := { d.line with lastTail := some (x.leadA + p.flatLength) }
      tab := { d.tab with roster := d.tab.roster ++ [p.id] } } :=
    b2.trans (a4.beside.trans
      (Beside.setTab { d with line := { d.line with lastTail := some (x.leadA + p.flatLength) } }
        { d.tab with roster := d.tab.roster ++ [p.id] }))
  have g4 : RollsGood { d with
      line := { d.line with lastTail := some (x.leadA + p.flatLength) }
      tab := { d.tab with roster := d.tab.roster ++ [p.id] } } := (a4.rolls g3).setTab rfl
  have key : ∀ f : Controller, Beside c f → f.tab = { d.tab with roster := d.tab.roster ++ [p.id] } → RollsGood f →
      Kept c (f.setQueue f.tab.queue.tail) := by
    intro f bf tf gf
    obtain ⟨bq, tq, gq⟩ := setQueue_beside (bf.live hl) f.tab.queue.tail
    have ht : (f.setQueue f.tab.queue.tail).tab =
        admitted c.tab p.id (fun q => { q with state := .feeding, placed := some x }) := by
      rw [tq, tf, t2]; rfl
    refine (bf.trans bq).kept hs ?_ ?_ (gq gf) ?_ ?_
    · rw [ht]
      exact hs.sound.records.admitted hm hq _ (fun q => ⟨rfl, rfl, by simp, rfl⟩)
    · rw [ht]
      exact StrokesSound.admitted hs.sound.records hs.sound.strokes hm hsched _ (fun r => ⟨rfl, x, rfl, hx⟩)
    · rw [ht]
      have n := hs.sound.patterns.map (fun q => if q.id = p.id then { q with state := .feeding, placed := some x } else q)
        (fun q _ => by split <;> rfl)
      exact ⟨n.named, n.count, n.free⟩
    · rintro id ⟨r, hr, e', hst⟩
      unfold OnWeb
      rw [ht]
      refine ⟨_, List.mem_map_of_mem hr, ?_, ?_⟩
      · split <;> exact e'
      · split
        · simp
        · exact hst
  split
  · exact key _ (b3.calm hl (raise_calm _ _)) rfl ((raise_calm _ _ _ (b3.live hl)).rolls g4)
  · exact key _ b3 rfl g4

theorem placedFor_counts (c : Controller) (p : Panel) :
    (c.placedFor p).done = 0 ∧ (c.placedFor p).faulted = 0 ∧ (c.placedFor p).issued = 0 ∧ (c.placedFor p).missed = 0 ∧
      (c.placedFor p).aborted = 0 := by
  unfold Controller.placedFor
  split <;> exact ⟨rfl, rfl, rfl, rfl, rfl⟩

theorem cursorTake_firm : Firm Controller.cursorTake := by
  intro c hs
  unfold Controller.cursorTake
  split
  · exact (seekCursor_firm c hs).andThen settleStrokes_firm
  · exact Kept.refl hs

/-- Condition 6 of the gate holds only with a feed roll. -/
theorem admissible_feeds {c : Controller} (h : c.admissible = true) : c.rolls.feedRoll.isSome = true := by
  unfold Controller.admissible at h
  split at h
  · cases h
  · simp only [Bool.and_eq_true] at h
    have hf := h.1.1.2
    unfold Controller.gateFabric Controller.feedRollRec at hf
    cases hr : c.rolls.feedRoll with
    | none => rw [hr] at hf; cases hf
    | some _ => rfl

theorem admit_kept {c : Controller} (hs : Safe c) {p : Panel} (hp : c.headPanel = some p) (ha : c.admissible = true) :
    Kept c (c.admitPanel p) := by
  obtain ⟨i, hi⟩ := Option.isSome_iff_exists.mp (admissible_feeds ha)
  have hroll : (c.placedFor p).roll = i := by
    unfold Controller.placedFor
    split <;> (rw [hi]; rfl)
  exact (takeOn_kept hs hp _ (placedFor_counts c p) (by rw [hroll]; exact hs.sound.rolls.feed.feed i hi)).andThen
    cursorTake_firm

theorem gate_firm : Firm Controller.gate := by
  intro c hs
  unfold Controller.gate
  split
  · have h1 := (Kept.refl hs).calm gateTests_calm
    simp only
    split
    · rename_i p hp
      split
      · rename_i ha
        exact (h1.trans (admit_kept h1.safe hp ha)).calm gateTests_calm
      · exact h1
    · exact h1
  · exact Kept.refl hs

/-- An event of a live controller. -/
theorem event_firm {f : Controller → Controller} (hf : Firm f) : Firm (fun c => c.event f) := by
  intro c hs
  show Kept c (c.event f)
  unfold Controller.event
  split
  · exact hf c hs
  · exact (hf c hs).andThen gate_firm

end Sys2Proof.Machine
end

