-- ==== Sys2Proof/Laws/EventsKept.lean ====
section
/-! SUPPORT. The seams, cut control, the chamber bus, the panels' crossings, the telegrams and the receive assembly keep
the invariant. -/

namespace Sys2Proof.Machine

/-! ### Seams -/

theorem markSeam_firm (s : Nat) : Firm (fun c => c.markSeam s) := by
  intro c hs
  show Kept c (c.markSeam s)
  unfold Controller.markSeam
  split
  · exact Kept.refl hs
  · split
    · exact Kept.refl hs
    · rename_i p _ _ q _
      exact (addCause_firm p.id .seam c hs).andThen (Firm.updatePanel p.id
        (fun x => x.writeSeamOffset (s - q.leadA)) (fun _ => ⟨rfl, rfl, Iff.rfl, rfl, rfl⟩) (fun _ => SameCounts.of_placed rfl))

theorem unplannedSeam_firm (s : Nat) : Firm (fun c => c.unplannedSeam s) := by
  intro c hs
  show Kept c (c.unplannedSeam s)
  have h1 := markSeam_firm s c hs
  unfold Controller.unplannedSeam
  simp only
  split
  · exact h1.raise _ _
  · rename_i hn
    split
    · exact h1.raise _ _
    · rename_i hf
      have absent : ∀ x ∈ (c.markSeam s).rolls.seams, x.coord ≠ s := by
        intro x hx e
        exact hn (List.any_eq_true.mpr ⟨x, hx, by simp [e]⟩)
      exact ((h1.trans ((joinSeam_away (by simpa using hf) s absent).kept h1.safe)).raise _ _).calm
        settleSeams_calm

theorem takeSeamEdge_firm : Firm Controller.takeSeamEdge := by
  intro c hs
  unfold Controller.takeSeamEdge
  simp only
  split
  · rename_i e he
    exact (confirmSeam_away hs.live e _ (List.mem_of_find?_eq_some he)).kept hs
  · exact unplannedSeam_firm _ c hs

/-! ### Cut control -/

theorem failCut_firm (id number : Nat) (kind : CutKind) (reason : Byte) : Firm (fun c => c.failCut id number kind reason) := by
  intro c hs
  show Kept c (c.failCut id number kind reason)
  have h1 := (addCause_firm id .cutFault c hs).raise .panelCutFault ⟨BitVec.ofNat 16 number, reason⟩
  unfold Controller.failCut
  simp only
  split
  · exact h1
  · refine h1.andThen (Firm.updatePanel id _ (fun p => ?_) (fun p => ?_))
    · split
      · rename_i h; exact Gentle.inState _ (by rw [h]; decide) (by decide)
      · exact Gentle.refl p
    · split <;> exact SameCounts.of_placed rfl

theorem queueCut_firm (p : Panel) (kind : CutKind) (due : Nat) : Firm (fun c => c.queueCut p kind due) := by
  intro c hs
  show Kept c (c.queueCut p kind due)
  unfold Controller.queueCut
  split
  · rename_i h
    exact Kept.setCut hs _ (fun _ => by simp; omega)
  · exact failCut_firm _ _ _ _ c hs

theorem takeTailCut_firm (id : Nat) : Firm (fun c => c.takeTailCut id) := by
  intro c hs
  show Kept c (c.takeTailCut id)
  unfold Controller.takeTailCut
  split
  · exact Kept.refl hs
  · rename_i p _
    exact (mapCrossed_firm id (fun x => { x with heldTail := false }) c hs).andThen (queueCut_firm p .tail _)

/-- The lead cut of a panel on the web. -/
theorem takeLeadCut_kept {c : Controller} (hs : Safe c) {id : Nat} (ho : OnWeb c id) : Kept c (c.takeLeadCut id) := by
  unfold Controller.takeLeadCut
  split
  · exact Kept.refl hs
  · rename_i p hp
    have hst := ho.state hs hp
    have h1 : Kept c (c.updatePanel id (fun q =>
        { q.mapCrossed (fun x => { x with heldLead := false }) with
          state := .cutting
          marks := q.marks.or (some ⟨false, false, false⟩) })) :=
      Kept.updatePanel hs hp ⟨rfl, rfl, ⟨fun x => (by cases x), fun x => absurd x hst⟩, rfl, rfl⟩ (SameCounts.of_placed rfl)
    have h2 := h1.andThen (queueCut_firm p .lead (p.bLead.getD 0 + c.cutDist))
    simp only
    split
    · exact h2.andThen (takeTailCut_firm id)
    · exact h2

theorem leadCrossing_firm (id : Nat) : Firm (fun c => c.leadCrossing id) := by
  intro c hs
  show Kept c (c.leadCrossing id)
  unfold Controller.leadCrossing
  split
  · exact Kept.refl hs
  · rename_i p hp
    split
    · have h1 := mapCrossed_firm id (fun x => { x with lead := true }) c hs
      simp only
      split
      · rename_i hst
        exact h1.trans (takeLeadCut_kept h1.safe (h1.onWeb id (OnWeb.of hp (by rw [hst]; decide))))
      · exact h1.andThen (mapCrossed_firm id _)
      · exact h1
    · exact Kept.refl hs

theorem tailCrossing_firm (id : Nat) : Firm (fun c => c.tailCrossing id) := by
  intro c hs
  show Kept c (c.tailCrossing id)
  unfold Controller.tailCrossing
  split
  · exact Kept.refl hs
  · split
    · have h1 := mapCrossed_firm id (fun x => { x with tailCut := true }) c hs
      simp only
      split
      · exact h1.andThen (takeTailCut_firm id)
      · exact h1.andThen (mapCrossed_firm id _)
      · exact h1
    · exact Kept.refl hs

/-! ### The chamber bus -/

theorem beginTxn_calm (kind : TxnKind) (drop sent : Nat) (item : TxItem) : Calm (fun c => c.beginTxn kind drop sent item) := by
  intro c hl
  exact (Away.setCham c { c.cham with txn := some ⟨kind, drop, c.mot.tick, sent⟩ } rfl rfl).andThen hl (handBus_calm item)

theorem cutLateStep_firm (e : CutEntry) : Firm (fun c => c.cutLateStep e) := by
  intro c hs
  show Kept c (c.cutLateStep e)
  unfold Controller.cutLateStep
  split
  · exact (addCause_firm _ _ c hs).raise _ _
  · exact Kept.refl hs

theorem markSent_firm (e : CutEntry) : Firm (fun c => c.markSent e) := by
  intro c hs
  show Kept c (c.markSent e)
  unfold Controller.markSent
  split
  · exact Firm.updatePanel e.panel (fun p => p.mapMarks (fun m => { m with sent := true }))
      (fun _ => ⟨rfl, rfl, Iff.rfl, rfl, rfl⟩) (fun _ => SameCounts.of_placed rfl) c hs
  · exact Kept.refl hs

theorem startCut_firm (e : CutEntry) : Firm (fun c => c.startCut e) := by
  intro c hs
  have h1 := Kept.setCut hs { c.cut with queue := c.cut.queue.tail } (fun h => by simp; omega)
  have h2 := (h1.andThen (cutLateStep_firm e)).andThen (markSent_firm e)
  have h3 := h2.trans (Kept.setCut h2.safe { (Controller.markSent (Controller.cutLateStep
    { c with cut := { c.cut with queue := c.cut.queue.tail } } e) e).cut with now := some ⟨e.panel, e.number, e.kind⟩ }
    (fun h => h))
  exact h3.trans ((beginTxn_calm .cut 7 0 _).firm _ h3.safe)

theorem startSet_calm (i : Nat) : Calm (fun c => c.startSet i) := fun c hl => beginTxn_calm _ _ _ _ c hl

theorem startPoll_calm (i : Nat) : Calm (fun c => c.startPoll i) := by
  intro c hl
  exact (Away.setCham c { c.cham with lastPolled := i } rfl rfl).andThen hl (beginTxn_calm _ _ _ _)

theorem startNext_firm : Firm Controller.startNext := by
  intro c hs
  unfold Controller.startNext
  split
  · exact startCut_firm _ c hs
  · exact (startSet_calm _).firm c hs
  · exact (startPoll_calm _).firm c hs
  · exact Kept.refl hs

theorem setTxn_calm (x : Option Txn) : Calm (fun c => { c with cham := { c.cham with txn := x } }) :=
  fun c _ => Away.setCham c _ rfl rfl

theorem endTxn_firm : Firm Controller.endTxn := fun c hs => ((setTxn_calm none).firm c hs).andThen startNext_firm

theorem clearCut_firm : Firm (fun c => { c with cut := { c.cut with now := none } }) :=
  fun _ hs => Kept.setCut hs _ (fun h => h)

theorem cutUnanswered_firm (reason : NamedDetail) : Firm (fun c => c.cutUnanswered reason) := by
  intro c hs
  show Kept c (c.cutUnanswered reason)
  unfold Controller.cutUnanswered
  split
  · exact Kept.refl hs
  · exact (clearCut_firm c hs).andThen (failCut_firm _ _ _ _)

theorem failTxn_firm (reason : NamedDetail) : Firm (fun c => c.failTxn reason) := by
  intro c hs
  show Kept c (c.failTxn reason)
  unfold Controller.failTxn
  split
  · exact Kept.refl hs
  · split
    · exact (cutUnanswered_firm reason c hs).andThen endTxn_firm
    · exact endTxn_firm c hs

theorem busProtocol_firm : Firm Controller.busProtocol := by
  intro _ hs
  exact ((Kept.refl hs).raise _ _).andThen (failTxn_firm .protocol)

theorem replyTest_firm : Firm Controller.replyTest := by
  intro c hs
  unfold Controller.replyTest
  split
  · split
    · exact failTxn_firm _ c hs
    · exact Kept.refl hs
  · exact Kept.refl hs

theorem zoneReport_calm (i temperature valve : Nat) (fault : Bool) :
    Calm (fun c => c.zoneReport i temperature valve fault) := by
  intro c hl
  show Away c (c.zoneReport i temperature valve fault)
  have h1 := fun f => updateZone_calm i f c hl
  unfold Controller.zoneReport
  simp only
  split
  · exact h1 _
  · split
    · exact (h1 _).raise hl _ _
    · exact (h1 _).raise hl _ _
    · exact h1 _

theorem takeZoneReport_firm (temperature valve : Nat) (fault : Bool) :
    Firm (fun c => c.takeZoneReport temperature valve fault) := by
  intro c hs
  show Kept c (c.takeZoneReport temperature valve fault)
  unfold Controller.takeZoneReport
  split
  · exact Kept.refl hs
  · split
    · exact (((zoneReport_calm _ _ _ _).firm c hs).calm completionTest_calm).andThen endTxn_firm
    · exact busProtocol_firm c hs

theorem takeSetAck_firm (setpoint : Nat) : Firm (fun c => c.takeSetAck setpoint) := by
  intro c hs
  show Kept c (c.takeSetAck setpoint)
  unfold Controller.takeSetAck
  split
  · exact Kept.refl hs
  · split
    · exact ((updateZone_calm _ _).firm c hs).andThen endTxn_firm
    · exact busProtocol_firm c hs

theorem takeCutAnswer_firm (panel : Nat) (kind : CutKind) (effect : Controller → CutNow → Controller)
    (he : ∀ k, Firm (fun c => effect c k)) : Firm (fun c => c.takeCutAnswer panel kind effect) := by
  intro c hs
  show Kept c (c.takeCutAnswer panel kind effect)
  unfold Controller.takeCutAnswer
  split
  · split
    · exact ((clearCut_firm c hs).andThen (he _)).andThen endTxn_firm
    · exact busProtocol_firm c hs
  · exact busProtocol_firm c hs
  · exact Kept.refl hs

theorem cutDoneEffect_firm (k : CutNow) : Firm (fun c => c.cutDoneEffect k) := by
  intro c hs
  show Kept c (c.cutDoneEffect k)
  unfold Controller.cutDoneEffect
  split
  · exact Firm.updatePanel k.panel (fun p => p.mapMarks (fun m => { m with leadDone := true }))
      (fun _ => ⟨rfl, rfl, Iff.rfl, rfl, rfl⟩) (fun _ => SameCounts.of_placed rfl) c hs
  · refine Kept.raise (Firm.updatePanel _ _ (fun p => ?_) (fun p => ?_) c hs) _ _
    · simp only
      split
      · rename_i h
        have h' : p.state = .cutting := h
        exact ⟨rfl, rfl, ⟨fun x => (by cases x), fun x => by rw [h'] at x; cases x⟩, rfl, rfl⟩
      · exact ⟨rfl, rfl, Iff.rfl, rfl, rfl⟩
    · simp only
      split <;> exact SameCounts.of_placed rfl

theorem cutFaultEffect_firm (code : Byte) (k : CutNow) : Firm (fun c => c.cutFaultEffect code k) := failCut_firm _ _ _ _

/-! ### Crossings -/

theorem chamberEntry_firm (id : Nat) : Firm (fun c => c.chamberEntry id) := by
  intro c hs
  show Kept c (c.chamberEntry id)
  unfold Controller.chamberEntry
  split
  · exact Kept.refl hs
  · rename_i p hp
    split
    · have h1 := mapCrossed_firm id (fun x => { x with entry := true }) c hs
      have h2 : p.state ≠ .scheduled → Kept c ((c.updatePanel id (fun q => q.mapCrossed (fun x =>
          { x with entry := true }))).updatePanel id (fun q => { q with state := .setting, dose := q.dose.or (some 0) })) := by
        intro hst
        have ho := h1.onWeb id (OnWeb.of hp hst)
        cases hp2 : (c.updatePanel id (fun q => q.mapCrossed (fun x => { x with entry := true }))).panelById id with
        | none =>
          obtain ⟨r, hr, e, _⟩ := ho
          have := List.find?_eq_none.mp hp2 r hr
          simp [e] at this
        | some r =>
          have hr := ho.state h1.safe hp2
          exact h1.trans (Kept.updatePanel h1.safe hp2 ⟨rfl, rfl, ⟨fun x => (by cases x), fun x => absurd x hr⟩, rfl, rfl⟩
            (SameCounts.of_placed rfl))
      simp only
      split
      · rename_i hst
        have h3 := h2 (by rw [hst]; decide)
        split
        · exact h3.andThen (addCause_firm id .strokeFault)
        · exact h3
      · rename_i hst
        exact h2 (by rw [hst]; decide)
      · exact h1
    · exact Kept.refl hs

theorem chamberExit_firm (id : Nat) : Firm (fun c => c.chamberExit id) := by
  intro c hs
  show Kept c (c.chamberExit id)
  unfold Controller.chamberExit
  split
  · exact Kept.refl hs
  · rename_i p hp
    split
    · have h1 := mapCrossed_firm id (fun x => { x with exit := true }) c hs
      simp only
      split
      · rename_i hst
        have ho := h1.onWeb id (OnWeb.of hp (by rw [hst]; decide))
        have h2 : Kept c ((c.updatePanel id (fun q => q.mapCrossed (fun x => { x with exit := true }))).updatePanel id
            (fun q => q.inState .cooling)) := by
          cases hp2 : (c.updatePanel id (fun q => q.mapCrossed (fun x => { x with exit := true }))).panelById id with
          | none =>
            obtain ⟨r, hr, e, _⟩ := ho
            have := List.find?_eq_none.mp hp2 r hr
            simp [e] at this
          | some r =>
            exact h1.trans (Kept.updatePanel h1.safe hp2 (Gentle.inState _ (ho.state h1.safe hp2) (by decide))
              (SameCounts.of_placed rfl))
        have h3 := h2.andThen (decideVerdict_firm id)
        have ho3 := h3.onWeb id (OnWeb.of hp (by rw [hst]; decide))
        split
        · have h4 := h3.trans (takeLeadCut_kept h3.safe ho3)
          exact ((h4.andThen gate_firm).calm coordHold_calm).calm drainTest_calm
        · exact ((h3.andThen gate_firm).calm coordHold_calm).calm drainTest_calm
      · exact h1
    · exact Kept.refl hs

theorem trackBCrossings_firm (id : Nat) : Firm (fun c => c.trackBCrossings id) := fun c hs =>
  (((chamberEntry_firm id c hs).andThen (chamberExit_firm id)).andThen (leadCrossing_firm id)).andThen (tailCrossing_firm id)

theorem dosePanel_firm (p : Panel) : Firm (fun c => c.dosePanel p) := by
  intro c hs
  show Kept c (c.dosePanel p)
  unfold Controller.dosePanel
  split
  · rename_i d q _ _ _
    split
    · have h1 := Firm.updatePanel p.id (fun x => { x with dose := some (d + 1) }) (fun _ => ⟨rfl, rfl, Iff.rfl, rfl, rfl⟩)
        (fun _ => SameCounts.of_placed rfl) c hs
      simp only
      split
      · exact h1.andThen (addCause_firm _ _)
      · exact h1
    · exact Kept.refl hs
  · exact Kept.refl hs

/-- Operations over a list, one after another. -/
theorem Firm.foldl {α : Type} {f : Controller → α → Controller} (hf : ∀ a, Firm (fun c => f c a)) :
    ∀ l : List α, Firm (fun c => l.foldl f c)
  | [] => fun _ hs => Kept.refl hs
  | a :: rest => fun c hs => (hf a c hs).andThen (Firm.foldl hf rest)

theorem doseTick_firm : Firm Controller.doseTick := fun c hs => Firm.foldl dosePanel_firm c.rosterPanels c hs

theorem headArrival_firm (id : Nat) : Firm (fun c => c.headArrival id) := by
  intro c hs
  show Kept c (c.headArrival id)
  unfold Controller.headArrival
  split
  · exact Kept.refl hs
  · rename_i p hp
    split
    · have h1 := mapCrossed_firm id (fun x => { x with head := true }) c hs
      simp only
      split
      · rename_i hst
        have ho := h1.onWeb id (OnWeb.of hp (by rw [hst]; decide))
        cases hp2 : (c.updatePanel id (fun q => q.mapCrossed (fun x => { x with head := true }))).panelById id with
        | none =>
          obtain ⟨r, hr, e, _⟩ := ho
          have := List.find?_eq_none.mp hp2 r hr
          simp [e] at this
        | some r =>
          have hr := ho.state h1.safe hp2
          have h2 := h1.trans (Kept.updatePanel h1.safe hp2
            (f := fun q => (q.inState .pleating).writeBLead
              (c.updatePanel id (fun q => q.mapCrossed (fun x => { x with head := true }))).convAt)
            ⟨rfl, rfl, ⟨fun x => (by cases x), fun x => absurd x hr⟩, rfl, rfl⟩ (SameCounts.of_placed rfl))
          exact h2.andThen (trackBCrossings_firm id)
      · exact h1
    · exact Kept.refl hs

theorem lastStroke_firm (p : Panel) : Firm (fun c => c.lastStroke p) := by
  intro c hs
  show Kept c (c.lastStroke p)
  unfold Controller.lastStroke
  split
  · exact Kept.refl hs
  · split
    · cases h : c.strokeCrossing with
      | none => exact Kept.refl hs
      | some d => exact strokeCrossing_kept hs h
    · exact Kept.refl hs

theorem missRest_firm (id : Nat) : Firm (fun c => c.missRest id) := by
  intro c hs
  show Kept c (c.missRest id)
  unfold Controller.missRest
  split
  · exact Kept.refl hs
  · rename_i p hp
    split
    · exact leavePanel_firm id c hs
    · obtain ⟨hm, rfl⟩ := panelById_mem hp
      exact spendLeave_kept hs hm (fun q => { q with missed := q.missed + p.strokesLeft }) (fun _ => ⟨rfl, rfl, rfl⟩)
        (fun _ => by simp only; omega) .strokeFault (fun d => d.raise .pleatStrokeMissed (Detail.num p.number))
        (raise_calm _ _) (fun _ => rfl) (fun _ => rfl)

theorem tailPassage_firm (id : Nat) : Firm (fun c => c.tailPassage id) := by
  intro c hs
  show Kept c (c.tailPassage id)
  unfold Controller.tailPassage
  split
  · exact Kept.refl hs
  · rename_i p _
    split
    · have h1 := ((mapCrossed_firm id (fun x => { x with tail := true }) c hs).andThen (lastStroke_firm p)).andThen
        (missRest_firm id)
      have h2 := h1.trans (Firm.updatePanel id (fun q => q.writeBTail
        (((c.updatePanel id (fun q => q.mapCrossed (fun x => { x with tail := true }))).lastStroke p).missRest id).convAt)
        (fun _ => ⟨rfl, rfl, Iff.rfl, rfl, rfl⟩) (fun _ => SameCounts.of_placed rfl) _ h1.safe)
      exact (h2.andThen (conveyedTest_firm id)).andThen (trackBCrossings_firm id)
    · exact Kept.refl hs

/-! ### Pulses and ticks -/

theorem overRoster_firm (f : Controller → Nat → Controller) (hf : ∀ id, Firm (fun c => f c id)) :
    Firm (fun c => c.overRoster f) := fun c hs => Firm.foldl hf c.tab.roster c hs

theorem pulseTask_firm (i : CountInput) (t : PulseTask) : Firm (fun c => c.pulseTask i t) := by
  cases t
  · exact (limitTest_calm i).firm
  · exact lengthPulse_calm.firm
  · exact (fillPulse_calm _).firm
  · exact clearanceTest_calm.firm
  · intro c hs
    show Kept c (if i = .unw then c.unwindSlipTest else c.feedSlipTest)
    split
    · exact unwindSlipTest_calm.firm c hs
    · exact feedSlipTest_calm.firm c hs
  · exact settleSeams_calm.firm
  · exact gate_firm
  · exact fun c hs => ((settleStrokes_firm c hs).andThen (overRoster_firm _ headArrival_firm)).andThen
      (overRoster_firm _ tailPassage_firm)
  · exact fun c hs => (overRoster_firm _ chamberEntry_firm c hs).andThen (overRoster_firm _ chamberExit_firm)
  · exact overRoster_firm _ (fun id => (tailCrossing_firm id).comp (leadCrossing_firm id))

theorem tickTask_firm (t : TickTask) : Firm (fun c => c.tickTask t) := by
  cases t
  · exact fun c hs => (((intervalTick_calm .unw).firm c hs).calm (intervalTick_calm .feed)).calm (intervalTick_calm .conv)
  · intro c hs
    show Kept c (if c.seq.mode = .stepping then c.ackTimeoutTest else c.attemptTest)
    split
    · exact ackTimeoutTest_firm c hs
    · exact attemptTest_firm c hs
  · exact fun c hs => ((retryWaitTest_calm.firm c hs).calm cancelWaitTest_calm).calm spliceTimeoutTest_calm
  · exact Firm.foldl (fun i => (staleTest_calm i).firm) zoneNumbers
  · exact bankDue_calm.firm
  · exact replyTest_firm
  · exact doseTick_firm

/-! ### Telegrams and characters -/

theorem takeTelegram_firm (t : RxTelegram) : Firm (fun c => c.takeTelegram t) := by
  cases t
  · exact (takeDriveState_calm _).firm
  · exact takePrepared_calm.firm
  · exact takeSpliceDone_calm.firm
  · exact (takeSpliceFail_calm _).firm
  · exact (takeSpliceCancelled_calm _).firm
  · exact (takeUnitState_calm _).firm
  · exact (strokeDone_firm _).comp resumeAnyStep_firm
  · exact (strokeFault_firm _ _).comp resumeAnyStep_firm
  · exact takeHeadBusy_firm
  · exact headReady_firm
  · exact (resyncDone_firm _).comp resumeAnyStep_firm
  · exact headQuery_firm
  · exact takeZoneReport_firm _ _ _
  · exact takeSetAck_firm _
  · exact takeCutAnswer_firm _ _ _ cutDoneEffect_firm
  · exact takeCutAnswer_firm _ _ _ (cutFaultEffect_firm _)

theorem link_enabled {c : Controller} (hs : Safe c) (ch : Channel) : (c.link ch).enabled = true :=
  (hs.sound.blocks.enabled ch).trans hs.live.on

theorem setRx_firm (ch : Channel) (rx : Receiver) : Firm (fun c => c.setRx ch rx) :=
  fun _ hs => (setRx_away ch rx (link_enabled hs ch)).kept hs

theorem linkProtocol_firm (ch : Channel) : Firm (fun c => c.linkProtocol ch) := by
  intro c hs
  show Kept c (c.linkProtocol ch)
  have h1 := (Kept.refl hs).raise .linkProtocol (Detail.named (channelDetail ch))
  unfold Controller.linkProtocol
  simp only
  split
  · exact h1.andThen (failTxn_firm .protocol)
  · exact h1

theorem completeTelegram_firm (ch : Channel) (chars : List Byte) : Firm (fun c => c.completeTelegram ch chars) := by
  intro c hs
  show Kept c (c.completeTelegram ch chars)
  have h1 := setRx_firm ch .hunting c hs
  unfold Controller.completeTelegram
  simp only
  split
  · exact h1.raise _ _
  · exact h1.andThen (linkProtocol_firm ch)
  · exact h1.andThen (takeTelegram_firm _)

theorem takeAddress_firm (ch : Channel) (b : Byte) : Firm (fun c => c.takeAddress ch b) := by
  intro c hs
  show Kept c (c.takeAddress ch b)
  have h1 := setRx_firm ch ⟨.count, [b], true, false⟩ c hs
  unfold Controller.takeAddress
  simp only
  split
  · exact h1
  · exact h1.raise _ _

theorem takeData_firm (ch : Channel) (b : Byte) : Firm (fun c => c.takeData ch b) := by
  intro c hs
  show Kept c (c.takeData ch b)
  unfold Controller.takeData
  simp only
  split
  · exact Kept.refl hs
  · split
    · exact setRx_firm ch _ c hs
    · exact (setRx_firm ch _ c hs).andThen (linkProtocol_firm ch)
  · split
    · exact completeTelegram_firm ch _ c hs
    · exact setRx_firm ch _ c hs

theorem framingFault_firm (ch : Channel) : Firm (fun c => c.framingFault ch) :=
  fun c hs => (setRx_firm ch _ c hs).raise _ _

end Sys2Proof.Machine
end

