-- ==== Sys2Proof/Laws/CommandsSound.lean ====
section
/-! SUPPORT. What each command makes of the controller keeps the invariant, in CONFIG and commissioned alike. -/

namespace Sys2Proof.Machine

/-! ### Tools -/

theorem Away.sound {c d : Controller} (h : Away c d) (hs : Sound c) : Sound d := by
  have hc : d.commissioned = c.commissioned := congrArg Steady.commissioned h.steady
  refine ⟨h.blocks hs.blocks, ?_, ?_, (h.rolls hs.good).sound, ?_, (h.rolls hs.good).counted, ?_, ?_⟩
  · rw [h.tab]; exact hs.records
  · rw [h.tab, h.seq]; exact hs.strokes
  · rw [h.tab, show d.lib = c.lib from congrArg Steady.lib h.steady]; exact hs.patterns
  · rw [hc, h.seq, windowSize_of_steady h.steady]; exact hs.window
  · rw [hc, h.tab]; exact hs.offline

/-- An event keeps the invariant when its effect does and, in CONFIG, leaves the controller there. -/
theorem event_sound {c : Controller} {f : Controller → Controller} (ha : c.resetHeld = false)
    (hs : Sound (f c)) (hh : (f c).resetHeld = c.resetHeld) : Sound (c.event f) := by
  unfold Controller.event
  split
  · exact hs
  · cases hc : (f c).commissioned with
    | true => exact (gate_firm _ ⟨hs, ⟨hh.trans ha, hc⟩⟩).safe.sound
    | false =>
      have : (f c).gate = f c := by unfold Controller.gate; rw [hc]; rfl
      rw [this]; exact hs

theorem firmEvent_sound {c : Controller} {f : Controller → Controller} (hs : Sound c) (ha : c.resetHeld = false)
    (hc : c.commissioned = true) (hf : Firm f) : Sound (c.event f) :=
  (event_firm hf c ⟨hs, ⟨ha, hc⟩⟩).safe.sound

theorem Sound.setPort {c : Controller} (hs : Sound c) (p : Port) : Sound { c with port := p } :=
  ⟨{ hs.blocks with cuts := hs.blocks.cuts }, hs.records, hs.strokes, hs.rolls, hs.patterns, hs.fed, hs.window, hs.offline⟩

theorem Sound.setAtt {c : Controller} (hs : Sound c) (a : Attention) (h : AttentionSound a c.resetHeld) :
    Sound { c with att := a } :=
  ⟨{ hs.blocks with attention := h }, hs.records, hs.strokes, hs.rolls, hs.patterns, hs.fed, hs.window, hs.offline⟩

/-- The levels, the tick and the limit mark. -/
theorem Sound.setMot {c : Controller} (hs : Sound c) (m : Motion) (h : ∀ i, CounterSound (m.counter i)) :
    Sound { c with mot := m } :=
  ⟨{ hs.blocks with counts := h }, hs.records, hs.strokes, hs.rolls, hs.patterns, hs.fed, hs.window, hs.offline⟩

/-- The library with one pattern changed, which panels may name only with a body to fold. -/
theorem PatternsCounted.update {t u : RecordUnit} {lib : List Pattern} (h : PatternsCounted t lib) (hl : lib.length = 32)
    {n : Nat} (hn : 1 ≤ n ∧ n ≤ 32) (f : Pattern → Pattern)
    (hnamed : ∀ p ∈ u.panels, 1 ≤ p.pattern ∧ p.pattern ≤ 32)
    (hother : ∀ m, m ≠ n → u.patternNames m = t.patternNames m)
    (hc : (f (lib.getD (n - 1) Pattern.blank)).refs = u.patternNames n)
    (hf : (f (lib.getD (n - 1) Pattern.blank)).state = .empty ∨ (f (lib.getD (n - 1) Pattern.blank)).state = .draft →
      (f (lib.getD (n - 1) Pattern.blank)).refs = 0) : PatternsCounted u (lib.modify (n - 1) f) := by
  have same : (lib.modify (n - 1) f).getD (n - 1) Pattern.blank = f (lib.getD (n - 1) Pattern.blank) := by
    have : n - 1 < lib.length := by omega
    simp [List.getD_eq_getElem?_getD, this]
  have other : ∀ m, 1 ≤ m → m ≠ n → (lib.modify (n - 1) f).getD (m - 1) Pattern.blank = lib.getD (m - 1) Pattern.blank := by
    intro m h1 hm
    have : n - 1 ≠ m - 1 := by omega
    simp [List.getD_eq_getElem?_getD, this]
  refine ⟨hnamed, fun m h1 h2 => ?_, fun m h1 h2 => ?_⟩
  · by_cases hm : m = n
    · rw [hm, same]; exact hc
    · rw [other m h1 hm, hother m hm]; exact h.count m h1 h2
  · by_cases hm : m = n
    · rw [hm, same]; exact hf
    · rw [other m h1 hm]; exact h.free m h1 h2

theorem Sound.setLib {c : Controller} (hs : Sound c) (l : List Pattern) (h : l.length = 32) (hn : PatternsCounted c.tab l) :
    Sound { c with lib := l } :=
  ⟨{ hs.blocks with patterns := h }, hs.records, hs.strokes, hs.rolls, hn, hs.fed, hs.window, hs.offline⟩

theorem updatePattern_sound {c : Controller} (hs : Sound c) {n : Nat} (hn : 1 ≤ n ∧ n ≤ 32) (f : Pattern → Pattern)
    (hc : (f (c.pattern n)).refs = (c.pattern n).refs)
    (hf : (f (c.pattern n)).state = .empty ∨ (f (c.pattern n)).state = .draft → (f (c.pattern n)).refs = 0) :
    Sound (c.updatePattern n f) :=
  hs.setLib _ (by simpa using hs.blocks.patterns) (hs.patterns.update hs.blocks.patterns hn f hs.patterns.named
    (fun _ _ => rfl) (hc.trans (hs.patterns.count n hn.1 hn.2)) hf)

theorem raise_sound {c : Controller} (hs : Sound c) (ha : c.resetHeld = false) (n : Notice) (d : Detail) :
    Sound (c.raise n d) := (raise_away' c ha n d).sound hs

/-! ### Head reports in any state -/

theorem deriveZones_away (c : Controller) : Away c c.deriveZones :=
  Away.setCham c { c.cham with zones := c.cham.zones.mapIdx (fun k z => z.derive (c.wantedOf (k + 1))) } rfl (by simp)

theorem setChangeover_away (c : Controller) (x : Changeover) : Away c (c.setChangeover x) := Away.setCham c _ rfl rfl

theorem retarget_away (c : Controller) (k : Nat) : Away c (c.retarget k) := by
  unfold Controller.retarget
  split
  · exact Away.refl c
  · exact setChangeover_away c _
  · exact (setChangeover_away c _).trans (deriveZones_away _)

theorem cancelChangeover_away (c : Controller) : Away c c.cancelChangeover := by
  unfold Controller.cancelChangeover
  split
  · exact Away.refl c
  · exact setChangeover_away c _
  · exact (setChangeover_away c _).trans (deriveZones_away _)

theorem chamberHeadReport_away (c : Controller) : Away c c.chamberHeadReport := by
  unfold Controller.chamberHeadReport
  split
  · exact Away.refl c
  · split
    · exact cancelChangeover_away c
    · split
      · exact Away.refl c
      · exact retarget_away c _

theorem headReport_away (c : Controller) : Away c c.headReport :=
  (Away.setLine c { c.line with fabricMark := false } rfl).trans (chamberHeadReport_away _)

/-- A change of the schedule queue leaves everything but the queue to `Away`. -/
theorem setQueue_away (c : Controller) (queue : List Nat) :
    Away { c with tab := { c.tab with queue := queue } } (c.setQueue queue) := by
  unfold Controller.setQueue
  simp only
  split
  · exact Away.refl _
  · exact headReport_away _

/-! ### The panel table -/

/-- The invariant with another table. -/
theorem Sound.setTab {c : Controller} (hs : Sound c) (t : RecordUnit) (hr : RecordsSound t) (hq : StrokesSound t c.seq)
    (hn : PatternsCounted t c.lib) (hf : RollsCounted t c.rolls)
    (ho : c.commissioned = false → t.roster = []) : Sound { c with tab := t } :=
  ⟨{ hs.blocks with cuts := hs.blocks.cuts }, hr, hq, hs.rolls, hn, hf, hs.window, ho⟩

theorem panelByNumber_mem {c : Controller} {n : Nat} {p : Panel} (h : c.panelByNumber n = some p) :
    p ∈ c.tab.panels ∧ p.number = n := by
  refine ⟨List.mem_of_find?_eq_some h, ?_⟩
  have := List.find?_some h
  simpa using this

theorem panelByNumber_none {c : Controller} {n : Nat} (h : c.panelByNumber n = none) (p : Panel)
    (hp : p ∈ c.tab.panels) : p.number ≠ n := by
  have := List.find?_eq_none.mp h p hp
  simpa using this

theorem insertAt_perm (queue : List Nat) (id placement before : Nat) :
    (insertAt queue id placement before).Perm (id :: queue) := by
  unfold insertAt
  split
  · exact List.perm_append_singleton id queue
  · split
    · exact List.Perm.refl _
    · have h : queue.takeWhile (fun x => x != before) ++ id :: queue.dropWhile (fun x => x != before) |>.Perm
          (id :: (queue.takeWhile (fun x => x != before) ++ queue.dropWhile (fun x => x != before))) := List.perm_middle
      rw [List.takeWhile_append_dropWhile] at h
      exact h

/-- A new SCHEDULED panel in the queue. -/
theorem RecordsSound.insert {t : RecordUnit} (h : RecordsSound t) (p : Panel) (hroom : t.panels.length < 64)
    (hid : p.id = t.nextId) (hnum : ∀ q ∈ t.panels, q.number ≠ p.number) (hst : p.state = .scheduled)
    (hpl : p.placed = none) (queue : List Nat) (hq : queue.Perm (p.id :: t.queue)) :
    RecordsSound { t with panels := t.panels ++ [p], queue := queue, nextId := t.nextId + 1 } := by
  have fresh : ∀ q ∈ t.panels, q.id ≠ p.id := fun q hq' e => by
    have := h.known q hq'; rw [e, hid] at this; exact Nat.lt_irrefl _ this
  refine ⟨?_, ?_, ?_, ?_, ?_, h.rosterOnce, ?_, ?_, ?_⟩
  · simp; omega
  · intro q hq'
    rcases List.mem_append.mp hq' with x | x
    · exact Nat.lt_succ_of_lt (h.known q x)
    · rw [List.mem_singleton.mp x, hid]; exact Nat.lt_succ_self _
  · show ((t.panels ++ [p]).map Panel.id).Nodup
    rw [List.map_append, List.nodup_append]
    refine ⟨h.ids, by simp, ?_⟩
    intro a ha b hb e
    obtain ⟨q, hq', rfl⟩ := List.mem_map.mp ha
    simp only [List.map_cons, List.map_nil, List.mem_singleton] at hb
    exact fresh q hq' (e.trans hb)
  · show ((t.panels ++ [p]).map Panel.number).Nodup
    rw [List.map_append, List.nodup_append]
    refine ⟨h.numbers, by simp, ?_⟩
    intro a ha b hb e
    obtain ⟨q, hq', rfl⟩ := List.mem_map.mp ha
    simp only [List.map_cons, List.map_nil, List.mem_singleton] at hb
    exact hnum q hq' (e.trans hb)
  · show queue.Nodup
    rw [hq.nodup_iff, List.nodup_cons]
    refine ⟨fun hx => ?_, h.queueOnce⟩
    obtain ⟨q, hq', e, _⟩ := (h.queued p.id).mp hx
    exact fresh q hq' e
  · intro id
    show id ∈ queue ↔ ∃ q ∈ t.panels ++ [p], _
    rw [hq.mem_iff, List.mem_cons, h.queued id]
    constructor
    · rintro (rfl | ⟨q, hq', e, hs⟩)
      · exact ⟨p, by simp, rfl, hst⟩
      · exact ⟨q, List.mem_append_left _ hq', e, hs⟩
    · rintro ⟨q, hq', e, hs⟩
      rcases List.mem_append.mp hq' with x | x
      · exact Or.inr ⟨q, x, e, hs⟩
      · rw [List.mem_singleton.mp x] at e; exact Or.inl e.symm
  · intro id
    show id ∈ t.roster ↔ ∃ q ∈ t.panels ++ [p], _
    rw [h.onRoster id]
    constructor
    · rintro ⟨q, hq', e, hs⟩
      exact ⟨q, List.mem_append_left _ hq', e, hs⟩
    · rintro ⟨q, hq', e, hs⟩
      rcases List.mem_append.mp hq' with x | x
      · exact ⟨q, x, e, hs⟩
      · rw [List.mem_singleton.mp x] at hs; exact absurd hst hs
  · intro q hq'
    rcases List.mem_append.mp hq' with x | x
    · exact h.placed q x
    · rw [List.mem_singleton.mp x, hpl, hst]; simp

theorem StrokesSound.insert {t : RecordUnit} {q : Sequencer} (h : StrokesSound t q) (p : Panel) (hid : p.id = t.nextId)
    (hpl : p.placed = none) (queue : List Nat) :
    StrokesSound { t with panels := t.panels ++ [p], queue := queue, nextId := t.nextId + 1 } q := by
  have names : ∀ id, NamesOnWeb t id →
      NamesOnWeb { t with panels := t.panels ++ [p], queue := queue, nextId := t.nextId + 1 } id := by
    intro id hn
    refine ⟨Nat.lt_succ_of_lt hn.1, fun r hr e => ?_⟩
    rcases List.mem_append.mp hr with x | x
    · exact hn.2 r x e
    · rw [List.mem_singleton.mp x, hid] at e
      have := hn.1; rw [← e] at this; exact absurd this (Nat.lt_irrefl _)
  refine ⟨h.consecutive, h.stepping, fun e he => names _ (h.windowNames e he), fun k hk => names _ (h.cursorNames k hk),
    ?_, ?_, ?_⟩
  · intro k hk r hr e
    rcases List.mem_append.mp hr with y | y
    · exact h.cursorLeft k hk r y e
    · rw [List.mem_singleton.mp y, hid] at e
      exact absurd (h.cursorNames k hk).1 (by omega)
  · intro r hr x hx
    rcases List.mem_append.mp hr with y | y
    · exact h.count r y x hx
    · rw [List.mem_singleton.mp y, hpl] at hx; cases hx
  · intro r hr x hx
    rcases List.mem_append.mp hr with y | y
    · exact h.total r y x hx
    · rw [List.mem_singleton.mp y, hpl] at hx; cases hx

/-- A record leaves the table and the list it stood in. -/
theorem RecordsSound.remove {t : RecordUnit} (h : RecordsSound t) (id : Nat) (queue roster : List Nat)
    (hq : queue = t.queue.filter (fun x => x != id)) (hr : roster = t.roster.filter (fun x => x != id)) :
    RecordsSound { t with panels := t.panels.filter (fun p => p.id != id), queue := queue, roster := roster } := by
  have sub : (t.panels.filter (fun p => p.id != id)).Sublist t.panels := List.filter_sublist
  have inP : ∀ p, p ∈ t.panels.filter (fun p => p.id != id) ↔ p ∈ t.panels ∧ p.id ≠ id := by
    intro p; simp
  subst hq; subst hr
  refine ⟨Nat.le_trans sub.length_le h.room, ?_, (sub.map Panel.id).nodup h.ids, (sub.map Panel.number).nodup h.numbers,
    h.queueOnce.filter _, h.rosterOnce.filter _, ?_, ?_, ?_⟩
  · intro p hp; exact h.known p ((inP p).mp hp).1
  · intro i
    show i ∈ t.queue.filter _ ↔ ∃ p ∈ t.panels.filter _, _
    rw [List.mem_filter, h.queued i]
    constructor
    · rintro ⟨⟨p, hp, e, hs⟩, hi⟩
      exact ⟨p, (inP p).mpr ⟨hp, by rw [e]; simpa using hi⟩, e, hs⟩
    · rintro ⟨p, hp, e, hs⟩
      obtain ⟨hp1, hp2⟩ := (inP p).mp hp
      exact ⟨⟨p, hp1, e, hs⟩, by rw [← e]; simpa using hp2⟩
  · intro i
    show i ∈ t.roster.filter _ ↔ ∃ p ∈ t.panels.filter _, _
    rw [List.mem_filter, h.onRoster i]
    constructor
    · rintro ⟨⟨p, hp, e, hs⟩, hi⟩
      exact ⟨p, (inP p).mpr ⟨hp, by rw [e]; simpa using hi⟩, e, hs⟩
    · rintro ⟨p, hp, e, hs⟩
      obtain ⟨hp1, hp2⟩ := (inP p).mp hp
      exact ⟨⟨p, hp1, e, hs⟩, by rw [← e]; simpa using hp2⟩
  · intro p hp; exact h.placed p ((inP p).mp hp).1

theorem StrokesSound.remove {t : RecordUnit} {q : Sequencer} (h : StrokesSound t q) (id : Nat) (queue roster : List Nat) :
    StrokesSound { t with panels := t.panels.filter (fun p => p.id != id), queue := queue, roster := roster } q := by
  have inP : ∀ p, p ∈ t.panels.filter (fun p => p.id != id) → p ∈ t.panels := fun p hp => (List.mem_filter.mp hp).1
  have names : ∀ i, NamesOnWeb t i →
      NamesOnWeb { t with panels := t.panels.filter (fun p => p.id != id), queue := queue, roster := roster } i :=
    fun i hn => ⟨hn.1, fun p hp e => hn.2 p (inP p hp) e⟩
  exact ⟨h.consecutive, h.stepping, fun e he => names _ (h.windowNames e he), fun k hk => names _ (h.cursorNames k hk),
    fun k hk p hp e => h.cursorLeft k hk p (inP p hp) e, fun p hp x hx => h.count p (inP p hp) x hx,
    fun p hp x hx => h.total p (inP p hp) x hx⟩

theorem RecordsSound.requeue {t : RecordUnit} (h : RecordsSound t) (queue : List Nat) (hq : queue.Perm t.queue) :
    RecordsSound { t with queue := queue } :=
  ⟨h.room, h.known, h.ids, h.numbers, (hq.nodup_iff).mpr h.queueOnce, h.rosterOnce,
    fun id => (hq.mem_iff).trans (h.queued id), h.onRoster, h.placed⟩

theorem StrokesSound.requeue {t : RecordUnit} {q : Sequencer} (h : StrokesSound t q) (queue : List Nat) :
    StrokesSound { t with queue := queue } q :=
  ⟨h.consecutive, h.stepping, h.windowNames, h.cursorNames, h.cursorLeft, h.count, h.total⟩

/-- A record that stands in neither list is in neither filtered list's difference. -/
theorem filter_ne_self {l : List Nat} {id : Nat} (h : id ∉ l) : l.filter (fun x => x != id) = l := by
  rw [List.filter_eq_self]
  intro a ha
  have : a ≠ id := fun e => h (e ▸ ha)
  simpa using this

theorem RecordsSound.notQueued {t : RecordUnit} (h : RecordsSound t) {p : Panel} (hp : p ∈ t.panels)
    (hs : p.state ≠ .scheduled) : p.id ∉ t.queue := by
  intro hx
  obtain ⟨r, hr, e, hs'⟩ := (h.queued p.id).mp hx
  rw [h.unique hr hp e] at hs'; exact hs hs'

theorem RecordsSound.notRoster {t : RecordUnit} (h : RecordsSound t) {p : Panel} (hp : p ∈ t.panels)
    (hs : p.state = .scheduled) : p.id ∉ t.roster := by
  intro hx
  obtain ⟨r, hr, e, hs'⟩ := (h.onRoster p.id).mp hx
  rw [h.unique hr hp e] at hs'; exact hs' hs

end Sys2Proof.Machine
end

