-- ==== Sys2Proof/Laws/RequestsSound.lean ====
section
/-! SUPPORT. Every request keeps the invariant, accepted or refused. -/

namespace Sys2Proof.Machine

/-- What an operation keeps when it may change the table and the library. -/
structure Aside (c d : Controller) : Prop where
  seq : d.seq = c.seq
  commissioned : d.commissioned = c.commissioned
  params : d.params = c.params
  resetHeld : d.resetHeld = c.resetHeld
  blocks : BlocksSound c → BlocksSound d

theorem Aside.trans {a b c : Controller} (h : Aside a b) (k : Aside b c) : Aside a c :=
  ⟨k.seq.trans h.seq, k.commissioned.trans h.commissioned, k.params.trans h.params, k.resetHeld.trans h.resetHeld,
    fun x => k.blocks (h.blocks x)⟩

theorem Aside.refl (c : Controller) : Aside c c := ⟨rfl, rfl, rfl, rfl, id⟩

theorem Near.aside {c d : Controller} (h : Near c d) : Aside c d :=
  ⟨h.seq, congrArg Steady.commissioned h.steady, congrArg Steady.params h.steady, congrArg Steady.resetHeld h.steady,
    h.blocks⟩

theorem Aside.setTab (c : Controller) (t : RecordUnit) : Aside c { c with tab := t } :=
  ⟨rfl, rfl, rfl, rfl, fun b => { b with cuts := b.cuts }⟩

theorem Aside.updatePattern (c : Controller) (n : Nat) (f : Pattern → Pattern) : Aside c (c.updatePattern n f) :=
  ⟨rfl, rfl, rfl, rfl, fun b => { b with patterns := (List.length_modify _ _ _).trans b.patterns }⟩

theorem Aside.releasePattern {c : Controller} (ha : c.resetHeld = false) (n : Nat) : Aside c (c.releasePattern n) := by
  unfold Controller.releasePattern
  split
  · exact (Aside.updatePattern c n (fun _ => Pattern.blank)).trans (raise_away' _ (by exact ha) _ _).aside
  · exact Aside.updatePattern c n _

theorem releasePattern_tab (c : Controller) (n : Nat) : (c.releasePattern n).tab = c.tab := by
  unfold Controller.releasePattern
  split <;> rfl

theorem Aside.sound {c d : Controller} (h : Aside c d) (hs : Sound c) (hr : RecordsSound d.tab)
    (hq : StrokesSound d.tab c.seq) (hg : RollsGood d) (hn : PatternsCounted d.tab d.lib)
    (ho : c.commissioned = false → d.tab.roster = []) : Sound d := by
  have hw : d.windowSize = c.windowSize := by simp only [Controller.windowSize, Controller.param, h.params]
  refine ⟨h.blocks hs.blocks, hr, by rw [h.seq]; exact hq, hg.sound, hn, hg.counted, ?_, ?_⟩
  · rw [h.commissioned, h.seq, hw]; exact hs.window
  · rw [h.commissioned]; exact ho

/-! ### What panels name -/

theorem setQueue_lib (c : Controller) (queue : List Nat) : (c.setQueue queue).lib = c.lib :=
  congrArg Steady.lib (setQueue_away c queue).steady

theorem RollsGood.setQueue {c : Controller} (g : RollsGood c) (queue : List Nat) : RollsGood (c.setQueue queue) :=
  (setQueue_away c queue).rolls (g.setTab rfl)

/-- The library apart. -/
theorem RollsGood.setLib {c : Controller} (g : RollsGood c) (l : List Pattern) : RollsGood { c with lib := l } :=
  ⟨g.sound, g.counted⟩

theorem RollsGood.releasePattern {c : Controller} (g : RollsGood c) (n : Nat) : RollsGood (c.releasePattern n) := by
  unfold Controller.releasePattern
  split <;> exact ⟨g.sound, g.counted⟩

/-- The library as a panel that named pattern `p.pattern` leaves the table (R36, R38). -/
theorem PatternsCounted.release {c : Controller} {t : RecordUnit} (h : PatternsCounted t c.lib) (hl : c.lib.length = 32)
    (hr : (t.panels.map Panel.id).Nodup) {p : Panel} (hp : p ∈ t.panels) {u : RecordUnit}
    (hu : u.panels = t.panels.filter (fun q => q.id != p.id)) : PatternsCounted u (c.releasePattern p.pattern).lib := by
  have hn := h.named p hp
  have names : ∀ m, u.patternNames m + (if p.pattern == m then 1 else 0) = t.patternNames m := by
    intro m
    unfold RecordUnit.patternNames
    rw [hu]
    exact countNames_remove hr hp (fun q => q.pattern == m)
  have here := names p.pattern
  rw [if_pos (by simp), ← h.count _ hn.1 hn.2] at here
  have named : ∀ q ∈ u.panels, 1 ≤ q.pattern ∧ q.pattern ≤ 32 := fun q hq =>
    h.named q (by rw [hu] at hq; exact (List.mem_filter.mp hq).1)
  have other : ∀ m, m ≠ p.pattern → u.patternNames m = t.patternNames m := by
    intro m hm
    have := names m
    rw [if_neg (by simpa using fun e => hm e.symm)] at this
    exact this
  unfold Controller.releasePattern
  split
  · rename_i hc
    have hc2 : (c.lib.getD (p.pattern - 1) Pattern.blank).refs ≤ 1 := hc.2
    refine h.update hl hn (fun _ => Pattern.blank) named other ?_ (fun _ => rfl)
    show 0 = u.patternNames p.pattern
    omega
  · refine h.update hl hn (fun q => { q with refs := q.refs - 1 }) named other ?_ (fun hf => ?_)
    · show (c.lib.getD (p.pattern - 1) Pattern.blank).refs - 1 = u.patternNames p.pattern
      omega
    · have := h.free _ hn.1 hn.2 hf
      show (c.lib.getD (p.pattern - 1) Pattern.blank).refs - 1 = 0
      omega

/-- A panel that names no roll leaves the table, or joins it. -/
theorem RollsCounted.removePlain {t : RecordUnit} {r : RollManager} (h : RollsCounted t r)
    (hr : (t.panels.map Panel.id).Nodup) {p : Panel} (hp : p ∈ t.panels) (hpl : p.placed = none) {u : RecordUnit}
    (hu : u.panels = t.panels.filter (fun q => q.id != p.id)) : RollsCounted u r := by
  refine ⟨fun q hq => h.slot q (by rw [hu] at hq; exact (List.mem_filter.mp hq).1), fun y hy => ?_⟩
  have := countNames_remove hr hp (fun q => q.placed.map Placed.roll == some y.id)
  rw [hpl, if_neg (by simp)] at this
  rw [h.count y hy]
  unfold RecordUnit.rollNames
  rw [hu]; exact this.symm

theorem RollsCounted.addPlain {t : RecordUnit} {r : RollManager} (h : RollsCounted t r) {p : Panel} (hpl : p.placed = none)
    {u : RecordUnit} (hu : u.panels = t.panels ++ [p]) : RollsCounted u r := by
  refine ⟨fun q hq x hx => ?_, fun y hy => ?_⟩
  · rw [hu] at hq
    rcases List.mem_append.mp hq with hq | hq
    · exact h.slot q hq x hx
    · rw [List.mem_singleton.mp hq, hpl] at hx; cases hx
  · rw [h.count y hy]
    unfold RecordUnit.rollNames
    rw [hu, List.filter_append, List.length_append]
    simp [hpl]

theorem RecordsSound.unplaced {t : RecordUnit} (h : RecordsSound t) {p : Panel} (hp : p ∈ t.panels)
    (hs : p.state = .scheduled) : p.placed = none := by
  cases hx : p.placed with
  | none => rfl
  | some y => exact absurd hs ((h.placed p hp).mp (by rw [hx]; rfl))

/-! ### Effects on the panel table -/

theorem schedulePanel_sound {c : Controller} (hs : Sound c) (f : ScheduleFields)
    (hb : f.bad = none) (hf : c.scheduleRefusal f = none) :
    Sound (c.schedulePanel f) ∧ (c.schedulePanel f).resetHeld = c.resetHeld := by
  have hdup : (c.panelByNumber f.panel).isSome = false := by
    unfold Controller.scheduleRefusal at hf
    split at hf
    · cases hf
    · rename_i h; simpa using h
  have hroom : c.tab.panels.length < 64 := by
    unfold Controller.scheduleRefusal at hf
    rw [hdup] at hf
    simp only [Bool.false_eq_true, if_false] at hf
    split at hf
    · cases hf
    · omega
  have hnum : ∀ q ∈ c.tab.panels, q.number ≠ f.panel :=
    panelByNumber_none (by cases hx : c.panelByNumber f.panel with
      | none => rfl
      | some _ => rw [hx] at hdup; cases hdup)
  have hrange : 1 ≤ f.pattern ∧ f.pattern ≤ 32 := by
    unfold ScheduleFields.bad at hb
    by_cases h : f.pattern = 0 ∨ 32 < f.pattern
    · rw [if_pos h] at hb
      split at hb
      · cases hb
      · split at hb <;> cases hb
    · omega
  have hsealed : (c.pattern f.pattern).state = .sealed := by
    unfold Controller.scheduleRefusal at hf
    by_contra h
    rw [if_pos h] at hf
    split at hf
    · cases hf
    · split at hf <;> cases hf
  unfold Controller.schedulePanel
  simp only
  refine (fun (x : ∀ p : Panel, p.id = c.tab.nextId → p.number = f.panel → p.state = .scheduled → p.placed = none →
    p.pattern = f.pattern → ∀ before, Sound (Controller.setQueue (Controller.countPattern
      { c with tab := { c.tab with panels := c.tab.panels ++ [p], nextId := c.tab.nextId + 1 } } f.pattern)
      (insertAt c.tab.queue c.tab.nextId f.placement before)) ∧ (Controller.setQueue (Controller.countPattern
      { c with tab := { c.tab with panels := c.tab.panels ++ [p], nextId := c.tab.nextId + 1 } } f.pattern)
      (insertAt c.tab.queue c.tab.nextId f.placement before)).resetHeld = c.resetHeld) => x _ rfl rfl rfl rfl rfl _) ?_
  intro p hid hpn hst hpl hpat before
  have hperm := insertAt_perm c.tab.queue c.tab.nextId f.placement before
  have a := ((Aside.setTab c { c.tab with panels := c.tab.panels ++ [p], nextId := c.tab.nextId + 1 }).trans
    (Aside.updatePattern _ f.pattern (fun p => { p with refs := p.refs + 1 }))).trans
    ((Aside.setTab _ { c.tab with panels := c.tab.panels ++ [p], queue := insertAt c.tab.queue c.tab.nextId f.placement before
                                  nextId := c.tab.nextId + 1 }).trans
      (setQueue_away (Controller.countPattern
        { c with tab := { c.tab with panels := c.tab.panels ++ [p], nextId := c.tab.nextId + 1 } } f.pattern)
        (insertAt c.tab.queue c.tab.nextId f.placement before)).aside)
  have ht := (setQueue_away (Controller.countPattern
        { c with tab := { c.tab with panels := c.tab.panels ++ [p], nextId := c.tab.nextId + 1 } } f.pattern)
        (insertAt c.tab.queue c.tab.nextId f.placement before)).tab
  refine ⟨a.sound hs ?_ ?_ ?_ ?_ ?_, a.resetHeld⟩
  · rw [ht]
    exact hs.records.insert p hroom hid (fun q hq => by rw [hpn]; exact hnum q hq) hst hpl _ (by rw [hid]; exact hperm)
  · rw [ht]
    exact hs.strokes.insert p hid hpl _
  · refine RollsGood.setQueue ?_ _
    exact ⟨hs.rolls, hs.fed.addPlain (u := { c.tab with panels := c.tab.panels ++ [p], nextId := c.tab.nextId + 1 }) hpl rfl⟩
  · rw [ht, setQueue_lib]
    have names : ∀ m, RecordUnit.patternNames { c.tab with
        panels := c.tab.panels ++ [p]
        queue := insertAt c.tab.queue c.tab.nextId f.placement before
        nextId := c.tab.nextId + 1 } m = c.tab.patternNames m + (if f.pattern == m then 1 else 0) := by
      intro m
      unfold RecordUnit.patternNames
      rw [List.filter_append, List.length_append, List.filter_cons, hpat]
      split <;> rfl
    refine hs.patterns.update hs.blocks.patterns hrange (fun p => { p with refs := p.refs + 1 }) (fun q hq => ?_)
      (fun m hm => ?_) ?_ (fun hfree => ?_)
    · rcases List.mem_append.mp hq with hq | hq
      · exact hs.patterns.named q hq
      · rw [List.mem_singleton.mp hq, hpat]; exact hrange
    · have := names m
      rw [if_neg (by simpa using fun e => hm e.symm)] at this
      exact this
    · have := names f.pattern
      rw [if_pos (by simp), ← hs.patterns.count _ hrange.1 hrange.2] at this
      exact this.symm
    · have h' : (c.pattern f.pattern).state = .empty ∨ (c.pattern f.pattern).state = .draft := hfree
      rw [hsealed] at h'
      rcases h' with h' | h' <;> cases h'
  · intro hc
    rw [ht]; exact hs.offline hc

theorem movePanel_sound {c : Controller} (hs : Sound c) {p : Panel} (hp : p ∈ c.tab.panels) (hst : p.state = .scheduled)
    (placement before : Nat) :
    Sound (c.movePanel p.id placement before) ∧ (c.movePanel p.id placement before).resetHeld = c.resetHeld := by
  have hin : p.id ∈ c.tab.queue := (hs.records.queued p.id).mpr ⟨p, hp, rfl, hst⟩
  have hperm : (insertAt (c.tab.queue.filter (fun x => x != p.id)) p.id placement before).Perm c.tab.queue := by
    refine (insertAt_perm _ _ _ _).trans ?_
    rw [← List.Nodup.erase_eq_filter hs.records.queueOnce]
    exact (List.perm_cons_erase hin).symm
  have a := (Aside.setTab c { c.tab with queue := insertAt (c.tab.queue.filter (fun x => x != p.id)) p.id placement before
    }).trans (setQueue_away c (insertAt (c.tab.queue.filter (fun x => x != p.id)) p.id placement before)).aside
  have ht := (setQueue_away c (insertAt (c.tab.queue.filter (fun x => x != p.id)) p.id placement before)).tab
  refine ⟨a.sound hs ?_ ?_ (hs.good.setQueue _) ?_ ?_, a.resetHeld⟩
  · show RecordsSound (c.setQueue _).tab
    rw [ht]; exact hs.records.requeue _ hperm
  · show StrokesSound (c.setQueue _).tab _
    rw [ht]; exact hs.strokes.requeue _
  · show PatternsCounted (c.setQueue _).tab (c.setQueue _).lib
    rw [ht, setQueue_lib]
    exact ⟨hs.patterns.named, hs.patterns.count, hs.patterns.free⟩
  · intro hc
    show (c.setQueue _).tab.roster = []
    rw [ht]; exact hs.offline hc

theorem withdrawPanel_sound {c : Controller} (hs : Sound c) (ha : c.resetHeld = false) {p : Panel} (hp : p ∈ c.tab.panels)
    (hst : p.state = .scheduled) :
    Sound (c.withdrawPanel p) ∧ (c.withdrawPanel p).resetHeld = c.resetHeld := by
  have a1 := (Aside.setTab c { c.tab with queue := c.tab.queue.filter (fun x => x != p.id) }).trans
    (setQueue_away c (c.tab.queue.filter (fun x => x != p.id))).aside
  have a2 := a1.trans (Aside.releasePattern (a1.resetHeld.trans ha) p.pattern)
  have a3 := a2.trans (Aside.setTab _
    { ((c.setQueue (c.tab.queue.filter (fun x => x != p.id))).releasePattern p.pattern).tab with
      panels := ((c.setQueue (c.tab.queue.filter (fun x => x != p.id))).releasePattern p.pattern).tab.panels.filter
        (fun q => q.id != p.id) })
  have ht : (c.withdrawPanel p).tab = { c.tab with
      panels := c.tab.panels.filter (fun q => q.id != p.id)
      queue := c.tab.queue.filter (fun x => x != p.id)
      roster := c.tab.roster.filter (fun x => x != p.id) } := by
    unfold Controller.withdrawPanel Controller.freePanel
    simp only [releasePattern_tab, (setQueue_away c (c.tab.queue.filter (fun x => x != p.id))).tab]
    rw [filter_ne_self (hs.records.notRoster hp hst)]
  refine ⟨Aside.sound (d := c.withdrawPanel p) a3 hs ?_ ?_ ?_ ?_ ?_, a3.resetHeld⟩
  · rw [ht]; exact hs.records.remove p.id _ _ rfl rfl
  · rw [ht]; exact hs.strokes.remove p.id _ _
  · have g : RollsGood ((c.setQueue (c.tab.queue.filter (fun x => x != p.id))).releasePattern p.pattern) :=
      (hs.good.setQueue _).releasePattern _
    refine ⟨g.sound, g.counted.removePlain ?_ (p := p) ?_ (hs.records.unplaced hp hst) rfl⟩
    · rw [releasePattern_tab, (setQueue_away c _).tab]; exact hs.records.ids
    · rw [releasePattern_tab, (setQueue_away c _).tab]; exact hp
  · rw [ht]
    exact PatternsCounted.release (c := c.setQueue (c.tab.queue.filter (fun x => x != p.id))) (t := c.tab)
      (by rw [setQueue_lib]; exact hs.patterns) (by rw [setQueue_lib]; exact hs.blocks.patterns) hs.records.ids hp rfl
  · intro hc
    rw [ht, hs.offline hc]; rfl

theorem retirePanel_sound {c : Controller} (hs : Sound c) (ha : c.resetHeld = false) {p : Panel} (hp : p ∈ c.tab.panels)
    (hst : p.state = .cut) :
    Sound (c.retirePanel p) ∧ (c.retirePanel p).resetHeld = c.resetHeld := by
  have a1 := Aside.setTab c { c.tab with roster := c.tab.roster.filter (fun x => x != p.id) }
  have a2 := a1.trans (Aside.releasePattern (c := { c with tab := { c.tab with roster := c.tab.roster.filter (fun x => x != p.id) } })
    ha p.pattern)
  have a3 : Aside c (Controller.releaseRoll _ _) := a2.trans (mapRolls_near _ (fun r =>
    if r.id = (p.placed.map Placed.roll).getD 0 then { r with refs := r.refs - 1 } else r)).aside
  have ht : (c.retirePanel p).tab = { c.tab with
      panels := c.tab.panels.filter (fun q => q.id != p.id)
      queue := c.tab.queue.filter (fun x => x != p.id)
      roster := c.tab.roster.filter (fun x => x != p.id) } := by
    unfold Controller.retirePanel Controller.freePanel Controller.releaseRoll Controller.updateRoll Controller.mapRolls
    simp only [releasePattern_tab]
    rw [filter_ne_self (hs.records.notQueued hp (by rw [hst]; decide))]
  have a4 : Aside c (c.retirePanel p) := a3.trans (Aside.setTab _ _)
  refine ⟨a4.sound hs ?_ ?_ ?_ ?_ ?_, a4.resetHeld⟩
  · rw [ht]; exact hs.records.remove p.id _ _ rfl rfl
  · rw [ht]; exact hs.strokes.remove p.id _ _
  · have hst' : p.state ≠ .scheduled := by rw [hst]; decide
    obtain ⟨x, hx⟩ := Option.isSome_iff_exists.mp ((hs.records.placed p hp).mpr hst')
    have hroll : (p.placed.map Placed.roll).getD 0 = x.roll := by rw [hx]; rfl
    have hcore : ((Controller.releasePattern { c with tab := { c.tab with
        roster := c.tab.roster.filter (fun x => x != p.id) } } p.pattern).releaseRoll
          ((p.placed.map Placed.roll).getD 0)).rolls = { c.rolls with slots := c.rolls.slots.map (fun slot =>
            slot.map (fun r => if r.id = x.roll then { r with refs := r.refs - 1 } else r)) } := by
      rw [hroll]
      unfold Controller.releasePattern
      split <;> rfl
    have hid : ∀ r : Roll, (if r.id = x.roll then { r with refs := r.refs - 1 } else r).id = r.id := by
      intro r; split <;> rfl
    have hstate : ∀ r : Roll, (if r.id = x.roll then { r with refs := r.refs - 1 } else r).state = r.state := by
      intro r; split <;> rfl
    have hrolls : RollManager.rolls { c.rolls with slots := c.rolls.slots.map (fun slot =>
        slot.map (fun r => if r.id = x.roll then { r with refs := r.refs - 1 } else r)) } = c.rolls.rolls.map (fun r =>
          if r.id = x.roll then { r with refs := r.refs - 1 } else r) := rolls_map _ _
    have hon : (c.retirePanel p).commissioned = c.commissioned := a4.commissioned
    refine ⟨?_, ?_⟩
    · rw [hon]
      show RollsSound ((Controller.releasePattern { c with tab := { c.tab with
        roster := c.tab.roster.filter (fun x => x != p.id) } } p.pattern).releaseRoll
          ((p.placed.map Placed.roll).getD 0)).rolls _
      rw [hcore]
      refine hs.rolls.mapRefs hid hstate (fun r hr hn => ?_)
      have hn' : r.isNew := by rcases hn with h | h <;> rw [hstate] at h <;> [exact Or.inl h; exact Or.inr h]
      have h0 := hs.rolls.table.unnamed r hr hn'
      split
      · show r.refs - 1 = 0
        omega
      · exact h0
    · show RollsCounted (c.retirePanel p).tab ((Controller.releasePattern { c with tab := { c.tab with
        roster := c.tab.roster.filter (fun x => x != p.id) } } p.pattern).releaseRoll
          ((p.placed.map Placed.roll).getD 0)).rolls
      rw [hcore, ht]
      refine ⟨fun q hq y hy => ?_, fun y hy => ?_⟩
      · obtain ⟨z, hz, e⟩ := hs.fed.slot q (List.mem_filter.mp hq).1 y hy
        rw [hrolls]
        exact ⟨_, List.mem_map_of_mem hz, (hid z).trans e⟩
      · rw [hrolls] at hy
        obtain ⟨z, hz, rfl⟩ := List.mem_map.mp hy
        rw [hid]
        have hcount := hs.fed.count z hz
        have := countNames_remove hs.records.ids hp (fun q => q.placed.map Placed.roll == some z.id)
        rw [hx] at this
        simp only [Option.map_some] at this
        show _ = ((c.tab.panels.filter _).filter _).length
        unfold RecordUnit.rollNames at hcount
        split
        · rename_i e
          simp only [e, beq_self_eq_true, if_true] at this hcount ⊢
          omega
        · rename_i e
          have e' : ¬ ((some x.roll == some z.id) = true) := by
            intro h; exact e (Option.some.inj (beq_iff_eq.mp h)).symm
          rw [if_neg e'] at this
          rw [hcount]; exact this.symm
  · rw [ht]
    have hlib : (c.retirePanel p).lib = (Controller.releasePattern { c with tab := { c.tab with
        roster := c.tab.roster.filter (fun x => x != p.id) } } p.pattern).lib := rfl
    rw [hlib]
    exact PatternsCounted.release (c := { c with tab := { c.tab with roster := c.tab.roster.filter (fun x => x != p.id) } })
      (t := c.tab) hs.patterns hs.blocks.patterns hs.records.ids hp rfl
  · intro hc
    rw [ht, hs.offline hc]; rfl

/-- An update of a panel in any state of the line. -/
theorem addCause_sound {c : Controller} (hs : Sound c) (ha : c.resetHeld = false) (id : Nat) (k : Cause) :
    Sound (c.addCause id k) ∧ (c.addCause id k).resetHeld = c.resetHeld := by
  have plain : ∀ f : Panel → Panel, (∀ p, Gentle p (f p)) → (∀ p, SameCounts p (f p)) → Sound (c.updatePanel id f) := by
    intro f hf hc
    have g : ∀ p ∈ c.tab.panels, Gentle p (if p.id = id then f p else p) := by
      intro p _; split
      · exact hf p
      · exact Gentle.refl p
    have gc : ∀ p ∈ c.tab.panels, SameCounts p (if p.id = id then f p else p) := by
      intro p _; split
      · exact hc p
      · exact SameCounts.refl p
    exact hs.setTab _ (hs.records.map _ g) (hs.strokes.map _ g gc) (hs.patterns.map _ (fun p hp => (g p hp).pattern))
      (hs.fed.map _ (fun p hp => (g p hp).roll)) hs.offline
  unfold Controller.addCause
  split
  · exact ⟨hs, rfl⟩
  · split
    · exact ⟨raise_sound (plain (fun q => { q.withCause k with verdict := .reject }) (fun _ => ⟨rfl, rfl, Iff.rfl, rfl, rfl⟩)
        (fun _ => SameCounts.of_placed rfl)) ha _ _, rfl⟩
    · exact ⟨plain _ (fun p => Gentle.withCause p k) (fun _ => SameCounts.of_placed rfl), rfl⟩

/-! ### Requests -/

/-- A request that keeps the invariant. -/
def Honest (r : Request) : Prop := ∀ c, Sound c → c.resetHeld = false → Sound (r c).1

theorem refuse_honest (code : AnswerCode) : Honest (refuse code) := fun _ hs _ => hs
theorem badField_honest (i : Nat) : Honest (badField i) := fun _ hs _ => hs
theorem answer_honest (body : Controller → List Byte) : Honest (answer body) := fun _ hs _ => hs

/-- An accepted request, by what its effect leaves. -/
theorem accept_sound {c : Controller} {f : Controller → Controller} {body : Controller → List Byte}
    (ha : c.resetHeld = false) (h : Sound (f c) ∧ (f c).resetHeld = c.resetHeld) : Sound (accept f body c).1 :=
  event_sound ha h.1 h.2

/-- An accepted request of a commissioned controller. -/
theorem accept_firm {c : Controller} {f : Controller → Controller} {body : Controller → List Byte} (hs : Sound c)
    (ha : c.resetHeld = false) (hc : c.commissioned = true) (hf : Firm f) : Sound (accept f body c).1 :=
  firmEvent_sound hs ha hc hf

/-- An accepted request whose effect keeps the invariant here. -/
theorem accept_kept {c : Controller} {f : Controller → Controller} {body : Controller → List Byte}
    (ha : c.resetHeld = false) (h : Kept c (f c)) : Sound (accept f body c).1 :=
  accept_sound ha ⟨h.safe.sound, h.safe.live.awake.trans ha.symm⟩

theorem whenCommissioned_honest {r : Request}
    (h : ∀ c, Sound c → c.resetHeld = false → c.commissioned = true → Sound (r c).1) : Honest (whenCommissioned r) := by
  intro c hs ha
  unfold whenCommissioned
  split
  · exact h c hs ha ‹_›
  · exact hs

theorem onPanel_honest {panel : Nat} {r : Panel → Request}
    (h : ∀ c p, Sound c → c.resetHeld = false → c.panelByNumber panel = some p → Sound (r p c).1) :
    Honest (onPanel panel r) := by
  intro c hs ha
  unfold onPanel
  split
  · exact hs
  · split
    · exact hs
    · exact h c _ hs ha ‹_›

theorem onPattern_honest {n : Nat} {r : Pattern → Request} (h : ∀ c, Sound c → c.resetHeld = false → 1 ≤ n ∧ n ≤ 32 →
    Sound (r (c.pattern n) c).1) : Honest (onPattern n r) := by
  intro c hs ha
  unfold onPattern
  split
  · exact hs
  · exact h c hs ha (by omega)

theorem schedule_honest (f : ScheduleFields) : Honest (scheduleRequest f) := by
  intro c hs ha
  unfold scheduleRequest
  split
  · exact hs
  · split
    · exact hs
    · exact accept_sound ha (schedulePanel_sound hs f ‹_› ‹_›)

theorem move_honest (panel placement neighbour : Nat) : Honest (moveRequest panel placement neighbour) := by
  intro c hs ha
  unfold moveRequest
  split
  · exact hs
  · split
    · exact hs
    · split
      · exact hs
      · split
        · exact hs
        · rename_i p hp
          split
          · exact hs
          · rename_i hst
            split
            · exact hs
            · split
              · exact hs
              · exact accept_sound ha (movePanel_sound hs (panelByNumber_mem hp).1 (by simpa using hst) _ _)

theorem withdraw_honest (panel : Nat) : Honest (withdrawRequest panel) :=
  onPanel_honest (fun c p hs ha hp => by
    try simp only
    split
    · exact accept_sound ha (withdrawPanel_sound hs ha (panelByNumber_mem hp).1 ‹_›)
    · exact hs)

theorem reject_honest (panel : Nat) : Honest (rejectRequest panel) :=
  onPanel_honest (fun c p hs ha _ => by
    try simp only
    split
    · exact hs
    · exact accept_sound ha (addCause_sound hs ha _ _))

theorem retire_honest (panel : Nat) : Honest (retireRequest panel) :=
  onPanel_honest (fun c p hs ha hp => by
    try simp only
    split
    · exact accept_sound ha (retirePanel_sound hs ha (panelByNumber_mem hp).1 ‹_›)
    · exact hs)

theorem readPanel_honest (panel : Nat) : Honest (readPanelRequest panel) := onPanel_honest (fun _ _ hs _ _ => hs)

theorem find_honest (place zone : Nat) : Honest (findRequest place zone) := by
  intro c hs _
  unfold findRequest
  split
  · exact hs
  · split <;> exact hs

theorem listSchedule_honest (start : Nat) : Honest (listScheduleRequest start) := by
  intro c hs _
  unfold listScheduleRequest
  split <;> exact hs

theorem listRoster_honest (start : Nat) : Honest (listRosterRequest start) := by
  intro c hs _
  unfold listRosterRequest
  split <;> exact hs

/-! ### Patterns -/

theorem acceptPattern_sound {c : Controller} (hs : Sound c) (ha : c.resetHeld = false) {n : Nat} (hn : 1 ≤ n ∧ n ≤ 32)
    {f : Pattern → Pattern} {body : Controller → List Byte} (hc : (f (c.pattern n)).refs = (c.pattern n).refs)
    (hf : (f (c.pattern n)).state = .empty ∨ (f (c.pattern n)).state = .draft → (f (c.pattern n)).refs = 0) :
    Sound (accept (fun d => d.updatePattern n f) body c).1 :=
  accept_sound ha ⟨updatePattern_sound hs hn f hc hf, rfl⟩

/-- An EMPTY or DRAFT pattern is named by no panel. -/
theorem Sound.unnamed {c : Controller} (hs : Sound c) {n : Nat} (hn : 1 ≤ n ∧ n ≤ 32)
    (h : (c.pattern n).state = .empty ∨ (c.pattern n).state = .draft) : (c.pattern n).refs = 0 :=
  hs.patterns.free n hn.1 hn.2 h

theorem openPattern_honest (n fabric heat : Nat) : Honest (openPatternRequest n fabric heat) :=
  onPattern_honest (fun c hs ha hn => by
    try simp only
    split
    · exact hs
    · split
      · exact hs
      · split
        · exact hs
        · rename_i h
          exact acceptPattern_sound hs ha hn (hs.unnamed hn (Or.inl (by simpa using h))).symm (fun _ => rfl))

theorem append_honest (n count : Nat) (steps : List RawStep) : Honest (appendRequest n count steps) :=
  onPattern_honest (fun c hs ha hn => by
    try simp only
    split
    · exact hs
    · split
      · exact hs
      · split
        · exact hs
        · split
          · exact hs
          · split
            · exact hs
            · split
              · exact hs
              · exact acceptPattern_sound hs ha hn rfl (hs.unnamed hn))

theorem clear_honest (n : Nat) : Honest (clearRequest n) :=
  onPattern_honest (fun c hs ha hn => by
    try simp only
    split
    · exact acceptPattern_sound hs ha hn rfl (hs.unnamed hn)
    · exact hs)

theorem seal_honest (n : Nat) : Honest (sealRequest n) :=
  onPattern_honest (fun c hs ha hn => by
    try simp only
    split
    · exact hs
    · split
      · exact hs
      · exact acceptPattern_sound hs ha hn rfl (fun h => by rcases h with h | h <;> cases h))

theorem unseal_honest (n : Nat) : Honest (unsealRequest n) :=
  onPattern_honest (fun c hs ha hn => by
    try simp only
    split
    · split
      · rename_i h; exact acceptPattern_sound hs ha hn rfl (fun _ => h)
      · exact hs
    · exact hs
    · exact hs)

theorem retirePattern_honest (n : Nat) : Honest (retirePatternRequest n) :=
  onPattern_honest (fun c hs ha hn => by
    try simp only
    split
    · exact hs
    · rename_i h; exact acceptPattern_sound hs ha hn (hs.unnamed hn (Or.inr h)).symm (fun _ => rfl)
    · split
      · rename_i h; exact acceptPattern_sound hs ha hn h.symm (fun _ => rfl)
      · exact acceptPattern_sound hs ha hn rfl (fun h => by rcases h with h | h <;> cases h)
    · exact hs)

theorem readPattern_honest (n : Nat) : Honest (readPatternRequest n) := onPattern_honest (fun _ hs _ _ => hs)

theorem readSteps_honest (n start : Nat) : Honest (readStepsRequest n start) :=
  onPattern_honest (fun c hs _ _ => by
    try simp only
    split <;> exact hs)

/-! ### The line -/

theorem start_honest : Honest startRequest :=
  whenCommissioned_honest (fun c hs ha hc => by
    try simp only
    split
    · split
      · exact hs
      · refine accept_firm hs ha hc (Calm.firm (fun d hl => ?_))
        unfold Controller.startLine
        split
        · exact enterRunning_calm d hl
        · exact (enterLine_calm .held (by decide) d hl).raise hl _ _
    · exact hs
    · exact hs)

theorem hold_stop_calm : Calm (fun d => d.driveHold.enterLine .stopped) :=
  (enterLine_calm .stopped (by decide)).comp driveHold_calm

/-- The fields of STOP_LINE's refusal are the line status or none, whichever the free value of log 31 is. -/
theorem refusedStopBody_cases (c : Controller) : refusedStopBody c = lineStatus c ∨ refusedStopBody c = [] := by
  unfold refusedStopBody
  split
  · exact Or.inl rfl
  · exact Or.inr rfl

theorem stop_honest : Honest stopRequest :=
  whenCommissioned_honest (fun c hs ha hc => by
    try simp only
    split
    · exact accept_firm hs ha hc hold_stop_calm.firm
    · exact accept_firm hs ha hc (enterLine_calm .stopped (by decide)).firm
    · split
      · exact hs
      · exact accept_firm hs ha hc hold_stop_calm.firm
    · exact hs)

theorem setSpeed_calm (speed : Nat) : Calm (fun c => c.setSpeed speed) := by
  intro c hl
  show Away c (c.setSpeed speed)
  have h1 := Away.setLine c { c.line with speed := speed } rfl
  unfold Controller.setSpeed
  simp only
  split
  · exact h1.hand hl .f (.driveRun speed) rfl
  · exact h1

theorem speed_honest (speed : Nat) : Honest (speedRequest speed) :=
  whenCommissioned_honest (fun c hs ha hc => by
    try simp only
    split
    · exact hs
    · exact accept_firm hs ha hc (setSpeed_calm speed).firm)

/-! ### Rolls -/

theorem placeRoll_length (r : Roll) : ∀ l : List (Option Roll), (placeRoll r l).length = l.length
  | [] => rfl
  | none :: _ => rfl
  | some _ :: rest => by simp [placeRoll, placeRoll_length r rest]

theorem onSpindle_honest {code i : Nat} {r : Spindle → Request} (h : ∀ sp, Honest (r sp)) : Honest (onSpindle code i r) := by
  intro c hs ha
  unfold onSpindle
  split
  · exact h _ c hs ha
  · exact hs

theorem away_accept {c : Controller} {f : Controller → Controller} {body : Controller → List Byte} (hs : Sound c)
    (ha : c.resetHeld = false) (h : Away c (f c)) : Sound (accept f body c).1 :=
  accept_sound ha ⟨h.sound hs, congrArg Steady.resetHeld h.steady⟩

theorem registerRoll_away {c : Controller} (id fabric len : Nat) (hn : c.rollById id = none) (hf : none ∈ c.rolls.slots) :
    Away c (c.registerRoll id fabric len) := by
  refine ⟨Near.setRolls c _ (placeRoll_length _ _) (fun h => h), fun g => ⟨g.sound.register _ hf (rollById_none hn) rfl rfl, ?_⟩⟩
  have hp : (RollManager.rolls { c.rolls with
      slots := placeRoll ⟨id, fabric, len, len, .registered, none, none, 0⟩ c.rolls.slots }).Perm (_ :: c.rolls.rolls) :=
    placeRoll_perm _ hf
  refine ⟨fun p hp' x hx => ?_, fun y hy => ?_⟩
  · obtain ⟨y, hy, e⟩ := g.counted.slot p hp' x hx
    exact ⟨y, hp.mem_iff.mpr (List.mem_cons_of_mem _ hy), e⟩
  · rcases List.mem_cons.mp (hp.mem_iff.mp hy) with rfl | hy
    · symm
      show (c.tab.panels.filter _).length = 0
      rw [List.length_eq_zero_iff, List.filter_eq_nil_iff]
      intro p hp' h
      cases hx : p.placed with
      | none => rw [hx] at h; simp at h
      | some x =>
        obtain ⟨y, hy, e⟩ := g.counted.slot p hp' x hx
        rw [hx] at h
        have h' : x.roll = id := by simpa using h
        exact rollById_none hn y hy (e.trans h')
    · exact g.counted.count y hy

theorem register_honest (id fabric len : Nat) : Honest (registerRequest id fabric len) := by
  intro c hs ha
  unfold registerRequest
  split
  · exact hs
  · split
    · exact hs
    · split
      · exact hs
      · split
        · exact hs
        · rename_i hn
          split
          · exact hs
          · rename_i hf
            have hf' : c.rolls.slots.any Option.isNone = true := by simpa using hf
            obtain ⟨slot, hm, h0⟩ := List.any_eq_true.mp hf'
            rw [Option.isNone_iff_eq_none.mp h0] at hm
            exact away_accept hs ha (registerRoll_away id fabric len (by simpa using hn) hm)

theorem mountRoll_away {c : Controller} (ha : c.resetHeld = false) {x : Roll} (hx : x ∈ c.rolls.rolls)
    (hr : x.state = .registered) {sp : Spindle} (he : (c.spindle sp).state = .empty) : Away c (c.mountRoll x.id sp) := by
  have he' : (c.rolls.spindle sp).state = .empty := by rw [← spindle_rolls]; exact he
  have shape : ∀ m : SpindleRec, m.state = .loaded ∧ m.roll = some x.id → Away c { c with
      rolls := RollManager.withSpindle { c.rolls with slots := c.rolls.slots.map (fun slot =>
        slot.map (mountedOn x.id sp)) } sp m } := by
    intro m hm
    obtain ⟨w1, _, w3, _, w5⟩ := withSpindle_rest { c.rolls with
      slots := c.rolls.slots.map (fun slot => slot.map (mountedOn x.id sp)) } sp m
    refine ⟨Near.setRolls c _ (by rw [w1]; simp) (by rw [w3, w5]; exact fun h => h), fun g =>
      ⟨g.sound.mount hx hr he' m hm, g.counted.of_refs ?_⟩⟩
    have mild := mount_mild g.sound.table hx hr sp
    exact (refTable_of_slots w1).trans (refTable_map mild.id mild.refs)
  have h1 := shape { (c.updateRoll x.id (fun r => { r with state := .mounted, spindle := some sp })).spindle sp with
    state := .loaded, roll := some x.id } ⟨rfl, rfl⟩
  unfold Controller.mountRoll
  simp only
  rw [setSpindle_rolls]
  split
  · rename_i hc
    simp only [Bool.and_eq_true] at hc
    refine h1.trans (enterPending_away ⟨(congrArg Steady.resetHeld h1.steady).trans ha, hc.1.1⟩ (fun k hk => ?_))
    have other : k ≠ sp := fun e => by
      rw [e] at hk
      rw [show RollManager.spindle (Controller.rolls _) sp = _ from spindle_with _ _ _ _, if_pos rfl] at hk
      cases hk
    have : otherSpindle k = sp := (eq_other (Ne.symm other)).symm
    rw [this, show RollManager.spindle (Controller.rolls _) sp = _ from spindle_with _ _ _ _, if_pos rfl]
  · exact h1

theorem mount_honest (id spindle : Nat) : Honest (mountRequest id spindle) :=
  onSpindle_honest (fun sp c hs ha => by
    try simp only
    split
    · exact hs
    · split
      · exact hs
      · rename_i r hr hn
        obtain ⟨hm, rfl⟩ := rollById_mem hr
        have hn' : r.state = .registered ∧ (c.spindle sp).state = .empty := by
          by_contra h
          exact hn (by by_cases h2 : r.state = .registered <;> simp_all)
        exact away_accept hs ha (mountRoll_away ha hm hn'.1 hn'.2))

theorem unmountRoll_away {c : Controller} (ha : c.resetHeld = false) {sp : Spindle} (hl : (c.spindle sp).state = .loaded)
    (hj : c.rolls.job.inSplice = false) : Away c (c.unmountRoll sp) := by
  have hl' : (c.rolls.spindle sp).state = .loaded := by rw [← spindle_rolls]; exact hl
  have shape : ∀ m : SpindleRec, m.state = .empty → ∀ (j : RollJob) (n : Nat), j.inSplice = false →
      (RollsSound c.rolls c.commissioned → j ≠ .pending ∧ (c.commissioned = false → j = .normal ∨ j = .low ∨ j = .noRoll)) →
      Away c { c with rolls := { RollManager.withSpindle { c.rolls with slots := c.rolls.slots.map (fun slot =>
        slot.map (unmounted ((c.rolls.spindle sp).roll.getD 0))) } sp m with retry := n, job := j } } := by
    intro m hm j n hjp hq
    obtain ⟨w1, _, w3, _, w5⟩ := withSpindle_rest { c.rolls with
      slots := c.rolls.slots.map (fun slot => slot.map (unmounted ((c.rolls.spindle sp).roll.getD 0))) } sp m
    refine ⟨Near.setRolls c _ (by rw [w1]; simp) (by rw [w3]; exact fun h => h.toPlain hjp), fun g =>
      ⟨g.sound.unmount hl' m hm ⟨hjp, (hq g.sound).1⟩ (hq g.sound).2 n, g.counted.of_refs ?_⟩⟩
    refine (refTable_of_slots w1).trans (refTable_map (fun x _ => ?_) (fun x _ => ?_)) <;>
      (unfold unmounted; split <;> rfl)
  unfold Controller.unmountRoll
  simp only
  rw [setSpindle_rolls, spindle_rolls c sp]
  have shape' := shape { (c.updateRoll ((c.rolls.spindle sp).roll.getD 0)
    (fun r => { r with state := .registered, spindle := none })).spindle sp with state := .empty, roll := none } rfl
  revert shape'
  obtain ⟨_, _, _, _, w5⟩ := withSpindle_rest (c.updateRoll ((c.rolls.spindle sp).roll.getD 0)
    (fun r => { r with state := .registered, spindle := none })).rolls sp
    { (c.updateRoll ((c.rolls.spindle sp).roll.getD 0) (fun r => { r with state := .registered, spindle := none })
      ).spindle sp with state := .empty, roll := none }
  have hd : ∀ d : Controller, d.resetHeld = c.resetHeld → d.commissioned = c.commissioned → d.rolls.job = c.rolls.job →
      (∀ (j : RollJob) (n : Nat), j.inSplice = false →
        (RollsSound c.rolls c.commissioned → j ≠ .pending ∧ (c.commissioned = false → j = .normal ∨ j = .low ∨ j = .noRoll)) →
        Away c { d with rolls := { d.rolls with retry := n, job := j } }) →
      Away c (match d.rolls.job with
        | .pending | .retryWait => if d.commissioned then if d.rollIsLow then d.enterLow else d.enterNormal else d
        | _ => d) := by
    intro d hr hc hjob hd
    have stay : (RollsSound c.rolls c.commissioned → d.rolls.job ≠ .pending ∧
        (c.commissioned = false → d.rolls.job = .normal ∨ d.rolls.job = .low ∨ d.rolls.job = .noRoll)) → Away c d :=
      hd d.rolls.job d.rolls.retry (hjob ▸ hj)
    have tail : Away c (if d.commissioned then if d.rollIsLow then d.enterLow else d.enterNormal else d) := by
      split
      · rename_i hon
        have hl : Live c := ⟨ha, hc.symm.trans hon⟩
        have off : ∀ {x : Prop}, c.commissioned = false → x := fun h => by rw [hl.on] at h; cases h
        split
        · exact ((hd .low d.rolls.retry rfl (fun _ => ⟨by decide, off⟩)).andThen hl deriveUnwind_calm).raise hl _ _
        · exact ((hd .normal 0 rfl (fun _ => ⟨by decide, off⟩)).andThen hl deriveUnwind_calm).andThen hl spliceAtTest_calm
      · rename_i hon
        have hoff : c.commissioned = false := by rw [← hc]; simpa using hon
        refine stay (fun s => ?_)
        have := s.job.quiet hoff
        rw [hjob]
        exact ⟨fun h => (by rw [h] at this; rcases this with k | k | k <;> cases k), fun _ => this⟩
    split
    · exact tail
    · exact tail
    · rename_i h _
      exact stay (fun s => ⟨h, fun hoff => by rw [hjob]; exact s.job.quiet hoff⟩)
  exact fun shape' => hd _ rfl rfl w5 shape'

theorem unmount_honest (spindle : Nat) : Honest (unmountRequest spindle) :=
  onSpindle_honest (fun sp c hs ha => by
    try simp only
    split
    · exact hs
    · rename_i hl
      split
      · exact hs
      · exact hs
      · exact hs
      · exact hs
      · rename_i h1 h2 h3 h4
        exact away_accept hs ha (unmountRoll_away ha (by simpa using hl) (by
          cases hx : c.rolls.job <;> first | rfl | exact absurd hx (by assumption))))

theorem runningRoll_map_spent (c : Controller) : ∀ id, (c.mapRolls spentRoll).runningRoll.map Roll.id = some id →
    ∃ x ∈ c.rolls.rolls.map spentRoll, x.id = id ∧ x.onWeb := by
  intro id h
  obtain ⟨x, hx, e⟩ := Option.map_eq_some_iff.mp h
  obtain ⟨hm, hr⟩ := runningRoll_mem hx
  rw [mapRolls_rolls] at hm
  exact ⟨x, hm, e, Or.inl hr⟩

theorem threadRoll_away {c : Controller} (hl : Live c) {sp : Spindle} (hn : c.runningRoll = none)
    (hs : (c.spindle sp).state = .loaded) : Away c (c.threadRoll sp) := by
  have hs' : (c.rolls.spindle sp).state = .loaded := by rw [← spindle_rolls]; exact hs
  have n1 : Near c ((c.mapRolls spentRoll).runSpindle sp) := (mapRolls_near c _).trans (runSpindle_near _ sp)
  obtain ⟨r1, r2, _, _, _⟩ := runSpindle_rolls (c.mapRolls spentRoll) sp
  unfold Controller.threadRoll
  simp only
  rw [show (fun r : Roll => if r.state = .expired then { r with state := .spent } else r) = spentRoll from rfl]
  revert n1 r1 r2
  generalize (c.mapRolls spentRoll).runSpindle sp = d
  intro n1 r1 r2
  have n2 : Near c { d with rolls := { d.rolls with seams := [], feedRoll := (c.spindle sp).roll } } :=
    n1.trans (Near.setRolls d _ rfl (fun _ => ⟨Nat.zero_le _, fun _ => Nat.zero_le _, List.Pairwise.nil⟩))
  have hcore := runoutRestart_core { d with rolls := { d.rolls with seams := [], feedRoll := (c.spindle sp).roll } }
  have n3 := n2.trans (runoutRestart_calm _ (n2.live hl)).toNear
  revert n3 hcore
  generalize Controller.runoutRestart { d with rolls := { d.rolls with seams := [], feedRoll := (c.spindle sp).roll } } = f
  intro hcore n3
  have hslots : f.rolls.slots = d.rolls.slots := congrArg RollCore.slots hcore
  have hseams : f.rolls.seams = [] := congrArg RollCore.seams hcore
  have hfeed : f.rolls.feedRoll = (c.spindle sp).roll := congrArg RollCore.feed hcore
  have n4 := n3.trans (Near.setRolls f { f.rolls with retry := 0, job := .normal } rfl (fun s => s.toPlain rfl))
  have a4 : Away c { f with rolls := { f.rolls with retry := 0, job := .normal } } := by
    refine ⟨n4, fun g => ⟨?_, ?_⟩⟩
    · have gs := g.sound
      rw [hl.on] at gs
      rw [(n4.live hl).on]
      obtain ⟨x, hx, h1, h2⟩ := gs.spindles.mounted sp hs'
      have s1 := gs.spend (i := none) (fun _ h => by cases h)
      have e1 : RollManager.rolls { c.rolls with
          slots := c.rolls.slots.map (fun slot => slot.map spentRoll), feedRoll := none, seams := [] } =
          c.rolls.rolls.map spentRoll := rolls_map _ _
      refine s1.run (sp := sp) hs' ?_ (i := (c.spindle sp).roll) (l := []) (j := .normal) ⟨rfl, by decide⟩ ?_
        (hslots.trans r1) (fun k => ?_) hfeed hseams rfl
      · rw [e1]
        intro y hy hrun
        obtain ⟨z, hz, rfl⟩ := List.mem_map.mp hy
        unfold spentRoll at hrun
        split at hrun
        · cases hrun
        · exact runningRoll_none hn z hz hrun
      · refine ⟨fun id hi => ?_, (fun _ h => by cases h), (fun _ h => by cases h), (fun _ h => by cases h)⟩
        rw [spindle_rolls, h1] at hi
        cases hi
        have hid : (spentRoll x).id = x.id := by unfold spentRoll; split <;> rfl
        refine ⟨_, List.mem_map_of_mem (by rw [e1]; exact List.mem_map_of_mem hx), ?_, ?_⟩
        · split <;> exact hid
        · rw [if_pos (by rw [hid]; exact h1.symm)]; exact Or.inl rfl
      · have c1 := core_spindle hcore k
        exact ⟨c1.1.trans (r2 k).1, c1.2.trans (r2 k).2⟩
    · rw [n4.tab]
      refine g.counted.of_refs ((refTable_of_slots (q := { f.rolls with retry := 0, job := .normal })
        (r := { c.rolls with slots := (c.rolls.slots.map (fun slot => slot.map spentRoll)).map (fun slot => slot.map (fun x =>
          if some x.id = (c.rolls.spindle sp).roll then { x with state := .running } else x)) }) (hslots.trans r1)).trans ?_)
      refine (refTable_map (r := { c.rolls with slots := c.rolls.slots.map (fun slot => slot.map spentRoll) })
        (fun x _ => ?_) (fun x _ => ?_)).trans (refTable_map (fun x _ => ?_) (fun x _ => ?_))
      · split <;> rfl
      · split <;> rfl
      · unfold spentRoll; split <;> rfl
      · unfold spentRoll; split <;> rfl
  exact (a4.andThen hl deriveUnwind_calm).andThen hl spliceAtTest_calm

theorem thread_honest (spindle : Nat) : Honest (threadRequest spindle) :=
  whenCommissioned_honest (fun c hs ha hc => by
    unfold onSpindle
    split
    · simp only
      split
      · rename_i h
        exact away_accept hs ha (threadRoll_away ⟨ha, hc⟩ h.2.1 h.2.2)
      · exact hs
    · exact hs)

theorem clearSpindle_away {c : Controller} {sp : Spindle} (hs : (c.spindle sp).state = .stub) :
    Away c (c.clearSpindle sp) := by
  have hs' : (c.rolls.spindle sp).state = .stub := by rw [← spindle_rolls]; exact hs
  have h1 : Away c (c.mapRolls (fun r => if some r.id = (c.spindle sp).roll then { r with spindle := none } else r)) :=
    Away.mapRolls c (Mild.plain (fun x => by split <;> exact ⟨rfl, rfl, rfl⟩) _)
  unfold Controller.clearSpindle
  simp only
  rw [setSpindle_rolls]
  refine h1.trans ?_
  have hd : ((c.mapRolls (fun r => if some r.id = (c.spindle sp).roll then { r with spindle := none } else r)).rolls.spindle
    sp).state = .stub := hs'
  revert hd
  clear h1
  generalize c.mapRolls (fun r => if some r.id = (c.spindle sp).roll then { r with spindle := none } else r) = d
  intro hd
  obtain ⟨w1, w2, w3, w4, w5⟩ := withSpindle_rest d.rolls sp { c.spindle sp with state := .empty, roll := none }
  refine Away.setRolls d _ (by rw [w1]) (by rw [w3, w5]; exact fun h => h) (fun s => ?_) (refTable_of_slots w1)
  refine ⟨by rw [withSpindle_rolls]; exact s.table, by rw [withSpindle_rolls]; exact s.spindles.unloaded sp _ (fun x => by cases x),
    by rw [withSpindle_rolls, w2, w3]; exact s.feed, ⟨fun hj => ?_, fun hj k hk => ?_, by rw [w5]; exact s.job.quiet⟩⟩
  · rw [w5] at hj
    obtain ⟨x, hx, hx2⟩ := s.job.target hj
    refine ⟨x, w4.trans hx, ?_⟩
    rw [spindle_with, if_neg (fun e => by rw [e, hd] at hx2; cases hx2)]; exact hx2
  · rw [w5] at hj
    rw [spindle_with] at hk ⊢
    split at hk
    · cases hk
    · have hload := s.job.pending hj k hk
      rw [if_neg (fun e => by rw [e, hd] at hload; cases hload)]; exact hload

theorem clearSpindle_honest (spindle : Nat) : Honest (clearSpindleRequest spindle) :=
  whenCommissioned_honest (fun c hs ha _ => by
    unfold onSpindle
    split
    · simp only
      split
      · rename_i h; exact away_accept hs ha (clearSpindle_away h)
      · exact hs
    · exact hs)

theorem force_honest : Honest forceRequest := by
  have away : ∀ d : Controller, Live d → d.idleLoaded = true →
      Away d (Controller.enterPending { d with rolls := { d.rolls with retry := 0 } }) := fun d hl h =>
    (setRetry_away d 0).trans (enterPending_away ((setRetry_away d 0).live hl) (idleLoaded_target h))
  refine whenCommissioned_honest (fun c hs ha hc => ?_)
  split
  · split
    · rename_i h; exact away_accept hs ha (away c ⟨ha, hc⟩ h)
    · exact hs
  · split
    · rename_i h; exact away_accept hs ha (away c ⟨ha, hc⟩ h)
    · exact hs
  · split
    · rename_i h; exact away_accept hs ha (away c ⟨ha, hc⟩ h)
    · exact hs
  · exact hs

/-- The slot of a roll freed that no panel names. -/
theorem retireRoll_away {c : Controller} {x : Roll} (hx : x ∈ c.rolls.rolls)
    (hst : x.state = .registered ∨ x.state = .spent ∧ x.refs = 0) : Away c (c.retireRoll x.id) := by
  have hst' : x.state = .registered ∨ x.state = .spent := hst.imp id And.left
  refine ⟨Near.setRolls c _ (by simp) (fun h => h), fun g => ⟨?_, ?_⟩⟩
  · refine g.sound.retire hx hst' rfl (fun k => ?_) ⟨rfl, rfl, rfl, rfl⟩
    have clear : ∀ m : SpindleRec, (if m.roll = some x.id then { m with roll := none } else m).state = m.state ∧
        (if m.roll = some x.id then { m with roll := none } else m).roll = (if m.roll = some x.id then none else m.roll) := by
      intro m; split <;> exact ⟨rfl, rfl⟩
    cases k
    · exact clear c.rolls.spA
    · exact clear c.rolls.spB
  · have h0 : x.refs = 0 := by
      rcases hst with h | h
      · exact g.sound.table.unnamed x hx (Or.inl h)
      · exact h.2
    have e : RollManager.rolls (c.retireRoll x.id).rolls = c.rolls.rolls.filter (fun y => y.id != x.id) := retired_rolls _ _
    refine ⟨fun p hp y hy => ?_, fun y hy => ?_⟩
    · obtain ⟨z, hz, hz1⟩ := g.counted.slot p hp y hy
      refine ⟨z, ?_, hz1⟩
      rw [e, List.mem_filter]
      refine ⟨hz, bne_iff_ne.mpr (fun h => g.counted.unnamed hx h0 p hp ?_)⟩
      rw [hy, ← h, hz1]; rfl
    · rw [e] at hy
      exact g.counted.count y (List.mem_filter.mp hy).1

theorem retireRoll_honest (id : Nat) : Honest (retireRollRequest id) := by
  intro c hs ha
  unfold retireRollRequest
  split
  · exact hs
  · rename_i r hr
    obtain ⟨hm, rfl⟩ := rollById_mem hr
    split
    · rename_i h; exact away_accept hs ha (retireRoll_away hm (Or.inl h))
    · rename_i h
      split
      · rename_i h0; exact away_accept hs ha (retireRoll_away hm (Or.inr ⟨h, h0⟩))
      · exact hs
    · exact hs

theorem readRoll_honest (id : Nat) : Honest (readRollRequest id) := by
  intro c hs _
  unfold readRollRequest
  split <;> exact hs

/-! ### Head, chamber, attention and parameters -/

theorem abort_honest (panel : Nat) : Honest (abortRequest panel) :=
  whenCommissioned_honest (fun c hs ha hc => by
    unfold onPanel
    split
    · exact hs
    · split
      · exact hs
      · rename_i p hp
        simp only
        split
        · exact accept_kept ha (abortStrokes_kept ⟨hs, ⟨ha, hc⟩⟩ (panelByNumber_mem hp).1)
        · exact hs)

theorem resetHead_honest : Honest resetHeadRequest :=
  whenCommissioned_honest (fun _ hs ha hc => accept_firm hs ha hc startResync_firm)

theorem defineClass_sound {c : Controller} (hs : Sound c) (k : Nat) (f : HeatFields) : Sound (c.defineClass k f) :=
  ⟨{ hs.blocks with classes := List.length_set.trans hs.blocks.classes }, hs.records, hs.strokes, hs.rolls,
    hs.patterns, hs.fed, hs.window, hs.offline⟩

theorem heat_honest (cls : Nat) (f : HeatFields) : Honest (heatRequest cls f) := by
  intro c hs ha
  unfold heatRequest
  split
  · exact hs
  · split
    · exact hs
    · exact accept_sound ha ⟨defineClass_sound hs cls f, rfl⟩

theorem heatRead_honest (cls : Nat) : Honest (heatReadRequest cls) := by
  intro c hs _
  unfold heatReadRequest
  split <;> exact hs

theorem readNotice_honest : Honest readNoticeRequest := by
  intro c hs ha
  unfold readNoticeRequest
  split
  · rename_i g n h
    have hr := firstDeliverable_range _ _ _ _ h
    refine hs.setAtt _ ?_
    have hatt := hs.blocks.attention
    rw [ha] at hatt ⊢
    exact hatt.deliver g n ⟨hr.1, by have := hr.2.1; rw [hatt.six] at this; omega⟩
  · exact hs

theorem onGroup_honest {g : Nat} {r : Request}
    (h : 1 ≤ g ∧ g ≤ 6 → Honest r) : Honest (onGroup g r) := by
  intro c hs ha
  unfold onGroup
  split
  · exact hs
  · exact h (by omega) c hs ha

theorem ackGroup_honest (g : Nat) : Honest (ackGroupRequest g) :=
  onGroup_honest (fun hg c hs ha => hs.setAtt _ (by
    have hatt := hs.blocks.attention
    rw [ha] at hatt ⊢
    exact hatt.openGate g hg))

theorem setEnables_honest (g : Nat) (mask : Byte) : Honest (setEnablesRequest g mask) :=
  onGroup_honest (fun hg c hs ha => hs.setAtt _ (by
    have hatt := hs.blocks.attention
    rw [ha] at hatt ⊢
    exact hatt.enable g mask hg))

theorem ParamsSound.set {ps : List Nat} (h : ParamsSound ps) {id value : Nat} (hi : isParam id = true)
    (hv : paramAccepts id value = true) : ParamsSound (ps.set (id - 1) value) := by
  refine ⟨by rw [List.length_set]; exact h.1, fun j h1 h2 => ?_⟩
  simp only [isParam, Bool.and_eq_true, decide_eq_true_eq] at hi
  by_cases e : j = id
  · subst e
    have : j - 1 < ps.length := by rw [h.1]; omega
    rw [List.getD_eq_getElem?_getD, List.getElem?_set_self this]
    exact hv
  · rw [List.getD_eq_getElem?_getD, List.getElem?_set_ne (by omega), ← List.getD_eq_getElem?_getD]
    exact h.2 j h1 h2

theorem setParam_honest (id value : Nat) : Honest (setParamRequest id value) := by
  intro c hs _
  unfold setParamRequest whenConfig
  split
  · exact hs
  · rename_i hc
    split
    · exact hs
    · rename_i hi
      split
      · exact hs
      · rename_i hv
        refine ⟨{ hs.blocks with params := hs.blocks.params.set (by simpa using hi) (by simpa using hv) }, hs.records,
          hs.strokes, hs.rolls, hs.patterns, hs.fed, fun h => absurd h hc, hs.offline⟩

theorem readParam_honest (id : Nat) : Honest (readParamRequest id) := by
  intro c hs _
  unfold readParamRequest
  split <;> exact hs

end Sys2Proof.Machine
end

