-- ==== Sys2Proof/Laws/EffectsSound.lean ====
section
/-! SUPPORT. COMMISSION, DECOMMISSION, the resets, the request port, pulses, ticks, edges and link events keep the
invariant. -/

namespace Sys2Proof.Machine

/-! ### Reset -/

theorem defaults_sound : ParamsSound Config.paramDefaults := by
  refine ⟨rfl, fun id h1 h2 => ?_⟩
  have : ∀ id < 47, 1 ≤ id → paramAccepts id (Config.paramDefaults.getD (id - 1) 0) = true := by decide
  exact this id (Nat.lt_succ_of_le h2) h1

theorem fresh_records : RecordsSound ⟨[], [], [], 0⟩ :=
  ⟨Nat.zero_le _, (fun _ h => by cases h), List.nodup_nil, List.nodup_nil, List.nodup_nil, List.nodup_nil,
    fun _ => ⟨(fun h => by cases h), (fun ⟨_, h, _⟩ => by cases h)⟩,
    fun _ => ⟨(fun h => by cases h), (fun ⟨_, h, _⟩ => by cases h)⟩, (fun _ h => by cases h)⟩

theorem idle_disabled (b : Nat) : LinkIdle ⟨false, b, .hunting, none, []⟩ := fun _ => ⟨rfl, rfl, rfl⟩

theorem lineQueue_empty (e : Bool) (b : Nat) (r : Receiver) (x : Option TxItem) : LineQueueSound ⟨e, b, r, x, []⟩ :=
  ⟨Nat.zero_le _, fun _ h => by cases h⟩

theorem headQueue_empty (e : Bool) (b : Nat) (r : Receiver) (x : Option TxItem) : HeadQueueSound ⟨e, b, r, x, []⟩ :=
  ⟨Nat.zero_le _, Nat.zero_le _⟩

theorem busQueue_empty (e : Bool) (b : Nat) (r : Receiver) (x : Option TxItem) : BusQueueSound ⟨e, b, r, x, []⟩ :=
  ⟨Nat.zero_le _, fun h => absurd rfl h⟩

theorem fresh_unnamed (seamHigh haltHigh : Bool) (n : Nat) :
    ((Controller.fresh seamHigh haltHigh).lib.getD (n - 1) Pattern.blank).refs = 0 := by
  rw [show (Controller.fresh seamHigh haltHigh).lib = List.replicate 32 Pattern.blank from rfl,
    List.getD_eq_getElem?_getD, List.getElem?_replicate]
  split <;> rfl

theorem fresh_sound (seamHigh haltHigh : Bool) : Sound (Controller.fresh seamHigh haltHigh) where
  blocks :=
    { attention := AttentionSound.reset seamHigh haltHigh
      seams := ⟨Nat.zero_le _, fun _ => Nat.zero_le _, List.Pairwise.nil⟩
      cuts := Nat.zero_le _
      patterns := rfl
      rolls := rfl
      classes := rfl
      zones := rfl
      enabled := fun ch => by cases ch <;> rfl
      idle := fun ch => by cases ch <;> exact idle_disabled 0
      feedLink := lineQueue_empty _ _ _ _
      spliceLink := lineQueue_empty _ _ _ _
      headLink := headQueue_empty _ _ _ _
      busLink := busQueue_empty _ _ _ _
      counts := fun i => by cases i <;> exact ⟨Nat.zero_le _, Nat.zero_le _⟩
      params := defaults_sound }
  rolls :=
    { table := ⟨List.nodup_nil, (fun _ h => by cases h), (fun _ h => by cases h)⟩
      spindles := ⟨fun sp h => (by cases sp <;> cases h), fun h => (by cases h)⟩
      feed := ⟨(fun _ h => by cases h), (fun _ h => by cases h), (fun _ h => by cases h), (fun _ h => by cases h)⟩
      job := ⟨(fun h => by cases h), (fun h => by cases h), fun _ => Or.inr (Or.inr rfl)⟩ }
  patterns := ⟨(fun _ h => by cases h), fun n _ _ => fresh_unnamed seamHigh haltHigh n, fun n _ _ _ =>
    fresh_unnamed seamHigh haltHigh n⟩
  fed := ⟨(fun _ h => by cases h), (fun _ h => by cases h)⟩
  records := fresh_records
  strokes := ⟨trivial, fun _ => rfl, (fun _ h => by cases h), (fun _ h => by cases h), (fun _ h => by cases h),
    (fun _ h => by cases h), (fun _ h => by cases h)⟩
  window := fun h => by cases h
  offline := fun _ => rfl

theorem resetAsserted_sound {c : Controller} (hs : Sound c) :
    Sound { c with resetHeld := true, att := { c.att with output := false } } :=
  ⟨{ hs.blocks with attention := ⟨hs.blocks.attention.six, hs.blocks.attention.eight, hs.blocks.attention.sourceless, rfl⟩ },
    hs.records, hs.strokes, hs.rolls, hs.patterns, hs.fed, hs.window, hs.offline⟩

/-! ### COMMISSION and DECOMMISSION -/

/-- With an empty roster every live panel is SCHEDULED. -/
theorem offline_scheduled {t : RecordUnit} (h : RecordsSound t) (hr : t.roster = []) (p : Panel) (hp : p ∈ t.panels) :
    p.placed = none := by
  have hs : p.state = .scheduled := by
    by_contra hx
    have := (h.onRoster p.id).mpr ⟨p, hp, rfl, hx⟩
    rw [hr] at this; cases this
  cases hq : p.placed with
  | none => rfl
  | some x => exact absurd hs ((h.placed p hp).mp (by rw [hq]; rfl))

theorem commissionLinks_safe {c : Controller} (hs : Sound c) (ha : c.resetHeld = false) (hc : c.commissioned = false)
    (l : Line) (hl : l.state = .stopped) :
    Safe { Controller.commissionLinks { c with mot := c.mot.commission, seq := Sequencer.start, cut := ⟨[], none⟩ } with
      line := l } := by
  have hroster := hs.offline hc
  have on : Controller.commissioned { Controller.commissionLinks { c with mot := c.mot.commission, seq := Sequencer.start, cut := ⟨[], none⟩ } with
      line := l } = true := by
    show (l.state != .config) = true
    rw [hl]; rfl
  refine ⟨⟨{ hs.blocks with
      cuts := Nat.zero_le _
      enabled := fun ch => by rw [on]; cases ch <;> rfl
      idle := fun ch h => by cases ch <;> cases h
      feedLink := lineQueue_empty _ _ _ _
      spliceLink := lineQueue_empty _ _ _ _
      headLink := headQueue_empty _ _ _ _
      busLink := busQueue_empty _ _ _ _
      counts := fun i => by cases i <;> exact ⟨Nat.zero_le _, Nat.zero_le _⟩ }, hs.records, ?_,
    ⟨hs.rolls.table, hs.rolls.spindles, hs.rolls.feed, ⟨hs.rolls.job.target, hs.rolls.job.pending,
      fun h => by rw [on] at h; cases h⟩⟩, hs.patterns, hs.fed, fun _ => Nat.zero_le _, fun _ => hroster⟩, ⟨ha, on⟩⟩
  refine ⟨trivial, fun _ => rfl, (fun _ h => by cases h), (fun _ h => by cases h), (fun _ h => by cases h), ?_, ?_⟩ <;>
    (intro p hp x hx; rw [offline_scheduled hs.records hroster p hp] at hx; cases hx)

theorem commissionChamber_away {c : Controller} (h : c.cham.zones.length = 6) : Away c c.commissionChamber :=
  Away.setCham c _ rfl (by
    show (zoneNumbers.map _).length = _
    rw [List.length_map, h]; rfl)

theorem commissionRolls_calm : Calm Controller.commissionRolls := by
  intro c hl
  have h1 : Away c c.commissionRollFields := by
    have hjob : RollJob.plain (if (c.mapRolls spentRoll).runningRoll.isSome then .normal else .noRoll) := by
      split <;> exact ⟨rfl, by decide⟩
    refine Away.setRolls c _ (by simp [Controller.mapRolls]) (fun _ => ⟨Nat.zero_le _, fun _ => Nat.zero_le _, List.Pairwise.nil⟩)
      (fun s => ?_) (refTable_map (fun x _ => by split <;> rfl) (fun x _ => by split <;> rfl))
    rw [hl.on] at s ⊢
    have s1 := (s.spend (runningRoll_map_spent c)).toPlain hjob
    exact RollsSound.of_core (by rfl) s1
  have h2 := (h1.andThen hl (commandUnwind_calm .a .stop)).andThen hl (commandUnwind_calm .b .stop)
  have tail : ∀ d, Away c d → Away c d.runoutTest.deriveUnwind.spliceAtTest := fun d hd =>
    ((hd.andThen hl runoutTest_calm).andThen hl deriveUnwind_calm).andThen hl spliceAtTest_calm
  unfold Controller.commissionRolls
  simp only
  split
  · exact tail _ (h2.andThen hl (addHold_calm .accGuard))
  · exact tail _ h2

theorem commission_safe {c : Controller} (hs : Sound c) (ha : c.resetHeld = false) (hc : c.commissioned = false) :
    Safe c.commission := by
  have h0 := commissionLinks_safe hs ha hc
    { state := .stopped, lastHalt := none, holds := HoldCauses.empty, speed := c.lineSpeed, mode := .hold, resend := 0,
      origin := 0, suspended := false, report := none, lastTail := none, fabricMark := false } rfl
  have h1 := (driveHold_calm.firm _ h0).safe
  have h2 := ((commissionChamber_away h1.sound.blocks.zones).kept h1).safe
  have h3 := (bankTest_calm.firm _ h2).safe
  have h4 := (commissionRolls_calm.firm _ h3).safe
  exact (startNext_firm _ h4).safe

theorem commission_honest : Honest commissionRequest := by
  intro c hs ha
  unfold commissionRequest whenConfig
  split
  · exact hs
  · rename_i hc
    simp only
    split
    · exact hs
    · have h := commission_safe hs ha (by simpa using hc)
      exact accept_sound ha ⟨h.sound, h.live.awake.trans ha.symm⟩

theorem decommission_sound {c : Controller} (hs : Sound c) (hr : c.tab.roster = [])
    (hj : c.rolls.job = .normal ∨ c.rolls.job = .low ∨ c.rolls.job = .noRoll) : Sound c.decommission where
  blocks := { hs.blocks with
    seams := ⟨Nat.zero_le _, fun _ => Nat.zero_le _, List.Pairwise.nil⟩
    enabled := fun ch => by cases ch <;> rfl
    idle := fun ch => by cases ch <;> exact idle_disabled _
    feedLink := lineQueue_empty _ _ _ _
    spliceLink := lineQueue_empty _ _ _ _
    headLink := headQueue_empty _ _ _ _
    busLink := busQueue_empty _ _ _ _
    counts := fun i => by cases i; exacts [hs.blocks.counts .unw, hs.blocks.counts .feed, hs.blocks.counts .conv] }
  records := hs.records
  strokes := hs.strokes
  rolls :=
    { table := hs.rolls.table
      spindles := ⟨fun sp h => (by cases sp; exacts [hs.rolls.spindles.mounted .a h, hs.rolls.spindles.mounted .b h]),
        hs.rolls.spindles.apart⟩
      feed := ⟨hs.rolls.feed.feed, (fun _ h => by cases h), (fun _ h => by cases h), (fun _ h => by cases h)⟩
      job := ⟨fun h => by
          rcases hj with e | e | e <;> (have h' : c.rolls.job.inSplice = true := h; rw [e] at h'; cases h'),
        fun h => by
          rcases hj with e | e | e <;> (have h' : c.rolls.job = .pending := h; rw [e] at h'; cases h'),
        fun _ => hj⟩ }
  patterns := hs.patterns
  fed := hs.fed.of_refs rfl
  window := fun h => by cases h
  offline := fun _ => hr

theorem decommission_honest : Honest decommissionRequest :=
  whenCommissioned_honest (fun c hs ha _ => by
    split
    · rename_i hq
      simp only [Controller.quiet, Bool.and_eq_true] at hq
      refine accept_sound ha ⟨decommission_sound hs (by simpa using hq.1.2) ?_, rfl⟩
      have := hq.2
      cases hx : c.rolls.job <;> rw [hx] at this <;> simp at this ⊢
    · exact hs)

/-! ### The request port -/

theorem reply_sound {x : Controller × Reply} (h : Sound x.1) (tag : Byte) : Sound (Controller.reply x tag) :=
  h.setPort _

theorem carryOut_sound {c : Controller} (hs : Sound c) (ha : c.resetHeld = false) {r : Request} (hr : Honest r)
    (tag : Byte) : Sound (c.carryOut tag r) := reply_sound (hr c hs ha) tag

theorem appendFromFields_honest (f : List Byte) : Honest (appendFromFields f) := by
  unfold appendFromFields
  split
  · exact badField_honest 1
  · simp only
    split
    · exact onPattern_honest (fun _ hs _ _ => hs)
    · exact append_honest _ _ _

theorem heatFromFields_honest (f : List Byte) : Honest (heatFromFields f) := by
  unfold heatFromFields
  split
  · exact badField_honest 1
  · split
    · exact heatRead_honest _
    · split
      · exact badField_honest 2
      · split
        · exact badField_honest 12
        · exact heat_honest _ _

theorem requestOf_honest (code : Nat) (f : List Byte) : Honest (requestOf code f) := by
  unfold requestOf
  simp only
  split
  · exact schedule_honest _
  · exact move_honest _ _ _
  · exact withdraw_honest _
  · exact reject_honest _
  · exact retire_honest _
  · exact readPanel_honest _
  · exact find_honest _ _
  · exact listSchedule_honest _
  · exact listRoster_honest _
  · exact openPattern_honest _ _ _
  · exact appendFromFields_honest _
  · exact clear_honest _
  · exact seal_honest _
  · exact unseal_honest _
  · exact retirePattern_honest _
  · exact readPattern_honest _
  · exact readSteps_honest _ _
  · exact answer_honest _
  · exact start_honest
  · exact stop_honest
  · exact speed_honest _
  · exact register_honest _ _ _
  · exact mount_honest _ _
  · exact unmount_honest _
  · exact thread_honest _
  · exact clearSpindle_honest _
  · exact force_honest
  · exact retireRoll_honest _
  · exact readRoll_honest _
  · exact answer_honest _
  · exact abort_honest _
  · exact resetHead_honest
  · exact heatFromFields_honest _
  · exact readNotice_honest
  · exact ackGroup_honest _
  · exact setEnables_honest _ _
  · exact answer_honest _
  · exact setParam_honest _ _
  · exact readParam_honest _
  · exact commission_honest
  · exact decommission_honest
  · exact refuse_honest _

theorem carryOutFrame_sound {c : Controller} (hs : Sound c) (ha : c.resetHeld = false) (code : Nat) (tag : Byte)
    (f : List Byte) : Sound (c.carryOutFrame code tag f) := by
  unfold Controller.carryOutFrame
  split
  · exact carryOut_sound hs ha (refuse_honest _) tag
  · split
    · exact carryOut_sound hs ha (refuse_honest _) tag
    · split
      · exact carryOut_sound hs ha (requestOf_honest _ _) tag
      · split
        · exact carryOut_sound hs ha (badField_honest _) tag
        · split
          · exact fresh_sound _ _
          · exact carryOut_sound hs ha (requestOf_honest _ _) tag

theorem takeBytes_sound {c : Controller} (hs : Sound c) (ha : c.resetHeld = false) (bytes : List Byte) :
    Sound (c.takeBytes bytes) := by
  unfold Controller.takeBytes
  split
  · exact hs
  · split
    · exact raise_sound (hs.setPort { c.port with overrun := true }) ha _ _
    · split
      · exact carryOutFrame_sound hs ha _ _ _
      · exact carryOut_sound hs ha (refuse_honest _) _

theorem selectionEnd_sound {c : Controller} (hs : Sound c) (ha : c.resetHeld = false) (bytes : List Byte) :
    Sound (c.selectionEnd bytes) := by
  have hcol : Sound (c.collect bytes) ∧ (c.collect bytes).resetHeld = false := by
    unfold Controller.collect
    split
    · split
      · exact ⟨hs.setPort _, ha⟩
      · exact ⟨hs, ha⟩
    · exact ⟨hs, ha⟩
  unfold Controller.selectionEnd
  split
  · exact (takeBytes_sound hcol.1 hcol.2 bytes).setPort _
  · exact hs

/-! ### Pulses, ticks and edges -/

theorem pulse_counterSound {k : Counter} (h : CounterSound k) : CounterSound k.pulse := by
  refine ⟨?_, Nat.zero_le _⟩
  show (if _ then _ else _) ≤ countCeiling
  split
  · assumption
  · exact h.1

theorem setCounter_sound {m : Motion} (h : ∀ i, CounterSound (m.counter i)) (i : CountInput) (k : Counter)
    (hk : CounterSound k) : ∀ j, CounterSound ((m.setCounter i k).counter j) := by
  intro j
  have hj := h j
  cases i <;> cases j <;> assumption

theorem countPulse_sound {c : Controller} (hs : Sound c) (ha : c.resetHeld = false) (i : CountInput)
    (order : List PulseTask) : Sound (c.countPulse i order) := by
  unfold Controller.countPulse
  split
  · rename_i hc
    have h0 : Safe { c with mot := c.mot.setCounter i (c.mot.counter i).pulse } :=
      ⟨hs.setMot _ (setCounter_sound hs.blocks.counts i _ (pulse_counterSound (hs.blocks.counts i))), ⟨ha, hc⟩⟩
    have h1 : Safe (if i = .feed then Controller.bankTest { c with mot := c.mot.setCounter i (c.mot.counter i).pulse }
        else { c with mot := c.mot.setCounter i (c.mot.counter i).pulse }) := by
      split
      · exact (bankTest_calm.firm _ h0).safe
      · exact h0
    have h2 := (Firm.foldl (pulseTask_firm i) (fillFirst (schedule order (pulseWork i))) _ h1).safe
    exact event_sound ha h2.sound (h2.live.awake.trans ha.symm)
  · exact hs

theorem dwellTick_sound {c : Controller} (hs : Sound c) (ha : c.resetHeld = false) (order : List TickTask) :
    Sound (c.dwellTick order) := by
  have h0 : Sound { c with mot := { c.mot with tick := c.mot.tick + 1#32 } } :=
    hs.setMot _ (fun i => by cases i; exacts [hs.blocks.counts .unw, hs.blocks.counts .feed, hs.blocks.counts .conv])
  unfold Controller.dwellTick
  simp only
  split
  · rename_i hc
    exact firmEvent_sound h0 ha hc (Firm.foldl tickTask_firm _)
  · exact h0

theorem setLevels_sound {c : Controller} (hs : Sound c) (seamHigh haltHigh : Bool) :
    Sound { c with mot := { c.mot with seamHigh := seamHigh, haltHigh := haltHigh } } :=
  hs.setMot _ (fun i => by cases i; exacts [hs.blocks.counts .unw, hs.blocks.counts .feed, hs.blocks.counts .conv])

theorem seamEdge_sound {c : Controller} (hs : Sound c) (ha : c.resetHeld = false) : Sound c.seamEdge := by
  unfold Controller.seamEdge
  simp only
  have h0 := setLevels_sound hs c.seamEdgeLevel c.mot.haltHigh
  split
  · rename_i hc; exact firmEvent_sound h0 ha hc takeSeamEdge_firm
  · exact h0

theorem seamLevelChange_sound {c : Controller} (hs : Sound c) : Sound c.seamLevelChange := by
  unfold Controller.seamLevelChange
  split
  · exact setLevels_sound hs true c.mot.haltHigh
  · split
    · exact setLevels_sound hs false c.mot.haltHigh
    · exact hs

theorem chainOpens_sound {c : Controller} (hs : Sound c) (ha : c.resetHeld = false) : Sound c.chainOpens := by
  unfold Controller.chainOpens
  simp only
  have h0 := setLevels_sound hs c.mot.seamHigh (c.haltEdgeSel == 1)
  split
  · rename_i hc; exact firmEvent_sound h0 ha hc (halt_calm .chain).firm
  · exact h0

theorem chainCloses_sound {c : Controller} (hs : Sound c) : Sound c.chainCloses :=
  setLevels_sound hs c.mot.seamHigh (c.haltEdgeSel != 1)

/-! ### Links -/

theorem deliver_sound {c : Controller} (hs : Sound c) (ha : c.resetHeld = false) (t : RxTelegram) :
    Sound (c.deliver t) := by
  unfold Controller.deliver
  split
  · rename_i h
    exact firmEvent_sound hs ha ((hs.blocks.enabled t.channel).symm.trans h) (takeTelegram_firm t)
  · exact hs

theorem receive_sound {c : Controller} (hs : Sound c) (ha : c.resetHeld = false) (ch : Channel) (x : LinkChar)
    (stopIdle : Bool) : Sound (c.receive ch x stopIdle) := by
  unfold Controller.receive
  split
  · exact hs
  · rename_i h
    simp only [Bool.or_eq_true, not_or, Bool.not_eq_true, Bool.not_eq_false'] at h
    refine firmEvent_sound hs ha ((hs.blocks.enabled ch).symm.trans h.1) (fun d hd => ?_)
    simp only
    split
    · exact framingFault_firm ch d hd
    · split
      · split
        · exact takeAddress_firm ch _ d hd
        · exact (setRx_firm ch .hunting d hd).andThen (linkProtocol_firm ch)
      · exact takeData_firm ch _ d hd

theorem characterTimeout_sound {c : Controller} (hs : Sound c) (ha : c.resetHeld = false) (ch : Channel) :
    Sound (c.characterTimeout ch) := by
  unfold Controller.characterTimeout
  split
  · rename_i h
    simp only [Bool.and_eq_true] at h
    exact raise_sound ((setRx_away ch .hunting h.1).sound hs) (by cases ch <;> exact ha) _ _
  · exact hs

theorem lineIdle_sound {c : Controller} (hs : Sound c) (ch : Channel) : Sound (c.lineIdle ch) := by
  unfold Controller.lineIdle
  split
  · rename_i h
    cases he : (c.link ch).enabled with
    | true => exact (setRx_away ch _ he).sound hs
    | false =>
      have := (hs.blocks.idle ch he).1
      rw [this] at h; cases h
  · exact hs

theorem transmitted_sound {c : Controller} (hs : Sound c) (ch : Channel) : Sound (c.transmitted ch) := by
  refine (Away.setLink c ch (c.link ch).complete (Link.complete_enabled _) (fun h => h.complete) ?_).sound hs
  cases ch
  · exact fun h => h.complete
  · exact fun h => h.complete
  · exact fun h => h.complete
  · exact fun h => h.complete

end Sys2Proof.Machine
end

