-- ==== Sys2Proof/Laws/Exec.lean ====
section
/-! SUPPORT. The commands as `act`: every command but POWER_ON_RESET is one effect on the controller, taken while RESET
is not held. -/

namespace Sys2Proof.Machine

theorem act_awake {s : State} (h : s.awake) (f : Controller → Controller) : act s f = s.then (f s.ctl) :=
  if_neg (by rw [show s.ctl.resetHeld = false from h]; decide)

theorem act_held {s : State} (h : s.ctl.resetHeld = true) (f : Controller → Controller) : act s f = s.then s.ctl :=
  if_pos h

theorem act_answers (s : State) (f : Controller → Controller) : ∃ c, act s f = s.then c := by
  unfold act
  split
  exacts [⟨s.ctl, rfl⟩, ⟨_, rfl⟩]

theorem happening_onLine {s : State} (h : s.onLine) (f : Controller → Controller) :
    happening s f = s.then (settled s.ctl (f s.ctl)) :=
  (act_awake h.1 _).trans (congrArg s.then (if_pos h.2))

theorem telegram_heard {s : State} (h : s.awake) {t : RxTelegram} (hh : s.ctl.hears t.channel = true) :
    telegram s t = s.then (settled s.ctl (s.ctl.takeTelegram t)) :=
  (act_awake h _).trans (congrArg s.then (if_pos hh))

set_option maxHeartbeats 1000000 in
/-- Every command but POWER_ON_RESET is an effect on the controller. -/
theorem exec_is_act (i : Instr) (h : ∀ a b, i ≠ .powerOnReset a b) : ∃ f, ∀ s, exec i s = act s f := by
  cases i
  case powerOnReset a b => exact absurd rfl (h a b)
  all_goals simp only [exec,
    execResetAsserted, execSelectionBegin, execSelectionEnd, execSchedulePanel, execMovePanel,
    execWithdrawPanel, execRejectPanel, execRetirePanel, execReadPanel, execFindPanel, execListSchedule,
    execListRoster, execOpenPattern, execAppendSteps, execClearSteps, execSealPattern, execUnsealPattern,
    execRetirePattern, execReadPattern, execReadSteps, execReadCounts, execStartLine, execStopLine,
    execSetSpeed, execRegisterRoll, execMountRoll, execUnmountRoll, execThreadRoll, execClearSpindle,
    execForceSplice, execRetireRoll, execReadRoll, execReadSpindles, execAbortPleat, execResetHead,
    execSetHeatClass, execSetHeatClassReadingForm, execReadNotice, execAckGroup, execSetEnables, execReadFlags,
    execSetParam, execReadParam, execCommission, execDecommission, execResetPart, execCountPulse,
    execAdmission, execMaxGapHold, execHoldResend, execFeedResendLimit, execUnwindResend,
    execUnwindResendLimit, execStall, execCoordLimit, execHeadArrival, execTailPassage, execStrokeDue,
    execStroke, execStrokeLate, execAckTimeout, execResyncAttemptTimeout, execStrokeDone, execStrokeFault,
    execHeadBusy, execHeadReady, execResyncDone, execHeadQuery, execDriveState, execUnitState, execSpliceDue,
    execRunout, execSplicePrepare, execPrepared, execSpliceGo, execSpliceDone, execSpliceFail,
    execSpliceCancelled, execSpliceTimeout, execCancelWaitTimeout, execRetryWaitEnd, execSeamEdge,
    execSeamLost, execPlannedSeamPassage, execSeamEntryRemoval, execChainOpen, execChainClosed, execDwellTick,
    execBanked, execZoneStale, execReplyTimeout, execChamberEntry, execChamberExit, execChangeoverDrainEnd,
    execChangeoverDone, execZonePoll, execZoneSet, execCut, execZoneReport, execSetAck, execCutDone,
    execCutFault, execLeadCutterCrossing, execTailCutterCrossing, execReceiveCharacter,
    execInterCharacterTimeout, execTransmitComplete, execSeamLevelChange, execReceiverLineIdle, request, happening, telegram, onCrossing]
  all_goals exact ⟨_, fun _ => rfl⟩

end Sys2Proof.Machine
end

