-- ==== Sys2Proof/Tests/Slice0.lean ====
section
/-! SUPPORT. Tests: ill-formed commands that the check refuses, one step of each family of commands on a small
controller, and for every statement with hypotheses a state that meets them, clause by clause. -/

open Sys2Proof Sys2Proof.Machine

namespace Sys2Proof.Tests

/-! ### Small controllers -/

def cold : Controller := Controller.fresh false false

def at_ (c : Controller) : State := ⟨c, []⟩

/-- A part of the controller that a command leaves. -/
def ran {α : Type} (i : Instr) (c : Controller) (f : Controller → α) : Option α :=
  match exec i (at_ c) with
  | .next t => some (f t.ctl)
  | _ => none

/-- The pending answer that a command leaves. -/
def told (i : Instr) (c : Controller) : Option Answer := (ran i c (fun d => d.port.pending)).join

def box : Step := ⟨.box, 200, 100, 48, 0⟩

def queuedPanel : Panel :=
  { id := 0, number := 101, orderTag := none, pattern := 1, flatLength := 10000, state := .scheduled
    verdict := .pending, causes := 0#8, placed := none, bLead := none, bTail := none, total := 48, dose := none
    seamOffset := none, marks := none, crossed := Crossed.none }

def linkOn : Link := Link.commissioned 115200

/-- A commissioned line, RUNNING: pattern 1 SEALED, panel 101 at the queue's head, roll 11 RUNNING on spindle A, roll 12
LOADED on B, the chamber at heat class 2. -/
def live : Controller :=
  { cold with
    tab := ⟨[queuedPanel], [0], [], 1⟩
    lib := cold.lib.set 0 ⟨.sealed, 1, some ⟨0, 2, [box]⟩, some ⟨9600, 48⟩⟩
    mot := { cold.mot with haltHigh := true, tick := 500#32 }
    line := { cold.line with state := .running, mode := .run }
    rolls := { cold.rolls with
      slots := (cold.rolls.slots.set 0 (some ⟨11, 4, 1500000, 1500000, .running, some .a, none, 0⟩)).set 1
        (some ⟨12, 4, 900000, 900000, .mounted, some .b, none, 0⟩)
      spA := ⟨.active, some 11, some .refill⟩
      spB := ⟨.loaded, some 12, some .stop⟩
      job := .normal
      feedRoll := some 11
      fill := 100000 }
    cham := { cold.cham with
      classes := cold.cham.classes.set 1 (some ⟨[1100, 1150, 1150, 1050, 1000, 1000], 20, 800, 4000, 6500⟩)
      lineClass := 2 }
    chF := linkOn
    chS := linkOn
    chP := linkOn
    chZ := linkOn }

/-- Panel 101 on the web with lead A at 0, in a state, with its track B points. -/
def webPanel (st : PanelState) (lead tail : Option Nat) : Panel :=
  { queuedPanel with state := st, placed := some ⟨0, 11, 4000, 6500, 0, 0, 0, 0, 0⟩, bLead := lead, bTail := tail }

/-- The line with panel 101 on the roster, at feed count `f` and conveyor count `k`. -/
def carrying (p : Panel) (f k : Nat) : Controller :=
  { live with
    tab := ⟨[p], [], [0], 1⟩
    mot := { live.mot with feed := ⟨f, 0, false⟩, conv := ⟨k, 0, false⟩ } }

/-- Panel 101 at the head, its first stroke due at 8200 in the cursor. -/
def stepping (f : Nat) : Controller :=
  { carrying (webPanel .pleating (some 0) none) f 0 with seq := { live.seq with cursor := some ⟨0, 0, 0, 200, .box, 100, 8200, false⟩ } }

/-- The line with the roll job in a state, the unwind at rest, and the splice record A to B of tick 0. -/
def splicing (j : RollJob) : Controller :=
  { live with rolls := { live.rolls with job := j, splice := some ⟨.a, .b, 0#32⟩ } }

/-- One stroke of panel 101 unacknowledged since tick 0. -/
def inWindow (m : SeqMode) : Controller :=
  { stepping 0 with seq := { (stepping 0).seq with window := [⟨7#8, 0, 101, 8200, 0#32⟩], next := 8#8, mode := m } }

/-- A bus transaction in progress since tick 0. -/
def onBus (k : TxnKind) (drop sent : Nat) : Controller :=
  { live with cham := { live.cham with txn := some ⟨k, drop, 0#32, sent⟩ } }

/-- The lead cut of panel 101 in progress. -/
def cutting : Controller :=
  { carrying { webPanel .cutting (some 0) (some 9000) with marks := some ⟨true, false, false⟩ } 30000 90000 with
    cham := { live.cham with txn := some ⟨.cut, 7, 0#32, 0⟩ }
    cut := ⟨[], some ⟨0, 101, .lead⟩⟩ }

def portOpen (c : Controller) : Controller := { c with port := { c.port with isOpen := true } }

def answerDue (c : Controller) : Controller :=
  { c with port := { c.port with pending := some ⟨.ok, 9#8, []⟩ } }

/-! ### Ill-formed commands -/

theorem test_wf_spare_bits : (Instr.selectionEnd [] 8).wf = false ∧ (Instr.selectionEnd [] 7).wf = true := by decide
theorem test_wf_append_steps :
    (Instr.appendSteps 0#8 1#8 36#8 (List.replicate 36 ⟨0#8, 0#16, 0#16, 0#8, 0#8⟩)).wf = false ∧
      (Instr.appendSteps 0#8 1#8 35#8 (List.replicate 35 ⟨0#8, 0#16, 0#16, 0#8, 0#8⟩)).wf = true := by decide
theorem test_wf_pulse_order : (Instr.countPulse .feed [.gate, .head, .gate]).wf = false ∧
    (Instr.countPulse .feed [.gate, .head]).wf = true := by decide
theorem test_wf_tick_order : (Instr.dwellTick [.dose, .dose]).wf = false ∧ (Instr.dwellTick [.dose]).wf = true := by decide
theorem test_wf_zone_number : (Instr.zoneStale 0#8).wf = false ∧ (Instr.zoneStale 7#8).wf = false ∧
    (Instr.zoneStale 1#8).wf = true ∧ (Instr.zoneStale 6#8).wf = true := by decide
theorem test_wf_crossing_panel : [Instr.headArrival 0#16, .tailPassage 0#16, .chamberEntry 0#16, .chamberExit 0#16,
    .leadCutterCrossing 0#16, .tailCutterCrossing 0#16].map Instr.wf = List.replicate 6 false ∧
    (Instr.headArrival 1#16).wf = true := by decide

/-! ### Reset, port and attention -/

theorem test_power_on_levels : ran (.powerOnReset true false) live (fun d => (d.mot.seamHigh, d.line.state, d.params.getD 0 0))
    = some (true, .config, 3000) := by decide
theorem test_reset_held_ignores : ran .selectionBegin { cold with resetHeld := true } (fun d => d.port.isOpen)
    = some false := by decide
theorem test_empty_queue_idles : step (at_ live) = .next (at_ live) := rfl
theorem test_selection_begin : ran .selectionBegin (answerDue cold) (fun d => d.port.shift)
    = some (some [4#8, 0#8, 9#8, 0#8, 0xF3#8]) := by decide
theorem test_selection_request : told (.selectionEnd [4#8, 0x71#8, 5#8, 46#8, 0x58#8] 0) (portOpen cold)
    = some ⟨.ok, 5#8, [46#8, 0#8, 0#8, 3#8, 0xE8#8, 0#8, 0#8, 3#8, 0xE8#8]⟩ := by decide
theorem test_selection_bad_frame : told (.selectionEnd [4#8, 0x71#8, 5#8, 46#8, 0x41#8] 0) (portOpen cold)
    = some ⟨.badFrame, 5#8, []⟩ := by decide
theorem test_selection_shifts_out : ({ Port.idle with shift := some [4#8, 7#8] } : Port).shiftedOut 4
    = [4#8, 7#8, 0x00#8, 0x00#8] ∧ Port.idle.shiftedOut 2 = [0x00#8, 0x00#8] := by decide
theorem test_ack_group : told (.ackGroup 1#8 7#8) cold = some ⟨.badField, 1#8, [1#8]⟩ := by decide
theorem test_set_enables : told (.setEnables 1#8 6#8 0x1F#8) cold = some ⟨.ok, 1#8, [0#8, 0x1F#8, 1#8]⟩ := by decide
theorem test_read_notice_empty : told (.readNotice 1#8) cold
    = some ⟨.ok, 1#8, [0#8, 0#8, 0#8, 0#8, 0#8, 0#8, 0#8, 0#8, 0#8]⟩ := by decide

/-! ### Panels and patterns -/

theorem test_schedule_duplicate : told (.schedulePanel 1#8 101#16 0#8 0#32 1#8 10000#16 0#8 0#16) live
    = some ⟨.duplicate, 1#8, []⟩ := by decide
theorem test_schedule_head : ran (.schedulePanel 1#8 102#16 0#8 0#32 1#8 10000#16 1#8 0#16)
    { live with line := { live.line with state := .stopped } } (fun d => (d.tab.queue, (d.pattern 1).refs))
    = some ([1, 0], 2) := by decide
theorem test_move_before_itself : told (.movePanel 1#8 101#16 2#8 101#16) live = some ⟨.badField, 1#8, [3#8]⟩ := by decide
theorem test_withdraw : ran (.withdrawPanel 1#8 101#16) live (fun d => (d.tab.panels, d.tab.queue, (d.pattern 1).refs))
    = some ([], [], 0) := by decide
theorem test_reject : ran (.rejectPanel 1#8 101#16) live (fun d => d.tab.panels.map (fun p => (p.causes, p.verdict)))
    = some [(0x20#8, .reject)] := by decide
theorem test_retire_not_cut : told (.retirePanel 1#8 101#16) live = some ⟨.wrongState, 1#8, []⟩ := by decide
theorem test_find_panel : told (.findPanel 1#8 0#8 0#8) (carrying (webPanel .feeding none none) 3000 0)
    = some ⟨.ok, 1#8, [1#8, 1#8, 0#8, 101#8, 0#8, 0#8, 0#8]⟩ := by decide
theorem test_open_pattern : ran (.openPattern 1#8 32#8 15#8 8#8) cold (fun d => (d.pattern 32).state) = some .draft := by decide
theorem test_append_bad_step : told (.appendSteps 1#8 2#8 2#8 [⟨0#8, 200#16, 100#16, 1#8, 0#8⟩, ⟨0#8, 200#16, 9#16, 1#8, 0#8⟩])
    cold = some ⟨.badField, 1#8, [10#8]⟩ := by decide
theorem test_seal : told (.sealPattern 1#8 1#8) { live with lib := live.lib.set 0 ⟨.draft, 0, some ⟨0, 2, [box]⟩, none⟩ }
    = some ⟨.ok, 1#8, [0x25#8, 0x80#8, 0#8, 48#8]⟩ := by decide
theorem test_unseal_in_use : told (.unsealPattern 1#8 1#8) live = some ⟨.inUse, 1#8, []⟩ := by decide
theorem test_retire_pattern : told (.retirePattern 1#8 1#8) live = some ⟨.ok, 1#8, [3#8]⟩ := by decide

/-! ### Line, rolls, splice -/

theorem test_start_not_commissioned : told (.startLine 1#8) cold = some ⟨.notCommissioned, 1#8, []⟩ := by decide
theorem test_stop_line : ran (.stopLine 1#8) live (fun d => (d.line.state, d.line.mode, d.chF.queue))
    = some (.stopped, .hold, [.driveHold]) := by decide
theorem test_chain_open : ran .chainOpen live (fun d => (d.line.state, d.line.lastHalt)) = some (.halted, some .chain) := by decide
theorem test_drive_fault : ran (.driveState .fault) live (fun d => (d.line.state, d.line.lastHalt, d.line.report))
    = some (.halted, some .drive, some .fault) := by decide
theorem test_hold_resend : ran .holdResend { carrying (webPanel .feeding none none) 200 0 with
    line := { live.line with state := .stopped, mode := .hold, origin := 0 } } (fun d => (d.line.resend, d.line.origin)) = some (1, 200) := by decide
theorem test_admission : ran .admission live (fun d => (d.tab.roster, d.line.lastTail, d.seq.cursor.map Cursor.due))
    = some ([0], some 10000, some 8200) := by decide
theorem test_register_roll : told (.registerRoll 1#8 13#32 0#8 20000#32) cold = some ⟨.badField, 1#8, [2#8]⟩ := by decide
theorem test_mount_roll : told (.mountRoll 1#8 12#32 1#8) live = some ⟨.wrongState, 1#8, []⟩ := by decide
theorem test_force_splice : ran (.forceSplice 1#8) live (fun d => (d.rolls.job, d.chS.queue))
    = some (.preparing, [.splicePrepare .a .b]) := by decide
theorem test_prepared : ran .prepared (splicing .preparing) (fun d => d.rolls.job) = some .stopping := by decide
theorem test_splice_done : ran .spliceDone (splicing .splicing) (fun d => (d.rolls.job, d.rolls.spA.state, d.rolls.spB.state,
    d.rolls.seams)) = some (.seamWait, .stub, .active, [⟨100000, .planned 12 true false⟩]) := by decide
theorem test_splice_fail_retried : ran (.spliceFail 4#8) (splicing .splicing) (fun d => (d.rolls.job, d.rolls.retry))
    = some (.retryWait, 1) := by decide
theorem test_web_lost : ran (.unitState .webLost) live (fun d => (d.rolls.job, d.runningRoll)) = some (.noRoll, none) := by decide
theorem test_seam_edge_lists : ran .seamEdge live (fun d => d.rolls.seams) = some [⟨3000, .unplanned⟩] := by decide

/-! ### Strokes, passage, chamber, bus and cutter -/

theorem test_stroke_waits_for_due : ran .strokeDue (stepping 8199) (fun d => d.seq.window) = some [] := by decide
theorem test_stroke_issued : ran .strokeDue (stepping 8200) (fun d => (d.seq.window.map WindowEntry.seq, d.seq.next, d.chP.queue,
    d.seq.cursor.map Cursor.due)) = some ([0#8], 1#8, [.stroke 0#8 .box 100], some 8400) := by decide
theorem test_stroke_done : ran (.strokeDone 7#8) (inWindow .stepping) (fun d => (d.seq.window,
    d.tab.panels.map (fun p => p.placed.map Placed.done))) = some ([], [some 1]) := by decide
theorem test_stroke_done_mismatch : ran (.strokeDone 8#8) (inWindow .stepping) (fun d => (d.seq.mode, d.chP.queue))
    = some (.resync, [.brk, .resync]) := by decide
theorem test_resync_done : ran (.resyncDone 40#8) { live with seq := { live.seq with mode := .resync } }
    (fun d => (d.seq.mode, d.seq.next)) = some (.stepping, 40#8) := by decide
theorem test_head_arrival : ran (.headArrival 101#16) (carrying (webPanel .feeding none none) 8000 700)
    (fun d => d.tab.panels.map (fun p => (p.state, p.bLead))) = some [(.pleating, some 700)] := by decide
theorem test_chamber_entry : ran (.chamberEntry 101#16) (carrying (webPanel .conveyed (some 700) (some 9000)) 20000 15700)
    (fun d => d.tab.panels.map (fun p => (p.state, p.dose))) = some [(.setting, some 0)] := by decide
theorem test_chamber_exit_underset : ran (.chamberExit 101#16)
    (carrying { webPanel .setting (some 700) (some 9000) with dose := some 3999 } 20000 72000)
    (fun d => d.tab.panels.map (fun p => (p.state, p.verdict, p.causes))) = some [(.cooling, .reject, 0x04#8)] := by decide
theorem test_lead_cutter_crossing : ran (.leadCutterCrossing 101#16)
    (carrying { webPanel .cooling (some 700) (some 9000) with verdict := .good } 20000 80700)
    (fun d => (d.tab.panels.map Panel.state, d.cut.queue))
    = some ([.cutting], [⟨0, 101, .lead, 80700⟩]) := by decide
theorem test_cut_done_lead : ran (.cutDone 101#16 .lead) cutting (fun d => (d.cut.now, d.tab.panels.map Panel.marks))
    = some (none, [some ⟨true, true, false⟩]) := by decide
theorem test_zone_poll_none_enabled : ran .zonePoll live (fun d => d.cham.txn) = some none := by decide
theorem test_zone_report_unawaited : ran (.zoneReport 1100#16 50#8 false) (onBus .set 1 1100) (fun d => (d.cham.txn,
    (d.att.group 6).flags.toNat != 0)) = some (none, true) := by decide
theorem test_set_pending_not_enabled : ({ Zone.blank with commanded := some 0 } : Zone).setPending = false ∧
    Zone.blank.setPending = true ∧ live.zoneToSet = none := by decide
theorem test_command_replaces_waiting : let l : Link := { linkOn with queue := [.zonePoll 1] }
    l.handBus (.zonePoll 2) = { linkOn with queue := [.zonePoll 2] } ∧
      ({ l with tx := some (.zonePoll 3) } : Link).handBus (.zonePoll 2) = { linkOn with tx := some (.zonePoll 2) } := by
  decide
theorem test_tail_before_newer_lead :
    let older : Panel := { webPanel .cutting (some 700) (some 9000) with marks := some ⟨false, false, false⟩ }
    let newer : Panel := { webPanel .cooling (some 9000) none with id := 1, number := 102 }
    ran (.countPulse .conv []) { carrying older 20000 88999 with tab := ⟨[older, newer], [], [0, 1], 2⟩ }
      (fun d => d.cut.queue.map (fun e => (e.number, e.kind))) = some [(101, .tail), (102, .lead)] := by decide
theorem test_heat_class_in_use : told (.setHeatClass 1#8 2#8 1100#16 1100#16 1100#16 1100#16 1100#16 1100#16 20#8 800#16 100#16
    200#16) live = some ⟨.inUse, 1#8, []⟩ := by decide

/-! ### Configuration, pulses, ticks and characters -/

theorem test_set_param : told (.setParam 1#8 16#8 9#32) cold = some ⟨.badField, 1#8, [2#8]⟩ := by decide
theorem test_commission : ran (.commission 1#8) cold (fun d => (d.line.state, d.rolls.fill, d.chF.tx))
    = some (.stopped, 100000, some .brk) := by decide
theorem test_decommission : ran (.decommission 1#8) { live with line := { live.line with state := .stopped } }
    (fun d => (d.line.state, d.chF.enabled, d.tab.queue)) = some (.config, false, [0]) := by decide
theorem test_unw_pulse : ran (.countPulse .unw []) live (fun d => (d.mot.unw.coord, d.rolls.fill,
    d.runningRoll.map Roll.remaining)) = some (1, 100001, some 1499999) := by decide
theorem test_fill_before_clearance : fillFirst [.limit, .clearance, .seams, .fill, .gate]
    = [.limit, .fill, .clearance, .seams, .gate] ∧ fillFirst [.limit, .cutter] = [.limit, .cutter] := by decide
theorem test_clearance_sees_the_new_fill :
    let c : Controller := { splicing .pending with line := { live.line with lastTail := some 99500 } }
    ran (.countPulse .feed [.clearance, .fill]) { c with rolls := { c.rolls with fill := 99999 } } (fun d => d.rolls.job)
        = some .pending ∧
      ran (.countPulse .unw [.clearance, .fill]) { c with rolls := { c.rolls with fill := 99999 } } (fun d => d.rolls.job)
        = some .preparing := by decide
theorem test_pulse_in_config : ran (.countPulse .feed []) cold (fun d => d.mot.feed.coord) = some 0 := by decide
theorem test_dwell_tick : ran (.dwellTick []) cold (fun d => d.mot.tick) = some 1#32 := by decide
theorem test_receive_telegram : ran (.receiveCharacter .s 0xD6#9 true) { splicing .preparing with
    chS := { linkOn with rx := ⟨.body, [1#8, 2#8, 0x28#8], true, false⟩ } } (fun d => (d.rolls.job, d.chS.rx))
    = some (.stopping, .hunting) := by decide
theorem test_seam_level_change : ran .seamLevelChange { cold with mot := { cold.mot with seamHigh := true } }
    (fun d => d.mot.seamHigh) = some false := by decide

/-! ### The invariant on a commissioned line -/

theorem live_records : RecordsSound live.tab where
  room := by decide
  known := by decide
  ids := by decide
  numbers := by decide
  queueOnce := by decide
  rosterOnce := by decide
  queued id := by simp [live, queuedPanel, eq_comm]
  onRoster id := by simp [live, queuedPanel]
  placed := by decide

theorem live_rolls : RollsSound live.rolls live.commissioned where
  table := ⟨by decide, by decide, by unfold Roll.isNew; decide⟩
  spindles := ⟨fun sp => by cases sp <;> decide, by decide⟩
  feed :=
    { feed := fun id h => by cases h; exact ⟨_, List.mem_cons_self .., rfl, Or.inl rfl⟩
      awaited := fun _ h => nomatch h
      later := by decide
      once := by decide }
  job := { target := (nomatch ·), pending := (nomatch ·), quiet := (nomatch ·) }

theorem live_patterns : PatternsCounted live.tab live.lib where
  named := by decide
  count n h1 h2 := by interval_cases n <;> rfl
  free n h1 h2 := by interval_cases n <;> decide

theorem live_sound : Sound live where
  blocks :=
    { attention := AttentionSound.reset false false
      seams := ⟨by decide, fun _ => by decide, by decide⟩
      cuts := by decide
      patterns := rfl
      rolls := rfl
      classes := rfl
      zones := rfl
      enabled := fun ch => by cases ch <;> rfl
      idle := fun ch h => by cases ch <;> cases h
      feedLink := lineQueue_empty ..
      spliceLink := lineQueue_empty ..
      headLink := headQueue_empty ..
      busLink := ⟨by decide, fun h => absurd rfl h⟩
      counts := fun i => by cases i <;> exact ⟨by decide, by decide⟩
      params := defaults_sound }
  records := live_records
  strokes := ⟨trivial, fun _ => rfl, fun _ h => (nomatch h), fun _ h => (nomatch h), fun _ h => (nomatch h), by decide,
    by decide⟩
  rolls := live_rolls
  patterns := live_patterns
  fed := ⟨by decide, by decide⟩
  window := fun _ => by decide
  offline := fun h => by cases h

/-! ### Witnesses: the queue, reset and the invariant -/

theorem witness_StepRunsTheFrontCommand :
    (State.mk live [.admission, .cut]).pending = .admission :: [.cut] ∧ (at_ live).pending = [] := ⟨rfl, rfl⟩
theorem witness_CommandsIgnoredWhileResetIsHeld :
    (at_ { cold with resetHeld := true }).ctl.resetHeld = true ∧ ∀ a b, Instr.admission ≠ .powerOnReset a b :=
  ⟨rfl, fun _ _ h => nomatch h⟩
theorem witness_ResetsLeaveTheFreshController : (at_ live).awake := rfl
theorem witness_SoundnessSurvivesEveryStep :
    Sound (State.mk live [.admission]).ctl ∧ ∃ t, step (State.mk live [.admission]) = .next t := ⟨live_sound, _, rfl⟩
theorem witness_AttentionOutputFollowsTheFlags : Sound (at_ live).ctl ∧
    ∃ t, exec (.rejectPanel 1#8 101#16) (at_ live) = .next t ∧ t.ctl.resetHeld = false := ⟨live_sound, _, rfl, by decide⟩
theorem witness_EventsLeaveTheRestAlone : isEvent .admission = true ∧ Sound (at_ live).ctl ∧
    ∃ t, exec .admission (at_ live) = .next t := ⟨by decide, live_sound, _, rfl⟩

/-! ### Witnesses: the port -/

def frameOf (i : Instr) : List Byte := (requestFrame i).getD []

theorem witness_SelectionBeginFixesTheAnswer : (at_ (answerDue cold)).awake := rfl
theorem witness_AnswerFramesSumToZero : (Answer.mk .ok 0#8 (List.replicate 251 0#8)).body.length ≤ 251 ∧
    (Answer.mk .ok 0#8 []).body.length ≤ 251 :=
  ⟨List.length_replicate.le, Nat.zero_le _⟩
theorem witness_SelectionEndCollectsTheAnswer : (at_ (portOpen cold)).awake ∧ (at_ (portOpen cold)).ctl.port.isOpen = true ∧
    [0#8, 0#8].head? = some 0#8 ∧ (at_ cold).ctl.port.isOpen = false := ⟨rfl, rfl, rfl, rfl⟩
theorem witness_FramesRefusedAtThePort_bad : (at_ (portOpen live)).awake ∧ (portOpen live).port.isOpen = true ∧
    ((portOpen live).collect [2#8]).port.pending = none ∧ classify [2#8] = .badFrame := ⟨rfl, rfl, rfl, by decide⟩
theorem witness_FramesRefusedAtThePort_overrun : (at_ (portOpen (answerDue live))).awake ∧
    ((portOpen (answerDue live)).collect [3#8]).port.pending ≠ none ∧ classify [3#8] ≠ .noRequest :=
  ⟨rfl, by decide, by decide⟩
theorem witness_FramesRefusedAtThePort_unknown : ((portOpen live).collect [3#8, 0xFF#8, 0#8, 0xFE#8]).port.pending = none ∧
    classify [3#8, 0xFF#8, 0#8, 0xFE#8] = .request ∧ requestFields 0xFF = none := by decide
theorem witness_FramesRefusedAtThePort_access : classify (frameOf (.startLine 1#8)) = .request ∧
    needsCommission (byteAt (frameOf (.startLine 1#8)) 1).toNat = true ∧ (portOpen cold).commissioned = false ∧
    classify (frameOf (.commission 1#8)) = .request ∧ needsConfig (byteAt (frameOf (.commission 1#8)) 1).toNat = true ∧
    (portOpen live).commissioned = true := by decide
theorem witness_FramesRefusedAtThePort_length : classify [3#8, 0x71#8, 0#8, 0x8C#8] = .request ∧
    requestFields 0x71 = some [1] ∧ (portOpen live).accessRefusal 0x71 = none ∧ lengthFault 1 [1] 0 = some 1 ∧
    lengthFault 1 [1] 2 = some 2 := by decide
/-- A port frame of a code with field bytes, its check byte in place. -/
def framed (code : Byte) (f : List Byte) : List Byte :=
  let front := BitVec.ofNat 8 (3 + f.length) :: code :: 0#8 :: f
  front ++ [0#8 - byteSum front]

theorem witness_FramesRefusedAtThePort_steps :
    ([[], [1#8], [1#8, 0#8, 7#8], [33#8], [32#8, 1#8]] : List (List Byte)).all
        (fun f => decide (classify (framed 0x11#8 f) = .request)) = true ∧
      ((portOpen live).collect (framed 0x11#8 [1#8])).port.pending = none ∧
      (byteAt (framed 0x11#8 []) 0).toNat - 3 = 0 ∧ (byteAt (framed 0x11#8 [1#8]) 0).toNat - 3 = 1 ∧
      (byteAt (framed 0x11#8 [32#8, 1#8]) 0).toNat - 3 ≠ 2 + 7 * (byteAt (framed 0x11#8 [32#8, 1#8]) 4).toNat ∧
      32 < (byteAt (framed 0x11#8 [33#8]) 3).toNat := by decide
theorem witness_FramesRefusedAtThePort_heat :
    ([0, 2, 19, 21] : List Nat).all (fun n => decide (classify (framed 0x50#8 (List.replicate n 1#8)) = .request ∧
      (byteAt (framed 0x50#8 (List.replicate n 1#8)) 0).toNat - 3 = n)) = true ∧
      ((portOpen live).collect (framed 0x50#8 [])).port.pending = none := by decide
theorem witness_RequestFrameMeansItsRow : (Instr.readParam 5#8 46#8).wf = true ∧
    requestFrame (.readParam 5#8 46#8) = some [4#8, 0x71#8, 5#8, 46#8, 0x58#8] ∧ (at_ (portOpen cold)).awake ∧
    (portOpen cold).port.isOpen = true ∧
    ((portOpen cold).collect [4#8, 0x71#8, 5#8, 46#8, 0x58#8]).port.pending = none := ⟨by decide, by decide, rfl, rfl, rfl⟩
theorem witness_RequestFrameMeansItsRow_collecting :
    let c := portOpen (answerDue cold)
    let d : Controller := { c with port := { c.port with shift := some [4#8, 0#8, 9#8, 0#8, 0xF3#8] } }
    d.port.pending ≠ none ∧ (d.collect ([4#8, 0x71#8, 5#8, 46#8, 0x58#8] ++ [])).port.pending = none := by decide

/-! ### Witnesses: the links -/

def rxAt (ph : RxPhase) (held : List Byte) (timer wait : Bool) : Controller :=
  { live with chS := { linkOn with rx := ⟨ph, held, timer, wait⟩ } }

def filled (q : List TxItem) : Link := { linkOn with queue := q }

theorem witness_TelegramsPassTheFiveChecks : live.stationAddress .f = some 1 ∧ (onBus .poll 6 0).stationAddress .z = some 6 ∧
    { live with params := live.params.set 42 30 }.stationAddress .f = some 30 := by decide
theorem witness_CharactersBuildTelegrams_ignored : (at_ cold).awake ∧ cold.hears .s = false ∧
    ((rxAt .hunting [] false true).link .s).rx.waitIdle = true := ⟨rfl, by decide, by decide⟩
theorem witness_CharactersBuildTelegrams_address : live.hears .s = true ∧ (live.link .s).rx.waitIdle = false ∧
    (0x11E#9).getLsbD 8 = true ∧ ((0x11E#9).setWidth 8 : Byte).toNat ≤ 30 ∧ (live.link .s).rx.phase = .hunting ∧
    ((rxAt .count [1#8] true false).link .s).rx.phase ≠ .hunting ∧ 30 < ((0x11F#9).setWidth 8 : Byte).toNat := by decide
theorem witness_CharactersBuildTelegrams_count : (0x01E#9).getLsbD 8 = false ∧
    ((rxAt .count [1#8] true false).link .s).rx.phase = .count ∧ ((0x01E#9).setWidth 8 : Byte).toNat ≤ 30 ∧
    2 ≤ ((0x002#9).setWidth 8 : Byte).toNat ∧ ((0x001#9).setWidth 8 : Byte).toNat < 2 ∧
    30 < ((0x01F#9).setWidth 8 : Byte).toNat := by decide
theorem witness_CharactersBuildTelegrams_body : ((rxAt .body [1#8, 2#8] true false).link .s).rx.phase = .body ∧
    ([1#8, 2#8] ++ [0x28#8] : List Byte).length ≠ (byteAt [1#8, 2#8, 0x28#8] 1).toNat + 2 ∧
    ([1#8, 2#8, 0x28#8] ++ [0xD6#8] : List Byte).length = (byteAt [1#8, 2#8, 0x28#8, 0xD6#8] 1).toNat + 2 := by decide
theorem witness_LinkTimersAndTransmission : (at_ live).awake ∧ (rxAt .body [1#8, 2#8] true false).hears .s = true ∧
    ((rxAt .body [1#8, 2#8] true false).link .s).rx.timer = true ∧ (live.link .s).rx.timer = false ∧
    (live.link .s).tx ≠ none ∧ (cold.link .s).tx = none := ⟨rfl, by decide⟩
theorem witness_ItemsQueueOnTheLinks : Link.disabled.enabled = false ∧ { linkOn with tx := none }.tx = none ∧
    linkOn.enabled = true ∧ linkOn.tx ≠ none ∧
    waitingPlaces (filled [.spliceGo, .spliceGo, .spliceGo]).queue < 4 ∧ (TxItem.stroke 0#8 .box 10).isStroke = true := by decide
theorem witness_ItemsQueueOnTheLinks_bus : linkOn.enabled = true ∧ linkOn.tx = some .brk ∧
    { linkOn with tx := none }.tx ≠ some .brk ∧ { linkOn with tx := some (.zonePoll 1) }.tx ≠ some .brk := by decide
theorem witness_ItemsQueueOnTheLinks_superseded :
    let q : List TxItem := [.spliceGo, .unwindMode .a .stop, .spliceGo, .spliceGo]
    4 ≤ waitingPlaces q ∧ q = [.spliceGo] ++ .unwindMode .a .stop :: [.spliceGo, .spliceGo] ∧
      (∀ z ∈ [TxItem.spliceGo], (TxItem.unwindMode .a .follow).supersedes z = false) ∧
      (TxItem.unwindMode .a .follow).supersedes (.unwindMode .a .stop) = true := by decide
theorem witness_ItemsQueueOnTheLinks_lost :
    let q : List TxItem := [.brk, .resync, .resync, .resync]
    4 ≤ waitingPlaces q ∧ (∀ z ∈ q, (TxItem.headInfo 0 0 0 0 0).supersedes z = false) ∧
      q = [.brk] ++ .resync :: [.resync, .resync] ∧ (∀ z ∈ [TxItem.brk], z.removable = false) ∧
      TxItem.resync.removable = true := by decide

/-! ### Witnesses: notices and reads -/

/-- Group 6 with its flag 3 raised and enabled, its gate open. -/
def flagged : Controller :=
  { cold with att :=
    { cold.att with groups := cold.att.groups.set 5 ⟨0x04#8, 0x04#8, true, List.replicate 8 none⟩, output := true } }

theorem flagged_attention : AttentionSound flagged.att flagged.resetHeld where
  six := rfl
  eight := by decide
  sourceless n h1 h2 := by
    have : n = 1 ∨ n = 2 ∨ n = 3 ∨ n = 4 ∨ n = 5 ∨ n = 6 := by omega
    rcases this with rfl | rfl | rfl | rfl | rfl | rfl <;> decide
  output := by decide

theorem witness_RaisingSetsTheFlagAndTheDetail : AttentionSound live.att live.resetHeld := live_sound.blocks.attention
theorem witness_ReadNoticeDeliversTheFirst : (at_ flagged).awake ∧ AttentionSound flagged.att flagged.resetHeld ∧
    (flagged.att.group 6).gateOpen = true ∧ (flagged.att.group 6).flags.getLsbD (3 - 1) = true ∧
    (flagged.att.group 6).enables.getLsbD (3 - 1) = true := ⟨rfl, flagged_attention, by decide⟩
theorem witness_ReadNoticeDeliversTheFirst_least : (∀ m, m < 2 → (flagged.att.group 6).flags.getLsbD m = false) ∧
    (∀ h, h < 6 → (flagged.att.group h).flags = 0#8) ∧ ∀ g, g < 7 → (cold.att.group g).flags = 0#8 := by decide
theorem witness_AckGroupAndSetEnables : (at_ live).awake ∧ AttentionSound live.att live.resetHeld ∧
    (0#8).toNat = 0 ∧ 6 < (7#8).toNat ∧ 1 ≤ (1#8).toNat ∧ (6#8).toNat ≤ 6 :=
  ⟨rfl, live_sound.blocks.attention, by decide⟩
theorem witness_reads : (at_ live).awake ∧ (at_ live).ctl.port.pending = none := ⟨rfl, rfl⟩

/-! ### Witnesses: panels and patterns -/

theorem witness_MovePanelReordersTheQueue : (at_ live).awake ∧ 7 ∉ [5, 6] := ⟨rfl, by decide⟩
theorem witness_WithdrawAndRetireFreeTheRecord : (at_ live).awake ∧ live.panelByNumber 101 = some queuedPanel ∧
    queuedPanel.state = .scheduled ∧
    (let c := carrying (webPanel .cut (some 0) (some 9000)) 30000 99000;
      told (.retirePanel 1#8 101#16) c = some ⟨.ok, 1#8, []⟩ ∧ told (.withdrawPanel 1#8 101#16) c = some ⟨.wrongState, 1#8, []⟩) ∧
    (let c : Controller := { live with lib := live.lib.set 0 ⟨.retiring, 1, some ⟨0, 2, [box]⟩, some ⟨9600, 48⟩⟩ };
      ran (.withdrawPanel 1#8 101#16) c (fun d => ((d.pattern 1).state, (d.att.group 2).flags)) = some (.empty, 0x40#8)) :=
  ⟨rfl, by decide⟩
theorem witness_RejectPanelAddsHost : (at_ live).awake ∧ RecordsSound (at_ live).ctl.tab := ⟨rfl, live_records⟩
theorem witness_RejectPanelAddsHost_causes :
    let c := carrying (webPanel .cooling (some 700) (some 9000)) 20000 80700
    live.panelById queuedPanel.id = some queuedPanel ∧ queuedPanel.placed = none ∧ live.panelById 1 = none ∧
      c.panelById 0 = some (webPanel .cooling (some 700) (some 9000)) ∧
      (webPanel .cooling (some 700) (some 9000)).placed = some ⟨0, 11, 4000, 6500, 0, 0, 0, 0, 0⟩ := by decide
theorem witness_HeadReportsSteerTheChangeover : cold.headPanel = none ∧ live.headPanel = some queuedPanel := by decide
theorem witness_OpenPatternMakesADraft : (at_ cold).awake ∧ (at_ cold).ctl.port.pending = none := ⟨rfl, rfl⟩
theorem witness_AppendStepsTakesAllOrNone :
    (∀ y ∈ [RawStep.mk 4#8 40#16 600#16 1#8 236#8], badStepField y = none) ∧
      badStepField ⟨0#8, 200#16, 9#16, 1#8, 0#8⟩ = some 3 ∧ badStepField ⟨5#8, 39#16, 601#16, 0#8, 21#8⟩ = some 1 ∧
      badStepField ⟨4#8, 2001#16, 601#16, 0#8, 21#8⟩ = some 2 ∧ badStepField ⟨4#8, 2000#16, 600#16, 0#8, 21#8⟩ = some 4 ∧
      badStepField ⟨4#8, 2000#16, 600#16, 1#8, 235#8⟩ = some 5 := by decide
theorem witness_ClearStepsEmptiesADraft :
    let c : Controller := { cold with lib := cold.lib.set 31 ⟨.draft, 0, some ⟨0, 2, [box, box]⟩, none⟩ }
    (at_ c).awake ∧ (32#8).toNat ≤ 32 ∧ c.lib.length = 32 ∧ (c.pattern 32).state = .draft ∧
      (c.lib.map (fun p => p.steps.length)).sum ≤ 1024 ∧ (c.pattern 32).steps.length = 2 := ⟨rfl, by decide⟩
theorem witness_SealPatternFreezesSpanAndStrokes : (at_ live).awake ∧ [box][0]? = some box := ⟨rfl, rfl⟩
theorem witness_patterns : (at_ live).awake ∧ (at_ live).ctl.port.pending = none := ⟨rfl, rfl⟩

/-! ### Witnesses: the line -/

def held (h : HoldCauses) (st : LineState) : Controller := { live with line := { live.line with state := st, holds := h } }

/-- The line STOPPED with the feed 200 past its slip origin, the stop sent again `n` times. -/
def slipping (n : Nat) : Controller :=
  { carrying (webPanel .feeding none none) 200 0 with
    line := { live.line with state := .stopped, mode := .hold, resend := n } }

/-- The unwind 200 past its slip origin under STOP. -/
def unwinding (n : Nat) : Controller :=
  { live with
    mot := { live.mot with unw := ⟨200, 0, false⟩ }
    rolls := { live.rolls with spA := ⟨.active, some 11, some .stop⟩, resend := n } }

theorem witness_LineMovesCommandTheDrive : (held ⟨true, false, false⟩ .held).line.holds.has .accGuard = true ∧
    live.line.holds.has .maxGap = false ∧ live.line.state = .running ∧
    (held ⟨true, false, false⟩ .held).line.holds.set .accGuard false = HoldCauses.empty ∧
    (held ⟨true, true, false⟩ .held).line.holds.set .accGuard false ≠ HoldCauses.empty ∧
    (held HoldCauses.empty .stopped).line.state ≠ .running ∧ (held HoldCauses.empty .halted).line.state = .halted := by decide
theorem witness_StartAndStopMoveTheLine :
    ran (.startLine 1#8) (held HoldCauses.empty .stopped) (fun d => d.line.state) = some .running ∧
    ran (.startLine 1#8) (held ⟨true, false, false⟩ .stopped) (fun d => d.line.state) = some .held ∧
    ran (.stopLine 1#8) (held HoldCauses.empty .held) (fun d => d.line.state) = some .stopped ∧
    ran (.stopLine 1#8) (held HoldCauses.empty .halted) (fun d => d.line.state) = some .stopped ∧
    told (.startLine 1#8) (held HoldCauses.empty .halted) = some ⟨.wrongState, 1#8, []⟩ := by decide
theorem witness_StartAndStopMoveTheLine_refused :
    (let c := held HoldCauses.empty .halted
     let d := { c with line := { c.line with report := some .fault } }
     told (.stopLine 1#8) d = some ⟨.wrongState, 1#8, refusedStopBody d⟩) ∧
    told (.stopLine 1#8) cold = some ⟨.notCommissioned, 1#8, []⟩ := ⟨rfl, by decide⟩
theorem witness_SpeedAndDriveReports : (at_ live).awake := rfl
theorem witness_EdgeInputsSetTheLevels : (at_ live).awake := rfl
theorem witness_StopsAreSentAgainToTheLimit : (at_ (slipping 0)).onLine ∧ (slipping 0).feedSlipped = true ∧
    (slipping 2).line.resend < (slipping 2).resendLimit ∧ (slipping 3).resendLimit ≤ (slipping 3).line.resend ∧
    live.feedSlipped = false := ⟨⟨rfl, rfl⟩, by decide⟩
theorem witness_StopsAreSentAgainToTheLimit_unwind : (at_ (unwinding 0)).onLine ∧ (unwinding 0).unwindSlipped = true ∧
    (unwinding 2).rolls.resend < (unwinding 2).resendLimit ∧ (unwinding 3).resendLimit ≤ (unwinding 3).rolls.resend ∧
    live.unwindSlipped = false := ⟨⟨rfl, rfl⟩, by decide⟩
theorem witness_AdmissionTakesTheQueueHead : (at_ live).onLine ∧ Sound (at_ live).ctl ∧
    live.headPanel = some queuedPanel ∧ live.line.state = .running ∧ live.gateSpacing = true ∧ live.gateRoll = true ∧
    live.gateSeams queuedPanel = true ∧ live.gateFabric queuedPanel = true ∧ live.gateHeat queuedPanel = true ∧
    live.mot.limit = false := ⟨⟨rfl, rfl⟩, live_sound, by decide⟩
theorem witness_AdmissionTakesTheQueueHead_none : (at_ cold).awake ∧ cold.admissible = false := ⟨rfl, by decide⟩
theorem witness_AdmissionTakesTheQueueHead_last : (at_ live).ctl.tab.queue.tail = [] ∧ cold.headPanel = none ∧
    (live.rolls.feedRoll.bind live.rollById).isSome = true ∧ live.removalTest = true ∧ live.commissioned = true := by decide

/-! ### Witnesses: rolls and splices -/

theorem witness_RegisterRollFillsAFreeSlot : (at_ live).awake ∧ (at_ live).ctl.port.pending = none ∧
    (1 ≤ (15#8).toNat ∧ (15#8).toNat ≤ 15) ∧ 15 < (16#8).toNat ∧ (0#8).toNat = 0 ∧ (9999#32).toNat < 10000 ∧
    200000000 < (200000001#32).toNat ∧ 10000 ≤ (10000#32).toNat ∧ (200000000#32).toNat ≤ 200000000 ∧
    live.rollById 11 ≠ none ∧ live.rollById 13 = none ∧ none ∈ live.rolls.slots := ⟨rfl, rfl, by decide⟩
theorem witness_RegisterRollFillsAFreeSlot_full :
    let r : Roll := ⟨11, 4, 20000, 20000, .registered, none, none, 0⟩
    let c : Controller := { live with rolls := { live.rolls with slots := List.replicate 8 (some r) } }
    c.rollById 13 = none ∧ ∀ x ∈ c.rolls.slots, x ≠ none := by decide
theorem witness_SpindlesTakeAndGiveRolls : (at_ live).awake ∧
    told (.unmountRoll 1#8 1#8) live = some ⟨.ok, 1#8, []⟩ ∧ told (.retireRoll 1#8 11#32) live = some ⟨.wrongState, 1#8, []⟩ ∧
    (let c := live.updateRoll 12 (fun r => { r with state := .registered, spindle := none });
      ran (.mountRoll 1#8 12#32 1#8) (c.setSpindle .b ⟨.empty, none, some .stop⟩) (fun d => d.rolls.spB)
        = some ⟨.loaded, some 12, some .stop⟩ ∧
      ran (.clearSpindle 1#8 1#8) (c.setSpindle .b ⟨.stub, some 12, some .stop⟩) (fun d => d.rolls.spB)
        = some ⟨.empty, none, some .stop⟩ ∧
      ran (.retireRoll 1#8 12#32) c (fun d => d.rollById 12) = some none) ∧
    told (.mountRoll 1#8 99#32 2#8) live = some ⟨.badField, 1#8, [2#8]⟩ := ⟨rfl, by decide⟩
theorem witness_ThreadRollStartsTheWeb : (at_ live).awake := rfl
theorem witness_SplicesBecomeDue : (at_ live).onLine ∧ live.rolls.runout = false ∧
    (∀ r, live.runningRoll = some r → live.runoutAt < r.remaining) := by
  refine ⟨⟨rfl, rfl⟩, rfl, fun r h => ?_⟩
  have : r = ⟨11, 4, 1500000, 1500000, .running, some .a, none, 0⟩ := by
    have e : live.runningRoll = some ⟨11, 4, 1500000, 1500000, .running, some .a, none, 0⟩ := by decide
    exact (Option.some.inj (e.symm.trans h)).symm
  subst this
  decide
theorem witness_SplicesBecomeDue_runout :
    let c := live.updateRoll 11 (fun r => { r with remaining := 10000 })
    (at_ c).onLine ∧ c.rolls.runout = false ∧
      c.runningRoll = some ⟨11, 4, 1500000, 10000, .running, some .a, none, 0⟩ ∧ 10000 ≤ c.runoutAt := ⟨⟨rfl, rfl⟩, by decide⟩
theorem witness_SplicesPrepareAndGo : (at_ (splicing .pending)).onLine ∧ (splicing .pending).rolls.job = .pending ∧
    (splicing .pending).line.lastTail.getD 0 + (splicing .pending).seamClear ≤ (splicing .pending).webU ∧
    (splicing .pending).rolls.seams.length < 4 ∧ (splicing .pending).activeSpindle = some .a ∧
    (splicing .preparing).chS.enabled = true ∧ (splicing .preparing).rolls.job = .preparing ∧
    live.rolls.job ≠ .pending := ⟨⟨rfl, rfl⟩, by decide⟩
theorem witness_SpliceDoneCompletesTheSplice : (at_ (splicing .cancelWait)).awake ∧
    (splicing .cancelWait).chS.enabled = true ∧ (splicing .cancelWait).rolls.splice = some ⟨.a, .b, 0#32⟩ ∧
    (splicing .cancelWait).rolls.job = .cancelWait := ⟨rfl, by decide⟩
theorem witness_FailedSplicesAreRetriedOrGivenUp : (at_ (splicing .cancelWait)).onLine ∧
    (splicing .cancelWait).chS.enabled = true ∧ (splicing .cancelWait).rolls.splice = some ⟨.a, .b, 0#32⟩ ∧
    Spindle.a ≠ .b := ⟨⟨rfl, rfl⟩, by decide⟩

/-- The line at feed count `f` with one seam entry. -/
def seamed (e : Seam) (f : Nat) : Controller :=
  { live with
    mot := { live.mot with feed := ⟨f, 0, false⟩ }
    rolls := { live.rolls with seams := [e] } }

theorem witness_SeamsAreListedPassedAndRemoved : (at_ (seamed ⟨5000, .planned 12 true false⟩ 4001)).onLine ∧
    (let c := seamed ⟨5000, .planned 12 true false⟩ 4001; c.rolls.seams.find? c.seamIsLost =
      some ⟨5000, .planned 12 true false⟩) ∧
    (let c := seamed ⟨5000, .planned 12 true false⟩ 4000; c.rolls.seams.find? c.seamIsLost = none) := ⟨⟨rfl, rfl⟩, by decide⟩
theorem witness_SeamsAreListedPassedAndRemoved_passage :
    (let c := seamed ⟨5000, .planned 12 false false⟩ 5000; c.rolls.seams.find? (fun e => e.kind.awaitsPassage && decide (e.coord ≤ c.feedAt)) = some ⟨5000, .planned 12 false false⟩) ∧
    (let c := seamed ⟨5000, .planned 12 false false⟩ 4999; c.rolls.seams.find? (fun e => e.kind.awaitsPassage && decide (e.coord ≤ c.feedAt)) = none) ∧
    (let c := seamed ⟨5000, .unplanned⟩ 5500; c.rolls.seams.any c.seamIsGone = true) ∧
    (let c := seamed ⟨5000, .unplanned⟩ 5499; c.rolls.seams.any c.seamIsGone = false) := by decide
theorem witness_SeamsAreListedPassedAndRemoved_marks :
    let c := carrying (webPanel .feeding none none) 3000 0
    c.panelOver 9999 = some (webPanel .feeding none none) ∧ c.panelOver 10000 = none ∧
      (webPanel .feeding none none).placed = some ⟨0, 11, 4000, 6500, 0, 0, 0, 0, 0⟩ := by decide
theorem witness_UnwindModesFollowTheJob_both :
    let c : Controller := { splicing .stopping with rolls := { (splicing .stopping).rolls with spB := ⟨.loaded, some 12, none⟩ } }
    c.commissioned = true ∧ (c.spindle .a).mode ≠ some .stop ∧ (c.spindle .b).mode ≠ some .stop ∧
      (c.spindle .a).state = .active ∧ (live.spindle .a).mode = some .refill ∧ (live.spindle .b).mode = some .stop := by decide
theorem witness_UnwindModesFollowTheJob : live.commissioned = true ∧
    (live.spindle .a).mode = some .refill ∧ (live.spindle .b).mode = some .stop ∧
    ((splicing .stopping).spindle .a).mode ≠ some .stop := by decide

/-! ### Witnesses: strokes, passage, bus and configuration -/

theorem witness_StrokesAreIssuedHeldOrMissed : (at_ (stepping 8200)).onLine ∧
    (stepping 8200).seq.cursor = some ⟨0, 0, 0, 200, .box, 100, 8200, false⟩ := ⟨⟨rfl, rfl⟩, rfl⟩
theorem witness_StrokesAreIssuedHeldOrMissed_expanded :
    let skip : Step := ⟨.skip, 300, 10, 2, 0⟩
    box.kind ≠ .skip ∧ 47 < box.times ∧ ¬ 48 < box.times ∧ (∀ y ∈ [skip], y.kind = .skip) ∧
      nextStroke [skip, box] 0 0 0 = some (1, 0, 800, box) ∧ nextStroke [box] 0 48 9600 = none := by decide
theorem witness_StrokesAreIssuedHeldOrMissed_cursor :
    let p := webPanel .pleating (some 0) none
    let c := carrying p 8200 0
    p.placed = some ⟨0, 11, 4000, 6500, 0, 0, 0, 0, 0⟩ ∧ c.rosterPanels = [] ++ p :: [] ∧ p.bTail = none ∧ p.strokesLeft ≠ 0 ∧
      c.strokeFrom p 0 0 0 = some ⟨0, 0, 0, 200, .box, 100, 8200, false⟩ ∧ c.panelById 0 = some p ∧
      c.strokeFrom p 0 (46 + 1) 9400 = some ⟨0, 0, 47, 9600, .box, 100, 17600, false⟩ ∧ c.strokeFrom p 0 (47 + 1) 9600 = none ∧
      live.rosterPanels = [] ∧ c.panelById 1 = none := by decide
theorem witness_AcknowledgementsCountTheOldest_conveyed :
    let p := { webPanel .pleating (some 0) (some 9000) with total := 0 }
    (carrying p 20000 9000).panelById 0 = some p ∧ p.strokesLeft = 0 ∧ live.seq.window = [] ∧ live.panelById 1 = none := by
  decide
theorem witness_AcknowledgementsCountTheOldest : (at_ live).awake ∧ live.chP.enabled = true ∧ cold.chP.enabled = false :=
  ⟨rfl, rfl, rfl⟩
theorem witness_ResyncsEmptyTheWindow : (at_ (inWindow .stepping)).onLine ∧ (inWindow .stepping).seq.mode = .stepping ∧
    (inWindow .stepping).seq.window = [⟨7#8, 0, 101, 8200, 0#32⟩] ∧
    (inWindow .stepping).ackTimeout < (inWindow .stepping).age 0#32 ∧ (inWindow .resync).seq.mode ≠ .stepping ∧
    RecordsSound live.tab ∧ live.chP.enabled = true := ⟨⟨rfl, rfl⟩, by decide, by decide, by decide, by decide, live_records, rfl⟩
theorem witness_HeadTelegramsAndAborts : (at_ cold).awake ∧ cold.chP.enabled = false ∧ live.chP.enabled = true := ⟨rfl, rfl, rfl⟩

def cooling : Controller := carrying (webPanel .cooling (some 700) (some 9000)) 20000 80700

theorem cooling_records : RecordsSound cooling.tab where
  room := by decide
  known := by decide
  ids := by decide
  numbers := by decide
  queueOnce := by decide
  rosterOnce := by decide
  queued id := by simp [cooling, carrying, webPanel, queuedPanel]
  onRoster id := by simp [cooling, carrying, webPanel, queuedPanel, eq_comm]
  placed := by decide

theorem witness_CrossingsMoveThePanel : (at_ cooling).onLine ∧ RecordsSound cooling.tab ∧ cooling.panelByNumber 102 = none ∧
    cooling.panelByNumber 101 = some (webPanel .cooling (some 700) (some 9000)) ∧
    (webPanel .cooling (some 700) (some 9000)).bLead = some 700 ∧ (webPanel .cooling (some 700) (some 9000)).bTail = some 9000 ∧
    (webPanel .cooling (some 700) (some 9000)).placed = some ⟨0, 11, 4000, 6500, 0, 0, 0, 0, 0⟩ :=
  ⟨⟨rfl, rfl⟩, cooling_records, by decide⟩
theorem witness_CrossingsMoveThePanel_absent : live.panelByNumber 101 = some queuedPanel ∧ queuedPanel.placed = none ∧
    queuedPanel.bLead = none ∧ queuedPanel.bTail = none := by decide
theorem witness_CrossingsMoveThePanel_cuts :
    let p := webPanel .cooling (some 700) (some 9000)
    cooling.panelById p.id = some p ∧ p.bLead = some 700 ∧ p.bTail = some 9000 ∧ cooling.cut.queue.length < 8 ∧
      cooling.seq.cursor = none ∧ (stepping 0).seq.cursor = some ⟨0, 0, 0, 200, .box, 100, 8200, false⟩ ∧
      ¬ (List.replicate 8 (⟨0, 101, .lead, 0⟩ : CutEntry)).length < 8 ∧
      (webPanel .pleating (some 0) none).placed = some ⟨0, 11, 4000, 6500, 0, 0, 0, 0, 0⟩ := by decide
theorem witness_ChamberHoldsItsClass_zones : (Instr.zoneStale 1#8).wf = true ∧ (Instr.zoneStale 6#8).wf = true ∧
    (held HoldCauses.empty .stopped).bankCondition = true ∧ (held ⟨false, true, false⟩ .held).bankCondition = false ∧
    (held ⟨false, false, true⟩ .held).bankCondition = true ∧ live.bankCondition = false := by decide
theorem witness_ChamberHoldsItsClass : (at_ live).onLine ∧ live.cham.bankTimer = none ∧
    { live.cham with bankTimer := some 0#32 }.bankTimer = some 0#32 ∧ 6 ≤ live.cham.zones.length := ⟨⟨rfl, rfl⟩, by decide⟩

/-- Zones with the given ones enabled and set, or with a SET pending, and no transaction in progress. -/
def zoned (enabled : List Bool) (commanded : Option Nat) : Controller :=
  { live with cham := { live.cham with zones := enabled.map (fun b => { Zone.blank with enabled := b, commanded := commanded }), lastPolled := 4 } }

theorem witness_BusWorkStartsInOrder : (at_ cutting).onLine ∧ cutting.cham.txn ≠ none ∧
    { live.cut with queue := [⟨0, 101, .lead, 80000⟩] }.queue = ⟨0, 101, .lead, 80000⟩ :: [] ∧ live.cham.txn = none ∧
    live.cut.queue = [] ∧ ∀ i, i < 7 → (live.zone i).enabled = false := ⟨⟨rfl, rfl⟩, by decide⟩
theorem witness_BusWorkStartsInOrder_set :
    let c := zoned [false, false, false, false, false, true] none
    c.cham.txn = none ∧ c.cut.queue = [] ∧ (c.zone 6).enabled = true ∧ (c.zone 6).commanded ≠ some (c.zone 6).wanted ∧
      ∀ j, j < 6 → (c.zone j).enabled = false := by decide
theorem witness_BusWorkStartsInOrder_poll :
    let c := zoned [true, true, true, true, false, false] (some 0)
    c.cham.txn = none ∧ c.cut.queue = [] ∧ (∀ i, i < 7 → (c.zone i).commanded = some (c.zone i).wanted ∨ (c.zone i).enabled = false) ∧
      (c.zone ((c.cham.lastPolled + 3 - 1) % 6 + 1)).enabled = true ∧
      (c.zone ((c.cham.lastPolled + 1 - 1) % 6 + 1)).enabled = false ∧
      (c.zone ((c.cham.lastPolled + 2 - 1) % 6 + 1)).enabled = false := by decide
theorem witness_BusRepliesEndTheTransaction : (at_ cutting).onLine ∧ cutting.cham.txn = some ⟨.cut, 7, 0#32, 0⟩ ∧
    cutting.chZ.enabled = true ∧ cutting.cut.now = some ⟨0, 101, .lead⟩ ∧ live.cham.txn = none ∧
    (onBus .poll 1 0).cut.now = none := ⟨⟨rfl, rfl⟩, by decide⟩
theorem witness_ConfigurationIsSetAndChecked : (at_ cold).awake ∧ cold.line.state = .config ∧
    firstFailed cold.commissionChecks = none ∧ live.line.state ≠ .config ∧
    (firstFailed { cold with params := cold.params.set 2 40000 }.commissionChecks).isSome = true := ⟨rfl, by decide⟩
theorem witness_ConfigurationIsSetAndChecked_commissioned :
    let c : Controller := { live with line := { live.line with state := .config } }
    firstFailed c.commissionChecks = none ∧ c.runningRoll = some ⟨11, 4, 1500000, 1500000, .running, some .a, none, 0⟩ ∧
      c.spliceAt < 1500000 ∧ c.idleLoaded = true ∧ (c.spindle .b).state ≠ .active ∧ 1 ≤ c.zoneCount ∧
      cold.runningRoll = none ∧ cold.headPanel = none := by decide
theorem witness_ConfigurationIsSetAndChecked_low :
    let c : Controller := { live with line := { live.line with state := .config } }
    let low := c.updateRoll 11 (fun r => { r with remaining := 60000 })
    firstFailed low.commissionChecks = none ∧ low.runningRoll = some ⟨11, 4, 1500000, 60000, .running, some .a, none, 0⟩ ∧
      60000 ≤ low.spliceAt ∧ low.idleLoaded = true ∧ (low.setSpindle .b ⟨.empty, none, none⟩).idleLoaded = false := by decide
theorem witness_PulsesAndTicksDriveTheBlocks : (at_ live).onLine ∧ (at_ live).awake ∧ CountInput.unw ≠ .conv ∧
    fillFirst (schedule [.clearance] (pulseWork .unw)) = [.fill] ++ .clearance :: [.limit, .length, .slip] ∧
    live.panelByNumber (101#16).toNat = some queuedPanel := ⟨⟨rfl, rfl⟩, rfl, by decide⟩
theorem witness_PulsesAndTicksDriveTheBlocks_dose :
    let p := { webPanel .setting (some 700) none with dose := some 65534 }
    p.state = .setting ∧ p.dose = some 65534 ∧ p.placed = some ⟨0, 11, 4000, 6500, 0, 0, 0, 0, 0⟩ ∧
      queuedPanel.state ≠ .setting ∧ live.runningRoll = some ⟨11, 4, 1500000, 1500000, .running, some .a, none, 0⟩ ∧
      cold.runningRoll = none := by decide

end Sys2Proof.Tests
end

/-! The pattern requests (R29, R30, R35). What a request leaves once it is carried out is said once per shape of request,
refused, accepted or checked by a condition; a pattern request is then read off its own checks in order. -/

namespace Sys2Proof.Machine

/-! ### Carrying a request out -/

theorem request_awake {s : State} (h : s.awake) (tag : Byte) (r : Request) :
    request s tag r = s.then (s.ctl.carryOut tag r) :=
  act_awake h _

/-- A request that checks `p` first is carried out as the branch that the check selects. -/
theorem Controller.carryOut_ite (c : Controller) (tag : Byte) (p : Controller → Prop) [DecidablePred p] (a b : Request) :
    c.carryOut tag (fun d => if p d then a d else b d) = if p c then c.carryOut tag a else c.carryOut tag b :=
  apply_ite (fun x => Controller.reply x tag) (p c) (a c) (b c)

@[simp] theorem Controller.carryOut_refuse (c : Controller) (tag : Byte) (code : AnswerCode) :
    c.carryOut tag (refuse code) = c.answered code tag [] := rfl

@[simp] theorem Controller.carryOut_badField (c : Controller) (tag : Byte) (i : Nat) :
    c.carryOut tag (badField i) = c.answered .badField tag (field 1 i) := rfl

/-- An event that changes nothing R71 names is its effect alone: the gate is not evaluated. -/
theorem Controller.event_of_gateInputs_eq {c : Controller} {f : Controller → Controller}
    (h : (f c).gateInputs = c.gateInputs) : c.event f = f c :=
  if_pos h

theorem Controller.carryOut_accept_of_gateInputs_eq {c : Controller} {f : Controller → Controller}
    (h : (f c).gateInputs = c.gateInputs) (tag : Byte) (body : Controller → List Byte) :
    c.carryOut tag (accept f body) = (f c).answered .ok tag (body (f c)) :=
  congrArg (fun d : Controller => d.answered .ok tag (body d)) (Controller.event_of_gateInputs_eq h)

/-! ### Pattern requests -/

/-- R71 names nothing of the pattern library. -/
@[simp] theorem Controller.updatePattern_gateInputs (c : Controller) (n : Nat) (f : Pattern → Pattern) :
    (c.updatePattern n f).gateInputs = c.gateInputs := rfl

theorem Controller.carryOut_accept_updatePattern (c : Controller) (tag : Byte) (n : Nat) (f : Pattern → Pattern)
    (body : Controller → List Byte) :
    c.carryOut tag (accept (fun d => d.updatePattern n f) body) =
      (c.updatePattern n f).answered .ok tag (body (c.updatePattern n f)) :=
  Controller.carryOut_accept_of_gateInputs_eq (c.updatePattern_gateInputs n f) tag body

/-- R29's check of the pattern number, before all others. -/
theorem Controller.carryOut_onPattern (c : Controller) (tag : Byte) (n : Nat) (r : Pattern → Request) :
    c.carryOut tag (onPattern n r) =
      if n = 0 ∨ 32 < n then c.answered .noSuchRecord tag [] else c.carryOut tag (r (c.pattern n)) :=
  c.carryOut_ite tag (fun _ => n = 0 ∨ 32 < n) (refuse .noSuchRecord) (fun d => r (d.pattern n) d)

theorem byte_toNat_eq_zero_iff (b : Byte) : b.toNat = 0 ↔ b = 0#8 := BitVec.toNat_inj (y := 0#8)

/-! ### OPEN_PATTERN -/

theorem Controller.carryOut_openPattern (c : Controller) (tag : Byte) (n fabric heat : Nat) :
    c.carryOut tag (openPatternRequest n fabric heat) =
      if n = 0 ∨ 32 < n then c.answered .noSuchRecord tag []
      else if 15 < fabric then c.answered .badField tag [2#8]
      else if heat = 0 ∨ 8 < heat then c.answered .badField tag [3#8]
      else if (c.pattern n).state ≠ .empty then c.answered .wrongState tag []
      else (c.updatePattern n (fun _ => ⟨.draft, 0, some ⟨fabric, heat, []⟩, none⟩)).answered .ok tag [] := by
  rw [openPatternRequest, Controller.carryOut_onPattern]
  refine if_congr Iff.rfl rfl ?_
  rw [Controller.carryOut_ite]
  refine if_congr Iff.rfl (c.carryOut_badField tag 2) ?_
  rw [Controller.carryOut_ite]
  refine if_congr Iff.rfl (c.carryOut_badField tag 3) ?_
  rw [Controller.carryOut_ite]
  exact if_congr Iff.rfl (c.carryOut_refuse tag .wrongState) (c.carryOut_accept_updatePattern tag n _ noBody)

/-- Settles O30: the request's checks in order, with the numbers of the fields read from their bytes. -/
theorem openPatternMakesADraft : Obligations.OpenPatternMakesADraft := by
  intro s tag n fabric heat hawake _ c draft
  have hexec : exec (.openPattern tag n fabric heat) s =
      request s tag (openPatternRequest n.toNat fabric.toNat heat.toNat) := rfl
  rw [hexec, request_awake hawake, Controller.carryOut_openPattern]
  simp only [byte_toNat_eq_zero_iff]
  rfl

/-! ### UNSEAL_PATTERN -/

theorem Controller.carryOut_unsealPattern (c : Controller) (tag : Byte) (n : Nat) :
    c.carryOut tag (unsealRequest n) =
      if n = 0 ∨ 32 < n then c.answered .noSuchRecord tag []
      else if (c.pattern n).state = .draft ∨ (c.pattern n).state = .empty then c.answered .wrongState tag []
      else if (c.pattern n).state = .retiring ∨ (c.pattern n).refs ≠ 0 then c.answered .inUse tag []
      else (c.updatePattern n (fun q => { q with state := .draft, sealing := none })).answered .ok tag [] := by
  rw [unsealRequest, Controller.carryOut_onPattern]
  refine if_congr Iff.rfl rfl ?_
  cases hstate : (c.pattern n).state with
  | empty => simp
  | draft => simp
  | retiring => simp
  | sealed =>
    simp only [reduceCtorEq, or_self, false_or, ↓reduceIte, ite_not]
    rw [Controller.carryOut_ite]
    exact if_congr Iff.rfl (c.carryOut_accept_updatePattern tag n _ noBody) (c.carryOut_refuse tag .inUse)

/-- Settles O34: by the pattern's state, and its reference count while it is SEALED. -/
theorem unsealPatternReturnsToDraft : Obligations.UnsealPatternReturnsToDraft := by
  intro s tag n hawake _ c p
  have hexec : exec (.unsealPattern tag n) s = request s tag (unsealRequest n.toNat) := rfl
  rw [hexec, request_awake hawake, Controller.carryOut_unsealPattern]
  simp only [byte_toNat_eq_zero_iff]
  rfl

end Sys2Proof.Machine

/-! REGISTER_ROLL (R84). A REGISTERED roll in a free slot is nothing R71 names, so the accepted request is its effect alone;
the slot is the first free one (log 9). -/

namespace Sys2Proof.Machine

/-! ### The slot a roll takes -/

/-- A search that passes over free slots and over the roll does not see the roll's placing. -/
theorem findSome?_placeRoll {α : Type} {f : Option Roll → Option α} {r : Roll} (hnone : f none = none)
    (hr : f (some r) = none) (slots : List (Option Roll)) : (placeRoll r slots).findSome? f = slots.findSome? f := by
  induction slots with
  | nil => rfl
  | cons slot rest ih =>
    cases slot with
    | none => simp [placeRoll, hnone, hr]
    | some x => simp [placeRoll, List.findSome?_cons, ih]

theorem exists_placeRoll_eq_set (r : Roll) {slots : List (Option Roll)} (h : none ∈ slots) :
    ∃ n, slots[n]? = some none ∧ placeRoll r slots = slots.set n (some r) := by
  induction slots with
  | nil => cases h
  | cons slot rest ih =>
    cases slot with
    | none => exact ⟨0, rfl, rfl⟩
    | some x =>
      obtain ⟨n, hfree, hplace⟩ := ih (by simpa using h)
      exact ⟨n + 1, hfree, congrArg (some x :: ·) hplace⟩

/-! ### Carrying the request out -/

@[simp] theorem Controller.registerRoll_runningRoll (c : Controller) (id fabric len : Nat) :
    (c.registerRoll id fabric len).runningRoll = c.runningRoll :=
  findSome?_placeRoll rfl rfl c.rolls.slots

/-- R71 names the RUNNING roll, and no roll that is REGISTERED. -/
@[simp] theorem Controller.registerRoll_gateInputs (c : Controller) (id fabric len : Nat) :
    (c.registerRoll id fabric len).gateInputs = c.gateInputs := by
  simp only [Controller.gateInputs, Controller.registerRoll_runningRoll]
  rfl

theorem Controller.carryOut_registerRequest (c : Controller) (tag : Byte) (id fabric len : Nat) :
    c.carryOut tag (registerRequest id fabric len) =
      if id = 0 then c.answered .badField tag [1#8]
      else if fabric = 0 ∨ 15 < fabric then c.answered .badField tag [2#8]
      else if len < 10000 ∨ 200000000 < len then c.answered .badField tag [3#8]
      else if c.rollById id ≠ none then c.answered .duplicate tag []
      else if none ∉ c.rolls.slots then c.answered .tableFull tag []
      else (c.registerRoll id fabric len).answered .ok tag [] := by
  unfold registerRequest
  rw [Controller.carryOut_ite]
  refine if_congr Iff.rfl (c.carryOut_badField tag 1) ?_
  rw [Controller.carryOut_ite]
  refine if_congr Iff.rfl (c.carryOut_badField tag 2) ?_
  rw [Controller.carryOut_ite]
  refine if_congr Iff.rfl (c.carryOut_badField tag 3) ?_
  rw [Controller.carryOut_ite]
  refine if_congr Option.isSome_iff_ne_none (c.carryOut_refuse tag .duplicate) ?_
  rw [Controller.carryOut_ite]
  exact if_congr (by simp [← List.forall_mem_ne']) (c.carryOut_refuse tag .tableFull)
    (Controller.carryOut_accept_of_gateInputs_eq (c.registerRoll_gateInputs id fabric len) tag noBody)

theorem word32_toNat_eq_zero_iff (w : Word32) : w.toNat = 0 ↔ w = 0#32 := BitVec.toNat_inj (y := 0#32)

theorem exec_registerRoll {s : State} (h : s.awake) (tag : Byte) (roll : Word32) (fabric : Byte) (len : Word32) :
    exec (.registerRoll tag roll fabric len) s = s.then (
      if roll = 0#32 then s.ctl.answered .badField tag [1#8]
      else if fabric.toNat = 0 ∨ 15 < fabric.toNat then s.ctl.answered .badField tag [2#8]
      else if len.toNat < 10000 ∨ 200000000 < len.toNat then s.ctl.answered .badField tag [3#8]
      else if s.ctl.rollById roll.toNat ≠ none then s.ctl.answered .duplicate tag []
      else if none ∉ s.ctl.rolls.slots then s.ctl.answered .tableFull tag []
      else (s.ctl.registerRoll roll.toNat fabric.toNat len.toNat).answered .ok tag []) := by
  have hexec : exec (.registerRoll tag roll fabric len) s =
      request s tag (registerRequest roll.toNat fabric.toNat len.toNat) := rfl
  rw [hexec, request_awake h, Controller.carryOut_registerRequest]
  exact congrArg s.then (if_congr (word32_toNat_eq_zero_iff roll) rfl rfl)

/-- Settles O42: each outcome is a branch of the request's checks. Past the three fields the roll table decides, and the
free slot is the first. -/
theorem registerRollFillsAFreeSlot : Obligations.RegisterRollFillsAFreeSlot := by
  intro s tag roll fabric len hawake _ c i r inRange
  have hexec := exec_registerRoll hawake tag roll fabric len
  have inTable (h : inRange) : exec i s = s.then (
      if c.rollById roll.toNat ≠ none then c.answered .duplicate tag []
      else if none ∉ c.rolls.slots then c.answered .tableFull tag []
      else (c.registerRoll roll.toNat fabric.toNat len.toNat).answered .ok tag []) := by
    obtain ⟨hroll, hfabric, hlen⟩ := h
    rw [hexec, if_neg hroll, if_neg (by omega), if_neg (by omega)]
  refine ⟨fun hroll => ?_, fun hroll hfabric => ?_, fun hroll hlow hhigh hlen => ?_, fun h hheld => ?_,
    fun h hnew hfull => ?_, fun h hnew hfree => ?_⟩
  · rw [hexec, if_pos hroll]
  · rw [hexec, if_neg hroll, if_pos hfabric]
  · rw [hexec, if_neg hroll, if_neg (by omega), if_pos hlen]
  · rw [inTable h, if_pos hheld]
  · rw [inTable h, if_neg (not_not_intro hnew), if_pos fun hmem => hfull none hmem rfl]
  · obtain ⟨n, hslot, hplace⟩ := exists_placeRoll_eq_set r hfree
    refine ⟨n, hslot, ?_⟩
    rw [inTable h, if_neg (not_not_intro hnew), if_neg (not_not_intro hfree), ← hplace]
    rfl

end Sys2Proof.Machine

/-! The attention output (R189). Every command leaves the invariant, whatever its outcome's shape: a request, an event of
the commissioned controller, a telegram, or an effect of its own. The invariant holds the output at the level R189 asks
for, and that level is read off the six groups. -/

namespace Sys2Proof.Machine

/-! ### The level R189 asks for -/

theorem NoticeGroup.deliverable_ne_zero_iff (g : NoticeGroup) :
    g.deliverable ≠ 0#8 ↔ g.gateOpen = true ∧ g.flags &&& g.enables ≠ 0#8 := by
  unfold NoticeGroup.deliverable
  split <;> simp [*]

theorem Attention.exists_mem_groups_iff {a : Attention} (six : a.groups.length = 6) (p : NoticeGroup → Prop) :
    (∃ x ∈ a.groups, p x) ↔ ∃ g, 1 ≤ g ∧ g ≤ 6 ∧ p (a.group g) := by
  have group_succ (i : Nat) (hi : i < a.groups.length) : a.group (i + 1) = a.groups[i] := by
    simp [Attention.group, List.getD_eq_getElem?_getD, hi]
  constructor
  · rintro ⟨x, hx, hp⟩
    obtain ⟨i, hi, rfl⟩ := List.getElem_of_mem hx
    exact ⟨i + 1, by omega, by omega, by rwa [group_succ i hi]⟩
  · rintro ⟨g, hlow, hhigh, hp⟩
    obtain ⟨i, rfl⟩ := Nat.exists_eq_add_of_le' hlow
    have hi : i < a.groups.length := by omega
    exact ⟨a.groups[i], List.getElem_mem hi, by rwa [← group_succ i hi]⟩

theorem Attention.wanted_iff {a : Attention} (six : a.groups.length = 6) :
    a.wanted = true ↔ ∃ g, 1 ≤ g ∧ g ≤ 6 ∧ (a.group g).gateOpen = true ∧ (a.group g).flags &&& (a.group g).enables ≠ 0#8 := by
  simp only [Attention.wanted, List.any_eq_true, bne_iff_ne, Attention.exists_mem_groups_iff six,
    NoticeGroup.deliverable_ne_zero_iff]

theorem AttentionSound.output_eq_wanted {a : Attention} (h : AttentionSound a false) : a.output = a.wanted :=
  h.output.trans (Bool.true_and _)

/-! ### What the shapes of a command leave -/

/-- The next state, where there is one, meets the invariant. -/
def LeavesSound (o : Host.Outcome State Fault Refusal) : Prop := ∀ t, o = .next t → Sound t.ctl

theorem leavesSound_next {s : State} (h : Sound s.ctl) : LeavesSound (.next s) := by
  rintro t ⟨⟩
  exact h

section Commands
variable {s : State}

/-- While RESET is held the state stays, so an effect has to keep the invariant only while it is not. -/
theorem act_leavesSound (hs : Sound s.ctl) {f : Controller → Controller}
    (hf : s.ctl.resetHeld = false → Sound (f s.ctl)) : LeavesSound (act s f) := by
  cases hr : s.ctl.resetHeld with
  | true => rw [act_held hr]; exact leavesSound_next hs
  | false => rw [act_awake hr]; exact leavesSound_next (hf hr)

theorem request_leavesSound (hs : Sound s.ctl) (tag : Byte) {r : Request} (hr : Honest r) :
    LeavesSound (request s tag r) :=
  act_leavesSound hs fun ha => carryOut_sound hs ha hr tag

theorem happening_leavesSound (hs : Sound s.ctl) {f : Controller → Controller} (hf : Firm f) :
    LeavesSound (happening s f) := by
  refine act_leavesSound hs fun ha => ?_
  show Sound (if s.ctl.commissioned = true then s.ctl.event f else s.ctl)
  split
  · rename_i hc; exact firmEvent_sound hs ha hc hf
  · exact hs

theorem telegram_leavesSound (hs : Sound s.ctl) (t : RxTelegram) : LeavesSound (telegram s t) :=
  act_leavesSound hs fun ha => deliver_sound hs ha t

theorem onCrossing_leavesSound (hs : Sound s.ctl) (panel : Word16) {f : Controller → Nat → Controller}
    (hf : ∀ id, Firm (fun c => f c id)) : LeavesSound (onCrossing s panel f) := by
  refine happening_leavesSound hs fun c hc => ?_
  show Kept c (match c.panelByNumber panel.toNat with | some p => f c p.id | none => c)
  split
  · rename_i p _; exact hf p.id c hc
  · exact Kept.refl hc

/-! ### Events taken on a condition (log 2) -/

theorem Firm.ite {p : Controller → Prop} [DecidablePred p] {f g : Controller → Controller} (hf : Firm f) (hg : Firm g) :
    Firm (fun c => if p c then f c else g c) := by
  intro c hc
  show Kept c (if p c then f c else g c)
  split
  · exact hf c hc
  · exact hg c hc

theorem execRunout_leavesSound (hs : Sound s.ctl) (atZero : Bool) : LeavesSound (execRunout atZero s) :=
  happening_leavesSound hs (.ite (.ite runoutCount_calm.firm .id) runoutTest_calm.firm)

theorem execStrokeDue_leavesSound (hs : Sound s.ctl) : LeavesSound (execStrokeDue s) := by
  refine happening_leavesSound hs fun c hc => ?_
  split
  · split
    exacts [Kept.refl hc, settleStrokes_firm c hc]
  · exact Kept.refl hc

theorem execStrokeLate_leavesSound (hs : Sound s.ctl) : LeavesSound (execStrokeLate s) := by
  refine happening_leavesSound hs fun c hc => ?_
  split
  · split
    exacts [settleStrokes_firm c hc, Kept.refl hc]
  · exact Kept.refl hc

theorem execStroke_leavesSound (hs : Sound s.ctl) : LeavesSound (execStroke s) := by
  refine happening_leavesSound hs fun c hc => ?_
  split
  · rename_i k hk
    split
    · rename_i hdue
      obtain ⟨_, hissue⟩ := Bool.and_eq_true_iff.mp hdue
      exact (issueStroke_kept hc k hk hissue).andThen settleStrokes_firm
    · exact Kept.refl hc
  · exact Kept.refl hc

theorem execZonePoll_leavesSound (hs : Sound s.ctl) : LeavesSound (execZonePoll s) := by
  refine happening_leavesSound hs fun c hc => ?_
  split
  exacts [(startPoll_calm _).firm c hc, Kept.refl hc]

theorem execZoneSet_leavesSound (hs : Sound s.ctl) : LeavesSound (execZoneSet s) := by
  refine happening_leavesSound hs fun c hc => ?_
  split
  exacts [(startSet_calm _).firm c hc, Kept.refl hc]

theorem execCut_leavesSound (hs : Sound s.ctl) : LeavesSound (execCut s) := by
  refine happening_leavesSound hs fun c hc => ?_
  split
  exacts [startCut_firm _ c hc, Kept.refl hc]

/-! ### Every command -/

theorem exec_leavesSound (hs : Sound s.ctl) : ∀ i, LeavesSound (exec i s)
  | .powerOnReset seamHigh haltHigh => leavesSound_next (fresh_sound seamHigh haltHigh)
  | .resetAsserted =>
    act_leavesSound (f := fun c => { c with resetHeld := true, att := { c.att with output := false } }) hs
      fun _ => resetAsserted_sound hs
  | .selectionBegin => act_leavesSound hs fun _ => hs.setPort _
  | .selectionEnd bytes _ => act_leavesSound hs fun ha => selectionEnd_sound hs ha bytes
  | .schedulePanel tag .. => request_leavesSound hs tag (schedule_honest _)
  | .movePanel tag .. => request_leavesSound hs tag (move_honest _ _ _)
  | .withdrawPanel tag _ => request_leavesSound hs tag (withdraw_honest _)
  | .rejectPanel tag _ => request_leavesSound hs tag (reject_honest _)
  | .retirePanel tag _ => request_leavesSound hs tag (retire_honest _)
  | .readPanel tag _ => request_leavesSound hs tag (readPanel_honest _)
  | .findPanel tag _ _ => request_leavesSound hs tag (find_honest _ _)
  | .listSchedule tag _ => request_leavesSound hs tag (listSchedule_honest _)
  | .listRoster tag _ => request_leavesSound hs tag (listRoster_honest _)
  | .openPattern tag .. => request_leavesSound hs tag (openPattern_honest _ _ _)
  | .appendSteps tag .. => request_leavesSound hs tag (append_honest _ _ _)
  | .clearSteps tag _ => request_leavesSound hs tag (clear_honest _)
  | .sealPattern tag _ => request_leavesSound hs tag (seal_honest _)
  | .unsealPattern tag _ => request_leavesSound hs tag (unseal_honest _)
  | .retirePattern tag _ => request_leavesSound hs tag (retirePattern_honest _)
  | .readPattern tag _ => request_leavesSound hs tag (readPattern_honest _)
  | .readSteps tag _ _ => request_leavesSound hs tag (readSteps_honest _ _)
  | .readCounts tag => request_leavesSound hs tag (answer_honest _)
  | .startLine tag => request_leavesSound hs tag start_honest
  | .stopLine tag => request_leavesSound hs tag stop_honest
  | .setSpeed tag _ => request_leavesSound hs tag (speed_honest _)
  | .registerRoll tag .. => request_leavesSound hs tag (register_honest _ _ _)
  | .mountRoll tag _ _ => request_leavesSound hs tag (mount_honest _ _)
  | .unmountRoll tag _ => request_leavesSound hs tag (unmount_honest _)
  | .threadRoll tag _ => request_leavesSound hs tag (thread_honest _)
  | .clearSpindle tag _ => request_leavesSound hs tag (clearSpindle_honest _)
  | .forceSplice tag => request_leavesSound hs tag force_honest
  | .retireRoll tag _ => request_leavesSound hs tag (retireRoll_honest _)
  | .readRoll tag _ => request_leavesSound hs tag (readRoll_honest _)
  | .readSpindles tag => request_leavesSound hs tag (answer_honest _)
  | .abortPleat tag _ => request_leavesSound hs tag (abort_honest _)
  | .resetHead tag => request_leavesSound hs tag resetHead_honest
  | .setHeatClass tag .. => request_leavesSound hs tag (heat_honest _ _)
  | .setHeatClassReadingForm tag _ => request_leavesSound hs tag (heatRead_honest _)
  | .readNotice tag => request_leavesSound hs tag readNotice_honest
  | .ackGroup tag _ => request_leavesSound hs tag (ackGroup_honest _)
  | .setEnables tag _ mask => request_leavesSound hs tag (setEnables_honest _ mask)
  | .readFlags tag => request_leavesSound hs tag (answer_honest _)
  | .setParam tag _ _ => request_leavesSound hs tag (setParam_honest _ _)
  | .readParam tag _ => request_leavesSound hs tag (readParam_honest _)
  | .commission tag => request_leavesSound hs tag commission_honest
  | .decommission tag => request_leavesSound hs tag decommission_honest
  | .resetPart _ => act_leavesSound hs fun _ => fresh_sound _ _
  | .countPulse input order => act_leavesSound hs fun ha => countPulse_sound hs ha input order
  | .admission => happening_leavesSound hs (.ite gate_firm .id)
  | .maxGapHold => happening_leavesSound hs (.ite (addHold_calm .maxGap).firm .id)
  | .holdResend => happening_leavesSound hs feedResend_calm.firm
  | .feedResendLimit => happening_leavesSound hs feedResendFault_calm.firm
  | .unwindResend => happening_leavesSound hs unwindResend_calm.firm
  | .unwindResendLimit => happening_leavesSound hs unwindResendFault_calm.firm
  | .stall input => happening_leavesSound hs (stallTest_calm input).firm
  | .coordLimit input => happening_leavesSound hs (limitTest_calm input).firm
  | .headArrival panel => onCrossing_leavesSound hs panel headArrival_firm
  | .tailPassage panel => onCrossing_leavesSound hs panel tailPassage_firm
  | .strokeDue => execStrokeDue_leavesSound hs
  | .stroke => execStroke_leavesSound hs
  | .strokeLate => execStrokeLate_leavesSound hs
  | .ackTimeout => happening_leavesSound hs ackTimeoutTest_firm
  | .resyncAttemptTimeout => happening_leavesSound hs attemptTest_firm
  | .strokeDone seq => telegram_leavesSound hs (.strokeDone seq)
  | .strokeFault seq cause => telegram_leavesSound hs (.strokeFault seq cause)
  | .headBusy => telegram_leavesSound hs .headBusy
  | .headReady => telegram_leavesSound hs .headReady
  | .resyncDone next => telegram_leavesSound hs (.resyncDone next)
  | .headQuery => telegram_leavesSound hs .headQuery
  | .driveState motion => telegram_leavesSound hs (.driveState motion)
  | .unitState condition => telegram_leavesSound hs (.unitState condition)
  | .spliceDue => happening_leavesSound hs spliceAtTest_calm.firm
  | .runout atZero => execRunout_leavesSound hs atZero
  | .splicePrepare => happening_leavesSound hs clearanceTest_calm.firm
  | .prepared => telegram_leavesSound hs .prepared
  | .spliceGo => happening_leavesSound hs goTest_calm.firm
  | .spliceDone => telegram_leavesSound hs .spliceDone
  | .spliceFail cause => telegram_leavesSound hs (.spliceFail cause)
  | .spliceCancelled web => telegram_leavesSound hs (.spliceCancelled web)
  | .spliceTimeout => happening_leavesSound hs spliceTimeoutTest_calm.firm
  | .cancelWaitTimeout => happening_leavesSound hs cancelWaitTest_calm.firm
  | .retryWaitEnd => happening_leavesSound hs retryWaitTest_calm.firm
  | .seamEdge => act_leavesSound hs (seamEdge_sound hs)
  | .seamLost => happening_leavesSound hs seamLossTest_calm.firm
  | .plannedSeamPassage => happening_leavesSound hs seamPassageTest_calm.firm
  | .seamEntryRemoval => happening_leavesSound hs seamRemovalTest_calm.firm
  | .chainOpen => act_leavesSound hs (chainOpens_sound hs)
  | .chainClosed => act_leavesSound hs fun _ => chainCloses_sound hs
  | .dwellTick order => act_leavesSound (f := (·.dwellTick order)) hs fun ha => dwellTick_sound hs ha order
  | .banked => happening_leavesSound hs bankDue_calm.firm
  | .zoneStale zone => happening_leavesSound hs (staleTest_calm zone.toNat).firm
  | .replyTimeout => happening_leavesSound hs replyTest_firm
  | .chamberEntry panel => onCrossing_leavesSound hs panel chamberEntry_firm
  | .chamberExit panel => onCrossing_leavesSound hs panel chamberExit_firm
  | .changeoverDrainEnd => happening_leavesSound hs drainTest_calm.firm
  | .changeoverDone => happening_leavesSound hs completionTest_calm.firm
  | .zonePoll => execZonePoll_leavesSound hs
  | .zoneSet => execZoneSet_leavesSound hs
  | .cut => execCut_leavesSound hs
  | .zoneReport temperature valve fault => telegram_leavesSound hs (.zoneReport temperature valve fault)
  | .setAck setpoint => telegram_leavesSound hs (.setAck setpoint)
  | .cutDone panel kind => telegram_leavesSound hs (.cutDone panel kind)
  | .cutFault panel kind code => telegram_leavesSound hs (.cutFault panel kind code)
  | .leadCutterCrossing panel => onCrossing_leavesSound hs panel leadCrossing_firm
  | .tailCutterCrossing panel => onCrossing_leavesSound hs panel tailCrossing_firm
  | .receiveCharacter channel char stopIdle =>
    act_leavesSound (f := (·.receive channel char stopIdle)) hs fun ha => receive_sound hs ha channel char stopIdle
  | .interCharacterTimeout channel => act_leavesSound hs fun ha => characterTimeout_sound hs ha channel
  | .transmitComplete channel => act_leavesSound (f := (·.transmitted channel)) hs fun _ => transmitted_sound hs channel
  | .seamLevelChange => act_leavesSound hs fun _ => seamLevelChange_sound hs
  | .receiverLineIdle channel => act_leavesSound hs fun _ => lineIdle_sound hs channel

end Commands

/-- Settles O7: the command leaves the invariant, whose attention unit has the output at R189's level while RESET is not
held. -/
theorem attentionOutputFollowsTheFlags : Obligations.AttentionOutputFollowsTheFlags := by
  intro i s t hs hexec hawake
  have hatt := (exec_leavesSound hs i t hexec).blocks.attention
  rw [hawake] at hatt
  rw [hatt.output_eq_wanted]
  exact Attention.wanted_iff hatt.six

end Sys2Proof.Machine

/-! READ_PARAM (R195). An answer that changes nothing leaves the controller with its body at the port; the request gives one
for each of the 46 ids, and refuses every other. -/

namespace Sys2Proof.Machine

@[simp] theorem Controller.carryOut_answer (c : Controller) (tag : Byte) (body : Controller → List Byte) :
    c.carryOut tag (answer body) = c.answered .ok tag (body c) := rfl

/-- The ids that name no parameter are 0 and those above 46 (11.1). -/
theorem not_isParam_iff (id : Nat) : (!isParam id) = true ↔ id = 0 ∨ 46 < id := by
  simp only [isParam, paramCount, Bool.not_eq_true', Bool.and_eq_false_iff, decide_eq_false_iff_not]
  omega

theorem Controller.carryOut_readParam (c : Controller) (tag : Byte) (id : Nat) :
    c.carryOut tag (readParamRequest id) =
      if id = 0 ∨ 46 < id then c.answered .badField tag [1#8]
      else c.answered .ok tag (field 1 id ++ field 4 (c.param id) ++ field 4 (Config.paramDefaults.getD (id - 1) 0)) := by
  unfold readParamRequest
  rw [Controller.carryOut_ite]
  exact if_congr (not_isParam_iff id) (c.carryOut_badField tag 1) (c.carryOut_answer tag _)

/-- Settles O24: the request's check of the id, read from its byte; the stored value is the entry of that id. -/
theorem readParamAnswersValueAndDefault : Obligations.ReadParamAnswersValueAndDefault := by
  intro s tag param hawake _
  have hexec : exec (.readParam tag param) s = request s tag (readParamRequest param.toNat) := rfl
  rw [hexec, request_awake hawake, Controller.carryOut_readParam]
  exact congrArg s.then (if_congr (or_congr_left (byte_toNat_eq_zero_iff param)) rfl rfl)

end Sys2Proof.Machine

/-! The step, the resets and the invariant (R200, 11.7). A step is the front command's, and every command but POWER_ON_RESET
is one effect on the controller; the invariant and the steady fields are then read off the shape of each command. -/

namespace Sys2Proof.Machine

/-! ### A step and a command -/

/-- Settles O1: by whether a command waits. -/
theorem stepRunsTheFrontCommand : Obligations.StepRunsTheFrontCommand := by
  refine ⟨fun c s rest h => ?_, fun s h => ?_⟩
  · rw [step, h]
  · rw [step, h]

/-- Settles O2: POWER_ON_RESET leaves the fresh controller, every other command its effect. -/
theorem everyCommandAnswersAndKeepsTheQueue : Obligations.EveryCommandAnswersAndKeepsTheQueue := by
  intro i s
  by_cases h : ∃ a b, i = .powerOnReset a b
  · obtain ⟨a, b, rfl⟩ := h
    exact ⟨Controller.fresh a b, rfl⟩
  · obtain ⟨f, hf⟩ := exec_is_act i (fun a b e => h ⟨a, b, e⟩)
    rw [hf]
    exact act_answers s f

/-- Settles O3: an effect is not taken while RESET is held. -/
theorem commandsIgnoredWhileResetIsHeld : Obligations.CommandsIgnoredWhileResetIsHeld := by
  intro i s hheld hi
  obtain ⟨f, hf⟩ := exec_is_act i hi
  rw [hf, act_held hheld]

/-! ### Reset -/

theorem Controller.fresh_group (a b : Bool) (g : Nat) : (Controller.fresh a b).att.group g = NoticeGroup.clear :=
  List.getElem?_getD_replicate_default_eq ..

/-- Settles O4: the fresh controller, field by field. -/
theorem resetsLeaveTheFreshController : Obligations.ResetsLeaveTheFreshController := by
  refine ⟨fun _ _ _ => rfl, fun tag s h => act_awake h Controller.resetPart,
    fun s h => act_awake h (fun c => { c with resetHeld := true, att := { c.att with output := false } }), rfl,
    fun a b => ?_⟩
  refine ⟨⟨rfl, rfl, rfl, rfl, rfl⟩, fun i => by cases i <;> rfl, ⟨rfl, rfl⟩, ⟨rfl, rfl⟩, ⟨rfl, rfl, rfl, rfl, rfl, rfl, rfl⟩,
    ⟨rfl, rfl, rfl, rfl, rfl⟩, ⟨rfl, rfl, rfl, rfl, rfl, rfl⟩, ⟨rfl, rfl, rfl, rfl, rfl, rfl, rfl, rfl, rfl, rfl⟩,
    ⟨rfl, rfl, rfl, rfl, rfl⟩, ⟨rfl, rfl, rfl, rfl, rfl, rfl⟩, ⟨rfl, rfl, rfl, rfl⟩,
    fun ch => by cases ch <;> exact ⟨rfl, rfl, rfl, rfl⟩, ⟨rfl, rfl, rfl⟩, fun g _ _ => ?_, rfl, rfl, rfl, rfl⟩
  rw [Controller.fresh_group a b g]
  exact ⟨rfl, rfl, rfl, fun _ hn => List.getElem?_replicate_of_lt hn⟩

/-- Settles O5. -/
theorem resetStateIsSound : Obligations.ResetStateIsSound := ⟨fresh_sound false false, fresh_sound⟩

/-! ### The invariant -/

/-- Settles O6: an idle step leaves the state, and every command leaves the invariant. -/
theorem soundnessSurvivesEveryStep : Obligations.SoundnessSurvivesEveryStep := by
  intro s t hs hstep
  unfold step at hstep
  split at hstep
  · cases hstep; exact hs
  · rename_i i rest _
    exact exec_leavesSound (s := ⟨s.ctl, rest⟩) hs i t hstep

/-! ### What no event changes -/

/-- The next state, where there is one, has the steady fields of `s`. -/
def LeavesSteady (s : State) (o : Host.Outcome State Fault Refusal) : Prop :=
  ∀ t, o = .next t → t.ctl.steady = s.ctl.steady

section Events
variable {s : State}

theorem act_leavesSteady {f : Controller → Controller}
    (hf : s.ctl.resetHeld = false → (f s.ctl).steady = s.ctl.steady) : LeavesSteady s (act s f) := by
  intro t h
  cases hr : s.ctl.resetHeld with
  | true => rw [act_held hr] at h; cases h; rfl
  | false => rw [act_awake hr] at h; cases h; exact hf hr

theorem event_steady {c : Controller} {f : Controller → Controller} (hs : Sound c) (ha : c.resetHeld = false)
    (hc : c.commissioned = true) (hf : Firm f) : (c.event f).steady = c.steady :=
  (event_firm hf c ⟨hs, ⟨ha, hc⟩⟩).steady

theorem happening_leavesSteady (hs : Sound s.ctl) {f : Controller → Controller} (hf : Firm f) :
    LeavesSteady s (happening s f) := by
  refine act_leavesSteady fun ha => ?_
  show Controller.steady (if s.ctl.commissioned = true then s.ctl.event f else s.ctl) = s.ctl.steady
  split
  · rename_i hc; exact event_steady hs ha hc hf
  · rfl

theorem telegram_leavesSteady (hs : Sound s.ctl) (t : RxTelegram) : LeavesSteady s (telegram s t) := by
  refine act_leavesSteady fun ha => ?_
  show Controller.steady (if s.ctl.hears t.channel = true then s.ctl.event (·.takeTelegram t) else s.ctl) = s.ctl.steady
  split
  · rename_i hh; exact event_steady hs ha ((hs.blocks.enabled t.channel).symm.trans hh) (takeTelegram_firm t)
  · rfl

theorem onCrossing_leavesSteady (hs : Sound s.ctl) (panel : Word16) {f : Controller → Nat → Controller}
    (hf : ∀ id, Firm (fun c => f c id)) : LeavesSteady s (onCrossing s panel f) := by
  refine happening_leavesSteady hs fun c hc => ?_
  show Kept c (match c.panelByNumber panel.toNat with | some p => f c p.id | none => c)
  split
  · rename_i p _; exact hf p.id c hc
  · exact Kept.refl hc

/-! ### Events whose effect is a choice -/

theorem execRunout_leavesSteady (hs : Sound s.ctl) (atZero : Bool) : LeavesSteady s (execRunout atZero s) :=
  happening_leavesSteady hs (.ite (.ite runoutCount_calm.firm .id) runoutTest_calm.firm)

theorem execStrokeDue_leavesSteady (hs : Sound s.ctl) : LeavesSteady s (execStrokeDue s) := by
  refine happening_leavesSteady hs fun c hc => ?_
  split
  · split
    exacts [Kept.refl hc, settleStrokes_firm c hc]
  · exact Kept.refl hc

theorem execStrokeLate_leavesSteady (hs : Sound s.ctl) : LeavesSteady s (execStrokeLate s) := by
  refine happening_leavesSteady hs fun c hc => ?_
  split
  · split
    exacts [settleStrokes_firm c hc, Kept.refl hc]
  · exact Kept.refl hc

theorem execStroke_leavesSteady (hs : Sound s.ctl) : LeavesSteady s (execStroke s) := by
  refine happening_leavesSteady hs fun c hc => ?_
  split
  · rename_i k hk
    split
    · rename_i hdue
      obtain ⟨_, hissue⟩ := Bool.and_eq_true_iff.mp hdue
      exact (issueStroke_kept hc k hk hissue).andThen settleStrokes_firm
    · exact Kept.refl hc
  · exact Kept.refl hc

theorem execZonePoll_leavesSteady (hs : Sound s.ctl) : LeavesSteady s (execZonePoll s) := by
  refine happening_leavesSteady hs fun c hc => ?_
  split
  exacts [(startPoll_calm _).firm c hc, Kept.refl hc]

theorem execZoneSet_leavesSteady (hs : Sound s.ctl) : LeavesSteady s (execZoneSet s) := by
  refine happening_leavesSteady hs fun c hc => ?_
  split
  exacts [(startSet_calm _).firm c hc, Kept.refl hc]

theorem execCut_leavesSteady (hs : Sound s.ctl) : LeavesSteady s (execCut s) := by
  refine happening_leavesSteady hs fun c hc => ?_
  split
  exacts [startCut_firm _ c hc, Kept.refl hc]

/-! ### Events of the links -/

@[simp] theorem Controller.setLink_steady (c : Controller) (ch : Channel) (l : Link) :
    (c.setLink ch l).steady = c.steady := by cases ch <;> rfl

@[simp] theorem Controller.setRx_steady (c : Controller) (ch : Channel) (rx : Receiver) :
    (c.setRx ch rx).steady = c.steady := c.setLink_steady ch _

@[simp] theorem Controller.raise_steady (c : Controller) (n : Notice) (d : Detail) :
    (c.raise n d).steady = c.steady := rfl

/-- What a character received whole and in time does, once it is heard. -/
theorem character_firm (ch : Channel) (x : LinkChar) (stopIdle : Bool) :
    Firm (fun d =>
      if !stopIdle then d.framingFault ch
      else if x.getLsbD 8 then
        if (x.setWidth 8).toNat ≤ 30 then d.takeAddress ch (x.setWidth 8) else (d.setRx ch .hunting).linkProtocol ch
      else d.takeData ch (x.setWidth 8)) :=
  .ite (framingFault_firm ch) (.ite (.ite (takeAddress_firm ch _) fun d hd =>
    (setRx_firm ch .hunting d hd).andThen (linkProtocol_firm ch)) (takeData_firm ch _))

theorem receive_steady {c : Controller} (hs : Sound c) (ha : c.resetHeld = false) (ch : Channel) (x : LinkChar)
    (stopIdle : Bool) : (c.receive ch x stopIdle).steady = c.steady := by
  unfold Controller.receive
  split
  · rfl
  · rename_i h
    simp only [Bool.or_eq_true, not_or, Bool.not_eq_true, Bool.not_eq_false'] at h
    exact event_steady hs ha ((hs.blocks.enabled ch).symm.trans h.1) (character_firm ch x stopIdle)

theorem characterTimeout_steady (c : Controller) (ch : Channel) : (c.characterTimeout ch).steady = c.steady := by
  unfold Controller.characterTimeout
  split <;> simp

theorem lineIdle_steady (c : Controller) (ch : Channel) : (c.lineIdle ch).steady = c.steady := by
  unfold Controller.lineIdle
  split <;> simp

/-! ### Every event -/

theorem exec_leavesSteady (hs : Sound s.ctl) : ∀ i, isEvent i = true → LeavesSteady s (exec i s)
  | .admission, _ => happening_leavesSteady hs (.ite gate_firm .id)
  | .maxGapHold, _ => happening_leavesSteady hs (.ite (addHold_calm .maxGap).firm .id)
  | .holdResend, _ => happening_leavesSteady hs feedResend_calm.firm
  | .feedResendLimit, _ => happening_leavesSteady hs feedResendFault_calm.firm
  | .unwindResend, _ => happening_leavesSteady hs unwindResend_calm.firm
  | .unwindResendLimit, _ => happening_leavesSteady hs unwindResendFault_calm.firm
  | .stall input, _ => happening_leavesSteady hs (stallTest_calm input).firm
  | .coordLimit input, _ => happening_leavesSteady hs (limitTest_calm input).firm
  | .headArrival panel, _ => onCrossing_leavesSteady hs panel headArrival_firm
  | .tailPassage panel, _ => onCrossing_leavesSteady hs panel tailPassage_firm
  | .strokeDue, _ => execStrokeDue_leavesSteady hs
  | .stroke, _ => execStroke_leavesSteady hs
  | .strokeLate, _ => execStrokeLate_leavesSteady hs
  | .ackTimeout, _ => happening_leavesSteady hs ackTimeoutTest_firm
  | .resyncAttemptTimeout, _ => happening_leavesSteady hs attemptTest_firm
  | .strokeDone seq, _ => telegram_leavesSteady hs (.strokeDone seq)
  | .strokeFault seq cause, _ => telegram_leavesSteady hs (.strokeFault seq cause)
  | .headBusy, _ => telegram_leavesSteady hs .headBusy
  | .headReady, _ => telegram_leavesSteady hs .headReady
  | .resyncDone next, _ => telegram_leavesSteady hs (.resyncDone next)
  | .headQuery, _ => telegram_leavesSteady hs .headQuery
  | .driveState motion, _ => telegram_leavesSteady hs (.driveState motion)
  | .unitState condition, _ => telegram_leavesSteady hs (.unitState condition)
  | .spliceDue, _ => happening_leavesSteady hs spliceAtTest_calm.firm
  | .runout atZero, _ => execRunout_leavesSteady hs atZero
  | .splicePrepare, _ => happening_leavesSteady hs clearanceTest_calm.firm
  | .prepared, _ => telegram_leavesSteady hs .prepared
  | .spliceGo, _ => happening_leavesSteady hs goTest_calm.firm
  | .spliceDone, _ => telegram_leavesSteady hs .spliceDone
  | .spliceFail cause, _ => telegram_leavesSteady hs (.spliceFail cause)
  | .spliceCancelled web, _ => telegram_leavesSteady hs (.spliceCancelled web)
  | .spliceTimeout, _ => happening_leavesSteady hs spliceTimeoutTest_calm.firm
  | .cancelWaitTimeout, _ => happening_leavesSteady hs cancelWaitTest_calm.firm
  | .retryWaitEnd, _ => happening_leavesSteady hs retryWaitTest_calm.firm
  | .seamLost, _ => happening_leavesSteady hs seamLossTest_calm.firm
  | .plannedSeamPassage, _ => happening_leavesSteady hs seamPassageTest_calm.firm
  | .seamEntryRemoval, _ => happening_leavesSteady hs seamRemovalTest_calm.firm
  | .banked, _ => happening_leavesSteady hs bankDue_calm.firm
  | .zoneStale zone, _ => happening_leavesSteady hs (staleTest_calm zone.toNat).firm
  | .replyTimeout, _ => happening_leavesSteady hs replyTest_firm
  | .chamberEntry panel, _ => onCrossing_leavesSteady hs panel chamberEntry_firm
  | .chamberExit panel, _ => onCrossing_leavesSteady hs panel chamberExit_firm
  | .changeoverDrainEnd, _ => happening_leavesSteady hs drainTest_calm.firm
  | .changeoverDone, _ => happening_leavesSteady hs completionTest_calm.firm
  | .zonePoll, _ => execZonePoll_leavesSteady hs
  | .zoneSet, _ => execZoneSet_leavesSteady hs
  | .cut, _ => execCut_leavesSteady hs
  | .zoneReport temperature valve fault, _ => telegram_leavesSteady hs (.zoneReport temperature valve fault)
  | .setAck setpoint, _ => telegram_leavesSteady hs (.setAck setpoint)
  | .cutDone panel kind, _ => telegram_leavesSteady hs (.cutDone panel kind)
  | .cutFault panel kind code, _ => telegram_leavesSteady hs (.cutFault panel kind code)
  | .leadCutterCrossing panel, _ => onCrossing_leavesSteady hs panel leadCrossing_firm
  | .tailCutterCrossing panel, _ => onCrossing_leavesSteady hs panel tailCrossing_firm
  | .receiveCharacter channel char stopIdle, _ =>
    act_leavesSteady (f := (·.receive channel char stopIdle)) fun ha => receive_steady hs ha channel char stopIdle
  | .interCharacterTimeout channel, _ => act_leavesSteady fun _ => characterTimeout_steady s.ctl channel
  | .transmitComplete channel, _ => act_leavesSteady (f := (·.transmitted channel)) fun _ => s.ctl.setLink_steady channel _
  | .receiverLineIdle channel, _ => act_leavesSteady fun _ => lineIdle_steady s.ctl channel

end Events

/-- Settles O8: every event's effect is one that keeps the steady fields. -/
theorem eventsLeaveTheRestAlone : Obligations.EventsLeaveTheRestAlone :=
  fun i _ t hi hs hexec => exec_leavesSteady hs i hi t hexec

end Sys2Proof.Machine

/-! The request port (R181 to R186, R203). Bytes are read from a list by position; a frame's check byte brings its sum to 0;
the end of a selection is the collection, the fate of the bytes shifted in, and the closing. -/

namespace Sys2Proof.Machine

/-! ### Bytes of a frame -/

theorem byteAt_eq_getD (l : List Byte) (i : Nat) : byteAt l i = l.getD i 0#8 := by
  unfold byteAt fieldAt
  by_cases h : i < l.length
  · rw [List.drop_eq_getElem_cons h, List.take_succ_cons, List.getD_eq_getElem l _ h]
    simp [bytesNat]
  · rw [List.drop_eq_nil_of_le (by omega)]
    simp [bytesNat, List.getD_eq_getElem?_getD, h]

theorem byteSum_append_singleton (l : List Byte) (b : Byte) : byteSum (l ++ [b]) = byteSum l + b := by
  simp [byteSum]

/-- The check byte brings the sum to 0 (R203). -/
theorem byteSum_append_check (l : List Byte) : byteSum (l ++ [0#8 - byteSum l]) = 0#8 := by
  rw [byteSum_append_singleton, BitVec.zero_sub, BitVec.add_right_neg]

/-- Settles O10: the front of the frame is four bytes and the fields, and the check byte follows it. -/
theorem answerFramesSumToZero : Obligations.AnswerFramesSumToZero := by
  intro a overrun hlen
  have hframe : answerFrame a overrun = BitVec.ofNat 8 (4 + a.body.length) :: BitVec.ofNat 8 a.code.code :: a.tag ::
      (if overrun then 1#8 else 0#8) :: (a.body ++ [0#8 - byteSum (BitVec.ofNat 8 (4 + a.body.length) ::
        BitVec.ofNat 8 a.code.code :: a.tag :: (boolByte overrun ++ a.body))]) := by
    cases overrun <;> rfl
  have hlength : (answerFrame a overrun).length = a.body.length + 5 := by simp [hframe]
  have hcount : (byteAt (answerFrame a overrun) 0).toNat = 4 + a.body.length := by
    simp only [hframe, byteAt_eq_getD, List.getD_cons_zero, BitVec.toNat_ofNat]
    omega
  refine ⟨hlength, by omega, ?_, ?_, ?_, ?_, byteSum_append_check _⟩
  · rw [hframe, byteAt_eq_getD]; rfl
  · rw [hframe, byteAt_eq_getD]; rfl
  · rw [hframe, byteAt_eq_getD]; rfl
  · rw [hframe]
    exact List.take_left' rfl

/-! ### Selections -/

theorem Port.shiftedOut_length (p : Port) (n : Nat) : (p.shiftedOut n).length = n := by
  simp only [Port.shiftedOut, List.length_append, List.length_take, List.length_replicate]
  omega

theorem Port.shiftedOut_getElem? (p : Port) {n k : Nat} (hk : k < n) :
    (p.shiftedOut n)[k]? = some ((p.shift.getD []).getD k 0x00#8) := by
  have htake : ((p.shift.getD []).take n).length = min n (p.shift.getD []).length := List.length_take
  simp only [Port.shiftedOut, List.getD_eq_getElem?_getD]
  by_cases hframe : k < (p.shift.getD []).length
  · rw [List.getElem?_append_left (by omega), List.getElem?_take_of_lt hk, List.getElem?_eq_getElem hframe]
    rfl
  · rw [List.getElem?_append_right (by omega), List.getElem?_replicate_of_lt (by omega),
      List.getElem?_eq_none (by omega)]
    rfl

/-- Settles O9: the pending answer's frame is fixed, and 0x00 stands behind it. -/
theorem selectionBeginFixesTheAnswer : Obligations.SelectionBeginFixesTheAnswer :=
  fun _ hawake => ⟨act_awake hawake Controller.selectionBegin,
    fun n => ⟨Port.shiftedOut_length _ n, fun _ hk => Port.shiftedOut_getElem? _ hk⟩⟩

theorem classify_cons (first : Byte) (rest : List Byte) :
    classify (first :: rest) =
      if first = 0#8 then .noRequest
      else if first.toNat < 3 ∨ 250 < first.toNat then .badFrame
      else if rest.length < first.toNat then .badFrame
      else if byteSum ((first :: rest).take (first.toNat + 1)) = 0#8 then .request
      else .badFrame :=
  if_congr (byte_toNat_eq_zero_iff first) rfl (if_congr Iff.rfl rfl (if_congr Nat.succ_lt_succ_iff rfl rfl))

/-- Settles O12: the empty selection, and the checks on a first byte in order. -/
theorem selectionBytesAreClassified : Obligations.SelectionBytesAreClassified := ⟨rfl, classify_cons⟩

theorem exec_selectionEnd_of_open {s : State} (hawake : s.awake) (hopen : s.ctl.port.isOpen = true) (bytes : List Byte)
    (spare : Nat) :
    exec (.selectionEnd bytes spare) s = s.then ((s.ctl.collect bytes).takeBytes bytes).closePort :=
  (act_awake hawake (·.selectionEnd bytes)).trans (congrArg s.then (if_pos hopen))

theorem classify_noRequest {bytes : List Byte} (h : bytes = [] ∨ bytes.head? = some 0#8) :
    classify bytes = .noRequest := by
  cases bytes with
  | nil => rfl
  | cons first rest =>
    obtain rfl : first = 0#8 := by simpa using h
    rw [classify_cons, if_pos rfl]

theorem Controller.takeBytes_noRequest (c : Controller) {bytes : List Byte} (h : classify bytes = .noRequest) :
    c.takeBytes bytes = c := by
  unfold Controller.takeBytes
  rw [h]

/-- Settles O11: the bytes are no request, so the collection and the closing are all that happens. -/
theorem selectionEndCollectsTheAnswer : Obligations.SelectionEndCollectsTheAnswer := by
  refine ⟨fun s bytes spare hawake hopen hbytes => ?_, fun s bytes spare hclosed => ?_⟩
  · rw [exec_selectionEnd_of_open hawake hopen, Controller.takeBytes_noRequest _ (classify_noRequest hbytes)]
    refine congrArg s.then ?_
    unfold Controller.collect
    cases s.ctl.port.shift with
    | none => rfl
    | some frame =>
      by_cases hwhole : frame.length ≤ bytes.length
      · simp [Controller.closePort, hwhole]
      · simp [Controller.closePort, hwhole]
  · have hend : s.ctl.selectionEnd bytes = s.ctl := if_neg (by simp [hclosed])
    show act s (·.selectionEnd bytes) = s.then s.ctl
    cases hr : s.ctl.resetHeld with
    | true => exact act_held hr _
    | false => rw [act_awake hr, hend]

/-! ### The fate of a frame -/

theorem Controller.takeBytes_overrun (c : Controller) {bytes : List Byte} (hp : c.port.pending ≠ none)
    (hk : classify bytes ≠ .noRequest) : c.takeBytes bytes = c.portOverrun bytes := by
  have hsome : c.port.pending.isSome = true := Option.isSome_iff_ne_none.mpr hp
  unfold Controller.takeBytes
  cases h : classify bytes with
  | noRequest => exact absurd h hk
  | badFrame => exact if_pos hsome
  | request => exact if_pos hsome

theorem Controller.takeBytes_badFrame (c : Controller) {bytes : List Byte} (hp : c.port.pending = none)
    (hk : classify bytes = .badFrame) : c.takeBytes bytes = c.answered .badFrame (thirdByte bytes) [] := by
  unfold Controller.takeBytes
  rw [hk, hp]
  rfl

/-- The field bytes of a frame: between the tag and the check byte. -/
def frameFields (bytes : List Byte) : List Byte := (bytes.drop 3).take ((byteAt bytes 0).toNat - 3)

theorem Controller.takeBytes_request (c : Controller) {bytes : List Byte} (hp : c.port.pending = none)
    (hk : classify bytes = .request) :
    c.takeBytes bytes = c.carryOutFrame (byteAt bytes 1).toNat (byteAt bytes 2) (frameFields bytes) := by
  unfold Controller.takeBytes
  rw [hk, hp]
  rfl

theorem frameFields_length {bytes : List Byte} (hk : classify bytes = .request) :
    (frameFields bytes).length = (byteAt bytes 0).toNat - 3 := by
  cases bytes with
  | nil => cases hk
  | cons first rest =>
    have hcount : byteAt (first :: rest) 0 = first := byteAt_eq_getD ..
    rw [classify_cons] at hk
    split at hk
    · cases hk
    · split at hk
      · cases hk
      · split at hk
        · cases hk
        · simp only [frameFields, hcount, List.length_take, List.length_drop, List.length_cons]
          omega

theorem byteAt_frameFields {bytes : List Byte} {i : Nat} (hi : i < (byteAt bytes 0).toNat - 3) :
    byteAt (frameFields bytes) i = byteAt bytes (3 + i) := by
  simp only [byteAt_eq_getD, frameFields, List.getD_eq_getElem?_getD] at hi ⊢
  rw [List.getElem?_take_of_lt hi, List.getElem?_drop]

/-! ### Frames that are refused -/

theorem Controller.carryOutFrame_unknown (c : Controller) {code : Nat} (h : requestFields code = none) (tag : Byte)
    (f : List Byte) : c.carryOutFrame code tag f = c.answered .unknownRequest tag [] := by
  unfold Controller.carryOutFrame
  rw [h]
  rfl

theorem Controller.carryOutFrame_access (c : Controller) {code : Nat} (hknown : requestFields code ≠ none)
    {x : AnswerCode} (h : c.accessRefusal code = some x) (tag : Byte) (f : List Byte) :
    c.carryOutFrame code tag f = c.answered x tag [] := by
  obtain ⟨widths, hw⟩ := Option.ne_none_iff_exists'.mp hknown
  unfold Controller.carryOutFrame
  rw [hw, h]
  rfl

theorem Controller.carryOutFrame_length (c : Controller) {code i : Nat} {widths : List Nat}
    (hw : requestFields code = some widths) (ha : c.accessRefusal code = none) (hcode : ¬ (code = 0x11 ∨ code = 0x50))
    {f : List Byte} (hi : lengthFault 1 widths f.length = some i) (tag : Byte) :
    c.carryOutFrame code tag f = c.answered .badField tag (field 1 i) := by
  unfold Controller.carryOutFrame
  simp only [hw, ha, if_neg hcode, hi]
  rfl

/-- APPEND_STEPS and SET_HEAT_CLASS check their lengths themselves. -/
theorem Controller.carryOutFrame_ownLength (c : Controller) {code : Nat} (hcode : code = 0x11 ∨ code = 0x50) (tag : Byte)
    (f : List Byte) : c.carryOutFrame code tag f = c.carryOut tag (requestOf code f) := by
  obtain rfl | rfl := hcode
  · rfl
  · rfl

theorem requestFields_of_needsCommission {code : Nat} (h : needsCommission code = true) : requestFields code ≠ none := by
  simp only [needsCommission, List.contains_eq_mem, decide_eq_true_eq, List.mem_cons, List.not_mem_nil, or_false] at h
  obtain rfl | rfl | rfl | rfl | rfl | rfl | rfl | rfl | rfl := h <;> decide

theorem requestFields_of_needsConfig {code : Nat} (h : needsConfig code = true) : requestFields code ≠ none := by
  simp only [needsConfig, List.contains_eq_mem, decide_eq_true_eq, List.mem_cons, List.not_mem_nil, or_false] at h
  obtain rfl | rfl := h <;> decide

theorem Controller.accessRefusal_notCommissioned (c : Controller) {code : Nat} (h : needsCommission code = true)
    (hc : c.commissioned = false) : c.accessRefusal code = some .notCommissioned := by
  simp [Controller.accessRefusal, h, hc]

theorem Controller.accessRefusal_notInConfig (c : Controller) {code : Nat} (h : needsConfig code = true)
    (hc : c.commissioned = true) : c.accessRefusal code = some .notInConfig := by
  simp [Controller.accessRefusal, h, hc]

/-! ### The lengths that APPEND_STEPS and SET_HEAT_CLASS refuse -/

/-- A count that the steps do not match is BAD_FIELD 2, whatever the steps (log 18). -/
theorem appendRequest_of_length_ne {count : Nat} {steps : List RawStep} (n : Nat) (h : steps.length ≠ count) :
    appendRequest n count steps = onPattern n (fun _ => badField 2) := by
  funext c
  refine if_congr Iff.rfl rfl ?_
  simp only [h, ne_eq, not_false_eq_true, if_true, ite_self]

theorem appendFromFields_of_length_ne {f : List Byte} (hf : 0 < f.length)
    (h : f.length = 1 ∨ f.length ≠ 2 + 7 * (byteAt f 1).toNat) :
    appendFromFields f = onPattern (byteAt f 0).toNat (fun _ => badField 2) := by
  unfold appendFromFields
  rw [if_neg (by omega)]
  by_cases hone : f.length = 1
  · exact if_pos hone
  · have hne : f.length ≠ 2 + 7 * (byteAt f 1).toNat := by simpa [hone] using h
    simp only [if_neg hone, if_neg hne]
    by_cases hcount : (byteAt f 1).toNat = 0
    · funext c
      refine if_congr Iff.rfl rfl ?_
      simp only [hcount, true_or, if_true]
    · exact appendRequest_of_length_ne _ (Ne.symm hcount)

theorem appendFromFields_eq_onPattern {f : List Byte} (hf : 0 < f.length) :
    ∃ r, appendFromFields f = onPattern (byteAt f 0).toNat r := by
  unfold appendFromFields
  rw [if_neg (by omega)]
  by_cases hone : f.length = 1
  · exact ⟨_, if_pos hone⟩
  · exact ⟨_, if_neg hone⟩

/-- Settles O13: the fate of the bytes, then the frame's checks in order. -/
theorem framesRefusedAtThePort : Obligations.FramesRefusedAtThePort := by
  intro s bytes spare hawake hopen c code tag count pattern refused
  have hend := exec_selectionEnd_of_open hawake hopen bytes spare
  have taken {d : Controller} (h : c.takeBytes bytes = d) :
      exec (.selectionEnd bytes spare) s = s.then d.closePort := by rw [hend, h]
  have framed {d : Controller} (hp : c.port.pending = none) (hk : classify bytes = .request)
      (h : c.carryOutFrame code tag (frameFields bytes) = d) :
      exec (.selectionEnd bytes spare) s = s.then d.closePort :=
    taken ((c.takeBytes_request hp hk).trans h)
  refine ⟨fun hp hk => taken (c.takeBytes_badFrame hp hk), fun hp hk => taken ?_,
    fun hp hk h => framed hp hk (c.carryOutFrame_unknown h _ _),
    fun hp hk h hc => framed hp hk
      (c.carryOutFrame_access (requestFields_of_needsCommission h) (c.accessRefusal_notCommissioned h hc) _ _),
    fun hp hk h hc => framed hp hk
      (c.carryOutFrame_access (requestFields_of_needsConfig h) (c.accessRefusal_notInConfig h hc) _ _),
    fun widths i hp hk hw ha h11 h50 hi => framed hp hk
      (c.carryOutFrame_length hw ha (by simp [h11, h50]) (by rwa [frameFields_length hk]) _),
    fun hp hk h11 => ?_, fun hp hk h50 => ?_⟩
  · rw [c.takeBytes_overrun hp hk, Controller.portOverrun, thirdByte]
    split <;> rfl
  · have hlen : (frameFields bytes).length = count := frameFields_length hk
    have carried (r : Request) (h : appendFromFields (frameFields bytes) = r) :
        c.carryOutFrame code tag (frameFields bytes) = c.carryOut tag r := by
      rw [c.carryOutFrame_ownLength (.inl h11), h11, ← h]
      rfl
    have slot (hpos : 0 < count) : byteAt (frameFields bytes) 0 = byteAt bytes 3 := byteAt_frameFields hpos
    refine ⟨fun h => framed hp hk (carried (badField 1) (if_pos (by omega))), fun hpos hpat => ?_, fun hpos h1 h32 h => ?_⟩
    · obtain ⟨r, hr⟩ := appendFromFields_eq_onPattern (f := frameFields bytes) (by omega)
      exact framed hp hk ((carried _ hr).trans (by rw [Controller.carryOut_onPattern, slot hpos, if_pos hpat]))
    · refine framed hp hk ((carried _ (appendFromFields_of_length_ne (by omega) ?_)).trans ?_)
      · rw [hlen]
        by_cases hone : count = 1
        · exact .inl hone
        · have hcount : byteAt (frameFields bytes) 1 = byteAt bytes 4 := byteAt_frameFields (show 1 < count by omega)
          rw [hcount]
          exact h
      · rw [Controller.carryOut_onPattern, slot hpos, if_neg (by omega)]
        rfl
  · have hlen : (frameFields bytes).length = count := frameFields_length hk
    have carried (r : Request) (h : heatFromFields (frameFields bytes) = r) :
        c.carryOutFrame code tag (frameFields bytes) = c.carryOut tag r := by
      rw [c.carryOutFrame_ownLength (.inr h50), h50, ← h]
      rfl
    refine ⟨fun h => framed hp hk (carried (badField 1) (if_pos (by omega))),
      fun hlow hhigh => framed hp hk (carried (badField 2) ?_), fun hhigh => framed hp hk (carried (badField 12) ?_)⟩
    · unfold heatFromFields
      rw [if_neg (by omega), if_neg (by omega), if_pos (by omega)]
    · unfold heatFromFields
      rw [if_neg (by omega), if_neg (by omega), if_neg (by omega), if_pos (by omega)]

end Sys2Proof.Machine

/-! A request row and its frame (R183 to R185, 12.2). The field bytes of a row are read back as its operands, so that the
frame is carried out as the row's own request; the access check of a frame is the one the request makes itself. -/

namespace Sys2Proof.Machine

/-! ### Reading fields back -/

theorem bytes16_eq (x : Word16) : bytes16 x = [BitVec.ofNat 8 (x.toNat / 256), BitVec.ofNat 8 x.toNat] := by
  simp [bytes16, bigEndian]

theorem bytes32_eq (x : Word32) : bytes32 x = [BitVec.ofNat 8 (x.toNat / 16777216), BitVec.ofNat 8 (x.toNat / 65536),
    BitVec.ofNat 8 (x.toNat / 256), BitVec.ofNat 8 x.toNat] := by
  simp [bytes32, bigEndian]

theorem word16At_bytes16 {f rest : List Byte} {n : Nat} {x : Word16} (h : f.drop n = bytes16 x ++ rest) :
    word16At f n = x := by
  have hx := x.isLt
  have hbytes : fieldAt f n 2 = bytes16 x := by
    rw [fieldAt, h, bytes16_eq]
    rfl
  refine BitVec.eq_of_toNat_eq ?_
  simp only [word16At, hbytes, bytes16_eq, bytesNat, List.foldl_cons, List.foldl_nil, BitVec.toNat_ofNat]
  omega

theorem word32At_bytes32 {f rest : List Byte} {n : Nat} {x : Word32} (h : f.drop n = bytes32 x ++ rest) :
    word32At f n = x := by
  have hx := x.isLt
  have hbytes : fieldAt f n 4 = bytes32 x := by
    rw [fieldAt, h, bytes32_eq]
    rfl
  refine BitVec.eq_of_toNat_eq ?_
  simp only [word32At, hbytes, bytes32_eq, bytesNat, List.foldl_cons, List.foldl_nil, BitVec.toNat_ofNat]
  omega

@[simp] theorem RawStep.length_bytes (x : RawStep) : (RawStep.bytes x).length = 7 := rfl

theorem rawSteps_flatMap_bytes (steps : List RawStep) : rawSteps steps.length (steps.flatMap RawStep.bytes) = steps := by
  induction steps with
  | nil => rfl
  | cons x rest ih =>
    have hread (f : List Byte) (hf : f = RawStep.bytes x ++ rest.flatMap RawStep.bytes) :
        rawSteps (rest.length + 1) f = x :: rawSteps rest.length (rest.flatMap RawStep.bytes) := by
      have hkind : byteAt f 0 = x.kind := by rw [byteAt_eq_getD, hf]; rfl
      have hpitch : word16At f 1 = x.pitch := word16At_bytes16 (by rw [hf]; rfl)
      have hdepth : word16At f 3 = x.depth := word16At_bytes16 (by rw [hf]; rfl)
      have htimes : byteAt f 5 = x.times := by rw [byteAt_eq_getD, hf]; rfl
      have htaper : byteAt f 6 = x.taper := by rw [byteAt_eq_getD, hf]; rfl
      have hrest : f.drop 7 = rest.flatMap RawStep.bytes := by rw [hf]; rfl
      rw [rawSteps, hkind, hpitch, hdepth, htimes, htaper, hrest]
    rw [List.flatMap_cons, List.length_cons, hread _ rfl, ih]

/-! ### A frame carried out as a request -/

/-- A frame of the right length is carried out as request `r` of its fields, where the access check refuses no more than
`r` does itself. -/
theorem Controller.carryOutFrame_eq (c : Controller) {code : Nat} {f : List Byte} {r : Request} {widths : List Nat}
    (hw : requestFields code = some widths) (hlen : lengthFault 1 widths f.length = none) (hreset : code ≠ 0x74)
    (hr : requestOf code f = r) (tag : Byte)
    (haccess : ∀ x, c.accessRefusal code = some x → c.answered x tag [] = c.carryOut tag r) :
    c.carryOutFrame code tag f = c.carryOut tag r := by
  cases hx : c.accessRefusal code with
  | some x => rw [c.carryOutFrame_access (by simp [hw]) hx, haccess x hx]
  | none =>
    by_cases hown : code = 0x11 ∨ code = 0x50
    · rw [c.carryOutFrame_ownLength hown, hr]
    · unfold Controller.carryOutFrame
      simp only [hw, hx, hlen, if_neg hown, if_neg hreset, hr]

section Shapes
variable (c : Controller) {code : Nat} {f : List Byte} {r : Request} {widths : List Nat}

/-- A request that is accepted in CONFIG and while commissioned. -/
theorem Controller.carryOutFrame_free (hw : requestFields code = some widths)
    (hlen : lengthFault 1 widths f.length = none) (hreset : code ≠ 0x74) (hc : needsCommission code = false)
    (hk : needsConfig code = false) (hr : requestOf code f = r) (tag : Byte) :
    c.carryOutFrame code tag f = c.carryOut tag r :=
  c.carryOutFrame_eq hw hlen hreset hr tag fun x hx => by simp [Controller.accessRefusal, hc, hk] at hx

theorem Controller.carryOut_whenCommissioned (tag : Byte) (r : Request) :
    c.carryOut tag (whenCommissioned r) =
      if c.commissioned = true then c.carryOut tag r else c.answered .notCommissioned tag [] :=
  c.carryOut_ite tag (fun d => d.commissioned = true) r (refuse .notCommissioned)

theorem Controller.carryOut_whenConfig (tag : Byte) (r : Request) :
    c.carryOut tag (whenConfig r) =
      if c.commissioned = true then c.answered .notInConfig tag [] else c.carryOut tag r :=
  c.carryOut_ite tag (fun d => d.commissioned = true) (refuse .notInConfig) r

theorem Controller.carryOutFrame_commissioned (hw : requestFields code = some widths)
    (hlen : lengthFault 1 widths f.length = none) (hreset : code ≠ 0x74) (hc : needsCommission code = true)
    (hk : needsConfig code = false) (hr : requestOf code f = whenCommissioned r) (tag : Byte) :
    c.carryOutFrame code tag f = c.carryOut tag (whenCommissioned r) := by
  refine c.carryOutFrame_eq hw hlen hreset hr tag fun x hx => ?_
  simp only [Controller.accessRefusal, hc, hk, Bool.true_and, Bool.false_and, Bool.not_eq_true'] at hx
  cases hon : c.commissioned with
  | true => simp [hon] at hx
  | false =>
    obtain rfl : AnswerCode.notCommissioned = x := by simpa [hon] using hx
    rw [c.carryOut_whenCommissioned, if_neg (by simp [hon])]

theorem Controller.carryOutFrame_config (hw : requestFields code = some widths)
    (hlen : lengthFault 1 widths f.length = none) (hreset : code ≠ 0x74) (hc : needsCommission code = false)
    (hk : needsConfig code = true) (hr : requestOf code f = whenConfig r) (tag : Byte) :
    c.carryOutFrame code tag f = c.carryOut tag (whenConfig r) := by
  refine c.carryOutFrame_eq hw hlen hreset hr tag fun x hx => ?_
  simp only [Controller.accessRefusal, hc, hk, Bool.true_and, Bool.false_and, Bool.false_eq_true, if_false] at hx
  cases hon : c.commissioned with
  | false => simp [hon] at hx
  | true =>
    obtain rfl : AnswerCode.notInConfig = x := by simpa [hon] using hx
    rw [c.carryOut_whenConfig, if_pos hon]

end Shapes

/-! ### The two requests that check their own lengths -/

theorem appendFromFields_row (n count : Byte) (steps : List RawStep) :
    appendFromFields (n :: count :: steps.flatMap RawStep.bytes) = appendRequest n.toNat count.toNat steps := by
  have hlen : (n :: count :: steps.flatMap RawStep.bytes).length = 2 + 7 * steps.length := by
    simp only [List.length_cons, List.length_flatMap, RawStep.length_bytes, List.map_const', List.sum_replicate, smul_eq_mul]
    omega
  have hslot : byteAt (n :: count :: steps.flatMap RawStep.bytes) 0 = n := byteAt_eq_getD ..
  have hcount : byteAt (n :: count :: steps.flatMap RawStep.bytes) 1 = count := byteAt_eq_getD ..
  by_cases h : steps.length = count.toNat
  · unfold appendFromFields
    rw [if_neg (by omega)]
    simp only [hcount, hslot, ← h]
    rw [if_neg (by omega), if_pos hlen]
    exact congrArg (appendRequest n.toNat steps.length) (rawSteps_flatMap_bytes steps)
  · rw [appendFromFields_of_length_ne (by omega) (.inr (by rw [hcount]; omega)), hslot, appendRequest_of_length_ne _ h]

theorem heatFromFields_define (cls : Byte) (r1 r2 r3 r4 r5 r6 : Word16) (band : Byte) (bank lo hi : Word16) :
    heatFromFields (cls :: (bytes16 r1 ++ bytes16 r2 ++ bytes16 r3 ++ bytes16 r4 ++ bytes16 r5 ++ bytes16 r6 ++
        (band :: (bytes16 bank ++ bytes16 lo ++ bytes16 hi)))) =
      heatRequest cls.toNat ⟨[r1.toNat, r2.toNat, r3.toNat, r4.toNat, r5.toNat, r6.toNat], band.toNat, bank.toNat,
        lo.toNat, hi.toNat⟩ := by
  generalize hf : cls :: (bytes16 r1 ++ bytes16 r2 ++ bytes16 r3 ++ bytes16 r4 ++ bytes16 r5 ++ bytes16 r6 ++
        (band :: (bytes16 bank ++ bytes16 lo ++ bytes16 hi))) = f
  have hlen : f.length = 20 := by rw [← hf]; rfl
  have hcls : byteAt f 0 = cls := by rw [byteAt_eq_getD, ← hf]; rfl
  have hband : byteAt f 13 = band := by rw [byteAt_eq_getD, ← hf]; rfl
  have h1 : word16At f 1 = r1 := word16At_bytes16 (by rw [← hf]; rfl)
  have h2 : word16At f 3 = r2 := word16At_bytes16 (by rw [← hf]; rfl)
  have h3 : word16At f 5 = r3 := word16At_bytes16 (by rw [← hf]; rfl)
  have h4 : word16At f 7 = r4 := word16At_bytes16 (by rw [← hf]; rfl)
  have h5 : word16At f 9 = r5 := word16At_bytes16 (by rw [← hf]; rfl)
  have h6 : word16At f 11 = r6 := word16At_bytes16 (by rw [← hf]; rfl)
  have hbank : word16At f 14 = bank := word16At_bytes16 (by rw [← hf]; rfl)
  have hlo : word16At f 16 = lo := word16At_bytes16 (by rw [← hf]; rfl)
  have hhi : word16At f 18 = hi := word16At_bytes16 (rest := []) (by rw [← hf]; rfl)
  simp only [heatFromFields, hlen, hcls, hband, h1, h2, h3, h4, h5, h6, hbank, hlo, hhi]
  rfl

/-! ### The operands of a row, read from its frame -/

theorem requestOf_schedulePanel (panel : Word16) (flag : Byte) (order : Word32) (pattern : Byte) (len : Word16)
    (placement : Byte) (neighbour : Word16) :
    requestOf 0x01 (bytes16 panel ++ (flag :: (bytes32 order ++ (pattern :: (bytes16 len ++
      (placement :: bytes16 neighbour)))))) =
      scheduleRequest ⟨panel.toNat, flag.toNat, order, pattern.toNat, len.toNat, placement.toNat, neighbour.toNat⟩ := by
  generalize hf : bytes16 panel ++ (flag :: (bytes32 order ++ (pattern :: (bytes16 len ++
      (placement :: bytes16 neighbour))))) = f
  have h0 : word16At f 0 = panel := word16At_bytes16 (by rw [← hf]; rfl)
  have h2 : byteAt f 2 = flag := by rw [byteAt_eq_getD, ← hf]; rfl
  have h3 : word32At f 3 = order := word32At_bytes32 (by rw [← hf]; rfl)
  have h7 : byteAt f 7 = pattern := by rw [byteAt_eq_getD, ← hf]; rfl
  have h8 : word16At f 8 = len := word16At_bytes16 (by rw [← hf]; rfl)
  have h10 : byteAt f 10 = placement := by rw [byteAt_eq_getD, ← hf]; rfl
  have h11 : word16At f 11 = neighbour := word16At_bytes16 (rest := []) (by rw [← hf]; rfl)
  simp only [requestOf, h0, h2, h3, h7, h8, h10, h11]

theorem requestOf_movePanel (panel : Word16) (placement : Byte) (neighbour : Word16) :
    requestOf 0x02 (bytes16 panel ++ (placement :: bytes16 neighbour)) =
      moveRequest panel.toNat placement.toNat neighbour.toNat := by
  generalize hf : bytes16 panel ++ (placement :: bytes16 neighbour) = f
  have h0 : word16At f 0 = panel := word16At_bytes16 (by rw [← hf]; rfl)
  have h2 : byteAt f 2 = placement := by rw [byteAt_eq_getD, ← hf]; rfl
  have h3 : word16At f 3 = neighbour := word16At_bytes16 (rest := []) (by rw [← hf]; rfl)
  simp only [requestOf, h0, h2, h3]

theorem requestOf_findPanel (place zone : Byte) : requestOf 0x07 [place, zone] = findRequest place.toNat zone.toNat := by
  simp only [requestOf, byteAt_eq_getD, List.getD_cons_zero, List.getD_cons_succ]

theorem requestOf_openPattern (n fabric heat : Byte) :
    requestOf 0x10 [n, fabric, heat] = openPatternRequest n.toNat fabric.toNat heat.toNat := by
  simp only [requestOf, byteAt_eq_getD, List.getD_cons_zero, List.getD_cons_succ]

theorem requestOf_readSteps (n start : Byte) : requestOf 0x17 [n, start] = readStepsRequest n.toNat start.toNat := by
  simp only [requestOf, byteAt_eq_getD, List.getD_cons_zero, List.getD_cons_succ]

theorem requestOf_setEnables (group mask : Byte) :
    requestOf 0x62 [group, mask] = setEnablesRequest group.toNat mask := by
  simp only [requestOf, byteAt_eq_getD, List.getD_cons_zero, List.getD_cons_succ]

theorem requestOf_registerRoll (roll : Word32) (fabric : Byte) (len : Word32) :
    requestOf 0x30 (bytes32 roll ++ (fabric :: bytes32 len)) = registerRequest roll.toNat fabric.toNat len.toNat := by
  generalize hf : bytes32 roll ++ (fabric :: bytes32 len) = f
  have h0 : word32At f 0 = roll := word32At_bytes32 (by rw [← hf]; rfl)
  have h4 : byteAt f 4 = fabric := by rw [byteAt_eq_getD, ← hf]; rfl
  have h5 : word32At f 5 = len := word32At_bytes32 (rest := []) (by rw [← hf]; rfl)
  simp only [requestOf, h0, h4, h5]

theorem requestOf_mountRoll (roll : Word32) (spindle : Byte) :
    requestOf 0x31 (bytes32 roll ++ [spindle]) = mountRequest roll.toNat spindle.toNat := by
  generalize hf : bytes32 roll ++ [spindle] = f
  have h0 : word32At f 0 = roll := word32At_bytes32 (by rw [← hf]; rfl)
  have h4 : byteAt f 4 = spindle := by rw [byteAt_eq_getD, ← hf]; rfl
  simp only [requestOf, h0, h4]

theorem requestOf_setParam (param : Byte) (value : Word32) :
    requestOf 0x70 (param :: bytes32 value) = setParamRequest param.toNat value.toNat := by
  generalize hf : param :: bytes32 value = f
  have h0 : byteAt f 0 = param := by rw [byteAt_eq_getD, ← hf]; rfl
  have h1 : word32At f 1 = value := word32At_bytes32 (rest := []) (by rw [← hf]; rfl)
  simp only [requestOf, h0, h1]

/-! ### Every request row -/

/-- Where row `r` is a request, its parts, carried out as a frame, do what the row does. -/
def MeansItsFrame (s : State) (r : Instr) : Prop :=
  ∀ code tag f, requestParts r = some (code, tag, f) → exec r s = s.then (s.ctl.carryOutFrame code.toNat tag f)

section Rows
variable {s : State} {r : Instr} {code tag : Byte} {f : List Byte} {req : Request} {widths : List Nat}

theorem requestRow (h : s.awake) (hparts : requestParts r = some (code, tag, f)) (hexec : exec r s = request s tag req)
    (hframe : s.ctl.carryOutFrame code.toNat tag f = s.ctl.carryOut tag req) : MeansItsFrame s r := by
  intro code' tag' f' hparts'
  cases hparts.symm.trans hparts'
  rw [hexec, request_awake h, hframe]

theorem freeRow (h : s.awake) (hparts : requestParts r = some (code, tag, f)) (hexec : exec r s = request s tag req)
    (hw : requestFields code.toNat = some widths) (hlen : lengthFault 1 widths f.length = none)
    (hcode : code.toNat ≠ 0x74 ∧ needsCommission code.toNat = false ∧ needsConfig code.toNat = false)
    (hr : requestOf code.toNat f = req) : MeansItsFrame s r :=
  requestRow h hparts hexec (s.ctl.carryOutFrame_free hw hlen hcode.1 hcode.2.1 hcode.2.2 hr tag)

theorem commissionedRow (h : s.awake) (hparts : requestParts r = some (code, tag, f))
    (hexec : exec r s = request s tag (whenCommissioned req)) (hw : requestFields code.toNat = some widths)
    (hlen : lengthFault 1 widths f.length = none)
    (hcode : code.toNat ≠ 0x74 ∧ needsCommission code.toNat = true ∧ needsConfig code.toNat = false)
    (hr : requestOf code.toNat f = whenCommissioned req) : MeansItsFrame s r :=
  requestRow h hparts hexec (s.ctl.carryOutFrame_commissioned hw hlen hcode.1 hcode.2.1 hcode.2.2 hr tag)

theorem configRow (h : s.awake) (hparts : requestParts r = some (code, tag, f))
    (hexec : exec r s = request s tag (whenConfig req)) (hw : requestFields code.toNat = some widths)
    (hlen : lengthFault 1 widths f.length = none)
    (hcode : code.toNat ≠ 0x74 ∧ needsCommission code.toNat = false ∧ needsConfig code.toNat = true)
    (hr : requestOf code.toNat f = whenConfig req) : MeansItsFrame s r :=
  requestRow h hparts hexec (s.ctl.carryOutFrame_config hw hlen hcode.1 hcode.2.1 hcode.2.2 hr tag)

theorem ownLengthRow (h : s.awake) (hparts : requestParts r = some (code, tag, f))
    (hexec : exec r s = request s tag req) (hcode : code.toNat = 0x11 ∨ code.toNat = 0x50)
    (hr : requestOf code.toNat f = req) : MeansItsFrame s r :=
  requestRow h hparts hexec (by rw [s.ctl.carryOutFrame_ownLength hcode, hr])

end Rows

theorem meansItsFrame {s : State} (h : s.awake) (r : Instr) : MeansItsFrame s r := by
  cases r
  case schedulePanel => exact freeRow h rfl rfl rfl rfl (by decide) (requestOf_schedulePanel ..)
  case movePanel => exact freeRow h rfl rfl rfl rfl (by decide) (requestOf_movePanel ..)
  case withdrawPanel =>
    exact freeRow h rfl rfl rfl rfl (by decide)
      (congrArg (fun x : Word16 => withdrawRequest x.toNat) (word16At_bytes16 (rest := []) rfl))
  case rejectPanel =>
    exact freeRow h rfl rfl rfl rfl (by decide)
      (congrArg (fun x : Word16 => rejectRequest x.toNat) (word16At_bytes16 (rest := []) rfl))
  case retirePanel =>
    exact freeRow h rfl rfl rfl rfl (by decide)
      (congrArg (fun x : Word16 => retireRequest x.toNat) (word16At_bytes16 (rest := []) rfl))
  case readPanel =>
    exact freeRow h rfl rfl rfl rfl (by decide)
      (congrArg (fun x : Word16 => readPanelRequest x.toNat) (word16At_bytes16 (rest := []) rfl))
  case findPanel => exact freeRow h rfl rfl rfl rfl (by decide) (requestOf_findPanel ..)
  case listSchedule =>
    exact freeRow h rfl rfl rfl rfl (by decide)
      (congrArg (fun x : Byte => listScheduleRequest x.toNat) (byteAt_eq_getD ..))
  case listRoster =>
    exact freeRow h rfl rfl rfl rfl (by decide)
      (congrArg (fun x : Byte => listRosterRequest x.toNat) (byteAt_eq_getD ..))
  case openPattern => exact freeRow h rfl rfl rfl rfl (by decide) (requestOf_openPattern ..)
  case appendSteps => exact ownLengthRow h rfl rfl (.inl rfl) (appendFromFields_row ..)
  case clearSteps =>
    exact freeRow h rfl rfl rfl rfl (by decide)
      (congrArg (fun x : Byte => clearRequest x.toNat) (byteAt_eq_getD ..))
  case sealPattern =>
    exact freeRow h rfl rfl rfl rfl (by decide)
      (congrArg (fun x : Byte => sealRequest x.toNat) (byteAt_eq_getD ..))
  case unsealPattern =>
    exact freeRow h rfl rfl rfl rfl (by decide)
      (congrArg (fun x : Byte => unsealRequest x.toNat) (byteAt_eq_getD ..))
  case retirePattern =>
    exact freeRow h rfl rfl rfl rfl (by decide)
      (congrArg (fun x : Byte => retirePatternRequest x.toNat) (byteAt_eq_getD ..))
  case readPattern =>
    exact freeRow h rfl rfl rfl rfl (by decide)
      (congrArg (fun x : Byte => readPatternRequest x.toNat) (byteAt_eq_getD ..))
  case readSteps => exact freeRow h rfl rfl rfl rfl (by decide) (requestOf_readSteps ..)
  case readCounts => exact freeRow h rfl rfl rfl rfl (by decide) rfl
  case startLine => exact commissionedRow h rfl rfl rfl rfl (by decide) rfl
  case stopLine => exact commissionedRow h rfl rfl rfl rfl (by decide) rfl
  case setSpeed =>
    exact commissionedRow h rfl rfl rfl rfl (by decide)
      (congrArg (fun x : Word16 => speedRequest x.toNat) (word16At_bytes16 (rest := []) rfl))
  case registerRoll => exact freeRow h rfl rfl rfl rfl (by decide) (requestOf_registerRoll ..)
  case mountRoll => exact freeRow h rfl rfl rfl rfl (by decide) (requestOf_mountRoll ..)
  case unmountRoll =>
    exact freeRow h rfl rfl rfl rfl (by decide)
      (congrArg (fun x : Byte => unmountRequest x.toNat) (byteAt_eq_getD ..))
  case threadRoll =>
    exact commissionedRow h rfl rfl rfl rfl (by decide)
      (congrArg (fun x : Byte => threadRequest x.toNat) (byteAt_eq_getD ..))
  case clearSpindle =>
    exact commissionedRow h rfl rfl rfl rfl (by decide)
      (congrArg (fun x : Byte => clearSpindleRequest x.toNat) (byteAt_eq_getD ..))
  case forceSplice => exact commissionedRow h rfl rfl rfl rfl (by decide) rfl
  case retireRoll =>
    exact freeRow h rfl rfl rfl rfl (by decide)
      (congrArg (fun x : Word32 => retireRollRequest x.toNat) (word32At_bytes32 (rest := []) rfl))
  case readRoll =>
    exact freeRow h rfl rfl rfl rfl (by decide)
      (congrArg (fun x : Word32 => readRollRequest x.toNat) (word32At_bytes32 (rest := []) rfl))
  case readSpindles => exact freeRow h rfl rfl rfl rfl (by decide) rfl
  case abortPleat =>
    exact commissionedRow h rfl rfl rfl rfl (by decide)
      (congrArg (fun x : Word16 => abortRequest x.toNat) (word16At_bytes16 (rest := []) rfl))
  case resetHead => exact commissionedRow h rfl rfl rfl rfl (by decide) rfl
  case setHeatClass => exact ownLengthRow h rfl rfl (.inr rfl) (heatFromFields_define ..)
  case setHeatClassReadingForm =>
    exact ownLengthRow h rfl rfl (.inr rfl)
      (congrArg (fun x : Byte => heatReadRequest x.toNat) (byteAt_eq_getD ..))
  case readNotice => exact freeRow h rfl rfl rfl rfl (by decide) rfl
  case ackGroup =>
    exact freeRow h rfl rfl rfl rfl (by decide)
      (congrArg (fun x : Byte => ackGroupRequest x.toNat) (byteAt_eq_getD ..))
  case setEnables => exact freeRow h rfl rfl rfl rfl (by decide) (requestOf_setEnables ..)
  case readFlags => exact freeRow h rfl rfl rfl rfl (by decide) rfl
  case setParam => exact configRow h rfl rfl rfl rfl (by decide) (requestOf_setParam ..)
  case readParam =>
    exact freeRow h rfl rfl rfl rfl (by decide)
      (congrArg (fun x : Byte => readParamRequest x.toNat) (byteAt_eq_getD ..))
  case commission => exact configRow h rfl rfl rfl rfl (by decide) rfl
  case decommission => exact commissionedRow h rfl rfl rfl rfl (by decide) rfl
  case resetPart => rintro _ _ _ ⟨⟩; exact act_awake h Controller.resetPart
  all_goals exact fun _ _ _ hparts => nomatch hparts

/-! ### The frame at the port -/

theorem requestParts_length {r : Instr} (hwf : r.wf = true) {code tag : Byte} {f : List Byte}
    (h : requestParts r = some (code, tag, f)) : f.length ≤ 247 := by
  cases r
  case appendSteps n count steps =>
    cases h
    have hsteps : steps.length ≤ 35 := of_decide_eq_true hwf
    simp only [List.length_cons, List.length_flatMap, RawStep.length_bytes, List.map_const', List.sum_replicate,
      smul_eq_mul]
    omega
  all_goals cases h
  all_goals exact Nat.le_of_ble_eq_true rfl

/-- A frame: its length byte, code, tag and fields, and the check byte (R203). -/
def frameOf (code tag : Byte) (f : List Byte) : List Byte :=
  let front := BitVec.ofNat 8 (3 + f.length) :: code :: tag :: f
  front ++ [0#8 - byteSum front]

section Frame
variable {code tag : Byte} {f : List Byte} (hf : f.length ≤ 247) (extra : List Byte)
include hf

theorem lengthByte_toNat : (BitVec.ofNat 8 (3 + f.length)).toNat = 3 + f.length := by
  rw [BitVec.toNat_ofNat]
  omega

theorem classify_frameOf : classify (frameOf code tag f ++ extra) = .request := by
  have hlen := lengthByte_toNat hf
  have hzero : BitVec.ofNat 8 (3 + f.length) ≠ 0#8 := by
    rw [Ne, ← byte_toNat_eq_zero_iff]
    omega
  have htake : (frameOf code tag f ++ extra).take (3 + f.length + 1) = frameOf code tag f :=
    List.take_left' (by simp [frameOf]; omega)
  have hcons : frameOf code tag f ++ extra = BitVec.ofNat 8 (3 + f.length) :: (code :: tag :: f ++
      [0#8 - byteSum (BitVec.ofNat 8 (3 + f.length) :: code :: tag :: f)] ++ extra) := rfl
  rw [hcons, classify_cons, if_neg hzero, if_neg (by omega), if_neg (by simp; omega), hlen, ← hcons, htake]
  exact if_pos (byteSum_append_check _)

theorem frameFields_frameOf : frameFields (frameOf code tag f ++ extra) = f := by
  have hcount : byteAt (frameOf code tag f ++ extra) 0 = BitVec.ofNat 8 (3 + f.length) := byteAt_eq_getD ..
  unfold frameFields
  rw [hcount, lengthByte_toNat hf, Nat.add_sub_cancel_left, frameOf]
  simp

end Frame

@[simp] theorem Controller.collect_resetHeld (c : Controller) (bytes : List Byte) :
    (c.collect bytes).resetHeld = c.resetHeld := by
  unfold Controller.collect
  split
  · split <;> rfl
  · rfl

/-- Settles O14: the frame passes the classification, and its parts mean the row. -/
theorem requestFrameMeansItsRow : Obligations.RequestFrameMeansItsRow := by
  intro r frame extra spare s hwf hframe hawake hopen c hp
  obtain ⟨⟨code, tag, f⟩, hparts, rfl⟩ := Option.map_eq_some_iff.mp hframe
  have hf := requestParts_length hwf hparts
  have hcode : byteAt (frameOf code tag f ++ extra) 1 = code := byteAt_eq_getD ..
  have htag : byteAt (frameOf code tag f ++ extra) 2 = tag := byteAt_eq_getD ..
  have hawake' : (s.withCtl c).awake := (s.ctl.collect_resetHeld _).trans hawake
  refine ⟨s.withCtl (c.carryOutFrame code.toNat tag f), meansItsFrame hawake' r code tag f hparts, ?_⟩
  have htake : c.takeBytes (frameOf code tag f ++ extra) = c.carryOutFrame code.toNat tag f := by
    rw [c.takeBytes_request hp (classify_frameOf hf extra), hcode, htag, frameFields_frameOf hf extra]
  exact (exec_selectionEnd_of_open hawake hopen _ spare).trans
    (congrArg (fun d : Controller => s.then d.closePort) htake)

end Sys2Proof.Machine

/-! The station links (9.2 to 9.4). A telegram's bytes are read back by the five checks; a character heard is one event, which
brings the gate's evaluation only where it reaches a block; an item handed to a link begins, waits, or takes a place. -/

namespace Sys2Proof.Machine

/-! ### The five checks -/

theorem rxCount_of_telegram (t : RxTelegram) : rxCount t.channel t.code = some (2 + t.fieldBytes.length) := by
  cases t with
  | zoneReport _ _ fault => cases fault <;> rfl
  | _ => rfl

theorem rxTelegram_zoneReport (temperature : Word16) (valve : Byte) (fault : Bool) :
    rxTelegram .z 0x48 (RxTelegram.zoneReport temperature valve fault).fieldBytes =
      some (.zoneReport temperature valve fault) := by
  have h0 : word16At (RxTelegram.zoneReport temperature valve fault).fieldBytes 0 = temperature := word16At_bytes16 rfl
  have h2 : byteAt (RxTelegram.zoneReport temperature valve fault).fieldBytes 2 = valve := byteAt_eq_getD ..
  have h3 : byteAt (RxTelegram.zoneReport temperature valve fault).fieldBytes 3 = if fault then 1#8 else 0#8 := by
    rw [byteAt_eq_getD]
    cases fault <;> rfl
  simp only [rxTelegram, h0, h2, h3]
  cases fault <;> rfl

theorem rxTelegram_cutDone (panel : Word16) (kind : CutKind) :
    rxTelegram .z 0x4A (RxTelegram.cutDone panel kind).fieldBytes = some (.cutDone panel kind) := by
  have h0 : word16At (RxTelegram.cutDone panel kind).fieldBytes 0 = panel := word16At_bytes16 rfl
  have h2 : byteAt (RxTelegram.cutDone panel kind).fieldBytes 2 = BitVec.ofNat 8 (cutKindCode kind) := byteAt_eq_getD ..
  simp only [rxTelegram, h0, h2]
  cases kind <;> rfl

theorem rxTelegram_cutFault (panel : Word16) (kind : CutKind) (code : Byte) :
    rxTelegram .z 0x4B (RxTelegram.cutFault panel kind code).fieldBytes = some (.cutFault panel kind code) := by
  have h0 : word16At (RxTelegram.cutFault panel kind code).fieldBytes 0 = panel := word16At_bytes16 rfl
  have h2 : byteAt (RxTelegram.cutFault panel kind code).fieldBytes 2 = BitVec.ofNat 8 (cutKindCode kind) :=
    byteAt_eq_getD ..
  have h3 : byteAt (RxTelegram.cutFault panel kind code).fieldBytes 3 = code := byteAt_eq_getD ..
  simp only [rxTelegram, h0, h2, h3]
  cases kind <;> rfl

/-- The fields of a telegram are read back as its operands (12.1). -/
theorem rxTelegram_of_telegram (t : RxTelegram) : rxTelegram t.channel t.code t.fieldBytes = some t := by
  cases t with
  | driveState m => cases m <;> rfl
  | prepared => rfl
  | spliceDone => rfl
  | spliceFail cause => exact congrArg (some ∘ RxTelegram.spliceFail) (byteAt_eq_getD ..)
  | spliceCancelled web => cases web <;> rfl
  | unitState x => cases x <;> rfl
  | strokeDone seq => exact congrArg (some ∘ RxTelegram.strokeDone) (byteAt_eq_getD ..)
  | strokeFault seq cause =>
    exact congrArg₂ (fun a b => some (RxTelegram.strokeFault a b)) (byteAt_eq_getD ..) (byteAt_eq_getD ..)
  | headBusy => rfl
  | headReady => rfl
  | resyncDone next => exact congrArg (some ∘ RxTelegram.resyncDone) (byteAt_eq_getD ..)
  | headQuery => rfl
  | zoneReport temperature valve fault => exact rxTelegram_zoneReport temperature valve fault
  | setAck setpoint => exact congrArg (some ∘ RxTelegram.setAck) (word16At_bytes16 (rest := []) rfl)
  | cutDone panel kind => exact rxTelegram_cutDone panel kind
  | cutFault panel kind code => exact rxTelegram_cutFault panel kind code

theorem RxTelegram.fieldBytes_length_le (t : RxTelegram) : t.fieldBytes.length ≤ 4 := by
  cases t with
  | zoneReport _ _ fault => cases fault <;> exact Nat.le_of_ble_eq_true rfl
  | _ => exact Nat.le_of_ble_eq_true rfl

theorem RxTelegram.code_lt (t : RxTelegram) : t.code < 256 := by
  cases t <;> exact Nat.le_of_ble_eq_true rfl

/-- Settles O15: the check byte, the address, the count of the code, and the fields, in order. -/
theorem telegramsPassTheFiveChecks : Obligations.TelegramsPassTheFiveChecks := by
  intro c t address haddress hstation
  have hlen := t.fieldBytes_length_le
  have hcode := t.code_lt
  have h0 : byteAt (t.bytes address) 0 = BitVec.ofNat 8 address := byteAt_eq_getD ..
  have h1 : (byteAt (t.bytes address) 1).toNat = 2 + t.fieldBytes.length := by
    have : byteAt (t.bytes address) 1 = BitVec.ofNat 8 (2 + t.fieldBytes.length) := byteAt_eq_getD ..
    rw [this, BitVec.toNat_ofNat]
    omega
  have h2 : (byteAt (t.bytes address) 2).toNat = t.code := by
    have : byteAt (t.bytes address) 2 = BitVec.ofNat 8 t.code := byteAt_eq_getD ..
    rw [this, BitVec.toNat_ofNat, Nat.mod_eq_of_lt hcode]
  have hsum : byteSum (t.bytes address).tail = 0#8 := byteSum_append_check _
  have hfields : fieldAt (t.bytes address) 3 (2 + t.fieldBytes.length - 2) = t.fieldBytes := by
    rw [Nat.add_sub_cancel_left]
    exact List.take_left' rfl
  have haddr : (BitVec.ofNat 8 address).toNat = address := by
    rw [BitVec.toNat_ofNat]
    omega
  unfold Controller.checkTelegram
  simp only [hsum, h0, h1, h2, haddr, hstation, rxCount_of_telegram, hfields, rxTelegram_of_telegram, ne_eq,
    not_true_eq_false, if_false]

/-! ### Characters -/

@[simp] theorem Controller.setRx_gateInputs (c : Controller) (ch : Channel) (rx : Receiver) :
    (c.setRx ch rx).gateInputs = c.gateInputs := by cases ch <;> rfl

@[simp] theorem Controller.raise_gateInputs (c : Controller) (n : Notice) (d : Detail) :
    (c.raise n d).gateInputs = c.gateInputs := rfl

theorem settled_of_gateInputs_eq {c d : Controller} (h : d.gateInputs = c.gateInputs) : settled c d = d := if_pos h

@[simp] theorem settled_self (c : Controller) : settled c c = c := if_pos rfl

section Characters
variable {s : State} {ch : Channel} {x : LinkChar}

/-- What a character does on a channel that hears it (R172 to R174). -/
def Controller.heard (c : Controller) (ch : Channel) (x : LinkChar) (stopIdle : Bool) : Controller :=
  if stopIdle = false then c.framingFault ch
  else if x.getLsbD 8 = true then
    if (x.setWidth 8 : Byte).toNat ≤ 30 then c.takeAddress ch (x.setWidth 8) else (c.setRx ch .hunting).linkProtocol ch
  else c.takeData ch (x.setWidth 8)

theorem exec_receive_ignored (hawake : s.awake) (h : s.ctl.hears ch = false ∨ (s.ctl.link ch).rx.waitIdle = true)
    (stop : Bool) : exec (.receiveCharacter ch x stop) s = s.then s.ctl := by
  refine (act_awake hawake (·.receive ch x stop)).trans (congrArg s.then (if_pos ?_))
  simpa using h

theorem exec_receive_heard (hawake : s.awake) (hears : s.ctl.hears ch = true)
    (hidle : (s.ctl.link ch).rx.waitIdle = false) (stop : Bool) :
    exec (.receiveCharacter ch x stop) s = s.then (settled s.ctl (s.ctl.heard ch x stop)) := by
  refine (act_awake hawake (·.receive ch x stop)).trans (congrArg s.then ?_)
  unfold Controller.receive
  rw [if_neg (by simp [hears, hidle])]
  cases stop <;> rfl

theorem Controller.heard_framing (c : Controller) : c.heard ch x false = c.framingFault ch := rfl

theorem Controller.heard_address (c : Controller) (hbit : x.getLsbD 8 = true)
    (hb : (x.setWidth 8 : Byte).toNat ≤ 30) : c.heard ch x true = c.takeAddress ch (x.setWidth 8) := by
  rw [Controller.heard, if_neg (by decide), if_pos hbit, if_pos hb]

theorem Controller.heard_badAddress (c : Controller) (hbit : x.getLsbD 8 = true)
    (hb : 30 < (x.setWidth 8 : Byte).toNat) : c.heard ch x true = (c.setRx ch .hunting).linkProtocol ch := by
  rw [Controller.heard, if_neg (by decide), if_pos hbit, if_neg (by omega)]

theorem Controller.heard_data (c : Controller) (hbit : x.getLsbD 8 = false) :
    c.heard ch x true = c.takeData ch (x.setWidth 8) := by
  rw [Controller.heard, if_neg (by decide), if_neg (by rw [hbit]; decide)]

theorem Controller.takeAddress_eq (c : Controller) (b : Byte) :
    c.takeAddress ch b =
      if (c.link ch).rx.phase = .hunting then c.setRx ch ⟨.count, [b], true, false⟩
      else (c.setRx ch ⟨.count, [b], true, false⟩).raise .linkTimeout (Detail.channelNamed ch .cutShort) := by
  unfold Controller.takeAddress
  cases (c.link ch).rx.phase <;> rfl

theorem Controller.takeData_hunting (c : Controller) (h : (c.link ch).rx.phase = .hunting) (b : Byte) :
    c.takeData ch b = c := by
  simp only [Controller.takeData, h]

theorem Controller.takeData_count (c : Controller) (h : (c.link ch).rx.phase = .count) (b : Byte) :
    c.takeData ch b =
      if 2 ≤ b.toNat ∧ b.toNat ≤ 30 then c.setRx ch ⟨.body, (c.link ch).rx.held ++ [b], true, false⟩
      else (c.setRx ch .hunting).linkProtocol ch := by
  simp only [Controller.takeData, h]

theorem Controller.takeData_body (c : Controller) (h : (c.link ch).rx.phase = .body) (b : Byte) :
    c.takeData ch b =
      if ((c.link ch).rx.held ++ [b]).length = (byteAt ((c.link ch).rx.held ++ [b]) 1).toNat + 2 then
        c.completeTelegram ch ((c.link ch).rx.held ++ [b])
      else c.setRx ch ⟨.body, (c.link ch).rx.held ++ [b], true, false⟩ := by
  simp only [Controller.takeData, h]

end Characters

/-- Settles O16: a character heard is its effect, which the gate follows only where a block takes part. -/
theorem charactersBuildTelegrams : Obligations.CharactersBuildTelegrams := by
  intro ch x s hawake c rx b held name
  have plain {d : Controller} {stop : Bool} (hears : c.hears ch = true) (hidle : rx.waitIdle = false)
      (h : c.heard ch x stop = d) (hg : d.gateInputs = c.gateInputs) :
      exec (.receiveCharacter ch x stop) s = s.then d := by
    rw [exec_receive_heard hawake hears hidle, show s.ctl.heard ch x stop = d from h, settled_of_gateInputs_eq hg]
  have reaching {d : Controller} {stop : Bool} (hears : c.hears ch = true) (hidle : rx.waitIdle = false)
      (h : c.heard ch x stop = d) : exec (.receiveCharacter ch x stop) s = s.then (settled c d) := by
    rw [exec_receive_heard hawake hears hidle, show s.ctl.heard ch x stop = d from h]
  refine ⟨fun h stop => exec_receive_ignored hawake h stop,
    fun hears hidle => plain hears hidle c.heard_framing (by simp),
    fun hears hidle hbit hb hphase => plain hears hidle
      ((c.heard_address hbit hb).trans ((c.takeAddress_eq _).trans (if_pos hphase))) (by simp),
    fun hears hidle hbit hb hphase => plain hears hidle
      ((c.heard_address hbit hb).trans ((c.takeAddress_eq _).trans (if_neg hphase))) (by simp),
    fun hears hidle hbit hb => reaching hears hidle (c.heard_badAddress hbit hb),
    fun hears hidle hbit hphase => plain hears hidle ((c.heard_data hbit).trans (c.takeData_hunting hphase _)) rfl,
    fun hears hidle hbit hphase hlow hhigh => plain hears hidle
      ((c.heard_data hbit).trans ((c.takeData_count hphase _).trans (if_pos ⟨hlow, hhigh⟩))) (by simp),
    fun hears hidle hbit hphase hb => reaching hears hidle
      ((c.heard_data hbit).trans ((c.takeData_count hphase _).trans (if_neg (by simp only [b] at hb; omega)))),
    fun hears hidle hbit hphase hmore => plain hears hidle
      ((c.heard_data hbit).trans ((c.takeData_body hphase _).trans (if_neg hmore))) (by simp),
    fun hears hidle hbit hphase hwhole => (reaching hears hidle
      ((c.heard_data hbit).trans ((c.takeData_body hphase _).trans (if_pos hwhole)))).trans
        (congrArg (fun d => s.then (settled c d)) ?_)⟩
  unfold Controller.completeTelegram
  cases c.checkTelegram ch held <;> rfl

/-! ### Timers and transmission -/

@[simp] theorem Controller.setLink_self (c : Controller) (ch : Channel) : c.setLink ch (c.link ch) = c := by
  cases ch <;> rfl

@[simp] theorem Controller.setRx_self (c : Controller) (ch : Channel) : c.setRx ch (c.link ch).rx = c :=
  c.setLink_self ch

theorem Controller.lineIdle_eq (c : Controller) (ch : Channel) :
    c.lineIdle ch = c.setRx ch { (c.link ch).rx with waitIdle := false } := by
  unfold Controller.lineIdle
  split
  · rfl
  · rename_i h
    have hrx : ({ (c.link ch).rx with waitIdle := false } : Receiver) = (c.link ch).rx := by
      rw [← Bool.eq_false_of_not_eq_true h]
    rw [hrx, c.setRx_self ch]

/-- Settles O17: each row is one effect on the channel's link. -/
theorem linkTimersAndTransmission : Obligations.LinkTimersAndTransmission := by
  intro ch s hawake c l
  have timeout : exec (.interCharacterTimeout ch) s = s.then (c.characterTimeout ch) :=
    act_awake hawake (·.characterTimeout ch)
  have sent : exec (.transmitComplete ch) s = s.then (c.setLink ch l.complete) := act_awake hawake (·.transmitted ch)
  refine ⟨fun hears htimer => ?_, fun h => ?_, ?_, fun htx => ?_, fun htx => ?_⟩
  · rw [timeout, Controller.characterTimeout, if_pos (Bool.and_eq_true_iff.mpr ⟨hears, htimer⟩)]
  · rw [timeout, Controller.characterTimeout, if_neg (by simpa using fun hears => h.resolve_left (by simp [hears]))]
  · exact (act_awake hawake (·.lineIdle ch)).trans (congrArg s.then (c.lineIdle_eq ch))
  · obtain ⟨x, hx⟩ := Option.ne_none_iff_exists'.mp htx
    rw [sent, Link.complete, hx]
  · rw [sent, Link.complete, htx]
    exact congrArg s.then (c.setLink_self ch)

/-! ### Items -/

theorem eraseP_first {α : Type} {p : α → Bool} {front back : List α} {y : α} (hfront : ∀ z ∈ front, p z = false)
    (hy : p y = true) : (front ++ y :: back).eraseP p = front ++ back := by
  rw [List.eraseP_append_right _ (fun z hz => by simp [hfront z hz]), List.eraseP_cons_of_pos hy]

theorem Link.hand_waiting {l : Link} (hon : l.enabled = true) (htx : l.tx ≠ none) (x : TxItem) :
    l.hand x = ({ l with queue := (enqueue l.queue x).1 }, (enqueue l.queue x).2) := by
  obtain ⟨y, hy⟩ := Option.ne_none_iff_exists'.mp htx
  simp only [Link.hand, hon, hy]
  rfl

/-- Settles O18: by the branches of the hand-over and of the full queue. -/
theorem itemsQueueOnTheLinks : Obligations.ItemsQueueOnTheLinks := by
  intro l x
  have noPlace (hs : x.isStroke = false) (hfull : 4 ≤ waitingPlaces l.queue) :
      ¬ (x.isStroke || decide (waitingPlaces l.queue < 4)) = true := by simp [hs, hfull]
  refine ⟨fun hoff => by simp [Link.hand, hoff], fun hon htx => by simp [Link.hand, hon, htx], fun hon htx hroom => ?_,
    fun front y back hon htx hs hfull hq hfront hy => ?_, fun front y back hon htx hs hfull hnone hq hfront hy => ?_,
    fun c ch hl => ?_, fun hoff => by simp [Link.handBus, hoff], fun hon hbrk => by simp [Link.handBus, hon, hbrk],
    fun hon hbrk => by simp [Link.handBus, hon, hbrk]⟩
  · rw [Link.hand_waiting hon htx, enqueue, if_pos (by simpa using hroom)]
  · have hany : l.queue.any x.supersedes = true := List.any_eq_true.mpr ⟨y, by simp [hq], hy⟩
    rw [Link.hand_waiting hon htx, enqueue, if_neg (noPlace hs hfull), if_pos hany, hq, eraseP_first hfront hy]
  · have hany : ¬ l.queue.any x.supersedes = true := by simpa [List.any_eq_true] using hnone
    have hlose : l.queue.any TxItem.removable = true := List.any_eq_true.mpr ⟨y, by simp [hq], hy⟩
    rw [Link.hand_waiting hon htx, enqueue, if_neg (noPlace hs hfull), if_neg hany, if_pos hlose, hq,
      eraseP_first hfront hy]
  · rw [Controller.hand_eq, hl]

end Sys2Proof.Machine

/-! The attention unit's requests (R188, R190 to R192). A source's bit stands alone in its byte; the first deliverable notice
is found by group and then by source; a request on one group leaves the others. -/

namespace Sys2Proof.Machine

/-! ### Source bits -/

theorem sourceBit_getLsbD {n k : Nat} (hn : 1 ≤ n) (hk : k < 8) :
    (sourceBit n).getLsbD k = decide (k + 1 = n) := by
  simp only [sourceBit, BitVec.getLsbD_shiftLeft, BitVec.getLsbD_one, hk]
  by_cases h : k + 1 = n
  · simp [h, show ¬ k < n - 1 by omega, show k - (n - 1) = 0 by omega]
  · simp [h]
    omega

theorem and_sourceBit_ne_zero_iff (bits : Byte) {n : Nat} (hlow : 1 ≤ n) (hhigh : n ≤ 8) :
    bits &&& sourceBit n ≠ 0#8 ↔ bits.getLsbD (n - 1) = true := by
  have bit (k : Nat) (hk : k < 8) :
      (bits &&& sourceBit n).getLsbD k = (bits.getLsbD k && decide (k + 1 = n)) := by
    rw [BitVec.getLsbD_and, sourceBit_getLsbD hlow hk]
  constructor
  · intro hne
    by_contra hbit
    refine hne (BitVec.eq_of_getLsbD_eq fun k hk => ?_)
    rw [bit k hk, BitVec.getLsbD_zero]
    by_cases h : k + 1 = n
    · obtain rfl : k = n - 1 := by omega
      simp [hbit]
    · simp [h]
  · intro hbit hzero
    have := bit (n - 1) (by omega)
    rw [hzero, hbit] at this
    simp [show n - 1 + 1 = n by omega] at this

/-! ### Raising a notice -/

theorem Attention.group_raise {a : Attention} (six : a.groups.length = 6) (n : Notice) (d : Detail) {g : Nat}
    (hg : 1 ≤ g) : (a.raise n d).group g = if g = n.group then (a.group g).set n.source d else a.group g :=
  a.group_modify six n.group n.group_range (fun x => x.set n.source d) g hg

/-- Settles O19: the notice's group takes the source's bit and detail, and no other group changes. -/
theorem raisingSetsTheFlagAndTheDetail : Obligations.RaisingSetsTheFlagAndTheDetail := by
  intro c n d hsound a old
  obtain ⟨hlow, hhigh⟩ := n.group_range
  have hgroup : a.group n.group = old.set n.source d :=
    (Attention.group_raise hsound.six n d hlow).trans (if_pos rfl)
  refine ⟨⟨rfl, rfl, (List.length_modify ..).trans hsound.six⟩, ?_, fun k hk => ?_, fun g h1 _ hne => ?_⟩
  · rw [hgroup]
    rfl
  · rw [hgroup]
    simp only [NoticeGroup.set, BitVec.getLsbD_or, sourceBit_getLsbD n.source_range.1 hk]
  · exact (Attention.group_raise hsound.six n d h1).trans (if_neg hne)

/-! ### The first deliverable notice -/

theorem lowestSource_eq_some {bits : Byte} {m : Nat} (hm : bits &&& sourceBit m ≠ 0#8) :
    ∀ k n, n ≤ m → m < n + k → (∀ j, n ≤ j → j < m → bits &&& sourceBit j = 0#8) → lowestSource bits k n = some m
  | 0, n, hlow, hhigh, _ => absurd hhigh (by omega)
  | k + 1, n, hlow, hhigh, hbelow => by
    unfold lowestSource
    by_cases hnm : n = m
    · rw [if_pos (by simpa [hnm] using hm), hnm]
    · rw [if_neg (by simp [hbelow n (Nat.le_refl n) (by omega)])]
      exact lowestSource_eq_some hm k (n + 1) (by omega) (by omega) fun j hj => hbelow j (by omega)

theorem lowestSource_eq_none {bits : Byte} :
    ∀ k n, (∀ j, n ≤ j → j < n + k → bits &&& sourceBit j = 0#8) → lowestSource bits k n = none
  | 0, _, _ => rfl
  | k + 1, n, h => by
    unfold lowestSource
    rw [if_neg (by simp [h n (Nat.le_refl n) (by omega)])]
    exact lowestSource_eq_none k (n + 1) fun j hlow hhigh => h j (by omega) (by omega)

/-- Source `n` of a group is deliverable: its gate open, its flag set and enabled (R190). -/
def NoticeGroup.ready (x : NoticeGroup) (n : Nat) : Prop :=
  x.gateOpen = true ∧ x.flags.getLsbD (n - 1) = true ∧ x.enables.getLsbD (n - 1) = true

theorem NoticeGroup.ready_iff (x : NoticeGroup) {n : Nat} (hlow : 1 ≤ n) (hhigh : n ≤ 8) :
    x.ready n ↔ x.deliverable &&& sourceBit n ≠ 0#8 := by
  rw [and_sourceBit_ne_zero_iff _ hlow hhigh, NoticeGroup.ready, NoticeGroup.deliverable]
  cases x.gateOpen <;> simp

theorem NoticeGroup.not_ready_iff (x : NoticeGroup) {n : Nat} (hlow : 1 ≤ n) (hhigh : n ≤ 8) :
    ¬ x.ready n ↔ x.deliverable &&& sourceBit n = 0#8 := by
  rw [x.ready_iff hlow hhigh, not_not]

theorem NoticeGroup.lowestSource_of_ready {x : NoticeGroup} {n : Nat} (hlow : 1 ≤ n) (hhigh : n ≤ 8) (h : x.ready n)
    (hbelow : ∀ m, 1 ≤ m → m < n → ¬ x.ready m) : lowestSource x.deliverable 8 1 = some n :=
  lowestSource_eq_some ((x.ready_iff hlow hhigh).mp h) 8 1 hlow (by omega) fun m h1 hm =>
    (x.not_ready_iff h1 (by omega)).mp (hbelow m h1 hm)

theorem NoticeGroup.lowestSource_of_idle {x : NoticeGroup} (h : ∀ m, 1 ≤ m → m ≤ 8 → ¬ x.ready m) :
    lowestSource x.deliverable 8 1 = none :=
  lowestSource_eq_none 8 1 fun m hlow hhigh => (x.not_ready_iff hlow (by omega)).mp (h m hlow (by omega))

theorem firstDeliverable_eq_some {n : Nat} :
    ∀ (groups : List NoticeGroup) (g0 i : Nat) (hi : i < groups.length),
      lowestSource groups[i].deliverable 8 1 = some n →
      (∀ j (hj : j < i), lowestSource groups[j].deliverable 8 1 = none) →
      firstDeliverable groups g0 = some (g0 + i, n)
  | x :: rest, g0, 0, _, hn, _ => by
    unfold firstDeliverable
    simp only [List.getElem_cons_zero] at hn
    simp only [hn, Nat.add_zero]
  | x :: rest, g0, i + 1, hi, hn, hbefore => by
    have hx : lowestSource x.deliverable 8 1 = none := hbefore 0 (Nat.succ_pos i)
    unfold firstDeliverable
    simp only [hx]
    rw [firstDeliverable_eq_some rest (g0 + 1) i (Nat.lt_of_succ_lt_succ hi) hn
      fun j hj => hbefore (j + 1) (Nat.succ_lt_succ hj), Nat.add_right_comm, Nat.add_assoc]

theorem firstDeliverable_eq_none :
    ∀ (groups : List NoticeGroup) (g0 : Nat), (∀ x ∈ groups, lowestSource x.deliverable 8 1 = none) →
      firstDeliverable groups g0 = none
  | [], _, _ => rfl
  | x :: rest, g0, h => by
    unfold firstDeliverable
    simp only [h x List.mem_cons_self]
    exact firstDeliverable_eq_none rest (g0 + 1) fun y hy => h y (List.mem_cons_of_mem x hy)

theorem Attention.getElem_groups {a : Attention} {i : Nat} (hi : i < a.groups.length) :
    a.groups[i] = a.group (i + 1) := by
  simp [Attention.group, List.getD_eq_getElem?_getD, hi]

theorem Controller.carryOut_readNotice_some (c : Controller) (tag : Byte) {g n : Nat}
    (h : firstDeliverable c.att.groups 1 = some (g, n)) :
    c.carryOut tag readNoticeRequest = ({ c with att := c.att.deliver g n }).answered .ok tag
      (field 1 g ++ field 1 n ++ detailBody ((c.att.group g).details.getD (n - 1) none)) := by
  unfold Controller.carryOut readNoticeRequest
  simp only [h]
  rfl

theorem Controller.carryOut_readNotice_none (c : Controller) (tag : Byte)
    (h : firstDeliverable c.att.groups 1 = none) :
    c.carryOut tag readNoticeRequest =
      c.answered .ok tag ([0#8, 0#8] ++ detailBody none ++ lastBody c.att.last) := by
  unfold Controller.carryOut readNoticeRequest
  simp only [h]
  rfl

/-- Settles O20: the search finds the notice, and its delivery is an update of one group. -/
theorem readNoticeDeliversTheFirst : Obligations.ReadNoticeDeliversTheFirst := by
  intro tag s hawake hsound a ready
  have hexec : exec (.readNotice tag) s = s.then (s.ctl.carryOut tag readNoticeRequest) := request_awake hawake tag _
  have six : a.groups.length = 6 := hsound.six
  refine ⟨fun g n hg1 hg6 hn1 hn8 hready hbelow hbefore => ?_, fun hnone => ?_⟩
  · have hfirst : firstDeliverable a.groups 1 = some (g, n) := by
      have hi : g - 1 < a.groups.length := by omega
      have hg : 1 + (g - 1) = g := by omega
      rw [firstDeliverable_eq_some a.groups 1 (g - 1) hi, hg]
      · rw [Attention.getElem_groups, show g - 1 + 1 = g by omega]
        exact NoticeGroup.lowestSource_of_ready hn1 hn8 hready hbelow
      · intro j hj
        rw [Attention.getElem_groups]
        exact NoticeGroup.lowestSource_of_idle (hbefore (j + 1) · (by omega) (by omega))
    refine ⟨a.deliver g n, hexec.trans (congrArg s.then (s.ctl.carryOut_readNotice_some tag hfirst)), rfl, rfl, ?_,
      fun h h1 _ hne => ?_⟩
    · exact (a.group_modify six g ⟨hg1, hg6⟩ _ g hg1).trans (if_pos rfl)
    · exact (a.group_modify six g ⟨hg1, hg6⟩ _ h h1).trans (if_neg hne)
  · have hidle : firstDeliverable a.groups 1 = none := by
      refine firstDeliverable_eq_none a.groups 1 fun x hx => ?_
      obtain ⟨i, hi, rfl⟩ := List.getElem_of_mem hx
      rw [Attention.getElem_groups]
      exact NoticeGroup.lowestSource_of_idle (hnone (i + 1) · (by omega) (by omega))
    rw [hexec, s.ctl.carryOut_readNotice_none tag hidle]

/-! ### ACK_GROUP and SET_ENABLES -/

theorem Controller.carryOut_onGroup (c : Controller) (tag : Byte) (g : Nat) (r : Request) :
    c.carryOut tag (onGroup g r) = if g = 0 ∨ 6 < g then c.answered .badField tag [1#8] else c.carryOut tag r :=
  c.carryOut_ite tag (fun _ => g = 0 ∨ 6 < g) (badField 1) r

theorem Attention.modify_groups {a : Attention} (six : a.groups.length = 6) {g : Nat} (hlow : 1 ≤ g) (hhigh : g ≤ 6)
    (f : NoticeGroup → NoticeGroup) : a.groups.modify (g - 1) f = a.groups.set (g - 1) (f (a.group g)) := by
  refine List.ext_getElem? fun k => ?_
  rw [List.getElem?_modify, List.getElem?_set]
  by_cases hk : g - 1 = k
  · subst hk
    have hi : g - 1 < a.groups.length := by omega
    simp [Attention.group, List.getD_eq_getElem?_getD, hi]
  · simp [hk]

/-- Settles O21: the group's check, then an update of its entry alone. -/
theorem ackGroupAndSetEnables : Obligations.AckGroupAndSetEnables := by
  intro tag group mask s hawake hsound a old put
  have six : a.groups.length = 6 := hsound.six
  have hack : exec (.ackGroup tag group) s = s.then (s.ctl.carryOut tag (ackGroupRequest group.toNat)) :=
    request_awake hawake tag _
  have hset : exec (.setEnables tag group mask) s = s.then (s.ctl.carryOut tag (setEnablesRequest group.toNat mask)) :=
    request_awake hawake tag _
  refine ⟨fun hbad => ?_, fun hlow hhigh => ?_⟩
  · rw [hack, hset, ackGroupRequest, setEnablesRequest, Controller.carryOut_onGroup, Controller.carryOut_onGroup,
      if_pos hbad, if_pos hbad]
    exact ⟨rfl, rfl⟩
  · have hin : ¬ (group.toNat = 0 ∨ 6 < group.toNat) := by omega
    have hput (f : NoticeGroup → NoticeGroup) :
        Attention.refresh { a with groups := a.groups.modify (group.toNat - 1) f } = put (f old) := by
      rw [Attention.modify_groups six hlow hhigh f]
    have hgroup (f : NoticeGroup → NoticeGroup) :
        Attention.group (Attention.refresh { a with groups := a.groups.modify (group.toNat - 1) f }) group.toNat =
          f old :=
      (a.group_modify six group.toNat ⟨hlow, hhigh⟩ f group.toNat hlow).trans (if_pos rfl)
    constructor
    · have hopen : a.openGate group.toNat = put { old with gateOpen := true } := hput fun x => { x with gateOpen := true }
      have hbody : (a.openGate group.toNat).group group.toNat = { old with gateOpen := true } :=
        hgroup fun x => { x with gateOpen := true }
      rw [hack, ackGroupRequest, Controller.carryOut_onGroup, if_neg hin, ← hopen]
      exact congrArg (fun x : NoticeGroup =>
        s.then (({ s.ctl with att := a.openGate group.toNat }).answered .ok tag (groupBody x))) hbody
    · have henable : a.enable group.toNat mask = put { old with enables := mask } := hput fun x => { x with enables := mask }
      have hbody : (a.enable group.toNat mask).group group.toNat = { old with enables := mask } :=
        hgroup fun x => { x with enables := mask }
      rw [hset, setEnablesRequest, Controller.carryOut_onGroup, if_neg hin, ← henable]
      refine (congrArg (fun x : NoticeGroup =>
        s.then (({ s.ctl with att := a.enable group.toNat mask }).answered .ok tag (groupBody x))) hbody).trans ?_
      cases old.gateOpen <;> simp [groupBody, boolByte]

end Sys2Proof.Machine

/-! The reads (R21 to R25, R40, R41, R56, R90, R135, R193). A read is its checks and an answer that changes nothing; the
records are fields of fixed widths, their presence byte a sum of bits. -/

namespace Sys2Proof.Machine

/-! ### Widths and presence -/

@[simp] theorem bigEndian_length (w n : Nat) : (bigEndian w n).length = w := by
  induction w with
  | zero => rfl
  | succ w ih => simp [bigEndian, ih]

@[simp] theorem field_length (w n : Nat) : (field w n).length = w := by
  unfold field
  split <;> exact bigEndian_length ..

@[simp] theorem recordField_length (w : Nat) (x : Option Nat) : (recordField w x).length = w := field_length ..

@[simp] theorem boolByte_length (b : Bool) : (boolByte b).length = 1 := by cases b <;> rfl

theorem ite_bit (b : Bool) (k : Nat) : (if b = true then k else 0) = k * b.toNat := by cases b <;> simp

theorem presence_two (b0 b1 : Bool) : presence [b0, b1] = (if b0 then 1 else 0) + (if b1 then 2 else 0) := by
  simp only [presence, ite_bit]
  omega

theorem presence_seven (b0 b1 b2 b3 b4 b5 b6 : Bool) :
    presence [b0, b1, b2, b3, b4, b5, b6] = (if b0 then 1 else 0) + (if b1 then 2 else 0) + (if b2 then 4 else 0) +
      (if b3 then 8 else 0) + (if b4 then 16 else 0) + (if b5 then 32 else 0) + (if b6 then 64 else 0) := by
  simp only [presence, ite_bit]
  omega

/-! ### Requests on a panel -/

theorem word16_toNat_eq_zero_iff (w : Word16) : w.toNat = 0 ↔ w = 0#16 := BitVec.toNat_inj (y := 0#16)

theorem byte_toNat_eq_two_iff (b : Byte) : b.toNat = 2 ↔ b = 2#8 := BitVec.toNat_inj (y := 2#8)

section OnPanel
variable (c : Controller) (tag : Byte) (r : Panel → Request)

theorem Controller.carryOut_onPanel_zero : c.carryOut tag (onPanel 0 r) = c.answered .badField tag [1#8] := rfl

theorem Controller.carryOut_onPanel_none {n : Nat} (hn : n ≠ 0) (h : c.panelByNumber n = none) :
    c.carryOut tag (onPanel n r) = c.answered .noSuchRecord tag [] := by
  unfold Controller.carryOut onPanel
  simp only [if_neg hn, h]
  rfl

theorem Controller.carryOut_onPanel_some {n : Nat} {p : Panel} (hn : n ≠ 0) (h : c.panelByNumber n = some p) :
    c.carryOut tag (onPanel n r) = c.carryOut tag (r p) := by
  unfold Controller.carryOut onPanel
  simp only [if_neg hn, h]

/-- R6's checks of the panel number, before all others: a request on panel `n` is `d`, where `d` is what stands for each
outcome of the checks. -/
theorem Controller.carryOut_onPanel {panel : Word16} {d : Option Panel → Controller}
    (hnone : d none = c.answered .noSuchRecord tag [])
    (hsome : ∀ p, c.panelByNumber panel.toNat = some p → d (some p) = c.carryOut tag (r p)) :
    c.carryOut tag (onPanel panel.toNat r) =
      if panel = 0#16 then c.answered .badField tag [1#8] else d (c.panelByNumber panel.toNat) := by
  by_cases hzero : panel = 0#16
  · subst hzero
    exact Controller.carryOut_onPanel_zero ..
  · have hn : panel.toNat ≠ 0 := fun h => hzero ((word16_toNat_eq_zero_iff panel).mp h)
    rw [if_neg hzero]
    cases h : c.panelByNumber panel.toNat with
    | none => rw [c.carryOut_onPanel_none tag r hn h, hnone]
    | some p => rw [c.carryOut_onPanel_some tag r hn h, hsome p h]

end OnPanel

/-! ### The panel table -/

theorem panelRecord_length (p : Panel) : (panelRecord p).length = 50 := by
  unfold panelRecord
  simp only [List.length_append, field_length, recordField_length, List.length_singleton]

theorem CutMarks.code_eq :
    CutMarks.code = fun m => (if m.sent then 1 else 0) + (if m.leadDone then 2 else 0) + (if m.tailDone then 4 else 0) :=
  rfl

theorem panelRecord_eq (p : Panel) :
    panelRecord p = field 2 p.number ++
      field 1 ((if p.orderTag.isSome then 1 else 0) + (if p.placed.isSome then 2 else 0) +
        (if p.bLead.isSome then 4 else 0) + (if p.bTail.isSome then 8 else 0) + (if p.dose.isSome then 16 else 0) +
        (if p.seamOffset.isSome then 32 else 0) + (if p.marks.isSome then 64 else 0)) ++
      field 4 ((p.orderTag.map BitVec.toNat).getD 0) ++ field 1 p.pattern ++ field 2 p.flatLength ++
      field 1 p.state.code ++ field 1 p.verdict.code ++ [p.causes] ++
      field 4 ((p.placed.map Placed.leadA).getD 0) ++ field 4 ((p.placed.map Placed.roll).getD 0) ++
      field 2 ((p.placed.map Placed.doseMin).getD 0) ++ field 2 ((p.placed.map Placed.doseMax).getD 0) ++
      field 4 (p.bLead.getD 0) ++ field 4 (p.bTail.getD 0) ++ field 2 p.total ++
      field 2 ((p.placed.map Placed.issued).getD 0) ++ field 2 ((p.placed.map Placed.done).getD 0) ++
      field 2 ((p.placed.map Placed.faulted).getD 0) ++ field 2 ((p.placed.map Placed.missed).getD 0) ++
      field 2 ((p.placed.map Placed.aborted).getD 0) ++ field 2 (p.dose.getD 0) ++ field 2 (p.seamOffset.getD 0) ++
      field 1 ((p.marks.map (fun m =>
        (if m.sent then 1 else 0) + (if m.leadDone then 2 else 0) + (if m.tailDone then 4 else 0))).getD 0) := by
  unfold panelRecord
  simp only [presence_seven, recordField, CutMarks.code_eq]

theorem Panel.flatHolds_iff (p : Panel) (x : Nat) :
    p.flatHolds x = true ↔ ∃ q, p.placed = some q ∧ q.leadA ≤ x ∧ x < q.leadA + p.flatLength := by
  unfold Panel.flatHolds
  cases p.placed <;> simp

theorem Controller.atHead_iff (c : Controller) (p : Panel) :
    c.atHead p = true ↔ c.headDist ≤ c.feedAt ∧
      ∃ q, p.placed = some q ∧ q.leadA ≤ c.feedAt - c.headDist ∧ c.feedAt - c.headDist < q.leadA + p.flatLength := by
  rw [Controller.atHead, Bool.and_eq_true, decide_eq_true_iff, Panel.flatHolds_iff]

theorem Controller.inZone_iff (c : Controller) (p : Panel) (i : Nat) :
    c.inZone p i = true ↔ ∃ b, p.bLead = some b ∧ b + (if i ≤ 1 then c.entryDist else c.zoneEnd (i - 1)) ≤ c.convAt ∧
      c.convAt < p.bTail.getD c.convAt + c.zoneEnd i := by
  unfold Controller.inZone Controller.trackB
  cases p.bLead with
  | none => simp
  | some b =>
    simp only [Option.map_some, Bool.and_eq_true, decide_eq_true_iff, Option.some.injEq, exists_eq_left']
    rfl

theorem Controller.bHolds_iff (c : Controller) (p : Panel) (x : Nat) :
    c.bHolds p x = true ↔ ∃ b, p.bLead = some b ∧ b ≤ x ∧ x < p.bTail.getD c.convAt := by
  unfold Controller.bHolds Controller.trackB
  cases p.bLead <;> simp

theorem Controller.heldAt_iff (c : Controller) (p : Panel) (d : Nat) :
    (decide (d ≤ c.convAt) && c.bHolds p (c.convAt - d)) = true ↔
      d ≤ c.convAt ∧ ∃ b, p.bLead = some b ∧ b ≤ c.convAt - d ∧ c.convAt - d < p.bTail.getD c.convAt := by
  rw [Bool.and_eq_true, decide_eq_true_iff, Controller.bHolds_iff]

theorem exec_findPanel {s : State} (hawake : s.awake) (tag place zone : Byte) :
    exec (.findPanel tag place zone) s = s.then (
      if 4 < place.toNat then s.ctl.answered .badField tag [1#8]
      else if place = 2#8 ∧ (zone = 0#8 ∨ s.ctl.zoneCount < zone.toNat) then s.ctl.answered .badField tag [2#8]
      else s.ctl.answered .ok tag (findBody place.toNat zone.toNat s.ctl)) := by
  refine (request_awake hawake tag _).trans (congrArg s.then ?_)
  unfold findRequest
  rw [Controller.carryOut_ite]
  refine if_congr Iff.rfl rfl ?_
  rw [Controller.carryOut_ite]
  exact if_congr (by rw [byte_toNat_eq_two_iff, byte_toNat_eq_zero_iff]) rfl rfl

/-- Settles O22: each read is its checks and its record, and the record its fields. -/
theorem panelReadsAnswerTheTable : Obligations.PanelReadsAnswerTheTable := by
  intro s tag hawake c
  refine ⟨fun panel => ?_, panelRecord_length, fun p => ?_, fun p zone => ?_, fun place zone => exec_findPanel hawake ..,
    fun start => ?_⟩
  · refine (request_awake hawake tag _).trans (congrArg s.then ?_)
    refine (Controller.carryOut_onPanel (d := fun x => match x with
      | none => c.answered .noSuchRecord tag []
      | some p => c.answered .ok tag (panelRecord p)) _ tag _ rfl fun p _ => ?_).trans ?_
    · exact (c.carryOut_answer tag (fun _ => panelRecord p)).symm
    · rfl
  · exact panelRecord_eq p
  · exact ⟨p.flatHolds_iff _, c.atHead_iff p, c.inZone_iff p zone, c.heldAt_iff p _, c.heldAt_iff p _⟩
  · constructor
    · refine (request_awake hawake tag _).trans (congrArg s.then ?_)
      exact (c.carryOut_ite tag (fun _ => 63 < start.toNat) (badField 1) (answer (scheduleBody start.toNat)))
    · refine (request_awake hawake tag _).trans (congrArg s.then ?_)
      exact (c.carryOut_ite tag (fun _ => 63 < start.toNat) (badField 1) (answer (rosterBody start.toNat)))

/-! ### The other records -/

theorem Controller.setPending_eq_decide (z : Zone) : z.setPending = decide (z.commanded ≠ some z.wanted) := by
  unfold Zone.setPending
  by_cases h : z.commanded = some z.wanted <;> simp [h]

theorem patternRecord_eq (c : Controller) (n : Nat) :
    patternRecord c n = field 1 n ++ field 1 ((if (c.pattern n).body.isSome then 1 else 0) +
        (if (c.pattern n).sealing.isSome then 2 else 0)) ++ field 1 (c.pattern n).state.code ++
      field 1 (((c.pattern n).body.map PatternBody.fabric).getD 0) ++
      field 1 (((c.pattern n).body.map PatternBody.heat).getD 0) ++ field 1 (c.pattern n).steps.length ++
      field 2 (((c.pattern n).sealing.map Sealing.span).getD 0) ++
      field 2 (((c.pattern n).sealing.map Sealing.strokes).getD 0) ++ field 1 (c.pattern n).refs ++
      field 2 c.poolFree := by
  have hsteps : ((c.pattern n).body.map (fun b => b.steps.length)).getD 0 = (c.pattern n).steps.length := by
    unfold Pattern.steps
    cases (c.pattern n).body <;> rfl
  simp only [patternRecord, presence_two, recordField, hsteps]

theorem zoneRecord_eq (c : Controller) (i : Nat) :
    zoneRecord c i = field 1 i ++ field 1 ((if (c.zone i).commanded.isSome then 1 else 0) +
        (if (c.zone i).last.isSome then 2 else 0)) ++ boolByte (c.zone i).enabled ++ field 1 (c.zone i).kind.code ++
      field 2 (c.zone i).wanted ++ field 2 ((c.zone i).commanded.getD 0) ++
      boolByte (decide ((c.zone i).commanded ≠ some (c.zone i).wanted)) ++
      field 2 (((c.zone i).last.map Prod.fst).getD 0) ++ field 1 (((c.zone i).last.map Prod.snd).getD 0) ++
      field 2 (c.age (c.zone i).origin) ++ field 1 (c.zone i).state.code := by
  simp only [zoneRecord, presence_two, recordField, Controller.setPending_eq_decide]

theorem exec_readRoll {s : State} (hawake : s.awake) (tag : Byte) (id : Word32) :
    exec (.readRoll tag id) s = s.then (
      match s.ctl.rollById id.toNat with
      | none => s.ctl.answered .noSuchRecord tag []
      | some r => s.ctl.answered .ok tag (rollRecord r)) := by
  refine (request_awake hawake tag _).trans (congrArg s.then ?_)
  unfold Controller.carryOut readRollRequest
  cases s.ctl.rollById id.toNat <;> rfl

/-- Settles O23: each read is its checks and its record, and the record its fields. -/
theorem unitReadsAnswerTheRecords : Obligations.UnitReadsAnswerTheRecords := by
  intro s tag hawake c
  refine ⟨fun n => ?_, fun n start => ?_, request_awake hawake tag readCountsRequest, exec_readRoll hawake tag,
    request_awake hawake tag readSpindlesRequest, fun cls => ?_, request_awake hawake tag readFlagsRequest,
    fun n => by simp [patternRecord], fun x => by simp [stepRecord], fun r => by simp [rollRecord],
    fun i => by simp [zoneRecord], fun k => by simp [heatRecord], ?_⟩
  · refine (request_awake hawake tag _).trans (congrArg s.then ?_)
    rw [readPatternRequest, Controller.carryOut_onPattern]
    exact if_congr (by rw [byte_toNat_eq_zero_iff]) rfl rfl
  · refine (request_awake hawake tag _).trans (congrArg s.then ?_)
    rw [readStepsRequest, Controller.carryOut_onPattern]
    refine if_congr (by rw [byte_toNat_eq_zero_iff]) rfl ?_
    rw [Controller.carryOut_ite]
    exact if_congr (by rw [byte_toNat_eq_zero_iff]) rfl rfl
  · refine (request_awake hawake tag _).trans (congrArg s.then ?_)
    unfold heatReadRequest
    rw [Controller.carryOut_ite]
    exact if_congr (by rw [byte_toNat_eq_zero_iff]) rfl rfl
  · exact ⟨patternRecord_eq c, fun _ => rfl, fun _ => rfl, zoneRecord_eq c, fun _ => rfl, rfl, rfl⟩

end Sys2Proof.Machine

/-! The requests on the panel table (R7 to R17) and the head report (R12, R145). -/

namespace Sys2Proof.Machine

/-! ### An accepted request -/

theorem byte_toNat_eq_one_iff (b : Byte) : b.toNat = 1 ↔ b = 1#8 := BitVec.toNat_inj (y := 1#8)

/-- An accepted request is its effect, the gate's evaluation where R71 asks for it, and its answer. -/
theorem Controller.carryOut_accept (c : Controller) (tag : Byte) (f : Controller → Controller)
    (body : Controller → List Byte) :
    c.carryOut tag (accept f body) = (settled c (f c)).answered .ok tag (body (settled c (f c))) := rfl

/-- A request row: while RESET is not held the command is its request, carried out. -/
theorem request_awake_eq {s : State} (hawake : s.awake) {tag : Byte} {r : Request} {d : Controller}
    (h : s.ctl.carryOut tag r = d) : request s tag r = s.then d :=
  (request_awake hawake tag r).trans (congrArg s.then h)

/-! ### SCHEDULE_PANEL -/

theorem Controller.schedulePanel_eq (c : Controller) (f : ScheduleFields) :
    c.schedulePanel f = reported c
      { c with
        tab := { c.tab with
          panels := c.tab.panels ++ [
            { id := c.tab.nextId, number := f.panel, orderTag := if f.tagFlag = 1 then some f.orderTag else none
              pattern := f.pattern, flatLength := f.flatLength, state := .scheduled, verdict := .pending, causes := 0#8
              placed := none, bLead := none, bTail := none
              total := ((c.pattern f.pattern).sealing.map Sealing.strokes).getD 0
              dose := none, seamOffset := none, marks := none, crossed := Crossed.none }]
          queue := insertAt c.tab.queue c.tab.nextId f.placement ((c.queued f.neighbour).getD 0)
          nextId := c.tab.nextId + 1 }
        lib := c.lib.modify (f.pattern - 1) (fun x => { x with refs := x.refs + 1 }) } := rfl

section Schedule
variable (c : Controller) (tag : Byte) (f : ScheduleFields)

/-- R8's checks after the fields, and the effect. -/
theorem Controller.carryOut_schedule_fits (h : f.bad = none) :
    c.carryOut tag (scheduleRequest f) =
      if c.panelByNumber f.panel ≠ none then c.answered .duplicate tag []
      else if 64 ≤ c.tab.panels.length then c.answered .tableFull tag []
      else if (c.pattern f.pattern).state ≠ .sealed then c.answered .wrongState tag []
      else if f.flatLength < 2000 ∨ c.panelMax < f.flatLength ∨
          f.flatLength < ((c.pattern f.pattern).sealing.map Sealing.span).getD 0 then c.answered .length tag []
      else if f.placement = 2 ∧ c.queued f.neighbour = none then c.answered .noSuchRecord tag []
      else (settled c (c.schedulePanel f)).answered .ok tag [] := by
  unfold Controller.carryOut scheduleRequest Controller.scheduleRefusal
  simp only [h, Option.isSome_iff_ne_none]
  split_ifs <;> rfl

/-- The fields' checks come before the others. -/
theorem Controller.carryOut_schedule_elim {d : Controller} (h : f.bad = none → c.carryOut tag (scheduleRequest f) = d) :
    c.carryOut tag (scheduleRequest f) = f.bad.elim d (fun i => c.answered .badField tag (field 1 i)) := by
  cases hbad : f.bad with
  | none => exact h hbad
  | some i =>
    unfold Controller.carryOut scheduleRequest
    rw [hbad]
    rfl

theorem elim_ite {α β : Type} (p : Prop) [Decidable p] (x y : Option α) (b : β) (f : α → β) :
    (if p then x else y).elim b f = if p then x.elim b f else y.elim b f := apply_ite (fun o => o.elim b f) p x y

/-- R6's and R203's checks of the fields, before the others. -/
theorem Controller.carryOut_schedule :
    c.carryOut tag (scheduleRequest f) =
      if f.panel = 0 then c.answered .badField tag [1#8]
      else if 1 < f.tagFlag then c.answered .badField tag [2#8]
      else if f.pattern = 0 ∨ 32 < f.pattern then c.answered .badField tag [4#8]
      else if 2 < f.placement then c.answered .badField tag [6#8]
      else if f.placement = 2 ∧ f.neighbour = 0 then c.answered .badField tag [7#8]
      else if c.panelByNumber f.panel ≠ none then c.answered .duplicate tag []
      else if 64 ≤ c.tab.panels.length then c.answered .tableFull tag []
      else if (c.pattern f.pattern).state ≠ .sealed then c.answered .wrongState tag []
      else if f.flatLength < 2000 ∨ c.panelMax < f.flatLength ∨
          f.flatLength < ((c.pattern f.pattern).sealing.map Sealing.span).getD 0 then c.answered .length tag []
      else if f.placement = 2 ∧ c.queued f.neighbour = none then c.answered .noSuchRecord tag []
      else (settled c (c.schedulePanel f)).answered .ok tag [] := by
  rw [c.carryOut_schedule_elim tag f (c.carryOut_schedule_fits tag f)]
  simp only [ScheduleFields.bad, elim_ite, Option.elim_none, Option.elim_some]
  rfl

end Schedule

/-- Settles O25: the fields' checks, the table's checks, and the record joined to the queue. -/
theorem schedulePanelChecksAndQueues : Obligations.SchedulePanelChecksAndQueues := by
  intro s tag panel flag order pattern len placement neighbour hawake c before sealing p made
  refine request_awake_eq hawake ((Controller.carryOut_schedule ..).trans ?_)
  rw [Controller.schedulePanel_eq]
  simp only [word16_toNat_eq_zero_iff, byte_toNat_eq_zero_iff, byte_toNat_eq_two_iff, byte_toNat_eq_one_iff]
  rfl

/-! ### MOVE_PANEL -/

theorem Controller.movePanel_eq (c : Controller) (id placement before : Nat) :
    c.movePanel id placement before = reported c { c with tab := { c.tab with
      queue := insertAt (c.tab.queue.filter (fun x => x != id)) id placement before } } := rfl

/-- R10's checks in order, and the effect. -/
theorem Controller.carryOut_move (c : Controller) (tag : Byte) (panel placement neighbour : Nat) :
    c.carryOut tag (moveRequest panel placement neighbour) =
      if panel = 0 then c.answered .badField tag [1#8]
      else if 2 < placement then c.answered .badField tag [2#8]
      else if placement = 2 ∧ neighbour = 0 then c.answered .badField tag [3#8]
      else match c.panelByNumber panel with
        | none => c.answered .noSuchRecord tag []
        | some p =>
          if p.state ≠ .scheduled then c.answered .wrongState tag []
          else if placement = 2 ∧ neighbour = panel then c.answered .badField tag [3#8]
          else if placement = 2 ∧ c.queued neighbour = none then c.answered .noSuchRecord tag []
          else (settled c (c.movePanel p.id placement ((c.queued neighbour).getD 0))).answered .ok tag [] := by
  unfold moveRequest
  rw [Controller.carryOut_ite, Controller.carryOut_ite, Controller.carryOut_ite]
  refine if_congr Iff.rfl rfl (if_congr Iff.rfl rfl (if_congr Iff.rfl rfl ?_))
  unfold Controller.carryOut
  cases h : c.panelByNumber panel with
  | none => simp only [h]; rfl
  | some p =>
    simp only [h]
    split_ifs <;> rfl

theorem insertAt_before {front back : List Nat} {n : Nat} (h : n ∉ front) (id : Nat) :
    insertAt (front ++ n :: back) id 2 n = front ++ id :: n :: back := by
  have hfront : ∀ x ∈ front, (x != n) = true := fun x hx => bne_iff_ne.mpr fun hxn => h (hxn ▸ hx)
  unfold insertAt
  rw [if_neg (by decide), if_neg (by decide), List.takeWhile_append_of_pos hfront, List.dropWhile_append_of_pos hfront]
  simp

/-- Settles O26: the checks in order and the entry moved; a BEFORE placement goes before the neighbour's only place. -/
theorem movePanelReordersTheQueue : Obligations.MovePanelReordersTheQueue := by
  refine ⟨fun s tag panel placement neighbour hawake => ?_, fun _ _ _ => rfl, fun _ _ _ => rfl,
    fun _ _ _ id h => insertAt_before h id⟩
  refine request_awake_eq hawake ((Controller.carryOut_move ..).trans ?_)
  simp only [Controller.movePanel_eq, word16_toNat_eq_zero_iff, byte_toNat_eq_two_iff, BitVec.toNat_inj] <;> rfl

/-! ### WITHDRAW_PANEL and RETIRE_PANEL -/

theorem Controller.withdrawPanel_eq (c : Controller) (p : Panel) :
    c.withdrawPanel p = ((reported c { c with tab := { c.tab with
      queue := c.tab.queue.filter (fun x => x != p.id) } }).releasePattern p.pattern).freePanel p.id := rfl

/-- A request on a panel that must stand in a state: its effect, or WRONG_STATE. -/
theorem Controller.carryOut_panel_inState (c : Controller) (tag : Byte) (p : Panel) (st : PanelState)
    (f : Controller → Controller) :
    c.carryOut tag (fun d => if p.state = st then accept f noBody d else refuse .wrongState d) =
      if p.state ≠ st then c.answered .wrongState tag [] else (settled c (f c)).answered .ok tag [] := by
  rw [Controller.carryOut_ite, ite_not]
  rfl

/-- Settles O27: SCHEDULED or CUT, the record leaves its list, its pattern and its roll are counted down, and it is
freed. -/
theorem withdrawAndRetireFreeTheRecord : Obligations.WithdrawAndRetireFreeTheRecord := by
  intro s tag panel hawake c release free outOf
  constructor
  · refine request_awake_eq hawake ((Controller.carryOut_onPanel (d := fun x => match x with
      | none => c.answered .noSuchRecord tag []
      | some p => if p.state ≠ .scheduled then c.answered .wrongState tag [] else
        (settled c (c.withdrawPanel p)).answered .ok tag []) _ tag _ rfl fun p _ => ?_).trans rfl)
    exact (c.carryOut_panel_inState tag p .scheduled (fun d => d.withdrawPanel p)).symm
  · refine request_awake_eq hawake ((Controller.carryOut_onPanel (d := fun x => match x with
      | none => c.answered .noSuchRecord tag []
      | some p => if p.state ≠ .cut then c.answered .wrongState tag [] else
        (settled c (c.retirePanel p)).answered .ok tag []) _ tag _ rfl fun p _ => ?_).trans rfl)
    exact (c.carryOut_panel_inState tag p .cut (fun d => d.retirePanel p)).symm

/-! ### REJECT_PANEL and causes -/

theorem panelById_of_panelByNumber {c : Controller} (h : RecordsSound c.tab) {n : Nat} {p : Panel}
    (hp : c.panelByNumber n = some p) : c.panelById p.id = some p := by
  obtain ⟨hmem, -⟩ := panelByNumber_mem hp
  cases hid : c.panelById p.id with
  | none => exact absurd (List.find?_eq_none.mp hid p hmem) (by simp)
  | some q =>
    obtain ⟨hq, hqid⟩ := panelById_mem hid
    rw [h.unique hq hmem hqid]

theorem Panel.turnsReject_eq_false_iff (p : Panel) :
    p.turnsReject = false ↔ p.marks.map CutMarks.sent = some true ∨ p.verdict = .reject := by
  unfold Panel.turnsReject Panel.leadSent
  cases p.marks with
  | none => simp
  | some m => simp [Classical.or_iff_not_imp_left]

theorem Controller.addCause_none {c : Controller} {id : Nat} (h : c.panelById id = none) (k : Cause) :
    c.addCause id k = c := by
  unfold Controller.addCause
  rw [h]

/-- R17, for a live panel. -/
theorem Controller.addCause_some {c : Controller} {p : Panel} (h : c.panelById p.id = some p) (k : Cause) :
    c.addCause p.id k =
      if p.marks.map CutMarks.sent = some true ∨ p.verdict = .reject then c.updatePanel p.id (fun q => q.withCause k)
      else (c.updatePanel p.id (fun q => { q.withCause k with verdict := .reject })).raise .panelRejected
        (Detail.num p.number) := by
  unfold Controller.addCause
  rw [h]
  simp only [← Panel.turnsReject_eq_false_iff]
  cases p.turnsReject <;> rfl

/-- R18, for a live panel that has its placed part. -/
theorem Controller.decideVerdict_some {c : Controller} {p : Panel} {q : Placed} (h : c.panelById p.id = some p)
    (hq : p.placed = some q) :
    c.decideVerdict p.id =
      if p.dose.getD 0 < q.doseMin then c.addCause p.id .underset
      else c.updatePanel p.id (fun r => if r.verdict = .pending then { r with verdict := .good } else r) := by
  unfold Controller.decideVerdict
  simp only [h, hq]

theorem Controller.updatePanel_congr (c : Controller) {id : Nat} {f g : Panel → Panel}
    (h : ∀ p ∈ c.tab.panels, p.id = id → f p = g p) : c.updatePanel id f = c.updatePanel id g := by
  have hmap : c.tab.panels.map (fun p => if p.id = id then f p else p) =
      c.tab.panels.map (fun p => if p.id = id then g p else p) :=
    List.map_congr_left fun p hp => ite_congr rfl (h p hp) fun _ => rfl
  unfold Controller.updatePanel
  rw [hmap]

@[simp] theorem Controller.updatePanel_gateInputs (c : Controller) (id : Nat) (f : Panel → Panel) :
    (c.updatePanel id f).gateInputs = c.gateInputs := rfl

@[simp] theorem Controller.addCause_gateInputs (c : Controller) (id : Nat) (k : Cause) :
    (c.addCause id k).gateInputs = c.gateInputs := by
  unfold Controller.addCause
  split
  · rfl
  · split <;> rfl

/-- REJECT_PANEL's cause, for a panel whose lead cut is not sent: the record is rejected either way, and
PANEL.REJECTED is raised when it was not rejected already. -/
theorem Controller.addCause_host {c : Controller} (hs : RecordsSound c.tab) {p : Panel} (h : c.panelById p.id = some p)
    (hsent : p.leadSent = false) :
    c.addCause p.id .host =
      let d := c.updatePanel p.id (fun q => { q with causes := q.causes ||| 0x20#8, verdict := .reject })
      if p.verdict = .reject then d else d.raise .panelRejected (Detail.num p.number) := by
  have hmarks : p.marks.map CutMarks.sent ≠ some true := by
    unfold Panel.leadSent at hsent
    cases hm : p.marks <;> simp_all
  rw [Controller.addCause_some h]
  simp only [hmarks, false_or]
  refine ite_congr rfl (fun hrej => c.updatePanel_congr fun q hq hid => ?_) fun _ => rfl
  have hqp : q = p := hs.unique hq (panelById_mem h).1 hid
  rw [hqp, ← hrej]
  rfl

theorem Controller.carryOut_reject {c : Controller} (hs : RecordsSound c.tab) (tag : Byte) {n : Nat} {p : Panel}
    (hp : c.panelByNumber n = some p) :
    c.carryOut tag (fun d => if p.leadSent || p.state == .cut then refuse .wrongState d
        else accept (fun e => e.addCause p.id .host) noBody d) =
      if p.leadSent = true ∨ p.state = .cut then c.answered .wrongState tag []
      else
        let d := c.updatePanel p.id (fun q => { q with causes := q.causes ||| 0x20#8, verdict := .reject })
        (if p.verdict = .reject then d else d.raise .panelRejected (Detail.num p.number)).answered .ok tag [] := by
  rw [Controller.carryOut_ite]
  refine ite_congr (by simp) (fun _ => rfl) fun hno => ?_
  have hsent : p.leadSent = false := Bool.eq_false_iff.mpr fun h => hno (Or.inl h)
  rw [Controller.carryOut_accept_of_gateInputs_eq (c.addCause_gateInputs p.id .host),
    Controller.addCause_host hs (panelById_of_panelByNumber hs hp) hsent]
  rfl

/-- Settles O28: the request is R17's cause HOST, and the other causes are the same rule. -/
theorem rejectPanelAddsHost : Obligations.RejectPanelAddsHost := by
  refine ⟨fun s tag panel hawake hs => ?_, fun c p k h => Controller.addCause_some h k,
    fun c id k h => Controller.addCause_none h k, rfl, fun c p q h hq => Controller.decideVerdict_some h hq⟩
  refine request_awake_eq hawake ((Controller.carryOut_onPanel (d := fun x => match x with
    | none => s.ctl.answered .noSuchRecord tag []
    | some p => if p.leadSent = true ∨ p.state = .cut then s.ctl.answered .wrongState tag [] else
      let d := s.ctl.updatePanel p.id (fun q => { q with causes := q.causes ||| 0x20#8, verdict := .reject })
      (if p.verdict = .reject then d else d.raise .panelRejected (Detail.num p.number)).answered .ok tag [])
    _ tag _ rfl fun p hp => ?_).trans rfl)
  exact (Controller.carryOut_reject hs tag hp).symm

/-! ### The head report and the gate's request for a class -/

theorem Controller.headReport_none {c : Controller} (h : c.headPanel = none) :
    c.headReport = { c with line := { c.line with fabricMark := false } } := by
  unfold Controller.headReport Controller.chamberHeadReport
  rw [show Controller.headPanel { c with line := { c.line with fabricMark := false } } = none from h]

theorem Controller.headReport_some {c : Controller} {p : Panel} (h : c.headPanel = some p) :
    let d : Controller := { c with line := { c.line with fabricMark := false } }
    c.headReport =
      if c.panelHeat p = c.cham.lineClass then d.cancelChangeover
      else if c.cham.changeover.target = some (c.panelHeat p) then d else d.retarget (c.panelHeat p) := by
  unfold Controller.headReport Controller.chamberHeadReport
  rw [show Controller.headPanel { c with line := { c.line with fabricMark := false } } = some p from h]
  rfl

/-- Settles O29: by the changeover's state. -/
theorem headReportsSteerTheChangeover : Obligations.HeadReportsSteerTheChangeover := by
  intro c d turn
  refine ⟨Controller.headReport_none, fun p h => ?_, fun k => ?_⟩
  · intro k
    rw [Controller.headReport_some h]
    cases hx : c.cham.changeover with
    | idle => simp [Controller.cancelChangeover, Controller.retarget, hx, Changeover.target, d]
    | draining t =>
      simp [Controller.cancelChangeover, Controller.retarget, hx, Changeover.target, d, turn, k, Controller.setChangeover]
    | heating t =>
      simp [Controller.cancelChangeover, Controller.retarget, hx, Changeover.target, d, turn, k, Controller.setChangeover]
  · intro turned
    unfold Controller.requestClass
    by_cases hk : k = c.cham.lineClass
    · simp [hk]
    cases hx : c.cham.changeover with
    | idle => simp [hk, Changeover.target, Controller.drainTest, Controller.setChangeover, turned]; rfl
    | draining t => simp [hk, Changeover.target, Controller.retarget, Controller.setChangeover, hx, turned]
    | heating t => simp [hk, Changeover.target, Controller.retarget, Controller.setChangeover, hx, turned]

end Sys2Proof.Machine

/-! The requests on the pattern library (R27 to R38). -/

namespace Sys2Proof.Machine

/-! ### A pattern after its update -/

/-- A slot that is not EMPTY is a slot of the library, and reads back what an update leaves. -/
theorem Controller.pattern_updatePattern {c : Controller} {n : Nat} (h : (c.pattern n).state ≠ .empty)
    (f : Pattern → Pattern) : (c.updatePattern n f).pattern n = f (c.pattern n) := by
  have hn : n - 1 < c.lib.length := by
    by_contra hout
    refine h ?_
    unfold Controller.pattern
    rw [List.getD_eq_default _ _ (by omega)]
    rfl
  unfold Controller.updatePattern Controller.pattern
  simp [List.getD_eq_getElem?_getD, hn]

theorem sum_map_modify {α : Type} (g : α → Nat) (f : α → α) :
    ∀ (l : List α) (i : Nat) (h : i < l.length),
      ((l.modify i f).map g).sum + g l[i] = (l.map g).sum + g (f l[i]) := by
  intro l
  induction l with
  | nil => intro i h; exact absurd h (Nat.not_lt_zero i)
  | cons a l ih =>
    intro i h
    cases i with
    | zero => simp only [List.modify_zero_cons, List.map_cons, List.sum_cons, List.getElem_cons_zero]; omega
    | succ i =>
      have := ih i (Nat.lt_of_succ_lt_succ h)
      simp only [List.modify_succ_cons, List.map_cons, List.sum_cons, List.getElem_cons_succ]
      omega

/-! ### APPEND_STEPS: the steps' fields -/

/-- Field `k` of a step is in range (2.2); the fields are kind, pitch, depth, repeat and taper. -/
def stepFieldFits (x : RawStep) (k : Nat) : Prop :=
  match k with
  | 1 => x.kind.toNat ≤ 4
  | 2 => 40 ≤ x.pitch.toNat ∧ x.pitch.toNat ≤ 2000
  | 3 => 10 ≤ x.depth.toNat ∧ x.depth.toNat ≤ 600
  | 4 => 1 ≤ x.times.toNat
  | _ => -20 ≤ x.taper.toInt ∧ x.taper.toInt ≤ 20

/-- The first of the numbers 1 to 5 at which a property fails. -/
theorem firstFailing_eq_some_iff (F : Nat → Prop) [DecidablePred F] (k : Nat) :
    (if ¬ F 1 then some 1 else if ¬ F 2 then some 2 else if ¬ F 3 then some 3 else if ¬ F 4 then some 4
      else if ¬ F 5 then some 5 else none) = some k ↔ 1 ≤ k ∧ k ≤ 5 ∧ ¬ F k ∧ ∀ n, 1 ≤ n → n < k → F n := by
  constructor
  · intro h
    split_ifs at h with h1 h2 h3 h4 h5 <;> cases h <;>
      exact ⟨by decide, by decide, by assumption, fun n hlow hhigh => by interval_cases n <;> assumption⟩
  · rintro ⟨hlow, hhigh, hk, hall⟩
    interval_cases k <;> simp [hk, hall]

theorem badStepField_eq (x : RawStep) [DecidablePred (stepFieldFits x)] :
    badStepField x = if ¬ stepFieldFits x 1 then some 1 else if ¬ stepFieldFits x 2 then some 2
      else if ¬ stepFieldFits x 3 then some 3 else if ¬ stepFieldFits x 4 then some 4 else if ¬ stepFieldFits x 5 then some 5 else none := by
  unfold badStepField
  refine if_congr (by simp [stepFieldFits]) rfl
    (if_congr ?_ rfl (if_congr ?_ rfl (if_congr ?_ rfl (if_congr ?_ rfl rfl)))) <;>
    simp only [stepFieldFits] <;> omega

theorem badStepField_eq_some_iff (x : RawStep) (k : Nat) :
    badStepField x = some k ↔ 1 ≤ k ∧ k ≤ 5 ∧ ¬ stepFieldFits x k ∧ ∀ n, 1 ≤ n → n < k → stepFieldFits x n := by
  classical
  rw [badStepField_eq, firstFailing_eq_some_iff]

theorem badStepField_eq_none_iff (x : RawStep) :
    badStepField x = none ↔
      stepFieldFits x 1 ∧ stepFieldFits x 2 ∧ stepFieldFits x 3 ∧ stepFieldFits x 4 ∧ stepFieldFits x 5 := by
  classical
  rw [badStepField_eq]
  split_ifs <;> simp_all

theorem badStep_append {front : List RawStep} {x : RawStep} {k : Nat} (back : List RawStep)
    (hx : badStepField x = some k) (hfront : ∀ y ∈ front, badStepField y = none) (j : Nat) :
    badStep (j + 1) (front ++ x :: back) = some (2 + 5 * (j + front.length) + k) := by
  induction front generalizing j with
  | nil => simp [badStep, hx]
  | cons y front ih =>
    rw [List.forall_mem_cons] at hfront
    simp only [List.cons_append, badStep, hfront.1, ih hfront.2 (j + 1), List.length_cons]
    exact congrArg some (by omega)

/-! ### APPEND_STEPS: the request -/

theorem Controller.carryOut_append (c : Controller) (tag : Byte) (n count : Nat) (steps : List RawStep) :
    c.carryOut tag (appendRequest n count steps) =
      if n = 0 ∨ 32 < n then c.answered .noSuchRecord tag []
      else if count = 0 ∨ 8 < count ∨ steps.length ≠ count then c.answered .badField tag [2#8]
      else match badStep 1 steps with
        | some i => c.answered .badField tag (field 1 i)
        | none =>
          if (c.pattern n).state ≠ .draft then c.answered .wrongState tag []
          else if 96 < (c.pattern n).steps.length + count then c.answered .listFull tag []
          else if c.poolFree < count then c.answered .poolFull tag []
          else
            let d := c.updatePattern n (fun q => q.append (steps.map stepOfRaw))
            d.answered .ok tag (field 1 (d.pattern n).steps.length) := by
  rw [appendRequest, Controller.carryOut_onPattern]
  refine if_congr Iff.rfl rfl ?_
  rw [Controller.carryOut_ite, Controller.carryOut_ite]
  simp only [ite_or]
  refine if_congr Iff.rfl rfl (if_congr Iff.rfl rfl (if_congr Iff.rfl rfl ?_))
  cases badStep 1 steps with
  | some i => rfl
  | none =>
    simp only
    rw [Controller.carryOut_ite, Controller.carryOut_ite, Controller.carryOut_ite, Controller.carryOut_accept_updatePattern]
    rfl

/-- Settles O31: the fields' checks, then the state, the list and the pool; the index is that of the first bad field of
the first bad step. -/
theorem appendStepsTakesAllOrNone : Obligations.AppendStepsTakesAllOrNone := by
  refine ⟨fun s tag n count steps hawake => ?_, badStepField_eq_none_iff, badStepField_eq_some_iff,
    fun front x back k hfront hx => ?_⟩
  · refine request_awake_eq hawake ((Controller.carryOut_append ..).trans ?_)
    simp only [byte_toNat_eq_zero_iff] <;> rfl
  · simpa only [Nat.zero_add] using badStep_append back hx hfront 0

/-! ### CLEAR_STEPS -/

theorem Controller.carryOut_clear (c : Controller) (tag : Byte) (n : Nat) :
    c.carryOut tag (clearRequest n) =
      if n = 0 ∨ 32 < n then c.answered .noSuchRecord tag []
      else if (c.pattern n).state ≠ .draft then c.answered .wrongState tag []
      else (c.updatePattern n (fun q =>
        { q with body := q.body.map (fun b => { b with steps := [] }) })).answered .ok tag [] := by
  rw [clearRequest, Controller.carryOut_onPattern]
  refine if_congr Iff.rfl rfl ?_
  rw [Controller.carryOut_ite, ite_not, Controller.carryOut_accept_updatePattern]
  rfl

theorem exec_clearSteps {s : State} (hawake : s.awake) (tag n : Byte) :
    exec (.clearSteps tag n) s = s.then (
      if n = 0#8 ∨ 32 < n.toNat then s.ctl.answered .noSuchRecord tag []
      else if (s.ctl.pattern n.toNat).state ≠ .draft then s.ctl.answered .wrongState tag []
      else (s.ctl.updatePattern n.toNat (fun q =>
        { q with body := q.body.map (fun b => { b with steps := [] }) })).answered .ok tag []) := by
  refine request_awake_eq hawake ((Controller.carryOut_clear ..).trans ?_)
  simp only [byte_toNat_eq_zero_iff]

/-- The places the library's step lists hold. -/
def Controller.heldSteps (c : Controller) : Nat := (c.lib.map (fun p => p.steps.length)).sum

/-- A pattern emptied gives its places back to the pool. -/
theorem Controller.heldSteps_clear {c : Controller} {n : Nat} (hn : n - 1 < c.lib.length) :
    (c.updatePattern n (fun q => { q with body := q.body.map (fun b => { b with steps := [] }) })).heldSteps +
      (c.pattern n).steps.length = c.heldSteps := by
  have hpattern : c.pattern n = c.lib[n - 1] := by simp [Controller.pattern, hn]
  have hempty : ∀ q : Pattern,
      (Pattern.steps { q with body := q.body.map (fun b => { b with steps := [] }) }).length = 0 := by
    intro q
    unfold Pattern.steps
    cases q.body <;> rfl
  have := sum_map_modify (fun p : Pattern => p.steps.length)
    (fun q => { q with body := q.body.map (fun b => { b with steps := [] }) }) c.lib (n - 1) hn
  rw [hempty, ← hpattern] at this
  exact this

/-- Settles O32: the list is emptied, and the pool grows by its length. -/
theorem clearStepsEmptiesADraft : Obligations.ClearStepsEmptiesADraft := by
  refine ⟨fun s tag n hawake _ => exec_clearSteps hawake tag n, fun s tag n hawake hlow hhigh hlen hdraft => ?_⟩
  intro held hheld
  have hzero : n ≠ 0#8 := fun h => by simp [h] at hlow
  have hexec : exec (.clearSteps tag n) s = s.then ((s.ctl.updatePattern n.toNat (fun q =>
      { q with body := q.body.map (fun b => { b with steps := [] }) })).answered .ok tag []) := by
    rw [exec_clearSteps hawake, if_neg (by simp [hzero]; omega), if_neg (by simp [hdraft])]
  refine ⟨_, hexec, ?_, ?_⟩
  · exact Nat.sub_add_cancel hheld
  · have hclear := s.ctl.heldSteps_clear (n := n.toNat) (by omega)
    have hbefore : s.ctl.heldSteps ≤ 1024 := hheld
    show 1024 - Controller.heldSteps (s.ctl.updatePattern n.toNat _) = 1024 - s.ctl.heldSteps + _
    omega

/-! ### SEAL_PATTERN -/

/-- Step `x` fits at place `i`: it is graded, and the span up to it, from `o`, does not pass the maximum (R33). -/
def SealFits (m o : Nat) (steps : List Step) (i : Nat) (x : Step) : Prop :=
  x.graded = true ∧ o + spanOf (steps.take (i + 1)) ≤ m

theorem sealFits_zero (m o : Nat) (y : Step) (steps : List Step) :
    SealFits m o (y :: steps) 0 y ↔ (y.graded && decide (o + y.pitch * y.times ≤ m)) = true := by
  simp [SealFits, spanOf]

theorem sealFits_succ (m o : Nat) (y : Step) (steps : List Step) (i : Nat) (x : Step) :
    SealFits m o (y :: steps) (i + 1) x ↔ SealFits m (o + y.pitch * y.times) steps i x := by
  simp only [SealFits, spanOf, List.take_succ_cons, List.map_cons, List.sum_cons, Nat.add_assoc]

theorem le_of_sealWalk_eq_some {m : Nat} {steps : List Step} {j o i : Nat} (h : sealWalk m j o steps = some i) :
    j ≤ i := by
  induction steps generalizing j o with
  | nil => cases h
  | cons y steps ih =>
    unfold sealWalk at h
    split at h
    · exact Nat.le_of_succ_le (ih h)
    · exact (Option.some.inj h).le

/-- The walk of R33 stops at the first step that does not fit. -/
theorem sealWalk_eq_some_iff (m : Nat) (steps : List Step) (j o k : Nat) :
    sealWalk m j o steps = some (j + k) ↔
      (∃ x, steps[k]? = some x ∧ ¬ SealFits m o steps k x) ∧
        ∀ i x, i < k → steps[i]? = some x → SealFits m o steps i x := by
  induction steps generalizing j o k with
  | nil => simp [sealWalk]
  | cons y steps ih =>
    unfold sealWalk
    split
    next hfits =>
      cases k with
      | zero =>
        have hpast : sealWalk m (j + 1) (o + y.pitch * y.times) steps ≠ some j := fun h =>
          absurd (le_of_sealWalk_eq_some h) (Nat.not_succ_le_self j)
        simp [hpast, sealFits_zero, hfits]
      | succ k =>
        rw [show j + (k + 1) = j + 1 + k by omega, ih]
        simp only [List.getElem?_cons_succ, sealFits_succ]
        refine and_congr_right fun _ => ⟨fun h i x hi hx => ?_, fun h i x hi hx => ?_⟩
        · cases i with
          | zero => cases hx; exact (sealFits_zero ..).mpr hfits
          | succ i => exact (sealFits_succ ..).mpr (h i x (Nat.lt_of_succ_lt_succ hi) hx)
        · exact (sealFits_succ ..).mp (h (i + 1) x (Nat.succ_lt_succ hi) hx)
    next hno =>
      rw [Option.some.injEq]
      cases k with
      | zero => simp [sealFits_zero, hno]
      | succ k =>
        refine iff_of_false (by omega) fun ⟨_, hall⟩ => hno ((sealFits_zero ..).mp (hall 0 y (Nat.succ_pos k) rfl))

theorem Controller.sealFault_eq (c : Controller) (p : Pattern) :
    c.sealFault p =
      if c.heatClass ((p.body.map PatternBody.heat).getD 0) = none then some 0
      else (sealWalk c.panelMax 1 0 p.steps).or (if ∀ x ∈ p.steps, x.kind = .skip then some 1 else none) := by
  unfold Controller.sealFault
  refine if_congr Option.isNone_iff_eq_none rfl ?_
  cases sealWalk c.panelMax 1 0 p.steps with
  | some j => rfl
  | none =>
    simp only [Option.none_or]
    by_cases hskip : ∀ x ∈ p.steps, x.kind = .skip
    · rw [if_pos hskip, if_neg (by simpa using hskip)]
    · rw [if_neg hskip, if_pos (by simpa using hskip)]

theorem Controller.carryOut_seal (c : Controller) (tag : Byte) (n : Nat) :
    c.carryOut tag (sealRequest n) =
      if n = 0 ∨ 32 < n then c.answered .noSuchRecord tag []
      else if (c.pattern n).state ≠ .draft then c.answered .wrongState tag []
      else match c.sealFault (c.pattern n) with
        | some i => c.answered .badField tag (field 1 i)
        | none =>
          (c.updatePattern n (fun q =>
            { q with state := .sealed, sealing := some ⟨spanOf q.steps, strokesOf q.steps⟩ })).answered .ok tag
            (field 2 (spanOf (c.pattern n).steps) ++ field 2 (strokesOf (c.pattern n).steps)) := by
  rw [sealRequest, Controller.carryOut_onPattern]
  refine if_congr Iff.rfl rfl ?_
  rw [Controller.carryOut_ite]
  refine ite_congr rfl (fun _ => rfl) fun hdraft => ?_
  have hslot : (c.pattern n).state ≠ .empty := by
    rw [of_not_not hdraft]
    decide
  unfold Controller.carryOut
  cases h : c.sealFault (c.pattern n) with
  | some i => simp only [h]; rfl
  | none =>
    simp only [h]
    refine (c.carryOut_accept_updatePattern tag n _ _).trans ?_
    rw [Controller.pattern_updatePattern hslot]
    rfl

/-- Settles O33: the checks in order; the walk's answer is the first step that does not fit. -/
theorem sealPatternFreezesSpanAndStrokes : Obligations.SealPatternFreezesSpanAndStrokes := by
  refine ⟨fun s tag n hawake => ?_, fun panelMax steps k => ?_⟩
  · intro c p
    refine request_awake_eq hawake ((Controller.carryOut_seal ..).trans ?_)
    simp only [byte_toNat_eq_zero_iff, Controller.sealFault_eq]
    refine if_congr Iff.rfl rfl (if_congr Iff.rfl rfl ?_)
    by_cases hheat : c.heatClass ((p.body.map PatternBody.heat).getD 0) = none
    · rw [if_pos hheat, if_pos hheat]
      rfl
    · rw [if_neg hheat, if_neg hheat]
      cases sealWalk c.panelMax 1 0 p.steps with
      | some j => rfl
      | none =>
        rw [Option.none_or]
        by_cases hskip : ∀ x ∈ p.steps, x.kind = .skip
        · rw [if_pos hskip]
          exact (if_pos hskip).symm
        · rw [if_neg hskip]
          exact (if_neg hskip).symm
  · have := sealWalk_eq_some_iff panelMax steps 1 0 k
    simpa only [SealFits, Nat.zero_add, Nat.add_comm 1 k] using this

/-! ### RETIRE_PATTERN -/

/-- Settles O35: by the pattern's state, and its reference count while it is SEALED. -/
theorem retirePatternFreesOrRetires : Obligations.RetirePatternFreesOrRetires := by
  intro s tag n hawake _ c p
  refine request_awake_eq hawake ?_
  rw [retirePatternRequest, Controller.carryOut_onPattern]
  refine if_congr (by rw [byte_toNat_eq_zero_iff]) rfl ?_
  have hslot : ∀ {st : PatternState}, p.state = st → st ≠ .empty → (c.pattern n.toNat).state ≠ .empty := fun h => by
    rw [← h]; exact id
  unfold Controller.carryOut
  cases hstate : p.state with
  | empty => rfl
  | draft =>
    refine (c.carryOut_accept_updatePattern tag n.toNat _ _).trans ?_
    rw [Controller.pattern_updatePattern (hslot hstate (by decide))]
    rfl
  | sealed =>
    rw [apply_ite (fun x => Controller.reply x tag)]
    refine if_congr Iff.rfl ((c.carryOut_accept_updatePattern tag n.toNat _ _).trans ?_)
      ((c.carryOut_accept_updatePattern tag n.toNat _ _).trans ?_)
    · rw [Controller.pattern_updatePattern (hslot hstate (by decide))]
      rfl
    · rw [Controller.pattern_updatePattern (hslot hstate (by decide))]
      exact congrArg (Controller.answered (c.updatePattern n.toNat fun q => { q with state := .retiring }) .ok tag)
        (show field 1 PatternState.retiring.code = [3#8] from rfl)
  | retiring =>
    show c.answered .ok tag (field 1 (c.pattern n.toNat).state.code) = _
    rw [show (c.pattern n.toNat).state = .retiring from hstate]
    rfl

end Sys2Proof.Machine

/-! What the operations that blocks share leave unchanged: a telegram handed to a channel, the unwind modes, banking, and
the line controller's moves. Each is said once, as an equation between controllers with the parts it may change blanked;
the field lemmas are its instances. -/

namespace Sys2Proof.Machine

/-! ### A telegram handed to a channel -/

/-- The controller with its links and its notices blanked. -/
def Controller.sansLinks (c : Controller) : Controller :=
  let b := Controller.fresh false false
  { c with chF := b.chF, chS := b.chS, chP := b.chP, chZ := b.chZ, att := b.att }

theorem Controller.hand_sansLinks (c : Controller) (ch : Channel) (x : TxItem) :
    (c.hand ch x).sansLinks = c.sansLinks := by
  rw [Controller.hand_eq]
  split <;> cases ch <;> rfl

section Hand
variable (c : Controller) (ch : Channel) (x : TxItem)

@[simp] theorem Controller.hand_tab : (c.hand ch x).tab = c.tab := (congrArg Controller.tab (c.hand_sansLinks ch x) :)
@[simp] theorem Controller.hand_lib : (c.hand ch x).lib = c.lib := (congrArg Controller.lib (c.hand_sansLinks ch x) :)
@[simp] theorem Controller.hand_mot : (c.hand ch x).mot = c.mot := (congrArg Controller.mot (c.hand_sansLinks ch x) :)
@[simp] theorem Controller.hand_line : (c.hand ch x).line = c.line := (congrArg Controller.line (c.hand_sansLinks ch x) :)
@[simp] theorem Controller.hand_seq : (c.hand ch x).seq = c.seq := (congrArg Controller.seq (c.hand_sansLinks ch x) :)
@[simp] theorem Controller.hand_cham : (c.hand ch x).cham = c.cham := (congrArg Controller.cham (c.hand_sansLinks ch x) :)
@[simp] theorem Controller.hand_cut : (c.hand ch x).cut = c.cut := (congrArg Controller.cut (c.hand_sansLinks ch x) :)
@[simp] theorem Controller.hand_params : (c.hand ch x).params = c.params :=
  (congrArg Controller.params (c.hand_sansLinks ch x) :)

/-- R71 names nothing a telegram changes. -/
@[simp] theorem Controller.hand_gateInputs : (c.hand ch x).gateInputs = c.gateInputs :=
  (congrArg Controller.gateInputs (c.hand_sansLinks ch x) :)

@[simp] theorem Controller.hand_link : (c.hand ch x).link ch = ((c.link ch).hand x).1 := by
  rw [Controller.hand_eq]
  split
  · exact c.setLink_link ch _
  · exact c.setLink_link ch _

theorem Controller.setLink_link_of_ne {other : Channel} (h : other ≠ ch) (l : Link) :
    (c.setLink ch l).link other = c.link other := by
  cases ch <;> cases other <;> simp_all [Controller.setLink, Controller.link]

theorem Controller.hand_link_of_ne {other : Channel} (h : other ≠ ch) : (c.hand ch x).link other = c.link other := by
  rw [Controller.hand_eq]
  split
  · exact c.setLink_link_of_ne ch h _
  · exact c.setLink_link_of_ne ch h _

end Hand

@[simp] theorem Controller.hand_chF_self (c : Controller) (x : TxItem) : (c.hand .f x).chF = (c.chF.hand x).1 :=
  c.hand_link .f x

@[simp] theorem Controller.hand_chF_of_s (c : Controller) (x : TxItem) : (c.hand .s x).chF = c.chF :=
  c.hand_link_of_ne .s x (other := .f) (by decide)

/-! ### The unwind modes -/

/-- The controller with the roll manager, channel S and its notices blanked. -/
def Controller.sansUnwind (c : Controller) : Controller :=
  let b := Controller.fresh false false
  { c with rolls := b.rolls, chS := b.chS, att := b.att }

theorem Controller.hand_s_sansUnwind (c : Controller) (x : TxItem) : (c.hand .s x).sansUnwind = c.sansUnwind := by
  rw [Controller.hand_eq]
  split <;> rfl

theorem Controller.commandUnwind_sansUnwind (c : Controller) (sp : Spindle) (m : UnwindMode) :
    (c.commandUnwind sp m).sansUnwind = c.sansUnwind := by
  have hmode : ((c.setSpindle sp { c.spindle sp with mode := some m }).hand .s (.unwindMode sp m)).sansUnwind =
      c.sansUnwind := by
    rw [Controller.hand_s_sansUnwind]
    cases sp <;> rfl
  unfold Controller.commandUnwind
  simp only
  split <;> exact hmode

theorem Controller.deriveSpindle_sansUnwind (c : Controller) (sp : Spindle) :
    (c.deriveSpindle sp).sansUnwind = c.sansUnwind := by
  unfold Controller.deriveSpindle
  split
  · rfl
  · exact c.commandUnwind_sansUnwind sp _

theorem Controller.deriveUnwind_sansUnwind (c : Controller) : c.deriveUnwind.sansUnwind = c.sansUnwind := by
  unfold Controller.deriveUnwind
  split
  · exact (Controller.deriveSpindle_sansUnwind ..).trans (Controller.deriveSpindle_sansUnwind ..)
  · rfl

section DeriveUnwind
variable (c : Controller)

@[simp] theorem Controller.deriveUnwind_tab : c.deriveUnwind.tab = c.tab :=
  (congrArg Controller.tab c.deriveUnwind_sansUnwind :)
@[simp] theorem Controller.deriveUnwind_lib : c.deriveUnwind.lib = c.lib :=
  (congrArg Controller.lib c.deriveUnwind_sansUnwind :)
@[simp] theorem Controller.deriveUnwind_mot : c.deriveUnwind.mot = c.mot :=
  (congrArg Controller.mot c.deriveUnwind_sansUnwind :)
@[simp] theorem Controller.deriveUnwind_line : c.deriveUnwind.line = c.line :=
  (congrArg Controller.line c.deriveUnwind_sansUnwind :)
@[simp] theorem Controller.deriveUnwind_seq : c.deriveUnwind.seq = c.seq :=
  (congrArg Controller.seq c.deriveUnwind_sansUnwind :)
@[simp] theorem Controller.deriveUnwind_cham : c.deriveUnwind.cham = c.cham :=
  (congrArg Controller.cham c.deriveUnwind_sansUnwind :)
@[simp] theorem Controller.deriveUnwind_cut : c.deriveUnwind.cut = c.cut :=
  (congrArg Controller.cut c.deriveUnwind_sansUnwind :)
@[simp] theorem Controller.deriveUnwind_chF : c.deriveUnwind.chF = c.chF :=
  (congrArg Controller.chF c.deriveUnwind_sansUnwind :)
@[simp] theorem Controller.deriveUnwind_chP : c.deriveUnwind.chP = c.chP :=
  (congrArg Controller.chP c.deriveUnwind_sansUnwind :)
@[simp] theorem Controller.deriveUnwind_chZ : c.deriveUnwind.chZ = c.chZ :=
  (congrArg Controller.chZ c.deriveUnwind_sansUnwind :)
@[simp] theorem Controller.deriveUnwind_params : c.deriveUnwind.params = c.params :=
  (congrArg Controller.params c.deriveUnwind_sansUnwind :)

end DeriveUnwind

/-! ### Banking -/

/-- The controller with the chamber and its notices blanked. -/
def Controller.sansChamber (c : Controller) : Controller :=
  let b := Controller.fresh false false
  { c with cham := b.cham, att := b.att }

theorem Controller.bankTest_sansChamber (c : Controller) : c.bankTest.sansChamber = c.sansChamber := by
  unfold Controller.bankTest
  simp only
  split_ifs <;> rfl

section BankTest
variable (c : Controller)

@[simp] theorem Controller.bankTest_tab : c.bankTest.tab = c.tab := (congrArg Controller.tab c.bankTest_sansChamber :)
@[simp] theorem Controller.bankTest_lib : c.bankTest.lib = c.lib := (congrArg Controller.lib c.bankTest_sansChamber :)
@[simp] theorem Controller.bankTest_mot : c.bankTest.mot = c.mot := (congrArg Controller.mot c.bankTest_sansChamber :)
@[simp] theorem Controller.bankTest_line : c.bankTest.line = c.line := (congrArg Controller.line c.bankTest_sansChamber :)
@[simp] theorem Controller.bankTest_rolls : c.bankTest.rolls = c.rolls :=
  (congrArg Controller.rolls c.bankTest_sansChamber :)
@[simp] theorem Controller.bankTest_seq : c.bankTest.seq = c.seq := (congrArg Controller.seq c.bankTest_sansChamber :)
@[simp] theorem Controller.bankTest_cut : c.bankTest.cut = c.cut := (congrArg Controller.cut c.bankTest_sansChamber :)
@[simp] theorem Controller.bankTest_chF : c.bankTest.chF = c.chF := (congrArg Controller.chF c.bankTest_sansChamber :)
@[simp] theorem Controller.bankTest_chS : c.bankTest.chS = c.chS := (congrArg Controller.chS c.bankTest_sansChamber :)
@[simp] theorem Controller.bankTest_chP : c.bankTest.chP = c.chP := (congrArg Controller.chP c.bankTest_sansChamber :)
@[simp] theorem Controller.bankTest_chZ : c.bankTest.chZ = c.chZ := (congrArg Controller.chZ c.bankTest_sansChamber :)
@[simp] theorem Controller.bankTest_params : c.bankTest.params = c.params :=
  (congrArg Controller.params c.bankTest_sansChamber :)

end BankTest

/-! ### The line controller's moves -/

section Line
variable (c : Controller)

@[simp] theorem Controller.enterLine_line (st : LineState) : (c.enterLine st).line = { c.line with state := st } := by
  simp [Controller.enterLine]

@[simp] theorem Controller.enterLine_chF (st : LineState) : (c.enterLine st).chF = c.chF := by
  simp [Controller.enterLine]

@[simp] theorem Controller.enterLine_mot (st : LineState) : (c.enterLine st).mot = c.mot := by
  simp [Controller.enterLine]

@[simp] theorem Controller.driveHold_line :
    c.driveHold.line = { c.line with mode := .hold, resend := 0, origin := c.feedAt, suspended := false } := by
  simp [Controller.driveHold]

@[simp] theorem Controller.driveHold_chF : c.driveHold.chF = (c.chF.hand .driveHold).1 := by
  simp [Controller.driveHold]

@[simp] theorem Controller.enterRunning_line : c.enterRunning.line = { c.line with mode := .run, state := .running } := by
  simp [Controller.enterRunning]

@[simp] theorem Controller.enterRunning_chF : c.enterRunning.chF = (c.chF.hand (.driveRun c.line.speed)).1 := by
  simp [Controller.enterRunning]

@[simp] theorem Controller.enterRunning_mot_feed : c.enterRunning.mot.feed = ⟨c.feedAt, 0, false⟩ := by
  simp [Controller.enterRunning, Controller.feedAt]

end Line

theorem HoldCauses.first_eq_none_iff (h : HoldCauses) : h.first = none ↔ h = HoldCauses.empty := by
  obtain ⟨a, b, d⟩ := h
  cases a <;> cases b <;> cases d <;> decide

theorem Controller.addHold_present {c : Controller} {k : HoldCause} (h : c.line.holds.has k = true) : c.addHold k = c :=
  if_pos h

theorem Controller.addHold_running {c : Controller} {k : HoldCause} (h : c.line.holds.has k = false)
    (hrun : c.line.state = .running) :
    c.addHold k = (((c.setHold k true).driveHold).enterLine .held).raise .lineHeld (Detail.named k.detail) := by
  unfold Controller.addHold
  rw [if_neg (by simp [h]), if_pos hrun]

theorem Controller.addHold_still {c : Controller} {k : HoldCause} (h : c.line.holds.has k = false)
    (hstill : c.line.state ≠ .running) : c.addHold k = (c.setHold k true).bankTest := by
  unfold Controller.addHold
  rw [if_neg (by simp [h]), if_neg hstill]

theorem Controller.removeHold_absent {c : Controller} {k : HoldCause} (h : c.line.holds.has k = false) :
    c.removeHold k = c := if_pos (by simp [h])

theorem Controller.removeHold_last {c : Controller} {k : HoldCause} (h : c.line.holds.has k = true)
    (hheld : c.line.state = .held) (hlast : c.line.holds.set k false = HoldCauses.empty) :
    c.removeHold k = ((c.setHold k false).enterRunning).raise .lineResumed (Detail.named k.detail) := by
  unfold Controller.removeHold
  rw [if_neg (by simp [h]), if_pos ⟨hheld, (HoldCauses.first_eq_none_iff _).mpr hlast⟩]

theorem Controller.removeHold_more {c : Controller} {k : HoldCause} (h : c.line.holds.has k = true)
    (hmore : c.line.state ≠ .held ∨ c.line.holds.set k false ≠ HoldCauses.empty) :
    c.removeHold k = (c.setHold k false).bankTest := by
  unfold Controller.removeHold
  rw [if_neg (by simp [h]), if_neg]
  rintro ⟨hheld, hlast⟩
  exact hmore.elim (fun hn => hn hheld) fun hn => hn ((HoldCauses.first_eq_none_iff _).mp hlast)

theorem Controller.halt_halted {c : Controller} (h : c.line.state = .halted) (k : HaltCause) :
    c.halt k = Controller.raise { c with line := { c.line with lastHalt := some k } } .lineHalted (Detail.named k.detail) :=
  if_pos h

theorem Controller.halt_moving {c : Controller} (h : c.line.state ≠ .halted) (k : HaltCause) :
    let told := Controller.raise { c with line := { c.line with lastHalt := some k } } .lineHalted (Detail.named k.detail)
    c.halt k = if k = .motion then told.enterLine .halted else told.driveHold.enterLine .halted := if_neg h

/-- Settles O37: the moves' effects on the line controller and on channel F, from what a telegram, the unwind modes and
banking leave unchanged. -/
theorem lineMovesCommandTheDrive : Obligations.LineMovesCommandTheDrive := by
  intro c stop
  refine ⟨⟨c.enterRunning_line, c.enterRunning_chF, c.enterRunning_mot_feed⟩, ⟨c.driveHold_line, c.driveHold_chF⟩,
    fun st => ⟨c.enterLine_line st, c.enterLine_chF st⟩, fun _ => rfl, fun k h => Controller.addHold_present h,
    fun k h hrun => ⟨_, Controller.addHold_running h hrun, ?_, ?_⟩, fun k h hstill => ?_,
    fun k h => Controller.removeHold_absent h, fun k h hheld hlast => ⟨_, Controller.removeHold_last h hheld hlast, ?_, ?_⟩,
    fun k h hmore => ?_, fun k => ?_⟩
  · rw [Controller.enterLine_line, Controller.driveHold_line]
    rfl
  · rw [Controller.enterLine_chF, Controller.driveHold_chF]
    rfl
  · rw [Controller.addHold_still h hstill, Controller.bankTest_line, Controller.bankTest_chF]
    exact ⟨rfl, rfl⟩
  · rw [Controller.enterRunning_line, ← hlast]
    rfl
  · rw [Controller.enterRunning_chF]
    rfl
  · rw [Controller.removeHold_more h hmore, Controller.bankTest_line, Controller.bankTest_chF]
    exact ⟨rfl, rfl⟩
  · intro told
    refine ⟨fun h => Controller.halt_halted h k, fun h => Controller.halt_moving h k, fun h hk => ?_, fun h hk => ?_⟩
    · rw [Controller.halt_moving h k, if_pos hk, Controller.enterLine_line, Controller.enterLine_chF]
      exact ⟨rfl, rfl⟩
    · rw [Controller.halt_moving h k, if_neg hk, Controller.enterLine_line, Controller.enterLine_chF,
        Controller.driveHold_line, Controller.driveHold_chF]
      exact ⟨rfl, rfl⟩

end Sys2Proof.Machine

/-! The requests and events of the line (R52, R53, R59 to R65, R69, R70, R94). -/

namespace Sys2Proof.Machine

/-! ### START_LINE and STOP_LINE -/

theorem Controller.commissioned_iff (c : Controller) : c.commissioned = true ↔ c.line.state ≠ .config := by
  unfold Controller.commissioned
  simp

section WhenCommissioned
variable {c : Controller} (tag : Byte)

theorem Controller.carryOut_inConfig (h : c.line.state = .config) (r : Request) :
    c.carryOut tag (whenCommissioned r) = c.answered .notCommissioned tag [] := by
  rw [c.carryOut_whenCommissioned, if_neg (by rw [Controller.commissioned_iff]; simpa using h)]

theorem Controller.carryOut_onLine (h : c.line.state ≠ .config) (r : Request) :
    c.carryOut tag (whenCommissioned r) = c.carryOut tag r := by
  rw [c.carryOut_whenCommissioned, if_pos (c.commissioned_iff.mpr h)]

/-- While commissioned a request that stands for another in this state is carried out as the other. -/
theorem Controller.carryOut_onLine_eq {st : LineState} (h : c.line.state = st) (hst : st ≠ .config) {r : Request}
    (r' : Request) (hr : r c = r' c) : c.carryOut tag (whenCommissioned r) = c.carryOut tag r' :=
  (Controller.carryOut_onLine tag (h ▸ hst) r).trans (congrArg (fun x => Controller.reply x tag) hr)

theorem Controller.carryOut_accept_keeps {f : Controller → Controller} {d : Controller} (hf : f c = d)
    (hg : d.gateInputs = c.gateInputs) (body : Controller → List Byte) :
    c.carryOut tag (accept f body) = d.answered .ok tag (body d) := by
  rw [Controller.carryOut_accept, hf, settled_of_gateInputs_eq hg]

end WhenCommissioned

/-- START_LINE by line state. -/
theorem Controller.carryOut_start (c : Controller) (tag : Byte) :
    c.carryOut tag startRequest =
      match c.line.state with
      | .config => c.answered .notCommissioned tag []
      | .stopped =>
        if (c.chainOpen || c.runningRoll.isNone) = true then c.answered .wrongState tag []
        else (settled c c.startLine).answered .ok tag (lineStatus (settled c c.startLine))
      | .halted => c.answered .wrongState tag []
      | .running | .held => c.answered .ok tag (lineStatus c) := by
  unfold startRequest
  cases hst : c.line.state with
  | config => exact Controller.carryOut_inConfig tag hst _
  | stopped =>
    refine (Controller.carryOut_onLine_eq tag hst (by decide) (fun d =>
      if d.chainOpen || d.runningRoll.isNone then refuse .wrongState d else accept Controller.startLine lineStatus d)
      (by simp only [hst])).trans ?_
    rw [Controller.carryOut_ite]
    rfl
  | running => exact Controller.carryOut_onLine_eq tag hst (by decide) (answer lineStatus) (by simp only [hst])
  | held => exact Controller.carryOut_onLine_eq tag hst (by decide) (answer lineStatus) (by simp only [hst])
  | halted => exact Controller.carryOut_onLine_eq tag hst (by decide) (refuse .wrongState) (by simp only [hst])

/-- STOP_LINE by line state. -/
theorem Controller.carryOut_stop (c : Controller) (tag : Byte) :
    c.carryOut tag stopRequest =
      match c.line.state with
      | .config => c.answered .notCommissioned tag []
      | .stopped => c.answered .ok tag (lineStatus c)
      | .running => c.carryOut tag (accept (fun d => d.driveHold.enterLine .stopped) lineStatus)
      | .held => c.carryOut tag (accept (fun d => d.enterLine .stopped) lineStatus)
      | .halted =>
        if c.chainOpen = true ∨ c.line.report = some .fault then c.answered .wrongState tag (refusedStopBody c)
        else c.carryOut tag (accept (fun d => d.driveHold.enterLine .stopped) lineStatus) := by
  unfold stopRequest
  cases hst : c.line.state with
  | config => exact Controller.carryOut_inConfig tag hst _
  | stopped => exact Controller.carryOut_onLine_eq tag hst (by decide) (answer lineStatus) (by simp only [hst])
  | running => exact Controller.carryOut_onLine_eq tag hst (by decide) (accept _ lineStatus) (by simp only [hst])
  | held => exact Controller.carryOut_onLine_eq tag hst (by decide) (accept _ lineStatus) (by simp only [hst])
  | halted =>
    refine (Controller.carryOut_onLine_eq tag hst (by decide) (fun d =>
      if d.chainOpen || d.line.report == some .fault then refuseWith .wrongState refusedStopBody d
      else accept (fun d => d.driveHold.enterLine .stopped) lineStatus d) (by simp only [hst])).trans ?_
    rw [Controller.carryOut_ite]
    exact if_congr (by simp) rfl rfl

/-- Settles O36: by the line state. -/
theorem startAndStopMoveTheLine : Obligations.StartAndStopMoveTheLine := by
  intro s tag hawake c status
  constructor
  · refine request_awake_eq hawake ((Controller.carryOut_start ..).trans ?_)
    cases hst : c.line.state with
    | stopped =>
      refine if_congr (by simp [c]) rfl ?_
      unfold Controller.startLine
      cases c.line.holds.first <;> rfl
    | _ => rfl
  · refine request_awake_eq hawake ((Controller.carryOut_stop ..).trans ?_)
    cases hst : c.line.state <;> rfl

/-! ### SET_SPEED and DRIVE_STATE -/

theorem Controller.setSpeed_eq (c : Controller) (speed : Nat) :
    let d : Controller := { c with line := { c.line with speed := speed } }
    c.setSpeed speed = if c.line.state = .running then d.hand .f (.driveRun speed) else d := rfl

theorem Controller.setSpeed_gateInputs (c : Controller) (speed : Nat) : (c.setSpeed speed).gateInputs = c.gateInputs := by
  rw [Controller.setSpeed_eq]
  simp only
  split
  · exact Controller.hand_gateInputs ..
  · rfl

/-- A telegram that its channel does not hear changes nothing. -/
theorem telegram_unheard {s : State} (h : s.awake) {t : RxTelegram} (hh : s.ctl.hears t.channel = false) :
    telegram s t = s.then s.ctl :=
  (act_awake h _).trans (congrArg s.then (if_neg (by simp [hh])))

/-- A telegram: what its receipt makes of the controller, when its channel is enabled. -/
theorem telegram_awake {s : State} (h : s.awake) (t : RxTelegram) :
    telegram s t = s.then (if s.ctl.hears t.channel = false then s.ctl else settled s.ctl (s.ctl.takeTelegram t)) := by
  by_cases hh : s.ctl.hears t.channel = false
  · rw [if_pos hh, telegram_unheard h hh]
  · rw [if_neg hh, telegram_heard h (by simpa using hh)]

theorem Controller.takeDriveState_eq (c : Controller) (m : DriveMotion) :
    let d : Controller := { c with line := { c.line with report := some m } }
    c.takeDriveState m =
      if m ≠ .fault then d
      else (if c.line.report = some .fault then d else d.raise .lineDriveFault (Detail.named .f)).halt .drive := by
  cases m <;> rfl

/-- Settles O38: the speed is kept and sent in RUNNING; a report of FAULT is a halt event. -/
theorem speedAndDriveReports : Obligations.SpeedAndDriveReports := by
  refine ⟨fun s tag speed hawake => ?_, fun s m hawake => ?_⟩
  · intro c d e
    refine request_awake_eq hawake ?_
    unfold speedRequest
    by_cases hst : c.line.state = .config
    · rw [if_pos hst, Controller.carryOut_inConfig tag hst]
    · rw [if_neg hst, Controller.carryOut_onLine tag hst, Controller.carryOut_ite,
        Controller.carryOut_accept_keeps tag (c.setSpeed_eq speed.toNat)
          (c.setSpeed_gateInputs speed.toNat)]
      rfl
  · intro c d
    refine (telegram_awake hawake _).trans (congrArg s.then (if_congr Iff.rfl rfl ?_))
    show settled c (c.takeDriveState m) = _
    rw [Controller.takeDriveState_eq]
    by_cases hm : m ≠ .fault
    · rw [if_pos hm, if_pos hm]
      exact settled_of_gateInputs_eq rfl
    · rw [if_neg hm, if_neg hm]

/-! ### The input edges -/

/-- Settles O39: each edge is its level; the chain's level is read the way HALT_EDGE says. -/
theorem edgeInputsSetTheLevels : Obligations.EdgeInputsSetTheLevels := by
  intro s hawake c level seam opened
  refine ⟨⟨?_, ?_⟩, act_awake hawake _, act_awake hawake _, act_awake hawake _⟩
  · show (if c.haltEdgeSel = 1 then (c.haltEdgeSel == 1) else !(c.haltEdgeSel == 1)) = true
    split <;> simp_all
  · show (if c.haltEdgeSel = 1 then (c.haltEdgeSel != 1) else !(c.haltEdgeSel != 1)) = false
    split <;> simp_all

/-! ### Stops sent again -/

section Resend
variable {c : Controller}

theorem Controller.feedResend_more (h : c.feedSlipped = true) (hlt : c.line.resend < c.resendLimit) :
    c.feedResend = Controller.hand { c with line := { c.line with resend := c.line.resend + 1, origin := c.feedAt } } .f
      .driveHold := if_pos (by simp [h, hlt])

theorem Controller.feedResend_of_not (h : c.feedSlipped = false ∨ c.resendLimit ≤ c.line.resend) : c.feedResend = c :=
  if_neg (by simpa [Nat.not_lt] using fun k => h.resolve_left (by simp [k]))

theorem Controller.feedResendFault_limit (h : c.feedSlipped = true) (hle : c.resendLimit ≤ c.line.resend) :
    c.feedResendFault = Controller.halt
      (Controller.raise { c with line := { c.line with suspended := true } } .lineMotionFault (Detail.named .feed))
      .motion := if_pos (by simp [h, hle])

theorem Controller.feedResendFault_of_not (h : c.feedSlipped = false ∨ c.line.resend < c.resendLimit) :
    c.feedResendFault = c :=
  if_neg (by simpa [Nat.not_lt] using fun k => h.resolve_left (by simp [k]))

theorem Controller.sendStops_rolls (c : Controller) : c.sendStops.rolls = c.rolls := by
  unfold Controller.sendStops
  split <;> simp only [hand_rolls]

theorem Controller.sendStops_mot (c : Controller) : c.sendStops.mot = c.mot := by
  unfold Controller.sendStops
  split <;> simp only [Controller.hand_mot]

theorem Controller.sendStops_sansLinks (c : Controller) : c.sendStops.sansLinks = c.sansLinks := by
  unfold Controller.sendStops
  split <;> simp only [Controller.hand_sansLinks]

theorem Controller.unwindResend_more (h : c.unwindSlipped = true) (hlt : c.rolls.resend < c.resendLimit) :
    c.unwindResend = { c.sendStops with rolls := { c.rolls with resend := c.rolls.resend + 1, origin := c.unwAt } } := by
  refine (if_pos (by simp [h, hlt])).trans ?_
  simp only [Controller.sendStops_rolls, Controller.unwAt, Controller.sendStops_mot]

theorem Controller.unwindResend_of_not (h : c.unwindSlipped = false ∨ c.resendLimit ≤ c.rolls.resend) :
    c.unwindResend = c := if_neg (by simpa [Nat.not_lt] using fun k => h.resolve_left (by simp [k]))

theorem Controller.unwindResendFault_limit (h : c.unwindSlipped = true) (hle : c.resendLimit ≤ c.rolls.resend) :
    c.unwindResendFault =
      let d : Controller := { c with rolls := { c.rolls with suspended := true } }
      match c.rolls.job with
      | .stopping | .splicing =>
        (((d.raise .rollSpliceFault (Detail.named .unwind)).hand .s .spliceCancel)).moveJob .fault
      | .cancelWait => (d.raise .rollSpliceFault (Detail.named .unwind)).moveJob .fault
      | _ => d.unwindFault := (if_pos (by simp [h, hle])).trans rfl

theorem Controller.unwindResendFault_of_not (h : c.unwindSlipped = false ∨ c.rolls.resend < c.resendLimit) :
    c.unwindResendFault = c := if_neg (by simpa [Nat.not_lt] using fun k => h.resolve_left (by simp [k]))

end Resend

/-- An event away from its condition changes nothing. -/
theorem happening_of_eq_self {s : State} (h : s.onLine) {f : Controller → Controller} (hf : f s.ctl = s.ctl) :
    happening s f = s.then s.ctl := by
  rw [happening_onLine h, hf, settled_self]

theorem happening_of_eq {s : State} (h : s.onLine) {f : Controller → Controller} {d : Controller} (hf : f s.ctl = d) :
    happening s f = s.then (settled s.ctl d) := by
  rw [happening_onLine h, hf]

/-- An event that changes nothing R71 names is its effect. -/
theorem happening_of_gateInputs {s : State} (h : s.onLine) {f : Controller → Controller} {d : Controller}
    (hf : f s.ctl = d) (hg : d.gateInputs = s.ctl.gateInputs) : happening s f = s.then d := by
  rw [happening_onLine h, hf, settled_of_gateInputs_eq hg]

/-- Settles O40: each of the four events is its test's branch, by the slip condition and the count. -/
theorem stopsAreSentAgainToTheLimit : Obligations.StopsAreSentAgainToTheLimit := by
  intro s hon c feedLine idle
  refine ⟨fun h hlt => ⟨?_, ?_⟩, fun h hle => ⟨?_, ?_⟩, fun h => ⟨?_, ?_⟩, fun h hlt => ⟨?_, ?_⟩, fun h hle => ⟨?_, ?_⟩,
    fun h => ⟨?_, ?_⟩⟩
  · exact happening_of_gateInputs hon (Controller.feedResend_more h hlt) (Controller.hand_gateInputs ..)
  · exact happening_of_eq_self hon (Controller.feedResendFault_of_not (.inr hlt))
  · exact happening_of_eq hon (Controller.feedResendFault_limit h hle)
  · exact happening_of_eq_self hon (Controller.feedResend_of_not (.inr hle))
  · exact happening_of_eq_self hon (Controller.feedResend_of_not (.inl h))
  · exact happening_of_eq_self hon (Controller.feedResendFault_of_not (.inl h))
  · exact happening_of_gateInputs hon (Controller.unwindResend_more h hlt)
      (congrArg (fun d : Controller => Controller.gateInputs { d with rolls := c.rolls }) c.sendStops_sansLinks :)
  · exact happening_of_eq_self hon (Controller.unwindResendFault_of_not (.inr hlt))
  · refine (happening_of_eq hon (Controller.unwindResendFault_limit h hle)).trans ?_
    show s.then (settled c _) = s.then (settled c _)
    cases c.rolls.job <;> rfl
  · exact happening_of_eq_self hon (Controller.unwindResend_of_not (.inr hle))
  · exact happening_of_eq_self hon (Controller.unwindResend_of_not (.inl h))
  · exact happening_of_eq_self hon (Controller.unwindResendFault_of_not (.inl h))

end Sys2Proof.Machine

/-! The admission gate (R14, R71 to R81). What an evaluation of the gate looks at and what an admission leaves are read off
one view of the controller, which the tests of the gate do not change, and which the strokes taken at an admission do not
change either: the admitted panel's strokes lie ahead of the feed. -/

namespace Sys2Proof.Machine

/-! ### The view of an admission -/

/-- What an admission of record `id` is told by: the lists, the record, the last admitted tail, the rolls, the feed
count, the parameters, and the notice PANEL.SCHEDULE_EMPTY. -/
structure GateView where
  queue : List Nat
  roster : List Nat
  panel : Option Panel
  lastTail : Option Nat
  slots : List (Option Roll)
  feed : Nat
  params : List Nat
  groups : Nat
  places : Nat
  flag : Bool
  detail : Option (Option Detail)

def Controller.gateView (c : Controller) (id : Nat) : GateView where
  queue := c.tab.queue
  roster := c.tab.roster
  panel := c.panelById id
  lastTail := c.line.lastTail
  slots := c.rolls.slots
  feed := c.feedAt
  params := c.params
  groups := c.att.groups.length
  places := (c.att.group 2).details.length
  flag := (c.att.group 2).flags.getLsbD 3
  detail := (c.att.group 2).details[3]?

theorem Attention.group_two_raise (a : Attention) (n : Notice) (d : Detail) :
    (a.raise n d).group 2 =
      if n.group = 2 ∧ 1 < a.groups.length then (a.group 2).set n.source d else a.group 2 := by
  have hgroup := n.group_range
  show (a.groups.modify (n.group - 1) _).getD 1 _ = _
  rw [List.getD_eq_getElem?_getD, List.getElem?_modify]
  by_cases hlen : 1 < a.groups.length
  · by_cases hn : n.group = 2
    · simp [hn, hlen, Attention.group]
    · simp [hn, hlen, Attention.group, show n.group - 1 ≠ 1 by omega]
  · simp [hlen, Attention.group]

theorem NoticeGroup.set_source_four {n : Notice} (h : n.source ≠ 4) (g : NoticeGroup) (d : Detail) :
    (g.set n.source d).flags.getLsbD 3 = g.flags.getLsbD 3 ∧ (g.set n.source d).details[3]? = g.details[3]? := by
  have hsource := n.source_range
  constructor
  · simp only [NoticeGroup.set, BitVec.getLsbD_or, sourceBit_getLsbD hsource.1 (show 3 < 8 by decide)]
    simp [h.symm]
  · exact List.getElem?_set_ne (by omega)

theorem Notice.eq_scheduleEmpty {n : Notice} (hg : n.group = 2) (hs : n.source = 4) : n = .panelScheduleEmpty := by
  cases n <;> simp_all [Notice.group, Notice.source]

@[simp] theorem Controller.raise_gateView {n : Notice} (h : n ≠ .panelScheduleEmpty) (c : Controller) (d : Detail)
    (id : Nat) : (c.raise n d).gateView id = c.gateView id := by
  have hgroup : ((c.raise n d).att.group 2).details.length = (c.att.group 2).details.length ∧
      ((c.raise n d).att.group 2).flags.getLsbD 3 = (c.att.group 2).flags.getLsbD 3 ∧
      ((c.raise n d).att.group 2).details[3]? = (c.att.group 2).details[3]? := by
    show ((c.att.raise n d).group 2).details.length = _ ∧ ((c.att.raise n d).group 2).flags.getLsbD 3 = _ ∧
      ((c.att.raise n d).group 2).details[3]? = _
    rw [Attention.group_two_raise]
    split
    next hn => exact ⟨List.length_set .., NoticeGroup.set_source_four (fun h4 => h (Notice.eq_scheduleEmpty hn.1 h4)) _ _⟩
    next => exact ⟨rfl, rfl, rfl⟩
  have hlen : (c.raise n d).att.groups.length = c.att.groups.length := List.length_modify ..
  unfold Controller.gateView
  rw [hgroup.1, hgroup.2.1, hgroup.2.2, hlen]
  rfl

/-! ### What leaves the view -/

section View
variable (c : Controller) (id : Nat)

@[simp] theorem Controller.setLink_gateView (ch : Channel) (l : Link) :
    (c.setLink ch l).gateView id = c.gateView id := by cases ch <;> rfl

@[simp] theorem Controller.hand_gateView (ch : Channel) (x : TxItem) : (c.hand ch x).gateView id = c.gateView id := by
  rw [Controller.hand_eq]
  split <;> simp

@[simp] theorem Controller.commandUnwind_gateView (sp : Spindle) (m : UnwindMode) :
    (c.commandUnwind sp m).gateView id = c.gateView id := by
  have hmode : ((c.setSpindle sp { c.spindle sp with mode := some m }).hand .s (.unwindMode sp m)).gateView id =
      c.gateView id := by
    rw [Controller.hand_gateView]
    cases sp <;> rfl
  unfold Controller.commandUnwind
  simp only
  split <;> exact hmode

@[simp] theorem Controller.deriveUnwind_gateView : c.deriveUnwind.gateView id = c.gateView id := by
  have hspindle : ∀ (d : Controller) (sp : Spindle), (d.deriveSpindle sp).gateView id = d.gateView id := by
    intro d sp
    unfold Controller.deriveSpindle
    split <;> simp
  unfold Controller.deriveUnwind
  split
  · rw [hspindle, hspindle]
  · rfl

@[simp] theorem Controller.deriveZones_gateView : c.deriveZones.gateView id = c.gateView id := rfl

@[simp] theorem Controller.setChangeover_gateView (x : Changeover) :
    (c.setChangeover x).gateView id = c.gateView id := rfl

@[simp] theorem Controller.setBanked_gateView (b : Bool) : (c.setBanked b).gateView id = c.gateView id := by
  unfold Controller.setBanked
  rw [Controller.deriveZones_gateView, Controller.raise_gateView (by cases b <;> decide)]
  rfl

@[simp] theorem Controller.bankTest_gateView : c.bankTest.gateView id = c.gateView id := by
  unfold Controller.bankTest
  simp only
  split_ifs
  · rfl
  · rfl
  · rfl
  · rw [Controller.setBanked_gateView]
    rfl
  · rfl

@[simp] theorem Controller.enterLine_gateView (st : LineState) : (c.enterLine st).gateView id = c.gateView id := by
  unfold Controller.enterLine
  rw [Controller.deriveUnwind_gateView, Controller.bankTest_gateView]
  rfl

@[simp] theorem Controller.driveHold_gateView : c.driveHold.gateView id = c.gateView id := by
  unfold Controller.driveHold
  rw [Controller.hand_gateView]
  rfl

@[simp] theorem Controller.enterRunning_gateView : c.enterRunning.gateView id = c.gateView id := by
  unfold Controller.enterRunning
  rw [Controller.enterLine_gateView]
  exact Controller.hand_gateView { c with line := { c.line with mode := .run } } id .f (.driveRun c.line.speed)

@[simp] theorem Controller.setHold_gateView (k : HoldCause) (b : Bool) :
    (c.setHold k b).gateView id = c.gateView id := rfl

@[simp] theorem Controller.addHold_gateView (k : HoldCause) : (c.addHold k).gateView id = c.gateView id := by
  unfold Controller.addHold
  split_ifs <;> simp

@[simp] theorem Controller.removeHold_gateView (k : HoldCause) : (c.removeHold k).gateView id = c.gateView id := by
  unfold Controller.removeHold
  split_ifs <;> simp

@[simp] theorem Controller.drainTest_gateView : c.drainTest.gateView id = c.gateView id := by
  unfold Controller.drainTest
  split
  · split <;> simp
  · rfl

@[simp] theorem Controller.retarget_gateView (k : Nat) : (c.retarget k).gateView id = c.gateView id := by
  unfold Controller.retarget
  split <;> simp

@[simp] theorem Controller.requestClass_gateView (k : Nat) : (c.requestClass k).gateView id = c.gateView id := by
  unfold Controller.requestClass
  split_ifs <;> simp

@[simp] theorem Controller.cancelChangeover_gateView : c.cancelChangeover.gateView id = c.gateView id := by
  unfold Controller.cancelChangeover
  split <;> simp

@[simp] theorem Controller.headReport_gateView : c.headReport.gateView id = c.gateView id := by
  have hreport : ∀ d : Controller, d.chamberHeadReport.gateView id = d.gateView id := by
    intro d
    unfold Controller.chamberHeadReport
    split
    · rfl
    · split_ifs <;> simp
  exact (hreport { c with line := { c.line with fabricMark := false } }).trans rfl

theorem Controller.setQueue_gateView (queue : List Nat) :
    (c.setQueue queue).gateView id = { c.gateView id with queue := queue } := by
  unfold Controller.setQueue
  simp only
  split
  · rfl
  · rw [Controller.headReport_gateView]
    rfl

@[simp] theorem Controller.fabricNotice_gateView : c.fabricNotice.gateView id = c.gateView id := by
  unfold Controller.fabricNotice
  split
  · rfl
  · split
    · rw [Controller.raise_gateView (by decide)]
      rfl
    · rfl

@[simp] theorem Controller.heatRequest_gateView : c.heatRequest.gateView id = c.gateView id := by
  unfold Controller.heatRequest
  split
  · rfl
  · split <;> simp

@[simp] theorem Controller.maxGapTest_gateView : c.maxGapTest.gateView id = c.gateView id := by
  unfold Controller.maxGapTest
  split_ifs <;> simp

@[simp] theorem Controller.gateTests_gateView : c.gateTests.gateView id = c.gateView id := by
  simp [Controller.gateTests]

end View

/-! ### The strokes taken at an admission -/

theorem Controller.panelById_updatePanel_of_ne {c : Controller} {id other : Nat} (h : other ≠ id) {f : Panel → Panel}
    (hf : ∀ q, (f q).id = q.id) : (c.updatePanel other f).panelById id = c.panelById id := by
  unfold Controller.updatePanel Controller.panelById
  simp only
  induction c.tab.panels with
  | nil => rfl
  | cons q l ih =>
    rw [List.map_cons, List.find?_cons, List.find?_cons, ih]
    by_cases hq : q.id = other
    · simp [hq, hf, beq_false_of_ne h]
    · simp [hq]

theorem Controller.updatePanel_gateView (c : Controller) {id other : Nat} (h : other ≠ id) {f : Panel → Panel}
    (hf : ∀ q, (f q).id = q.id) : (c.updatePanel other f).gateView id = c.gateView id := by
  have hpanel := Controller.panelById_updatePanel_of_ne (c := c) h hf
  unfold Controller.gateView
  rw [hpanel]
  rfl

theorem Controller.countOn_gateView (c : Controller) {id other : Nat} (h : other ≠ id) (f : Placed → Placed) :
    (c.countOn other f).gateView id = c.gateView id := c.updatePanel_gateView h fun _ => rfl

theorem Controller.addCause_gateView (c : Controller) {id other : Nat} (h : other ≠ id) (k : Cause) :
    (c.addCause other k).gateView id = c.gateView id := by
  unfold Controller.addCause
  split
  · rfl
  · split
    · rw [Controller.raise_gateView (by decide)]
      exact c.updatePanel_gateView h fun _ => rfl
    · exact c.updatePanel_gateView h fun _ => rfl

theorem Controller.advanceCursor_gateView (c : Controller) (k : Cursor) (id : Nat) :
    (c.advanceCursor k).gateView id = c.gateView id := by
  unfold Controller.advanceCursor
  split <;> rfl

theorem Controller.missStroke_gateView (c : Controller) {k : Cursor} {id : Nat} (h : k.panel ≠ id) :
    (c.missStroke k).gateView id = c.gateView id := by
  unfold Controller.missStroke
  simp only
  rw [Controller.advanceCursor_gateView, Controller.raise_gateView (by decide), Controller.addCause_gateView _ h,
    Controller.countOn_gateView _ h]

theorem Controller.issueStroke_gateView (c : Controller) {k : Cursor} {id : Nat} (h : k.panel ≠ id) :
    (c.issueStroke k).gateView id = c.gateView id := by
  unfold Controller.issueStroke
  simp only
  rw [Controller.advanceCursor_gateView, Controller.countOn_gateView _ h]
  exact c.hand_gateView id .p (.stroke c.seq.next k.kind k.depth)

/-- The record of the view is placed with its strokes ahead of the feed. -/
def GateView.ahead (v : GateView) : Prop :=
  ∃ p x, v.panel = some p ∧ p.placed = some x ∧ v.feed < x.leadA + v.params.getD 1 0

/-- The cursor does not stand at a stroke of record `id` that the feed has reached. -/
def Controller.aheadOf (c : Controller) (id : Nat) : Prop :=
  ∀ k, c.seq.cursor = some k → k.panel = id → c.feedAt < k.due

theorem Controller.strokeFrom_ahead {c : Controller} {id : Nat} (ha : (c.gateView id).ahead) {p : Panel}
    (hp : c.panelById p.id = some p) {i r o : Nat} {k : Cursor} (hk : c.strokeFrom p i r o = some k)
    (hid : k.panel = id) : c.feedAt < k.due := by
  obtain ⟨q, x, hq, hx, hfeed⟩ := ha
  unfold Controller.strokeFrom at hk
  cases hplaced : p.placed with
  | none => simp [hplaced] at hk
  | some y =>
    simp only [hplaced, Option.map_eq_some_iff] at hk
    obtain ⟨z, -, rfl⟩ := hk
    have hpq : p = q := by
      rw [show p.id = id from hid] at hp
      exact Option.some.inj (hp.symm.trans hq)
    rw [hpq, hx] at hplaced
    obtain rfl := Option.some.inj hplaced
    exact Nat.lt_of_lt_of_le hfeed (Nat.le_add_right _ _)

theorem Controller.panelById_self {c : Controller} {id : Nat} {p : Panel} (h : c.panelById id = some p) :
    c.panelById p.id = some p := by rwa [(panelById_mem h).2]

theorem Controller.seekCursor_aheadOf {c : Controller} {id : Nat} (ha : (c.gateView id).ahead) :
    c.seekCursor.aheadOf id := by
  intro k hk hid
  obtain ⟨p, hp, hpk⟩ := List.exists_of_findSome?_eq_some hk
  obtain ⟨i, -, hi⟩ := List.mem_filterMap.mp hp
  split at hpk
  · exact Controller.strokeFrom_ahead ha (Controller.panelById_self hi) hpk hid
  · cases hpk

theorem Controller.advanceCursor_aheadOf {c : Controller} {id : Nat} (ha : (c.gateView id).ahead) (k : Cursor) :
    (c.advanceCursor k).aheadOf id := by
  unfold Controller.advanceCursor
  split
  next k' hk' =>
    intro j hj hid
    obtain rfl : k' = j := Option.some.inj hj
    obtain ⟨p, hp, hpk⟩ := Option.bind_eq_some_iff.mp hk'
    split at hpk
    · cases hpk
    · exact Controller.strokeFrom_ahead ha (Controller.panelById_self hp) hpk hid
  next => exact Controller.seekCursor_aheadOf ha

/-- One crossing taken is of another panel's stroke, and leaves the view. -/
theorem Controller.strokeCrossing_gateView {c d : Controller} {id : Nat} (ha : (c.gateView id).ahead)
    (hc : c.aheadOf id) (h : c.strokeCrossing = some d) : d.gateView id = c.gateView id ∧ d.aheadOf id := by
  unfold Controller.strokeCrossing at h
  cases hk : c.seq.cursor with
  | none => simp [hk] at h
  | some k =>
    simp only [hk] at h
    have hlate : k.panel = id → c.isLate k = false := fun hid => by
      have := hc k hk hid
      simp only [Controller.isLate, decide_eq_false_iff_not]
      omega
    have hmiss : k.panel ≠ id → (c.missStroke k).gateView id = c.gateView id ∧ (c.missStroke k).aheadOf id := by
      intro hne
      have hview := c.missStroke_gateView hne
      refine ⟨hview, Controller.advanceCursor_aheadOf ?_ k⟩
      rw [← Controller.advanceCursor_gateView _ k]
      exact hview ▸ ha
    have hissue : k.panel ≠ id → (c.issueStroke k).gateView id = c.gateView id ∧ (c.issueStroke k).aheadOf id := by
      intro hne
      have hview := c.issueStroke_gateView hne
      refine ⟨hview, Controller.advanceCursor_aheadOf ?_ k⟩
      rw [← Controller.advanceCursor_gateView _ k]
      exact hview ▸ ha
    split_ifs at h with hw hl hdue hf hpass
    · cases h
      exact hmiss fun hid => by simp [hlate hid] at hl
    · cases h
      exact hmiss fun hid => hdue (hc k hk hid)
    · cases h
      exact hissue fun hid => hdue (hc k hk hid)
    · cases h
      refine ⟨rfl, fun j hj hid => ?_⟩
      obtain rfl := Option.some.inj hj
      exact hc k hk hid

theorem Controller.strokeCrossings_gateView {id : Nat} (n : Nat) (c : Controller) (ha : (c.gateView id).ahead)
    (hc : c.aheadOf id) : (Controller.strokeCrossings n c).gateView id = c.gateView id := by
  induction n generalizing c with
  | zero => rfl
  | succ n ih =>
    unfold Controller.strokeCrossings
    split
    · rfl
    next d hd =>
      obtain ⟨hview, hd'⟩ := Controller.strokeCrossing_gateView ha hc hd
      rw [ih d (hview ▸ ha) hd', hview]

theorem Controller.cursorTake_gateView {c : Controller} {id : Nat} (ha : (c.gateView id).ahead) :
    c.cursorTake.gateView id = c.gateView id := by
  unfold Controller.cursorTake
  split
  · exact Controller.strokeCrossings_gateView _ c.seekCursor ha (Controller.seekCursor_aheadOf ha)
  · rfl

/-! ### The conditions of an admission -/

theorem ParamsSound.headDist_pos {c : Controller} (h : ParamsSound c.params) : 0 < c.headDist := by
  have := h.2 2 (by decide) (by decide)
  simp only [paramAccepts, paramRanges, ParamRange.holds] at this
  simp at this
  exact Nat.lt_of_lt_of_le (by decide) this.1

theorem ParamsSound.minGap_pos {c : Controller} (h : ParamsSound c.params) : 0 < c.minGap := by
  have := h.2 4 (by decide) (by decide)
  simp only [paramAccepts, paramRanges, ParamRange.holds] at this
  simp at this
  exact Nat.lt_of_lt_of_le (by decide) this.1

theorem Controller.admissible_iff (c : Controller) :
    c.admissible = true ↔ ∃ p, c.headPanel = some p ∧ c.line.state = .running ∧ c.gateSpacing = true ∧
      c.gateRoll = true ∧ c.gateSeams p = true ∧ c.gateFabric p = true ∧ c.gateHeat p = true ∧ c.mot.limit = false := by
  unfold Controller.admissible
  cases c.headPanel with
  | none => simp
  | some p => simp [and_assoc]

theorem Controller.removalTest_iff (c : Controller) :
    c.removalTest = true ↔ ∃ p, c.headPanel = some p ∧ c.mot.limit = false ∧ c.gateRoll = true ∧
      c.gateFabric p = true ∧ c.gateHeat p = true := by
  unfold Controller.removalTest
  cases c.headPanel with
  | none => simp
  | some p => simp [and_assoc]

/-- The controller with what a MAX_GAP cause and the banking test change blanked. -/
def Controller.sansHold (c : Controller) : Controller :=
  let b := Controller.fresh false false
  { c with
    line := { c.line with holds := b.line.holds }
    cham := { c.cham with zones := [], bankOn := false, bankTimer := none, banked := false }
    att := b.att }

/-- While the line runs, a cause removed is only removed. -/
theorem Controller.removeHold_sansHold {c : Controller} (h : c.line.state = .running) (k : HoldCause) :
    (c.removeHold k).sansHold = c.sansHold := by
  unfold Controller.removeHold
  split
  · rfl
  rw [if_neg (by simp [h])]
  unfold Controller.bankTest
  simp only
  split_ifs <;> rfl

/-- The tests of an evaluation whose head is admissible: the MAX_GAP cause is removed. -/
theorem Controller.gateTests_of_admissible {c : Controller} (h : c.admissible = true) :
    c.gateTests = c.removeHold .maxGap := by
  obtain ⟨p, hp, -, -, hroll, -, hfabric, hheat, hlimit⟩ := c.admissible_iff.mp h
  have hnotice : c.fabricNotice = c := by simp [Controller.fabricNotice, hp, hfabric]
  have hrequest : c.heatRequest = c := by simp [Controller.heatRequest, hp, hheat]
  have hremoval : c.removalTest = true := c.removalTest_iff.mpr ⟨p, hp, hlimit, hroll, hfabric, hheat⟩
  rw [Controller.gateTests, hnotice, hrequest, Controller.maxGapTest, if_pos hremoval]

theorem Controller.gate_eq {c : Controller} (h : c.commissioned = true) :
    c.gate = match c.gateTests.headPanel with
      | some p => if c.gateTests.admissible = true then (c.gateTests.admitPanel p).gateTests else c.gateTests
      | none => c.gateTests := if_pos h

/-- An evaluation with an admissible head admits it. -/
theorem Controller.gate_of_admissible {c : Controller} (hon : c.commissioned = true) (h : c.admissible = true)
    {p : Panel} (hp : c.headPanel = some p) :
    c.gate = ((c.removeHold .maxGap).admitPanel p).gateTests := by
  obtain ⟨-, -, hrun, -⟩ := c.admissible_iff.mp h
  have hsans := Controller.removeHold_sansHold hrun .maxGap
  have hhead : (c.removeHold .maxGap).headPanel = some p := (congrArg Controller.headPanel hsans :).trans hp
  have hadm : (c.removeHold .maxGap).admissible = true := (congrArg Controller.admissible hsans :).trans h
  rw [Controller.gate_eq hon, Controller.gateTests_of_admissible h]
  simp only [hhead, if_pos hadm]

/-- An evaluation that admits nothing is its tests. -/
theorem Controller.gate_of_not_spacing {c : Controller} (h : c.gateTests.gateSpacing = false) :
    c.gate = if c.commissioned = true then c.gateTests else c := by
  have hadm : c.gateTests.admissible ≠ true := fun hadm => by
    obtain ⟨-, -, -, hspace, -⟩ := c.gateTests.admissible_iff.mp hadm
    simp [h] at hspace
  by_cases hon : c.commissioned = true
  · rw [if_pos hon, Controller.gate_eq hon]
    split
    · rw [if_neg hadm]
    · rfl
  · rw [if_neg hon]
    exact if_neg hon

/-- Condition 3, read off the view. -/
def GateView.spacing (v : GateView) : Bool :=
  match v.lastTail with
  | some t => decide (t + v.params.getD 3 0 ≤ v.feed)
  | none => true

theorem Controller.gateSpacing_eq (c : Controller) (id : Nat) : c.gateSpacing = (c.gateView id).spacing := rfl

/-- After an admission another evaluation leaves the view: the last admitted tail is too near. -/
theorem Controller.gate_gateView {c : Controller} {id : Nat} (h : (c.gateView id).spacing = false) :
    c.gate.gateView id = c.gateView id := by
  rw [Controller.gate_of_not_spacing (by rw [c.gateTests.gateSpacing_eq id, Controller.gateTests_gateView, h])]
  split <;> simp

/-! ### What an admission leaves -/

/-- The record of an admitted panel. -/
def Panel.fed (p : Panel) (x : Placed) : Panel := { p with state := .feeding, placed := some x }

theorem Controller.panelById_updatePanel {c : Controller} {id : Nat} {p : Panel} (h : c.panelById id = some p)
    {f : Panel → Panel} (hf : ∀ q, (f q).id = q.id) : (c.updatePanel id f).panelById id = some (f p) := by
  have hpid := (panelById_mem h).2
  have hfind : c.tab.panels.find? ((fun q => q.id == id) ∘ fun q => if q.id = id then f q else q) = some p := by
    rw [← h]
    refine congrArg (fun t => c.tab.panels.find? t) (funext fun q => ?_)
    by_cases hq : q.id = id <;> simp [hq, hf]
  show (c.tab.panels.map _).find? _ = _
  rw [List.find?_map, hfind, Option.map_some, if_pos hpid]

/-- The view with PANEL.SCHEDULE_EMPTY raised, when the queue holds its head alone. -/
def GateView.told (v : GateView) (x : Detail) : GateView :=
  { v with
    flag := v.queue.tail.isEmpty || v.flag
    detail := if v.queue.tail.isEmpty then some (some x) else v.detail }

/-- The view after an admission (R14, R76). -/
def GateView.afterAdmission (v : GateView) (p : Panel) (x : Placed) : GateView :=
  let w : GateView := { v with
    roster := v.roster ++ [p.id], panel := some (p.fed x), lastTail := some (x.leadA + p.flatLength)
    slots := v.slots.map (fun slot => slot.map (fun r => if r.id = x.roll then { r with refs := r.refs + 1 } else r)) }
  { w.told (Detail.num p.number) with queue := w.queue.tail }

theorem Controller.told_gateView {c : Controller} {id : Nat} (six : (c.gateView id).groups = 6)
    (eight : (c.gateView id).places = 8) (x : Detail) :
    (if c.tab.queue.tail.isEmpty then c.raise .panelScheduleEmpty x else c).gateView id = (c.gateView id).told x := by
  have hlen : 1 < c.att.groups.length := by
    rw [show c.att.groups.length = 6 from six]
    decide
  have hgroup : (c.raise .panelScheduleEmpty x).att.group 2 = (c.att.group 2).set 4 x :=
    (Attention.group_two_raise ..).trans (if_pos ⟨rfl, hlen⟩)
  have hgroups : (c.raise .panelScheduleEmpty x).att.groups.length = c.att.groups.length := List.length_modify ..
  have hplaces : ((c.att.group 2).set 4 x).details.length = (c.att.group 2).details.length := List.length_set ..
  have hflag : ((c.att.group 2).set 4 x).flags.getLsbD 3 = true := by
    simp [NoticeGroup.set, sourceBit_getLsbD (n := 4) (k := 3) (by decide) (by decide)]
  have hdetail : ((c.att.group 2).set 4 x).details[3]? = some (some x) :=
    List.getElem?_set_self (show 3 < (c.att.group 2).details.length by
      rw [show (c.att.group 2).details.length = 8 from eight]; decide)
  by_cases h : c.tab.queue.tail.isEmpty = true
  · rw [if_pos h]
    unfold GateView.told Controller.gateView
    rw [hgroup, hgroups, hplaces, hflag, hdetail, h]
    rfl
  · rw [if_neg h]
    unfold GateView.told
    rw [show (c.gateView id).queue.tail.isEmpty = false from Bool.eq_false_iff.mpr h]
    rfl

/-- The end of an admission: the notice, and the queue without its head. -/
theorem Controller.popped_gateView {c : Controller} {id : Nat} (six : (c.gateView id).groups = 6)
    (eight : (c.gateView id).places = 8) (x : Detail) :
    let d := if c.tab.queue.tail.isEmpty then c.raise .panelScheduleEmpty x else c
    (d.setQueue d.tab.queue.tail).gateView id =
      { (c.gateView id).told x with queue := (c.gateView id).queue.tail } := by
  intro d
  have htold : d.gateView id = (c.gateView id).told x := Controller.told_gateView six eight x
  rw [Controller.setQueue_gateView, show d.tab.queue = (d.gateView id).queue from rfl, htold]
  rfl

theorem Controller.takeOn_gateView {c : Controller} {p : Panel} (hp : c.panelById p.id = some p)
    (six : (c.gateView p.id).groups = 6) (eight : (c.gateView p.id).places = 8) (x : Placed) :
    (c.takeOn p x).gateView p.id = (c.gateView p.id).afterAdmission p x := by
  have hcounted : (((c.updatePanel p.id (fun q => { q with state := .feeding, placed := some x })).countRoll
      x.roll).removeHold .maxGap).gateView p.id = { c.gateView p.id with
        panel := some (p.fed x)
        slots := c.rolls.slots.map (fun slot => slot.map (fun r =>
          if r.id = x.roll then { r with refs := r.refs + 1 } else r)) } := by
    rw [Controller.removeHold_gateView]
    have hpanel := Controller.panelById_updatePanel hp (f := fun q => { q with state := .feeding, placed := some x })
      fun _ => rfl
    exact congrArg (fun o => ({ c.gateView p.id with
      panel := o
      slots := c.rolls.slots.map (fun slot => slot.map (fun r =>
        if r.id = x.roll then { r with refs := r.refs + 1 } else r)) } : GateView)) hpanel
  unfold Controller.takeOn
  simp only
  generalize ((c.updatePanel p.id (fun q => { q with state := .feeding, placed := some x })).countRoll
    x.roll).removeHold .maxGap = d at hcounted
  have hview : Controller.gateView { d with
      line := { d.line with lastTail := some (x.leadA + p.flatLength) }
      tab := { d.tab with roster := d.tab.roster ++ [p.id] } } p.id = { d.gateView p.id with
        roster := (d.gateView p.id).roster ++ [p.id], lastTail := some (x.leadA + p.flatLength) } := rfl
  rw [hcounted] at hview
  refine (Controller.popped_gateView ((congrArg GateView.groups hview).trans six)
    ((congrArg GateView.places hview).trans eight) (Detail.num p.number)).trans ?_
  rw [hview]
  rfl

/-- An admission's view: the panel's first stroke lies ahead of the feed, so the strokes taken then leave it. -/
theorem Controller.admitPanel_gateView {c : Controller} {p : Panel} (hp : c.panelById p.id = some p)
    (six : (c.gateView p.id).groups = 6) (eight : (c.gateView p.id).places = 8) (hdist : 0 < c.headDist) :
    (c.admitPanel p).gateView p.id = (c.gateView p.id).afterAdmission p (c.placedFor p) := by
  have htake := Controller.takeOn_gateView hp six eight (c.placedFor p)
  have hlead : (c.placedFor p).leadA = c.feedAt := by
    unfold Controller.placedFor
    split <;> rfl
  have hahead : ((c.takeOn p (c.placedFor p)).gateView p.id).ahead := by
    rw [htake]
    refine ⟨_, _, rfl, rfl, ?_⟩
    rw [hlead]
    exact Nat.lt_add_of_pos_right hdist
  exact (Controller.cursorTake_gateView hahead).trans htake

theorem Controller.placedFor_eq (c : Controller) (p : Panel) :
    c.placedFor p = ⟨c.feedAt, c.rolls.feedRoll.getD 0, ((c.heatClass (c.panelHeat p)).map HeatClass.doseMin).getD 0,
      ((c.heatClass (c.panelHeat p)).map HeatClass.doseMax).getD 0, 0, 0, 0, 0, 0⟩ := by
  unfold Controller.placedFor
  cases c.heatClass (c.panelHeat p) <;> rfl

theorem AttentionSound.details_length {a : Attention} {held : Bool} (h : AttentionSound a held) {g : Nat}
    (hlow : 1 ≤ g) (hhigh : g ≤ 6) : (a.group g).details.length = 8 := by
  have hlen : g - 1 < a.groups.length := by
    rw [h.six]
    omega
  have hmem : a.group g = a.groups[g - 1] := by simp [Attention.group, hlen]
  rw [hmem]
  exact h.eight _ (List.getElem_mem hlen)

/-- The view after ADMISSION, in a sound controller whose queue's head is admissible. -/
theorem exec_admission {s : State} (hon : s.onLine) (hs : Sound s.ctl) {p : Panel} (hp : s.ctl.headPanel = some p)
    (hadm : s.ctl.admissible = true) :
    ∃ t : State, exec .admission s = .next t ∧
      t.ctl.gateView p.id = (s.ctl.gateView p.id).afterAdmission p (s.ctl.placedFor p) := by
  obtain ⟨-, -, hrun, -⟩ := s.ctl.admissible_iff.mp hadm
  obtain ⟨rest, hqueue, hid⟩ := headPanel_spec hp
  have six : (s.ctl.gateView p.id).groups = 6 := hs.blocks.attention.six
  have eight : (s.ctl.gateView p.id).places = 8 := hs.blocks.attention.details_length (by decide) (by decide)
  have hparams := hs.blocks.params
  have hsans := Controller.removeHold_sansHold hrun .maxGap
  have hview := s.ctl.removeHold_gateView p.id .maxGap
  have hplaced : (s.ctl.removeHold .maxGap).placedFor p = s.ctl.placedFor p :=
    (congrArg (fun c : Controller => c.placedFor p) hsans :)
  have hgate : s.ctl.gate.gateView p.id = (s.ctl.gateView p.id).afterAdmission p (s.ctl.placedFor p) := by
    rw [Controller.gate_of_admissible hon.2 hadm hp, Controller.gateTests_gateView,
      Controller.admitPanel_gateView ((congrArg GateView.panel hview).trans hid)
        ((congrArg GateView.groups hview).trans six) ((congrArg GateView.places hview).trans eight) ?_, hview, hplaced]
    exact (congrArg (fun v : GateView => 0 < v.params.getD 1 0) hview).mpr hparams.headDist_pos
  have hspacing : (s.ctl.gate.gateView p.id).spacing = false := by
    have hgap : 0 < s.ctl.minGap := hparams.minGap_pos
    rw [hgate]
    show decide ((s.ctl.placedFor p).leadA + p.flatLength + s.ctl.minGap ≤ s.ctl.feedAt) = false
    rw [Controller.placedFor_eq, decide_eq_false_iff_not]
    simp only
    omega
  have hchanged : s.ctl.gate.gateInputs ≠ s.ctl.gateInputs := by
    intro h
    have hq : s.ctl.gate.tab.queue = s.ctl.tab.queue := congrArg GateInputs.queue h
    rw [show s.ctl.gate.tab.queue = s.ctl.tab.queue.tail from congrArg GateView.queue hgate, hqueue] at hq
    exact absurd (congrArg List.length hq) (by simp)
  refine ⟨{ s with ctl := s.ctl.gate.gate }, ?_, (Controller.gate_gateView hspacing).trans hgate⟩
  refine (happening_of_eq hon (if_pos hadm)).trans ?_
  rw [settled, if_neg hchanged]
  rfl

/-! ### The conditions, one by one -/

section Conditions
variable (c : Controller)

theorem Controller.gateSpacing_iff :
    c.gateSpacing = true ↔ ∀ x, c.line.lastTail = some x → x + c.minGap ≤ c.feedAt := by
  unfold Controller.gateSpacing
  cases c.line.lastTail <;> simp

theorem Controller.gateRoll_iff :
    c.gateRoll = true ↔ c.rolls.job = .normal ∧ ∃ r, c.runningRoll = some r ∧ c.spliceAt < r.remaining := by
  unfold Controller.gateRoll
  cases c.runningRoll <;> simp

theorem Controller.gateSeams_iff (p : Panel) :
    c.gateSeams p = true ↔
      ∀ e ∈ c.rolls.seams, e.coord < c.feedAt ∨ c.feedAt + p.flatLength + c.seamClear ≤ e.coord := by
  unfold Controller.gateSeams
  simp only [List.all_eq_true, Bool.not_eq_true', Bool.and_eq_false_iff, decide_eq_false_iff_not, Nat.not_le, Nat.not_lt]

theorem Controller.gateFabric_iff (p : Panel) :
    c.gateFabric p = true ↔
      ∃ r, c.rolls.feedRoll.bind c.rollById = some r ∧ (c.panelFabric p = 0 ∨ c.panelFabric p = r.fabric) := by
  unfold Controller.gateFabric Controller.feedRollRec
  cases c.rolls.feedRoll.bind c.rollById <;> simp

theorem Controller.fabricNotice_some {p : Panel} (h : c.headPanel = some p) :
    c.fabricNotice =
      if c.gateFabric p = false ∧ c.rolls.feedRoll.bind c.rollById ≠ none ∧ c.line.fabricMark = false then
        Controller.raise { c with line := { c.line with fabricMark := true } } .panelAdmitBlocked (Detail.named .fabric)
      else c := by
  unfold Controller.fabricNotice
  simp only [h]
  refine if_congr ?_ rfl rfl
  simp [Controller.feedRollRec, Option.isSome_iff_ne_none, and_assoc]

theorem Controller.heatRequest_some {p : Panel} (h : c.headPanel = some p) :
    c.heatRequest = if c.gateHeat p = true then c else c.requestClass (c.panelHeat p) := by
  unfold Controller.heatRequest
  simp only [h]

theorem Controller.maxGapTest_eq :
    c.maxGapTest =
      if c.removalTest = true then c.removeHold .maxGap
      else if c.maxGap ≠ 0 ∧ c.maxGap ≤ c.gap ∧ c.webClear = true then c.addHold .maxGap else c := by
  unfold Controller.maxGapTest Controller.maxGapDue
  cases c.removalTest <;> simp [and_assoc]

end Conditions

theorem exec_maxGapHold {s : State} (hon : s.onLine) :
    exec .maxGapHold s = s.then (
      if s.ctl.maxGap ≠ 0 ∧ s.ctl.maxGap ≤ s.ctl.gap ∧ s.ctl.webClear = true ∧ s.ctl.removalTest = false then
        settled s.ctl (s.ctl.addHold .maxGap)
      else s.ctl) := by
  refine (happening_onLine hon _).trans (congrArg s.then ?_)
  rw [apply_ite (settled s.ctl), settled_self]
  exact if_congr (by simp [Controller.maxGapDue, and_assoc]) rfl rfl

/-- An event that leaves the controller as it is, commissioned or not. -/
theorem happening_keeps {s : State} (hawake : s.awake) {f : Controller → Controller} (hf : f s.ctl = s.ctl) :
    happening s f = s.then s.ctl := by
  refine (act_awake hawake _).trans (congrArg s.then ?_)
  show (if s.ctl.commissioned = true then settled s.ctl (f s.ctl) else s.ctl) = s.ctl
  rw [hf, settled_self, ite_self]

/-- The rolls with the feed roll's count raised: the roll admission names is the feed roll. -/
theorem Controller.fed_slots {c : Controller} {p : Panel} (h : c.gateFabric p = true) :
    c.rolls.slots.map (fun slot => slot.map (fun r =>
        if r.id = c.rolls.feedRoll.getD 0 then { r with refs := r.refs + 1 } else r)) =
      c.rolls.slots.map (fun slot => slot.map (fun r =>
        if some r.id = c.rolls.feedRoll then { r with refs := r.refs + 1 } else r)) := by
  obtain ⟨r, hr, -⟩ := (c.gateFabric_iff p).mp h
  obtain ⟨i, hi, -⟩ := Option.bind_eq_some_iff.mp hr
  simp [hi]

/-- Settles O41: an admissible head is taken on, and the view of it survives the evaluations that follow; the
conditions and the tests are read off their definitions. -/
theorem admissionTakesTheQueueHead : Obligations.AdmissionTakesTheQueueHead := by
  refine ⟨fun s p hon hs hp hrun hspace hroll hseams hfabric hheat hlimit => ?_,
    fun s hawake h => happening_keeps hawake (if_neg (by simp [h])), fun s hon => exec_maxGapHold hon, fun c => ?_⟩
  · have hadm := s.ctl.admissible_iff.mpr ⟨p, hp, hrun, hspace, hroll, hseams, hfabric, hheat, hlimit⟩
    obtain ⟨t, ht, hview⟩ := exec_admission hon hs hp hadm
    rw [Controller.placedFor_eq] at hview
    have hpanel : t.ctl.panelById p.id = some (p.fed _) := congrArg GateView.panel hview
    refine ⟨t, ht, congrArg GateView.queue hview, congrArg GateView.roster hview, congrArg GateView.lastTail hview,
      p.fed _, (panelById_mem hpanel).1, rfl, rfl, rfl, rfl, rfl, rfl, rfl,
      (congrArg GateView.slots hview).trans (Controller.fed_slots hfabric), fun hempty => ?_⟩
    have hflag := congrArg GateView.flag hview
    have hdetail := congrArg GateView.detail hview
    simp only [GateView.afterAdmission, GateView.told, Controller.gateView, hempty, List.isEmpty_nil, Bool.true_or,
      if_true] at hflag hdetail
    exact ⟨hflag, hdetail⟩
  · intro fed
    refine ⟨c.gateSpacing_iff, c.gateRoll_iff, fun p => ⟨c.gateSeams_iff p, c.gateFabric_iff p,
      by simp [Controller.gateHeat]⟩, c.admissible_iff, c.removalTest_iff, fun h => ⟨by simp [Controller.fabricNotice, h],
      by simp [Controller.heatRequest, h]⟩,
      fun p h => ⟨c.fabricNotice_some h, c.heatRequest_some h⟩, c.maxGapTest_eq, ?_⟩
    intro tests
    by_cases hon : c.commissioned = true
    · exact (Controller.gate_eq hon).trans (if_neg (by simp [hon])).symm
    · rw [if_pos (by simpa using hon)]
      exact if_neg hon

end Sys2Proof.Machine

/-! The requests on rolls and spindles, and the splice (R85 to R89, R91, R92, R96 to R103). -/

namespace Sys2Proof.Machine

/-! ### An event and a telegram by its condition -/

/-- An event that has an effect under a condition and is nothing away from it. -/
theorem happening_ite {s : State} (hon : s.onLine) {f : Controller → Controller} {p : Prop} [Decidable p] {d : Controller}
    (hf : f s.ctl = if p then d else s.ctl) : happening s f = s.then (if p then settled s.ctl d else s.ctl) := by
  rw [happening_onLine hon, hf, apply_ite (settled s.ctl), settled_self]

/-- A telegram heard, by what its owner makes of it. -/
theorem telegram_eq {s : State} (hawake : s.awake) {t : RxTelegram} (hh : s.ctl.hears t.channel = true) {d : Controller}
    (hf : s.ctl.takeTelegram t = d) : telegram s t = s.then (settled s.ctl d) := by
  rw [telegram_heard hawake hh, hf]

theorem telegram_ite {s : State} (hawake : s.awake) {t : RxTelegram} (hh : s.ctl.hears t.channel = true) {p : Prop}
    [Decidable p] {d : Controller} (hf : s.ctl.takeTelegram t = if p then d else s.ctl) :
    telegram s t = s.then (if p then settled s.ctl d else s.ctl) := by
  rw [telegram_heard hawake hh, hf, apply_ite (settled s.ctl), settled_self]

/-- A telegram heard that its owner makes nothing of. -/
theorem telegram_keeps {s : State} (hawake : s.awake) {t : RxTelegram} (hf : s.ctl.takeTelegram t = s.ctl) :
    telegram s t = s.then s.ctl := by
  rw [telegram_awake hawake, hf, settled_self, ite_self]

/-! ### Requests that name a spindle -/

section OnSpindle
variable {c : Controller} (tag : Byte) {code : Nat} (i : Nat) (r : Spindle → Request)

theorem Controller.carryOut_onSpindle_none (h : spindleOf code = none) :
    c.carryOut tag (onSpindle code i r) = c.answered .badField tag (field 1 i) := by
  unfold Controller.carryOut onSpindle
  rw [h]
  rfl

theorem Controller.carryOut_onSpindle_some {x : Spindle} (h : spindleOf code = some x) :
    c.carryOut tag (onSpindle code i r) = c.carryOut tag (r x) := by
  unfold Controller.carryOut onSpindle
  rw [h]

theorem Controller.carryOut_whenCommissioned_not (r : Request) :
    c.carryOut tag (whenCommissioned r) =
      if c.commissioned = false then c.answered .notCommissioned tag [] else c.carryOut tag r := by
  rw [c.carryOut_whenCommissioned]
  cases c.commissioned <;> rfl

end OnSpindle

@[simp] theorem Controller.setSpindle_job (c : Controller) (sp : Spindle) (r : SpindleRec) :
    (c.setSpindle sp r).rolls.job = c.rolls.job := by cases sp <;> rfl

@[simp] theorem Controller.setSpindle_commissioned (c : Controller) (sp : Spindle) (r : SpindleRec) :
    (c.setSpindle sp r).commissioned = c.commissioned := by cases sp <;> rfl

/-! ### MOUNT_ROLL, UNMOUNT_ROLL, CLEAR_SPINDLE, RETIRE_ROLL -/

/-- The controller with roll `id` mounted on a spindle. -/
def Controller.mounted (c : Controller) (id : Nat) (x : Spindle) : Controller :=
  (c.updateRoll id (fun r => { r with state := .mounted, spindle := some x })).setSpindle x
    { c.spindle x with state := .loaded, roll := some id }

theorem Controller.mountRoll_eq (c : Controller) (id : Nat) (x : Spindle) :
    c.mountRoll id x = if c.commissioned = true ∧ c.rolls.job = .low ∧ (c.mounted id x).idleSpindle = some x then
      (c.mounted id x).enterPending else c.mounted id x := by
  show (if (c.mounted id x).commissioned && (c.mounted id x).rolls.job == .low &&
    (c.mounted id x).idleSpindle == some x then _ else _) = _
  have hon : (c.mounted id x).commissioned = c.commissioned := Controller.setSpindle_commissioned ..
  have hjob : (c.mounted id x).rolls.job = c.rolls.job := Controller.setSpindle_job ..
  rw [hon, hjob]
  exact if_congr (by simp [and_assoc]) rfl rfl

/-- The controller with the roll of a spindle taken off it. -/
def Controller.unmounted (c : Controller) (x : Spindle) : Controller :=
  (c.updateRoll ((c.spindle x).roll.getD 0) (fun r => { r with state := .registered, spindle := none })).setSpindle x
    { c.spindle x with state := .empty, roll := none }

theorem Controller.unmountRoll_eq (c : Controller) (x : Spindle) :
    c.unmountRoll x = if c.commissioned = true ∧ (c.rolls.job = .pending ∨ c.rolls.job = .retryWait) then
      (if (c.unmounted x).rollIsLow = true then (c.unmounted x).enterLow else (c.unmounted x).enterNormal)
      else c.unmounted x := by
  have hon : (c.unmounted x).commissioned = c.commissioned := Controller.setSpindle_commissioned ..
  have hjob : (c.unmounted x).rolls.job = c.rolls.job := Controller.setSpindle_job ..
  have hmatch : c.unmountRoll x = match (c.unmounted x).rolls.job with
      | .pending | .retryWait => if (c.unmounted x).commissioned then
          if (c.unmounted x).rollIsLow then (c.unmounted x).enterLow else (c.unmounted x).enterNormal else c.unmounted x
      | _ => c.unmounted x := rfl
  rw [hmatch, hon, hjob]
  cases c.rolls.job <;> simp

theorem Controller.carryOut_mount (c : Controller) (tag : Byte) {code : Nat} {x : Spindle} (hx : spindleOf code = some x)
    {id : Nat} {r : Roll} (hr : c.rollById id = some r) :
    c.carryOut tag (mountRequest id code) =
      if r.state ≠ .registered ∨ (c.spindle x).state ≠ .empty then c.answered .wrongState tag []
      else (settled c (c.mountRoll id x)).answered .ok tag [] := by
  rw [mountRequest, Controller.carryOut_onSpindle_some tag 2 _ hx]
  unfold Controller.carryOut
  simp only [hr]
  exact apply_ite (fun y => Controller.reply y tag) _ _ _

theorem Controller.carryOut_unmount (c : Controller) (tag : Byte) {code : Nat} {x : Spindle}
    (hx : spindleOf code = some x) :
    c.carryOut tag (unmountRequest code) =
      if (c.spindle x).state ≠ .loaded ∨ c.rolls.job = .preparing ∨ c.rolls.job = .stopping ∨
          c.rolls.job = .splicing ∨ c.rolls.job = .cancelWait then c.answered .wrongState tag []
      else (settled c (c.unmountRoll x)).answered .ok tag [] := by
  rw [unmountRequest, Controller.carryOut_onSpindle_some tag 1 _ hx, Controller.carryOut_ite, ite_or]
  refine if_congr Iff.rfl rfl ?_
  unfold Controller.carryOut
  cases hjob : c.rolls.job <;> simp only [hjob] <;> rfl

theorem Controller.carryOut_retireRoll (c : Controller) (tag : Byte) {id : Nat} {r : Roll} (hr : c.rollById id = some r) :
    c.carryOut tag (retireRollRequest id) =
      match r.state with
      | .registered => (settled c (c.retireRoll id)).answered .ok tag []
      | .spent => if r.refs = 0 then (settled c (c.retireRoll id)).answered .ok tag [] else c.answered .inUse tag []
      | _ => c.answered .wrongState tag [] := by
  unfold Controller.carryOut retireRollRequest
  simp only [hr]
  cases hst : r.state with
  | spent =>
    simp only
    exact apply_ite (fun y => Controller.reply y tag) _ _ _
  | _ => rfl

/-- Settles O43: the checks in order, the roll and its spindle, and the roll job's move. -/
theorem spindlesTakeAndGiveRolls : Obligations.SpindlesTakeAndGiveRolls := by
  intro s tag hawake c ok wrong
  refine ⟨fun roll spindle => ?_, fun spindle => ?_, fun spindle => ?_, fun roll => ?_⟩
  · refine request_awake_eq hawake ?_
    cases hx : spindleOf spindle.toNat with
    | none => exact Controller.carryOut_onSpindle_none tag 2 _ hx
    | some x =>
      cases hr : c.rollById roll.toNat with
      | none =>
        refine (Controller.carryOut_onSpindle_some tag 2 _ hx).trans ?_
        unfold Controller.carryOut
        simp only [show s.ctl.rollById roll.toNat = none from hr]
        rfl
      | some r =>
        refine (c.carryOut_mount tag hx hr).trans ?_
        rw [Controller.mountRoll_eq]
        rfl
  · refine request_awake_eq hawake ?_
    cases hx : spindleOf spindle.toNat with
    | none => exact Controller.carryOut_onSpindle_none tag 1 _ hx
    | some x =>
      refine (c.carryOut_unmount tag hx).trans ?_
      rw [Controller.unmountRoll_eq]
      rfl
  · refine request_awake_eq hawake ((Controller.carryOut_whenCommissioned_not ..).trans (if_congr Iff.rfl rfl ?_))
    cases hx : spindleOf spindle.toNat with
    | none => exact Controller.carryOut_onSpindle_none tag 1 _ hx
    | some x =>
      refine (Controller.carryOut_onSpindle_some tag 1 _ hx).trans ?_
      rw [Controller.carryOut_ite]
      simp only [ite_not]
      rfl
  · intro off freed
    refine request_awake_eq hawake ?_
    cases hr : c.rollById roll.toNat with
    | none =>
      unfold Controller.carryOut retireRollRequest
      simp only [show s.ctl.rollById roll.toNat = none from hr]
      rfl
    | some r => exact (c.carryOut_retireRoll tag hr).trans rfl

/-! ### THREAD_ROLL -/

/-- Settles O44: the checks in order; the effect is the model's, its steps written out. -/
theorem threadRollStartsTheWeb : Obligations.ThreadRollStartsTheWeb := by
  intro s tag spindle hawake c
  refine request_awake_eq hawake ((Controller.carryOut_whenCommissioned_not ..).trans (if_congr Iff.rfl rfl ?_))
  cases hx : spindleOf spindle.toNat with
  | none => exact Controller.carryOut_onSpindle_none tag 1 _ hx
  | some x =>
    refine (Controller.carryOut_onSpindle_some tag 1 _ hx).trans ?_
    rw [Controller.carryOut_ite]
    rfl

/-! ### A splice becomes due -/

theorem Controller.spliceAtTest_eq (c : Controller) :
    c.spliceAtTest = if c.rolls.job = .normal ∧ c.rollIsLow = true then
      (if c.idleLoaded = true then c.enterPending else c.enterLow) else c :=
  if_congr (by simp) rfl rfl

theorem Controller.retryWaitTest_eq (c : Controller) :
    c.retryWaitTest = if c.rolls.job = .retryWait then
      (if c.idleLoaded = true then c.enterPending else if c.rollIsLow = true then c.enterLow else c.enterNormal)
      else c := rfl

theorem Controller.runoutTest_reached {c : Controller} {r : Roll} (hr : c.runningRoll = some r)
    (hclear : c.rolls.runout = false) (hle : r.remaining ≤ c.runoutAt) :
    c.runoutTest = Controller.deriveUnwind
      (Controller.raise { c with rolls := { c.rolls with runout := true } } .rollRunout (Detail.named .threshold)) := by
  unfold Controller.runoutTest
  simp [hr, hclear, hle]

theorem Controller.runoutTest_away {c : Controller}
    (h : c.rolls.runout = true ∨ ∀ r, c.runningRoll = some r → c.runoutAt < r.remaining) : c.runoutTest = c := by
  unfold Controller.runoutTest
  cases hr : c.runningRoll with
  | none => rfl
  | some r =>
    simp only
    refine if_neg fun hdue => ?_
    rw [Bool.and_eq_true, decide_eq_true_iff, Bool.not_eq_true'] at hdue
    rcases h with hset | hfar
    · simp [hset] at hdue
    · exact absurd hdue.2 (Nat.not_le.mpr (hfar r hr))

theorem Controller.carryOut_force (c : Controller) (tag : Byte) :
    c.carryOut tag forceRequest =
      if c.commissioned = false then c.answered .notCommissioned tag []
      else if (c.rolls.job = .normal ∨ c.rolls.job = .low ∨ c.rolls.job = .fault) ∧ c.idleLoaded = true then
        (settled c (Controller.enterPending { c with rolls := { c.rolls with retry := 0 } })).answered .ok tag []
      else c.answered .wrongState tag [] := by
  unfold forceRequest
  rw [Controller.carryOut_whenCommissioned_not]
  refine if_congr Iff.rfl rfl ?_
  unfold Controller.carryOut
  cases hjob : c.rolls.job <;> cases hidle : c.idleLoaded <;> simp only [hjob, hidle] <;> rfl

/-- Settles O45: each event is its test. -/
theorem splicesBecomeDue : Obligations.SplicesBecomeDue := by
  intro s c pending low remaining
  refine ⟨fun tag hawake => request_awake_eq hawake (Controller.carryOut_force ..),
    fun hon => happening_ite hon (Controller.spliceAtTest_eq _),
    fun hon => happening_ite hon (Controller.retryWaitTest_eq _), fun hon => ⟨fun r hr hclear hle => ?_, fun h => ?_, ?_⟩⟩
  · exact happening_of_eq hon (Controller.runoutTest_reached hr hclear hle)
  · exact happening_of_eq_self hon (Controller.runoutTest_away h)
  · refine (happening_ite hon (p := remaining = some 0) (d := c.runoutCount) rfl).trans ?_
    rw [settled_of_gateInputs_eq (c := s.ctl) (d := c.runoutCount) rfl]
    rfl

/-! ### A splice runs -/

theorem Controller.clearanceHolds_iff (c : Controller) :
    c.clearanceHolds = true ↔ c.rolls.job = .pending ∧ c.line.lastTail.getD 0 + c.seamClear ≤ c.webU ∧
      c.rolls.seams.length < 4 := by
  simp [Controller.clearanceHolds, and_assoc]

theorem Controller.clearanceTest_holds {c : Controller} (h : c.clearanceHolds = true) {x : Spindle}
    (hx : c.activeSpindle = some x) :
    c.clearanceTest = (Controller.hand
      { c with rolls := { c.rolls with splice := some ⟨x, otherSpindle x, c.mot.tick⟩ } } .s
      (.splicePrepare x (otherSpindle x))).moveJob .preparing := by
  unfold Controller.clearanceTest
  simp only [h, if_true, hx]

theorem Controller.clearanceTest_away {c : Controller} (h : c.clearanceHolds = false ∨ c.activeSpindle = none) :
    c.clearanceTest = c := by
  unfold Controller.clearanceTest
  split
  next hon => rw [h.resolve_left (by simp [hon])]
  next => rfl

theorem Controller.goTest_eq (c : Controller) :
    c.goTest = if c.rolls.job = .stopping ∧ c.mot.unw.stall = true then (c.hand .s .spliceGo).moveJob .splicing else c :=
  if_congr (by simp) rfl rfl

theorem Controller.moveJob_job (c : Controller) (j : RollJob) : (c.moveJob j).rolls.job = j :=
  congrArg RollCore.job (deriveUnwind_core { c with rolls := { c.rolls with job := j } })

/-- Settles O46: the clearance test, PREPARED, and the test of the unwind stall flag, each by its condition. -/
theorem splicesPrepareAndGo : Obligations.SplicesPrepareAndGo := by
  intro s c go
  refine ⟨fun hon x hjob hclear hroom hx => ?_, fun hon h => ?_, fun hawake hon hjob => ?_, fun hawake h => ?_,
    fun hon => happening_ite hon (Controller.goTest_eq _)⟩
  · exact happening_of_eq hon (Controller.clearanceTest_holds (c.clearanceHolds_iff.mpr ⟨hjob, hclear, hroom⟩) hx)
  · refine happening_of_eq_self hon (Controller.clearanceTest_away ?_)
    rw [← or_assoc, ← or_assoc] at h
    refine h.imp_left fun haway => ?_
    rw [← Bool.not_eq_true, Controller.clearanceHolds_iff]
    rintro ⟨hjob, hclear, hroom⟩
    rcases haway with (h1 | h2) | h3
    · exact h1 hjob
    · exact absurd hclear (Nat.not_le.mpr h2)
    · exact absurd hroom (Nat.not_lt.mpr h3)
  · refine telegram_eq (t := .prepared) hawake hon ?_
    show (if c.rolls.job = .preparing then (c.moveJob .stopping).goTest else c) = _
    rw [if_pos hjob, Controller.goTest_eq, Controller.moveJob_job]
    exact if_congr (by simp [Controller.moveJob, c]) rfl rfl
  · rcases h with hoff | hjob
    · exact telegram_unheard hawake hoff
    · exact telegram_keeps hawake (if_neg hjob)

/-! ### The outcomes of a splice -/

theorem Controller.takeSpliceDone_eq (c : Controller) :
    c.takeSpliceDone = if c.rolls.job = .splicing ∨ c.rolls.job = .cancelWait then c.completeSplice else c := by
  unfold Controller.takeSpliceDone
  cases c.rolls.job <;> rfl

theorem Controller.takeSpliceCancelled_target {c : Controller} {x : SpliceRec} (hx : c.rolls.splice = some x)
    (hjob : c.rolls.job = .cancelWait) : c.takeSpliceCancelled x.target = c.completeSplice := by
  unfold Controller.takeSpliceCancelled
  simp only [if_pos hjob, hx, if_true]

theorem Controller.takeSpliceCancelled_source {c : Controller} {x : SpliceRec} (hx : c.rolls.splice = some x)
    {web : Spindle} (hweb : web ≠ x.target) :
    c.takeSpliceCancelled web = if c.rolls.job = .cancelWait then
      (c.raise .rollSpliceFail (Detail.named .timeout)).failAttempt else c := by
  unfold Controller.takeSpliceCancelled
  simp only [hx, if_neg hweb]

/-- Settles O47: SPLICE_DONE, and the cancellation with the web on the target, are the completed splice, its steps written
out. -/
theorem spliceDoneCompletesTheSplice : Obligations.SpliceDoneCompletesTheSplice := by
  intro s x hawake hon hx c expire off runs tested seams told whole
  have hwhole : settled s.ctl c.completeSplice = whole := by
    unfold Controller.completeSplice
    simp only [show c.rolls.splice = some x from hx]
    rfl
  constructor
  · refine (telegram_ite (t := .spliceDone) hawake hon (Controller.takeSpliceDone_eq _)).trans (congrArg s.then ?_)
    exact if_congr Iff.rfl hwhole rfl
  · intro hjob
    refine (telegram_eq (t := .spliceCancelled x.target) hawake hon (Controller.takeSpliceCancelled_target hx hjob)).trans ?_
    rw [hwhole]

/-- A splice is in PREPARING, STOPPING or SPLICING. -/
@[reducible] def Controller.splicing (c : Controller) : Prop :=
  c.rolls.job = .preparing ∨ c.rolls.job = .stopping ∨ c.rolls.job = .splicing

theorem Controller.takeSpliceFail_eq (c : Controller) (cause : Byte) :
    c.takeSpliceFail cause =
      if c.splicing then (c.raise .rollSpliceFail ⟨0#16, sharedCode cause⟩).failAttempt
      else if c.rolls.job = .cancelWait then (c.raise .rollSpliceFail (Detail.named .timeout)).failAttempt else c := by
  unfold Controller.takeSpliceFail Controller.splicing
  cases c.rolls.job <;> simp

theorem Controller.spliceTimeoutTest_eq {c : Controller} {x : SpliceRec} (hx : c.rolls.splice = some x)
    :
    c.spliceTimeoutTest = if c.splicing ∧ c.spliceTimeout ≤ c.age x.tick then
      Controller.moveJob { c.hand .s .spliceCancel with rolls := { c.rolls with cancelStart := c.mot.tick } } .cancelWait
    else c := by
  unfold Controller.spliceTimeoutTest Controller.splicing
  rw [hand_rolls]
  cases hjob : c.rolls.job <;> simp [hx]

theorem Controller.cancelWaitTest_eq (c : Controller) :
    c.cancelWaitTest = if c.rolls.job = .cancelWait ∧ c.replyTimeout ≤ c.age c.rolls.cancelStart then
      (c.raise .rollSpliceFault (Detail.named .cancel)).moveJob .fault else c :=
  if_congr (by simp) rfl rfl

theorem Controller.webLost_none {c : Controller} (h : c.runningRoll = none) : c.webLost = c := by
  unfold Controller.webLost
  rw [h]

theorem Controller.webLost_some {c : Controller} (h : c.runningRoll ≠ none) :
    let lost := c.expireRunning.raise .rollRunout (Detail.named .webLost)
    c.webLost = (
      if c.splicing then (lost.hand .s .spliceCancel).raise .rollSpliceFault (Detail.named .webLost)
      else if c.rolls.job = .cancelWait then lost.raise .rollSpliceFault (Detail.named .webLost)
      else lost).moveJob .noRoll := by
  intro lost
  obtain ⟨r, hr⟩ := Option.ne_none_iff_exists'.mp h
  unfold Controller.webLost Controller.splicing
  simp only [hr]
  cases c.rolls.job <;> simp <;> rfl

/-- Settles O48: each outcome by the job's state; a failed attempt is retried or given up. -/
theorem failedSplicesAreRetriedOrGivenUp : Obligations.FailedSplicesAreRetriedOrGivenUp := by
  intro s c failed splicing
  refine ⟨fun cause hawake hon => ?_, fun web x hawake hon hx hweb => ?_, fun x hon hx => ?_,
    fun hon => happening_ite hon (Controller.cancelWaitTest_eq _), fun x hawake hon => ?_⟩
  · refine (telegram_eq (t := .spliceFail cause) hawake hon (c.takeSpliceFail_eq cause)).trans (congrArg s.then ?_)
    rw [apply_ite (settled s.ctl), apply_ite (settled s.ctl), settled_self]
    exact if_congr Iff.rfl rfl rfl
  · exact telegram_ite (t := .spliceCancelled web) hawake hon (Controller.takeSpliceCancelled_source hx hweb)
  · refine (happening_ite hon (Controller.spliceTimeoutTest_eq hx)).trans (congrArg s.then ?_)
    exact if_congr Iff.rfl rfl rfl
  · intro d lost
    refine (telegram_heard (t := .unitState x) hawake hon).trans (congrArg s.then ?_)
    by_cases hweb : x = .webLost
    · subst hweb
      show settled c d.webLost = _
      by_cases hrun : c.runningRoll = none
      · rw [if_pos (.inr hrun), Controller.webLost_none (show d.runningRoll = none from hrun)]
        exact settled_of_gateInputs_eq rfl
      · rw [if_neg (by simp [hrun]), Controller.webLost_some (show d.runningRoll ≠ none from hrun)]
    · rw [if_pos (.inl hweb)]
      cases x with
      | webLost => exact absurd rfl hweb
      | _ => exact settled_of_gateInputs_eq rfl

end Sys2Proof.Machine

/-! The seam list (R52, R106 to R110) and the commanded unwind modes (R93, R94). -/

namespace Sys2Proof.Machine

/-! ### Seams -/

section Seams
variable (c : Controller)

theorem Controller.seamIsLost_iff (e : Seam) :
    c.seamIsLost e = true ↔ e.kind.isExpected = true ∧ e.coord + c.seamTol < c.feedAt + c.seamDist := by
  simp only [Controller.seamIsLost, Bool.and_eq_true, decide_eq_true_iff, Nat.succ_le_iff]

theorem Controller.seamIsGone_iff (e : Seam) : c.seamIsGone e = true ↔ e.coord + c.seamClear ≤ c.feedAt :=
  decide_eq_true_iff

theorem Controller.seamMatch_eq (x : Nat) :
    c.seamMatch x = c.rolls.seams.find? (fun e =>
      e.kind.isExpected && decide (x ≤ e.coord + c.seamTol ∧ e.coord ≤ x + c.seamTol)) := by
  unfold Controller.seamMatch
  refine congrArg (fun t => c.rolls.seams.find? t) (funext fun e => ?_)
  rw [Bool.decide_and, Bool.and_assoc]

theorem Controller.seamsFull_iff :
    c.seamsFull = true ↔ 4 ≤ c.rolls.seams.length ∨ (3 ≤ c.rolls.seams.length ∧
      (c.rolls.job = .preparing ∨ c.rolls.job = .stopping ∨ c.rolls.job = .splicing ∨ c.rolls.job = .cancelWait)) := by
  unfold Controller.seamsFull
  cases c.rolls.job <;> simp

theorem Controller.markSeam_none {x : Nat} (h : c.panelOver x = none) : c.markSeam x = c := by
  unfold Controller.markSeam
  rw [h]

theorem Controller.markSeam_some {x : Nat} {p : Panel} {q : Placed} (h : c.panelOver x = some p)
    (hq : p.placed = some q) :
    c.markSeam x = (c.addCause p.id .seam).updatePanel p.id (fun r => r.writeSeamOffset (x - q.leadA)) := by
  unfold Controller.markSeam
  simp only [h, hq]

theorem Controller.panelOver_flatHolds {x : Nat} {p : Panel} (h : c.panelOver x = some p) : p.flatHolds x = true := by
  unfold Controller.panelOver at h
  exact List.find?_some (p := fun q : Panel => q.flatHolds x) h

/-- An entry's kind remade is that entry's kind remade: equal entries have equal kinds. -/
theorem map_remade (l : List Seam) (e : Seam) (f : SeamKind → SeamKind) :
    l.map (fun x => if x = e then { x with kind := f x.kind } else x) =
      l.map (fun x => if x = e then { x with kind := f e.kind } else x) :=
  List.map_congr_left fun x _ => by
    by_cases h : x = e
    · rw [if_pos h, if_pos h, h]
    · rw [if_neg h, if_neg h]

theorem Controller.seamLossTest_some {e : Seam} (h : c.rolls.seams.find? c.seamIsLost = some e) :
    c.seamLossTest = (c.raise .rollSeamLost (c.seamLostDetail e.kind.roll)).setSeams
      (c.rolls.seams.map (fun x => if x = e then { x with kind := e.kind.confirm } else x)) := by
  unfold Controller.seamLossTest
  simp only [h]
  rw [map_remade]

theorem Controller.seamLossTest_none (h : c.rolls.seams.find? c.seamIsLost = none) : c.seamLossTest = c := by
  unfold Controller.seamLossTest
  rw [h]

theorem Controller.seamPassageTest_some {e : Seam}
    (h : c.rolls.seams.find? (fun x => x.kind.awaitsPassage && decide (x.coord ≤ c.feedAt)) = some e) :
    c.seamPassageTest = (c.changeFeedRoll e.kind.roll).setSeams
      (c.rolls.seams.map (fun x => if x = e then { x with kind := e.kind.markPassed } else x)) := by
  unfold Controller.seamPassageTest
  simp only [h]
  exact congrArg (c.changeFeedRoll e.kind.roll).setSeams (map_remade c.rolls.seams e SeamKind.markPassed)

theorem Controller.seamPassageTest_none
    (h : c.rolls.seams.find? (fun x => x.kind.awaitsPassage && decide (x.coord ≤ c.feedAt)) = none) :
    c.seamPassageTest = c := by
  unfold Controller.seamPassageTest
  rw [h]

theorem Controller.seamRemovalTest_gone (h : c.rolls.seams.any c.seamIsGone = true) :
    let p := c.seamPassageTest
    let kept := p.setSeams (p.rolls.seams.filter (fun e => !p.seamIsGone e))
    c.seamRemovalTest = Controller.clearanceTest
      (if (∃ e ∈ p.rolls.seams, p.seamIsGone e = true ∧ e.kind.isPlanned = true) ∧ p.rolls.job = .seamWait then
        kept.enterNormal else kept) := by
  intro p kept
  refine (if_pos h).trans (congrArg Controller.clearanceTest (if_congr ?_ rfl rfl))
  simp [p, Controller.setSeams]

theorem Controller.takeSeamEdge_some {x : Nat} (hx : c.feedAt + c.seamDist = x) {e : Seam} (h : c.seamMatch x = some e) :
    c.takeSeamEdge = c.confirmSeam e x := by
  subst hx
  unfold Controller.takeSeamEdge
  simp only [h]

theorem Controller.takeSeamEdge_none {x : Nat} (hx : c.feedAt + c.seamDist = x) (h : c.seamMatch x = none) :
    c.takeSeamEdge = c.unplannedSeam x := by
  subst hx
  unfold Controller.takeSeamEdge
  simp only [h]

theorem Controller.unplannedSeam_eq (x : Nat) :
    let number := ((c.panelOver x).map Panel.number).getD 0
    let m := c.markSeam x
    c.unplannedSeam x =
      if ∃ e ∈ m.rolls.seams, e.coord = x then m.raise .rollSeamUnplanned (Detail.num number)
      else if m.seamsFull = true then m.raise .rollSeamUnplanned (Detail.named .listFull)
      else ((m.setSeams (insertSeam ⟨x, .unplanned⟩ m.rolls.seams)).raise .rollSeamUnplanned
        (Detail.num number)).settleSeams := if_congr (by simp) rfl rfl

end Seams

/-- Settles O49: the seam edge, and the three tests of the list, each by the entry it finds. -/
theorem seamsAreListedPassedAndRemoved : Obligations.SeamsAreListedPassedAndRemoved := by
  refine ⟨fun s hawake => ?_, fun s hon => ?_, fun c => ?_⟩
  · intro c level d x number m
    refine (act_awake hawake Controller.seamEdge).trans (congrArg s.then ?_)
    show (if c.commissioned = true then settled d d.takeSeamEdge else d) = _
    by_cases hon : c.commissioned = true
    · rw [if_pos hon, if_neg (by simp [hon])]
      cases hmatch : c.seamMatch x with
      | some e =>
        rw [Controller.takeSeamEdge_some d (x := x) rfl hmatch]
        rfl
      | none =>
        rw [Controller.takeSeamEdge_none d (x := x) rfl hmatch, Controller.unplannedSeam_eq,
          apply_ite (settled d), apply_ite (settled d)]
    · rw [if_neg hon, if_pos (by simpa using hon)]
  · intro c remade passes
    exact ⟨fun e h => happening_of_eq hon (Controller.seamLossTest_some _ h),
      fun h => happening_of_eq_self hon (Controller.seamLossTest_none _ h),
      fun e h => happening_of_eq hon (Controller.seamPassageTest_some _ h),
      fun h => happening_of_eq_self hon (Controller.seamPassageTest_none _ h),
      fun h => happening_of_eq hon (Controller.seamRemovalTest_gone _ h),
      fun h => happening_of_eq_self hon (if_neg (Bool.eq_false_iff.mp h))⟩
  · intro inSplice
    refine ⟨c.seamMatch_eq, c.seamIsLost_iff, c.seamIsGone_iff, c.seamsFull_iff, fun x => c.markSeam_none,
      fun x p q h hq => ⟨?_, c.markSeam_some h hq⟩, fun id => rfl⟩
    have hholds := c.panelOver_flatHolds h
    rw [Panel.flatHolds, hq] at hholds
    simpa using hholds

/-! ### The commanded unwind modes -/

section UnwindModes
variable (c : Controller)

theorem Controller.commandUnwind_rolls (sp : Spindle) (m : UnwindMode) :
    (c.commandUnwind sp m).rolls =
      let r := (c.setSpindle sp { c.spindle sp with mode := some m }).rolls
      if m = .stop then { r with suspended := false, resend := 0, origin := c.unwAt } else { r with suspended := false } := by
  unfold Controller.commandUnwind
  simp only
  split
  · simp only [hand_rolls, Controller.unwAt, Controller.hand_mot]
    cases sp <;> rfl
  · simp only [hand_rolls]

theorem Controller.commandUnwind_chS (sp : Spindle) (m : UnwindMode) :
    (c.commandUnwind sp m).chS = (c.chS.hand (.unwindMode sp m)).1 := by
  have hlink := (c.setSpindle sp { c.spindle sp with mode := some m }).hand_link .s (.unwindMode sp m)
  unfold Controller.commandUnwind
  simp only
  split
  · refine hlink.trans ?_
    cases sp <;> rfl
  · refine hlink.trans ?_
    cases sp <;> rfl

theorem Controller.commandUnwind_suspended (sp : Spindle) (m : UnwindMode) :
    (c.commandUnwind sp m).rolls.suspended = false := by
  rw [Controller.commandUnwind_rolls]
  simp only
  split <;> rfl

theorem Controller.commandUnwind_spA (sp : Spindle) (m : UnwindMode) :
    (c.commandUnwind sp m).rolls.spA = (c.setSpindle sp { c.spindle sp with mode := some m }).rolls.spA := by
  rw [Controller.commandUnwind_rolls]
  simp only
  split <;> rfl

theorem Controller.commandUnwind_spB (sp : Spindle) (m : UnwindMode) :
    (c.commandUnwind sp m).rolls.spB = (c.setSpindle sp { c.spindle sp with mode := some m }).rolls.spB := by
  rw [Controller.commandUnwind_rolls]
  simp only
  split <;> rfl

theorem Controller.commandUnwind_spindle (sp : Spindle) (m : UnwindMode) :
    (c.commandUnwind sp m).spindle sp = { c.spindle sp with mode := some m } := by
  cases sp
  · exact c.commandUnwind_spA .a m
  · exact c.commandUnwind_spB .b m

theorem Controller.commandUnwind_spindle_other {sp other : Spindle} (h : other ≠ sp) (m : UnwindMode) :
    (c.commandUnwind sp m).spindle other = c.spindle other := by
  cases sp <;> cases other
  · exact absurd rfl h
  · exact c.commandUnwind_spB .a m
  · exact c.commandUnwind_spA .b m
  · exact absurd rfl h

theorem Controller.commandUnwind_slip (sp : Spindle) (m : UnwindMode) :
    (c.commandUnwind sp m).rolls.resend = (if m = .stop then 0 else c.rolls.resend) ∧
      (c.commandUnwind sp m).rolls.origin = (if m = .stop then c.unwAt else c.rolls.origin) := by
  rw [Controller.commandUnwind_rolls]
  simp only
  split <;> cases sp <;> exact ⟨rfl, rfl⟩

theorem Controller.commandUnwind_job (sp : Spindle) (m : UnwindMode) :
    (c.commandUnwind sp m).rolls.job = c.rolls.job := congrArg RollCore.job (commandUnwind_core c sp m)

/-- Another spindle's mode commanded leaves what a spindle's mode must be. -/
theorem Controller.unwindWanted_commandUnwind {sp other : Spindle} (h : other ≠ sp) (m : UnwindMode) :
    (c.commandUnwind sp m).unwindWanted other = c.unwindWanted other := by
  have hrest : (c.commandUnwind sp m).rolls.runout = c.rolls.runout ∧ (c.commandUnwind sp m).rolls.hyst = c.rolls.hyst := by
    rw [Controller.commandUnwind_rolls]
    simp only
    split <;> cases sp <;> exact ⟨rfl, rfl⟩
  have hline : (c.commandUnwind sp m).line = c.line := (congrArg Controller.line (c.commandUnwind_sansUnwind sp m) :)
  unfold Controller.unwindWanted
  rw [Controller.commandUnwind_spindle_other c h, Controller.commandUnwind_job, hrest.1, hrest.2, hline]

theorem Controller.deriveSpindle_standing {sp : Spindle} (h : (c.spindle sp).mode = some (c.unwindWanted sp)) :
    c.deriveSpindle sp = c := if_pos h

theorem Controller.deriveSpindle_changed {sp : Spindle} (h : (c.spindle sp).mode ≠ some (c.unwindWanted sp)) :
    c.deriveSpindle sp = c.commandUnwind sp (c.unwindWanted sp) := if_neg h

/-- Spindle A is derived first, and B as it would have been alone (R93, log 33). -/
theorem Controller.deriveUnwind_eq (hon : c.commissioned = true) :
    c.deriveUnwind =
      let d := if (c.spindle .a).mode = some (c.unwindWanted .a) then c else c.commandUnwind .a (c.unwindWanted .a)
      if (c.spindle .b).mode = some (c.unwindWanted .b) then d else d.commandUnwind .b (c.unwindWanted .b) := by
  refine (if_pos hon).trans ?_
  have hother : Spindle.b ≠ Spindle.a := by decide
  by_cases ha : (c.spindle .a).mode = some (c.unwindWanted .a)
  · rw [c.deriveSpindle_standing ha, if_pos ha]
    rfl
  · rw [c.deriveSpindle_changed ha, if_neg ha, Controller.deriveSpindle,
      Controller.commandUnwind_spindle_other c hother, Controller.unwindWanted_commandUnwind c hother]

end UnwindModes

theorem Controller.unwindWanted_eq (c : Controller) (x : Spindle) :
    c.unwindWanted x =
      if (c.spindle x).state ≠ .active then UnwindMode.stop
      else if c.rolls.job = .stopping ∨ c.rolls.job = .splicing ∨ c.rolls.job = .cancelWait then .stop
      else if c.rolls.runout = true ∨ c.line.state = .halted then .stop
      else match c.rolls.hyst with
        | .refill => .refill
        | .follow => .follow := by
  unfold Controller.unwindWanted
  refine if_congr (by simp) rfl ?_
  rw [← ite_or]
  refine if_congr ?_ rfl ?_
  · cases c.rolls.job <;> simp [RollJob.stopsUnwind]
  · cases c.rolls.hyst <;> rfl

section Derived
variable {c : Controller} (hon : c.commissioned = true)
include hon

theorem Controller.deriveUnwind_spindle (x : Spindle) :
    c.deriveUnwind.spindle x = { c.spindle x with mode := some (c.unwindWanted x) } := by
  have hstanding : ∀ y, (c.spindle y).mode = some (c.unwindWanted y) →
      c.spindle y = { c.spindle y with mode := some (c.unwindWanted y) } := fun y h => by rw [← h]
  have hab : Spindle.a ≠ Spindle.b := by decide
  rw [c.deriveUnwind_eq hon]
  simp only
  by_cases ha : (c.spindle .a).mode = some (c.unwindWanted .a)
  · rw [if_pos ha]
    cases x with
    | a =>
      split
      · exact hstanding .a ha
      · exact (c.commandUnwind_spindle_other hab _).trans (hstanding .a ha)
    | b =>
      split
      next hb => exact hstanding .b hb
      next => exact c.commandUnwind_spindle .b _
  · rw [if_neg ha]
    cases x with
    | a =>
      split
      · exact c.commandUnwind_spindle .a _
      · exact (Controller.commandUnwind_spindle_other _ hab _).trans (c.commandUnwind_spindle .a _)
    | b =>
      split
      next hb => exact (c.commandUnwind_spindle_other hab.symm _).trans (hstanding .b hb)
      next =>
        refine (Controller.commandUnwind_spindle _ .b _).trans ?_
        rw [Controller.commandUnwind_spindle_other c hab.symm]

theorem Controller.deriveUnwind_slip_restarts {x : Spindle} (hx : (c.spindle x).mode ≠ some (c.unwindWanted x))
    (hstop : c.unwindWanted x = .stop) :
    c.deriveUnwind.rolls.resend = 0 ∧ c.deriveUnwind.rolls.origin = c.unwAt := by
  have hunw : ∀ sp m, (c.commandUnwind sp m).unwAt = c.unwAt := fun sp m =>
    (congrArg Controller.unwAt (c.commandUnwind_sansUnwind sp m) :)
  rw [c.deriveUnwind_eq hon]
  simp only
  cases x with
  | a =>
    rw [if_neg hx]
    split
    · rw [(c.commandUnwind_slip .a _).1, (c.commandUnwind_slip .a _).2, if_pos hstop, if_pos hstop]
      exact ⟨rfl, rfl⟩
    · rw [(Controller.commandUnwind_slip _ .b _).1, (Controller.commandUnwind_slip _ .b _).2,
        (c.commandUnwind_slip .a _).1, (c.commandUnwind_slip .a _).2, if_pos hstop, if_pos hstop, hunw, ite_self, ite_self]
      exact ⟨rfl, rfl⟩
  | b =>
    rw [if_neg hx, (Controller.commandUnwind_slip _ .b _).1, (Controller.commandUnwind_slip _ .b _).2, if_pos hstop,
      if_pos hstop]
    refine ⟨rfl, ?_⟩
    split
    · rfl
    · exact hunw ..

theorem Controller.deriveUnwind_slip_stands
    (h : ∀ x, (c.spindle x).mode ≠ some (c.unwindWanted x) → c.unwindWanted x ≠ .stop) :
    c.deriveUnwind.rolls.resend = c.rolls.resend ∧ c.deriveUnwind.rolls.origin = c.rolls.origin := by
  have hkeep : ∀ (d : Controller) (x : Spindle), (c.spindle x).mode ≠ some (c.unwindWanted x) →
      (d.commandUnwind x (c.unwindWanted x)).rolls.resend = d.rolls.resend ∧
        (d.commandUnwind x (c.unwindWanted x)).rolls.origin = d.rolls.origin := by
    intro d x hx
    rw [(d.commandUnwind_slip x _).1, (d.commandUnwind_slip x _).2, if_neg (h x hx), if_neg (h x hx)]
    exact ⟨rfl, rfl⟩
  rw [c.deriveUnwind_eq hon]
  simp only
  by_cases ha : (c.spindle .a).mode = some (c.unwindWanted .a) <;>
    by_cases hb : (c.spindle .b).mode = some (c.unwindWanted .b)
  · rw [if_pos ha, if_pos hb]
    exact ⟨rfl, rfl⟩
  · rw [if_pos ha, if_neg hb]
    exact hkeep c .b hb
  · rw [if_neg ha, if_pos hb]
    exact hkeep c .a ha
  · rw [if_neg ha, if_neg hb]
    obtain ⟨hresend, horigin⟩ := hkeep c .a ha
    obtain ⟨hresend', horigin'⟩ := hkeep (c.commandUnwind .a (c.unwindWanted .a)) .b hb
    exact ⟨hresend'.trans hresend, horigin'.trans horigin⟩

end Derived

/-- Settles O50: spindle A is derived and then B, each by the command of its own change. -/
theorem unwindModesFollowTheJob : Obligations.UnwindModesFollowTheJob := by
  intro c hon wanted d
  have hwanted : c.unwindWanted = wanted := funext fun x => (c.unwindWanted_eq x).trans rfl
  have hd := c.deriveUnwind_eq hon
  rw [← hwanted]
  refine ⟨Controller.deriveUnwind_spindle hon, ⟨congrArg RollCore.job (deriveUnwind_core c),
    congrArg RollCore.slots (deriveUnwind_core c), c.deriveUnwind_line, c.deriveUnwind_mot, c.deriveUnwind_tab⟩,
    fun h => ?_, fun ha hb => ?_, fun ha hb => ?_, fun ha hb => ?_,
    fun x hx hstop => Controller.deriveUnwind_slip_restarts hon hx hstop, Controller.deriveUnwind_slip_stands hon⟩
  · exact hd.trans (by simp only [if_pos (h .a), if_pos (h .b)])
  · have hcase : d = c.commandUnwind .a (c.unwindWanted .a) := hd.trans (by simp only [if_neg ha, if_pos hb])
    rw [hcase]
    exact ⟨c.commandUnwind_chS .a _, c.commandUnwind_suspended .a _⟩
  · have hcase : d = c.commandUnwind .b (c.unwindWanted .b) := hd.trans (by simp only [if_pos ha, if_neg hb])
    rw [hcase]
    exact ⟨c.commandUnwind_chS .b _, c.commandUnwind_suspended .b _⟩
  · have hcase : d = (c.commandUnwind .a (c.unwindWanted .a)).commandUnwind .b (c.unwindWanted .b) :=
      hd.trans (by simp only [if_neg ha, if_neg hb])
    rw [hcase, Controller.commandUnwind_chS, Controller.commandUnwind_chS]
    exact ⟨rfl, Controller.commandUnwind_suspended _ .b _⟩

end Sys2Proof.Machine

/-! The stroke sequencer: strokes and the cursor (R27, R116 to R122), acknowledgements (R114, R124, R125), resync (R126 to
R129), and the head's telegrams (R130 to R132). -/

namespace Sys2Proof.Machine

/-! ### Issue, miss, and the crossings of the cursor's stroke -/

/-- A STROKE is never lost, nor loses another telegram (R179). -/
theorem Link.hand_stroke (l : Link) {x : TxItem} (hx : x.isStroke = true) : (l.hand x).2 = false := by
  unfold Link.hand
  split
  · rfl
  · split
    · rfl
    · simp [enqueue, hx]

theorem Controller.hand_stroke (c : Controller) (seq : Byte) (kind : StepKind) (depth : Nat) :
    c.hand .p (.stroke seq kind depth) = { c with chP := (c.chP.hand (.stroke seq kind depth)).1 } := by
  rw [Controller.hand_eq, if_neg (by rw [Link.hand_stroke _ rfl]; decide)]
  rfl

/-- R119's conditions of an issue. -/
@[reducible] def Controller.strokePasses (c : Controller) : Prop :=
  c.seq.window.length < c.windowSize ∧ c.seq.head = .ready ∧ c.seq.mode = .stepping

theorem Controller.issuePasses_iff (c : Controller) : c.issuePasses = true ↔ c.strokePasses := by
  simp [Controller.issuePasses, and_assoc]

theorem Controller.isLate_iff (c : Controller) (k : Cursor) : c.isLate k = true ↔ k.due + c.lateTol < c.feedAt := by
  simp only [Controller.isLate, decide_eq_true_iff, Nat.succ_le_iff]

section Cursor
variable (c : Controller) {k : Cursor} (hk : c.seq.cursor = some k)

theorem Controller.issueStroke_eq (k : Cursor) :
    c.issueStroke k = Controller.advanceCursor { c with
      chP := (c.chP.hand (.stroke c.seq.next k.kind k.depth)).1
      tab := { c.tab with panels := c.tab.panels.map (fun p =>
        if p.id = k.panel then { p with placed := p.placed.map (fun q => { q with issued := q.issued + 1 }) } else p) }
      seq := { c.seq with
        window := c.seq.window ++ [⟨c.seq.next, k.panel, c.numberOf k.panel, k.due, c.mot.tick⟩]
        next := c.seq.next + 1#8 } } k := by
  unfold Controller.issueStroke
  rw [Controller.hand_stroke]
  rfl

include hk

theorem Controller.strokeCrossing_eq :
    c.strokeCrossing =
      if k.waiting = true then
        (if k.due + c.lateTol < c.feedAt ∧ c.seq.mode ≠ .fault then some (c.missStroke k) else none)
      else if c.feedAt < k.due then none
      else if c.seq.mode = .fault ∨ k.due + c.lateTol < c.feedAt then some (c.missStroke k)
      else if c.strokePasses then some (c.issueStroke k)
      else some { c with seq := { c.seq with cursor := some { k with waiting := true } } } := by
  unfold Controller.strokeCrossing
  simp only [hk]
  refine if_congr Iff.rfl (if_congr ?_ rfl rfl) (if_congr Iff.rfl rfl (if_congr ?_ rfl (if_congr ?_ rfl rfl)))
  · rw [c.isLate_iff]
  · rw [c.isLate_iff]
  · rw [c.issuePasses_iff]

theorem Controller.retestStroke_eq :
    c.retestStroke = if k.waiting = true ∧ c.strokePasses then (c.issueStroke k).settleStrokes else c := by
  unfold Controller.retestStroke
  simp only [hk]
  exact if_congr (by rw [Bool.and_eq_true, c.issuePasses_iff]) rfl rfl

end Cursor

theorem Controller.strokeCrossing_noCursor {c : Controller} (h : c.seq.cursor = none) : c.strokeCrossing = none := by
  unfold Controller.strokeCrossing
  rw [h]

theorem Controller.strokeCrossings_none {c : Controller} (h : c.strokeCrossing = none) (n : Nat) :
    Controller.strokeCrossings n c = c := by
  cases n with
  | zero => rfl
  | succ n =>
    unfold Controller.strokeCrossings
    rw [h]

theorem Controller.strokeCrossings_some {c d : Controller} (h : c.strokeCrossing = some d) (n : Nat) :
    Controller.strokeCrossings (n + 1) c = Controller.strokeCrossings n d := by
  rw [Controller.strokeCrossings]
  simp only [h]

theorem Controller.settleStrokes_none {c : Controller} (h : c.strokeCrossing = none) : c.settleStrokes = c :=
  Controller.strokeCrossings_none h _

theorem Controller.settleStrokes_some {c d : Controller} (h : c.strokeCrossing = some d) :
    c.settleStrokes = Controller.strokeCrossings (c.strokeBound - 1) d :=
  Controller.strokeCrossings_some h (c.strokeBound - 1)

/-- The due crossing of the cursor's stroke, with what it brings about (R118, R122). -/
theorem Controller.strokeDue_eq {c : Controller} {k : Cursor} (hk : c.seq.cursor = some k) (hw : k.waiting = false) :
    c.settleStrokes =
      if c.feedAt < k.due then c
      else if c.seq.mode = .fault ∨ k.due + c.lateTol < c.feedAt then
        Controller.strokeCrossings (c.strokeBound - 1) (c.missStroke k)
      else if c.strokePasses then Controller.strokeCrossings (c.strokeBound - 1) (c.issueStroke k)
      else { c with seq := { c.seq with cursor := some { k with waiting := true } } } := by
  have hcross := c.strokeCrossing_eq hk
  rw [if_neg (by simp [hw])] at hcross
  split_ifs with hdue hmiss hpass
  · rw [if_pos hdue] at hcross
    exact Controller.settleStrokes_none hcross
  · rw [if_neg hdue, if_pos hmiss] at hcross
    exact Controller.settleStrokes_some hcross
  · rw [if_neg hdue, if_neg hmiss, if_pos hpass] at hcross
    exact Controller.settleStrokes_some hcross
  · rw [if_neg hdue, if_neg hmiss, if_neg hpass] at hcross
    rw [Controller.settleStrokes_some hcross]
    refine Controller.strokeCrossings_none ?_ _
    rw [Controller.strokeCrossing_eq _ rfl, if_pos rfl, if_neg fun hlate => hmiss (.inr hlate.1)]

theorem Controller.strokeLate_eq {c : Controller} {k : Cursor} (hk : c.seq.cursor = some k) :
    (if k.waiting = true then c.settleStrokes else c) =
      if k.waiting = true ∧ k.due + c.lateTol < c.feedAt ∧ c.seq.mode ≠ .fault then
        Controller.strokeCrossings (c.strokeBound - 1) (c.missStroke k) else c := by
  by_cases hw : k.waiting = true
  · have hcross := c.strokeCrossing_eq hk
    rw [if_pos hw] at hcross
    rw [if_pos hw]
    split_ifs with hlate
    · rw [if_pos hlate.2] at hcross
      exact Controller.settleStrokes_some hcross
    · rw [if_neg fun h => hlate ⟨hw, h⟩] at hcross
      exact Controller.settleStrokes_none hcross
  · rw [if_neg hw, if_neg fun h => hw h.1]

/-! ### The strokes of a panel -/

theorem nextStroke_making {x : Step} (hx : x.kind ≠ .skip) (rest : List Step) (i r o : Nat) :
    nextStroke (x :: rest) i r o = if r < x.times then some (i, r, o + x.pitch, x) else nextStroke rest (i + 1) 0 o := by
  rw [nextStroke, if_neg hx]

theorem nextStroke_skips {skips : List Step} (h : ∀ y ∈ skips, y.kind = .skip) (rest : List Step) (i o : Nat) :
    nextStroke (skips ++ rest) i 0 o = nextStroke rest (i + skips.length) 0 (o + spanOf skips) := by
  induction skips generalizing i o with
  | nil => rfl
  | cons y skips ih =>
    rw [List.forall_mem_cons] at h
    have hspan : spanOf (y :: skips) = y.pitch * y.times + spanOf skips := rfl
    have hstep : nextStroke (y :: (skips ++ rest)) i 0 o = nextStroke (skips ++ rest) (i + 1) 0 (o + y.pitch * y.times) := by
      rw [nextStroke, if_pos h.1]
      split
      · rfl
      next htimes => rw [show y.times = 0 by omega, Nat.mul_zero]; rfl
    rw [List.cons_append, hstep, ih h.2, hspan, List.length_cons, Nat.add_assoc i, Nat.add_comm 1, Nat.add_assoc o]

theorem Controller.strokeFrom_placed (c : Controller) {p : Panel} {q : Placed} (hq : p.placed = some q) (i r o : Nat) :
    c.strokeFrom p i r o = (nextStroke ((c.pattern p.pattern).steps.drop i) i r o).map (c.cursorAt p q) := by
  unfold Controller.strokeFrom
  rw [hq]

theorem Panel.cursorTakes_eq_false_iff (p : Panel) : p.cursorTakes = false ↔ p.bTail ≠ none ∨ p.strokesLeft = 0 := by
  unfold Panel.cursorTakes
  cases p.bTail <;> simp

/-- What a roster panel offers the cursor. -/
theorem offer_idle (c : Controller) {x : Panel} (h : x.bTail ≠ none ∨ x.strokesLeft = 0) :
    (if x.cursorTakes then c.strokeFrom x 0 0 0 else none) = none :=
  if_neg (by simp [(Panel.cursorTakes_eq_false_iff x).mpr h])

theorem Controller.seekCursor_idle {c : Controller}
    (h : ∀ x ∈ c.rosterPanels, x.bTail ≠ none ∨ x.strokesLeft = 0) :
    c.seekCursor = { c with seq := { c.seq with cursor := none } } := by
  unfold Controller.seekCursor
  rw [List.findSome?_eq_none_iff.mpr fun x hx => offer_idle c (h x hx)]

theorem Controller.seekCursor_first {c : Controller} {front back : List Panel} {p : Panel} {m : Cursor}
    (hroster : c.rosterPanels = front ++ p :: back) (hfront : ∀ x ∈ front, x.bTail ≠ none ∨ x.strokesLeft = 0)
    (hp : ¬ (p.bTail ≠ none ∨ p.strokesLeft = 0)) (hm : c.strokeFrom p 0 0 0 = some m) :
    c.seekCursor = { c with seq := { c.seq with cursor := some m } } := by
  have htakes : p.cursorTakes = true := by
    rw [← Panel.cursorTakes_eq_false_iff] at hp
    simpa using hp
  unfold Controller.seekCursor
  rw [hroster, List.findSome?_append, List.findSome?_eq_none_iff.mpr fun x hx => offer_idle c (hfront x hx),
    List.findSome?_cons, if_pos htakes, hm]
  rfl

theorem Controller.advanceCursor_some {c : Controller} {k m : Cursor} {p : Panel} (hp : c.panelById k.panel = some p)
    (hleft : p.strokesLeft ≠ 0) (hm : c.strokeFrom p k.step (k.rep + 1) k.cum = some m) :
    c.advanceCursor k = { c with seq := { c.seq with cursor := some m } } := by
  unfold Controller.advanceCursor
  rw [hp, Option.bind_some, if_neg hleft, hm]

theorem Controller.advanceCursor_none {c : Controller} {k : Cursor} {p : Panel}
    (h : c.panelById k.panel = none ∨ (c.panelById k.panel = some p ∧
      (p.strokesLeft = 0 ∨ c.strokeFrom p k.step (k.rep + 1) k.cum = none))) :
    c.advanceCursor k = c.seekCursor := by
  unfold Controller.advanceCursor
  rcases h with hp | ⟨hp, hleft | hm⟩
  · rw [hp, Option.bind_none]
  · rw [hp, Option.bind_some, if_pos hleft]
  · rw [hp, Option.bind_some, hm, ite_self]

/-- Settles O51: one crossing by the stroke's position and state, the events as runs of crossings, and the strokes by the
steps. -/
theorem strokesAreIssuedHeldOrMissed : Obligations.StrokesAreIssuedHeldOrMissed := by
  refine ⟨fun s k hon hk => ?_, fun c => ⟨Controller.strokeCrossing_noCursor, rfl, fun n => rfl⟩,
    fun x rest i r o hx => nextStroke_making hx rest i r o, fun skips rest i o h => nextStroke_skips h rest i o,
    fun _ _ _ => rfl, fun c p => ?_⟩
  · intro c on sent counted missed passes late rest
    have hsent : c.issueStroke k = sent.advanceCursor k := c.issueStroke_eq k
    have hissue : c.issuePasses = true ↔ passes := c.issuePasses_iff
    refine ⟨?_, ?_, ?_, ?_, ?_⟩
    · refine (happening_of_eq hon (d := if k.waiting = true then c else c.settleStrokes)
        (by simp only [hk]; rfl)).trans (congrArg s.then ?_)
      rw [← hsent]
      by_cases hw : k.waiting = true
      · rw [if_pos hw, if_pos (.inl hw)]
        exact settled_self c
      · rw [if_neg hw, Controller.strokeDue_eq hk (by simpa using hw)]
        by_cases hdue : c.feedAt < k.due
        · rw [if_pos hdue, if_pos (.inr hdue)]
          exact settled_self c
        · have hreached : ¬ (k.waiting = true ∨ c.feedAt < k.due) := fun h => h.elim hw hdue
          rw [if_neg hdue, if_neg hreached, apply_ite (settled s.ctl), apply_ite (settled s.ctl)]
          exact if_congr Iff.rfl rfl (if_congr Iff.rfl rfl (settled_of_gateInputs_eq rfl))
    · rw [← hsent]
      refine (happening_ite hon (p := k.due ≤ c.feedAt ∧ passes) (d := (c.issueStroke k).settleStrokes) ?_).trans rfl
      simp only [hk]
      exact if_congr (by rw [Bool.and_eq_true, decide_eq_true_iff, hissue]) rfl rfl
    · refine (happening_ite hon (p := k.waiting = true ∧ late ∧ c.seq.mode ≠ .fault)
        (d := Controller.strokeCrossings rest missed) ?_).trans rfl
      simp only [hk]
      exact Controller.strokeLate_eq hk
    · rw [← hsent]
      exact c.retestStroke_eq hk
    · rw [← hsent]
      exact c.strokeCrossing_eq hk
  · intro point idle
    exact ⟨fun q i r o hq => c.strokeFrom_placed hq i r o, Controller.seekCursor_idle,
      fun front back m hroster hfront hp hm => Controller.seekCursor_first hroster hfront hp hm,
      fun k m hp hleft hm => Controller.advanceCursor_some hp hleft hm, fun k h => Controller.advanceCursor_none h⟩

/-! ### Acknowledgements -/

theorem Controller.conveyedTest_none {c : Controller} {id : Nat} (h : c.panelById id = none) : c.conveyedTest id = c := by
  unfold Controller.conveyedTest
  rw [h]

theorem Controller.conveyedTest_some {c : Controller} {id : Nat} {p : Panel} (h : c.panelById id = some p) :
    c.conveyedTest id =
      if p.state = .pleating ∧ p.bTail ≠ none ∧ p.strokesLeft = 0 ∧ ∀ w ∈ c.seq.window, w.panel ≠ id then
        c.updatePanel id (fun q => { q with state := .conveyed })
      else c := by
  unfold Controller.conveyedTest
  simp only [h]
  refine if_congr ?_ rfl rfl
  simp [Option.isSome_iff_ne_none, Controller.inWindow]

section Acknowledge
variable {c : Controller} (seq : Byte) (outcome : Controller → WindowEntry → Controller)

theorem Controller.acknowledge_away (h : c.seq.mode ≠ .stepping) : c.acknowledge seq outcome = c := if_neg h

theorem Controller.acknowledge_empty (h : c.seq.mode = .stepping) (hw : c.seq.window = []) :
    c.acknowledge seq outcome = (c.raise .linkProtocol (Detail.named .p)).startResync := by
  unfold Controller.acknowledge
  simp only [if_pos h, hw]

theorem Controller.acknowledge_oldest (h : c.seq.mode = .stepping) {w : WindowEntry} {rest : List WindowEntry}
    (hw : c.seq.window = w :: rest) :
    c.acknowledge seq outcome =
      if w.seq ≠ seq then (c.raise .linkProtocol (Detail.named .p)).startResync
      else ((outcome { c with seq := { c.seq with window := rest } } w).conveyedTest w.panel).retestStroke := by
  unfold Controller.acknowledge
  simp only [if_pos h, hw, ite_not]

end Acknowledge

/-- An acknowledgement by the sequencer's state and the window, in an event that began at controller `c`. -/
theorem Controller.settled_acknowledge (c e : Controller) (seq : Byte)
    (outcome : Controller → WindowEntry → Controller) :
    settled c (e.acknowledge seq outcome) =
      if e.seq.mode ≠ .stepping then settled c e
      else match e.seq.window with
        | [] => settled c ((e.raise .linkProtocol (Detail.named .p)).startResync)
        | w :: rest =>
          if w.seq ≠ seq then settled c ((e.raise .linkProtocol (Detail.named .p)).startResync)
          else settled c
            (((outcome { e with seq := { e.seq with window := rest } } w).conveyedTest w.panel).retestStroke) := by
  by_cases hmode : e.seq.mode = .stepping
  · rw [if_neg (not_not_intro hmode)]
    cases hw : e.seq.window with
    | nil => rw [Controller.acknowledge_empty seq _ hmode hw]
    | cons w rest => rw [Controller.acknowledge_oldest seq _ hmode hw, apply_ite (settled c)]
  · rw [if_pos hmode, Controller.acknowledge_away seq _ hmode]

/-- Settles O52: by the sequencer's state and the window. -/
theorem acknowledgementsCountTheOldest : Obligations.AcknowledgementsCountTheOldest := by
  refine ⟨fun s seq hawake => ?_, fun c id => ⟨Controller.conveyedTest_none, fun p => Controller.conveyedTest_some⟩⟩
  intro c e lost done
  refine ⟨fun hoff => ⟨telegram_unheard hawake hoff, fun cause => telegram_unheard hawake hoff⟩, fun hon => ?_,
    fun hon cause => ?_⟩
  · refine (telegram_heard (t := .strokeDone seq) hawake hon).trans (congrArg s.then ?_)
    exact (Controller.settled_acknowledge c e seq Controller.doneEntry).trans rfl
  · refine (telegram_heard (t := .strokeFault seq cause) hawake hon).trans (congrArg s.then ?_)
    exact (Controller.settled_acknowledge c e seq (Controller.faultedEntry cause)).trans rfl

/-! ### Resync -/

/-- What every step of a fold keeps, the fold keeps. -/
theorem foldl_keeps {α β γ : Type} {f : β → α → β} {g : β → γ} (h : ∀ b a, g (f b a) = g b) (l : List α) (b : β) :
    g (l.foldl f b) = g b := by
  induction l generalizing b with
  | nil => rfl
  | cons a l ih => exact (ih (f b a)).trans (h b a)

/-- The controller with its records and notices blanked. -/
def Controller.sansRecords (c : Controller) : Controller :=
  let b := Controller.fresh false false
  { c with tab := b.tab, att := b.att }

theorem Controller.addCause_sansRecords (c : Controller) (id : Nat) (k : Cause) :
    (c.addCause id k).sansRecords = c.sansRecords := by
  unfold Controller.addCause
  split
  · rfl
  · split <;> rfl

theorem Controller.faultEntry_sansRecords (c : Controller) (e : WindowEntry) :
    (c.faultEntry e).sansRecords = c.sansRecords := Controller.addCause_sansRecords ..

theorem Controller.conveyedTest_sansRecords (c : Controller) (id : Nat) :
    (c.conveyedTest id).sansRecords = c.sansRecords := by
  unfold Controller.conveyedTest
  split
  · rfl
  · split <;> rfl

theorem Controller.sendResync_sansLinks (c : Controller) : c.sendResync.sansLinks = c.sansLinks :=
  (Controller.hand_sansLinks ..).trans (Controller.hand_sansLinks ..)

/-- Channel P after a resync is sent: nothing waits before the break and RESYNC (R179). -/
theorem Controller.sendResync_chP {c : Controller} (hon : c.chP.enabled = true) :
    c.sendResync.chP.tx = some (c.chP.tx.getD .brk) ∧
      c.sendResync.chP.queue = if c.chP.tx.isSome then [.brk, .resync] else [.resync] := by
  have hlink : c.sendResync.chP = ((({ c.chP with queue := [] } : Link).hand .brk).1.hand .resync).1 :=
    ((c.withdrawHead.hand .p .brk).hand_link .p .resync).trans
      (congrArg (fun l : Link => (l.hand .resync).1) (c.withdrawHead.hand_link .p .brk))
  rw [hlink]
  cases htx : c.chP.tx <;> simp [Link.hand, hon, htx, enqueue, waitingPlaces, TxItem.isStroke]

/-- What a resync counts on: a record's identity and its counts. -/
def Panel.tally (p : Panel) : Nat × Option Placed := (p.id, p.placed)

def Controller.tallies (c : Controller) : List (Nat × Option Placed) := c.tab.panels.map Panel.tally

theorem Controller.updatePanel_tallies (c : Controller) (id : Nat) {f : Panel → Panel} (h : ∀ p, (f p).tally = p.tally) :
    (c.updatePanel id f).tallies = c.tallies := by
  show (c.tab.panels.map _).map Panel.tally = c.tab.panels.map Panel.tally
  rw [List.map_map]
  refine List.map_congr_left fun p _ => ?_
  show Panel.tally (if p.id = id then f p else p) = p.tally
  split
  · exact h p
  · rfl

theorem Controller.addCause_tallies (c : Controller) (id : Nat) (k : Cause) : (c.addCause id k).tallies = c.tallies := by
  unfold Controller.addCause
  split
  · rfl
  · split
    · exact c.updatePanel_tallies id fun _ => rfl
    · exact c.updatePanel_tallies id fun _ => rfl

theorem Controller.conveyedTest_tallies (c : Controller) (id : Nat) : (c.conveyedTest id).tallies = c.tallies := by
  unfold Controller.conveyedTest
  split
  · rfl
  · split
    · exact c.updatePanel_tallies id fun _ => rfl
    · rfl

/-- A record's counts with `n` more strokes faulted. -/
def tallyFaults (n : Nat) (t : Nat × Option Placed) : Nat × Option Placed :=
  (t.1, t.2.map (fun x => { x with faulted := x.faulted + n }))

theorem tallyFaults_zero (t : Nat × Option Placed) : tallyFaults 0 t = t := by
  obtain ⟨id, placed⟩ := t
  cases placed <;> rfl

theorem tallyFaults_add (m n : Nat) (t : Nat × Option Placed) : tallyFaults m (tallyFaults n t) = tallyFaults (n + m) t := by
  obtain ⟨id, placed⟩ := t
  cases placed <;> simp [tallyFaults, Nat.add_assoc]

theorem Controller.faultEntry_tallies (c : Controller) (e : WindowEntry) :
    (c.faultEntry e).tallies = c.tallies.map (fun t => tallyFaults (if e.panel = t.1 then 1 else 0) t) := by
  refine (Controller.addCause_tallies ..).trans ?_
  show (c.tab.panels.map _).map Panel.tally = (c.tab.panels.map Panel.tally).map _
  rw [List.map_map, List.map_map]
  refine List.map_congr_left fun p _ => ?_
  show Panel.tally (if p.id = e.panel then _ else p) = tallyFaults (if e.panel = p.id then 1 else 0) p.tally
  by_cases h : p.id = e.panel
  · rw [if_pos h, if_pos h.symm]
    rfl
  · rw [if_neg h, if_neg (Ne.symm h), tallyFaults_zero]

theorem Controller.faultEntries_tallies (c : Controller) (l : List WindowEntry) :
    (l.foldl Controller.faultEntry c).tallies = c.tallies.map (fun t => tallyFaults (inFlight l t.1) t) := by
  induction l generalizing c with
  | nil =>
    refine (List.map_id _).symm.trans (List.map_congr_left fun t _ => ?_)
    exact (tallyFaults_zero t).symm
  | cons e l ih =>
    rw [List.foldl_cons, ih, Controller.faultEntry_tallies, List.map_map]
    refine List.map_congr_left fun t _ => ?_
    show tallyFaults (inFlight l t.1) (tallyFaults _ t) = _
    rw [tallyFaults_add]
    refine congrArg (fun n => tallyFaults n t) ?_
    by_cases h : e.panel = t.1
    · simp [inFlight, h, Nat.add_comm]
    · simp [inFlight, h]

/-- A resync as far as its RESYNC: the window's strokes faulted, the window empty, the CONVEYED tests made. -/
def Controller.lostWindow (c : Controller) : Controller :=
  let d := c.seq.window.foldl Controller.faultEntry c
  c.seq.window.foldl (fun d e => d.conveyedTest e.panel) { d with seq := { d.seq with window := [] } }

theorem Controller.startResync_eq (c : Controller) :
    c.startResync =
      let d := c.lostWindow.sendResync
      { d with seq := { d.seq with mode := .resync, attempts := 1, attemptTick := d.mot.tick } } := rfl

theorem Controller.lostWindow_sansRecords (c : Controller) :
    c.lostWindow.sansRecords = { c.sansRecords with seq := { c.seq with window := [] } } := by
  have hfaulted : (c.seq.window.foldl Controller.faultEntry c).sansRecords = c.sansRecords :=
    foldl_keeps (fun d e => d.faultEntry_sansRecords e) _ c
  refine (foldl_keeps (fun d e => d.conveyedTest_sansRecords e.panel) _ _).trans ?_
  exact congrArg (fun d : Controller => { d with seq := { d.seq with window := [] } }) hfaulted

theorem Controller.lostWindow_tallies (c : Controller) :
    c.lostWindow.tallies = c.tallies.map (fun t => tallyFaults (inFlight c.seq.window t.1) t) :=
  (foldl_keeps (fun d e => d.conveyedTest_tallies e.panel) c.seq.window
    { c.seq.window.foldl Controller.faultEntry c with
      seq := { (c.seq.window.foldl Controller.faultEntry c).seq with window := [] } }).trans
    (c.faultEntries_tallies c.seq.window)

theorem Controller.startResync_seq (c : Controller) :
    c.startResync.seq = { c.seq with window := [], mode := .resync, attempts := 1, attemptTick := c.mot.tick } := by
  have hlost := c.lostWindow_sansRecords
  have hsent := c.lostWindow.sendResync_sansLinks
  have hseq : c.lostWindow.sendResync.seq = { c.seq with window := [] } :=
    (congrArg Controller.seq hsent :).trans (congrArg Controller.seq hlost :)
  have hmot : c.lostWindow.sendResync.mot = c.mot :=
    (congrArg Controller.mot hsent :).trans (congrArg Controller.mot hlost :)
  rw [Controller.startResync_eq]
  simp only
  rw [hseq, hmot]

/-- The counts of a record of before, found among the records of after. -/
theorem Controller.startResync_counts (c : Controller) {p : Panel} (hp : p ∈ c.tab.panels) :
    ∃ q ∈ c.startResync.tab.panels, q.id = p.id ∧
      q.placed = p.placed.map (fun x => { x with faulted := x.faulted + inFlight c.seq.window p.id }) := by
  have htab : c.startResync.tab = c.lostWindow.tab :=
    (congrArg Controller.tab c.lostWindow.sendResync_sansLinks :)
  have hmem : tallyFaults (inFlight c.seq.window p.id) p.tally ∈ c.lostWindow.tallies := by
    rw [Controller.lostWindow_tallies]
    exact List.mem_map_of_mem (List.mem_map_of_mem hp)
  obtain ⟨q, hq, htally⟩ := List.mem_map.mp hmem
  rw [htab]
  exact ⟨q, hq, congrArg Prod.fst htally, congrArg Prod.snd htally⟩

theorem Controller.ackTimeoutTest_overdue {c : Controller} {e : WindowEntry} {rest : List WindowEntry}
    (hmode : c.seq.mode = .stepping) (hw : c.seq.window = e :: rest) (hage : c.ackTimeout < c.age e.tick) :
    c.ackTimeoutTest = (c.raise .pleatAckTimeout (Detail.num e.number)).startResync := by
  unfold Controller.ackTimeoutTest Controller.ackOverdue
  simp only [hmode, if_true, hw, if_pos hage]

theorem Controller.ackTimeoutTest_away {c : Controller}
    (h : c.seq.mode ≠ .stepping ∨ ∀ e rest, c.seq.window = e :: rest → c.age e.tick ≤ c.ackTimeout) :
    c.ackTimeoutTest = c := by
  have hnone : c.ackOverdue = none := by
    unfold Controller.ackOverdue
    split
    next hmode =>
      split
      · rfl
      next e rest hw => exact if_neg (Nat.not_lt.mpr (h.resolve_left (not_not_intro hmode) e rest hw))
    next => rfl
  unfold Controller.ackTimeoutTest
  rw [hnone]

theorem Controller.attemptOverdue_iff (c : Controller) :
    c.attemptOverdue = false ↔ c.seq.mode ≠ .resync ∨ c.age c.seq.attemptTick ≤ c.ackTimeout := by
  unfold Controller.attemptOverdue
  rw [Bool.and_eq_false_iff, beq_eq_false_iff_ne, decide_eq_false_iff_not, Nat.not_lt]

/-- Another attempt of a resync (R128). -/
theorem Controller.attemptTest_again {c : Controller} (hover : c.attemptOverdue = true) (hmore : c.seq.attempts < 3) :
    c.attemptTest = { c.sendResync with
      seq := { c.seq with attempts := c.seq.attempts + 1, attemptTick := c.mot.tick } } := by
  have hseq : c.sendResync.seq = c.seq := (congrArg Controller.seq c.sendResync_sansLinks :)
  have hmot : c.sendResync.mot = c.mot := (congrArg Controller.mot c.sendResync_sansLinks :)
  refine (if_pos hover).trans ((if_pos hmore).trans ?_)
  simp only [hseq, hmot]

/-- Settles O53: each row is its test, and what a resync leaves is read off its steps. -/
theorem resyncsEmptyTheWindow : Obligations.ResyncsEmptyTheWindow := by
  refine ⟨fun s => ?_, fun c _ hon => ?_⟩
  · intro c
    refine ⟨fun hon => ⟨fun e rest hmode hw hage => ?_, fun h => ?_⟩, fun hon => ?_, fun next hawake hon => ?_,
      fun tag hawake => ?_⟩
    · exact happening_of_eq hon (Controller.ackTimeoutTest_overdue hmode hw hage)
    · exact happening_of_eq_self hon (Controller.ackTimeoutTest_away h)
    · intro again
      by_cases haway : c.seq.mode ≠ .resync ∨ c.age c.seq.attemptTick ≤ c.ackTimeout
      · rw [if_pos haway]
        exact happening_of_eq_self hon (if_neg (Bool.eq_false_iff.mp (c.attemptOverdue_iff.mpr haway)))
      · rw [if_neg haway]
        have hover : c.attemptOverdue = true := by
          rw [← c.attemptOverdue_iff] at haway
          simpa using haway
        by_cases hmore : c.seq.attempts < 3
        · rw [if_pos hmore]
          exact happening_of_gateInputs hon (Controller.attemptTest_again hover hmore)
            (congrArg Controller.gateInputs c.sendResync_sansLinks :)
        · rw [if_neg hmore]
          exact happening_of_eq hon ((if_pos hover).trans (if_neg hmore))
    · intro e
      refine (telegram_heard (t := .resyncDone next) hawake hon).trans (congrArg s.then (congrArg (settled s.ctl) ?_))
      rw [ite_not]
      rfl
    · exact request_awake_eq hawake (Controller.carryOut_whenCommissioned_not ..)
  · intro d
    refine ⟨c.startResync_seq, ?_, fun p hp => c.startResync_counts hp⟩
    have hlink : c.lostWindow.chP = c.chP := (congrArg Controller.chP c.lostWindow_sansRecords :)
    rw [← hlink]
    exact Controller.sendResync_chP (hlink ▸ hon)

/-! ### The head's telegrams and ABORT_PLEAT -/

theorem Controller.headInfo_eq (c : Controller) :
    c.headInfo = match c.rosterPanels.find? c.atHead with
      | none => .headInfo 0 0 0 0 0
      | some p => .headInfo p.number p.pattern p.total ((p.placed.map Placed.issued).getD 0)
        ((p.placed.map Placed.done).getD 0) := by
  unfold Controller.headInfo
  cases c.rosterPanels.find? c.atHead with
  | none => rfl
  | some p => cases h : p.placed <;> simp only [h] <;> rfl

/-- Settles O54: the head's telegrams as their owner takes them, and the abort by its checks. -/
theorem headTelegramsAndAborts : Obligations.HeadTelegramsAndAborts := by
  intro s hawake c ready e number
  refine ⟨fun hoff => ⟨telegram_unheard hawake hoff, telegram_unheard hawake hoff, telegram_unheard hawake hoff⟩,
    fun hon => ⟨?_, ?_, ?_⟩, fun tag panel => ?_⟩
  · refine (telegram_heard (t := .headBusy) hawake hon).trans (congrArg s.then ?_)
    exact settled_of_gateInputs_eq rfl
  · exact telegram_heard (t := .headReady) hawake hon
  · refine (telegram_heard (t := .headQuery) hawake hon).trans (congrArg s.then ?_)
    exact congrArg (fun x => settled c (e.hand .p x)) ((Controller.headInfo_eq e).trans rfl)
  · refine request_awake_eq hawake ((Controller.carryOut_whenCommissioned_not ..).trans (if_congr Iff.rfl rfl ?_))
    refine (Controller.carryOut_onPanel (d := fun x => match x with
      | none => c.answered .noSuchRecord tag []
      | some p =>
        if (p.state = .feeding ∨ p.state = .pleating) ∧ 0 < p.strokesLeft then
          (settled c (c.abortStrokes p)).answered .ok tag (field 2 p.strokesLeft)
        else c.answered .wrongState tag []) _ tag _ rfl fun p _ => ?_).trans rfl
    rw [Controller.carryOut_ite]
    rfl

end Sys2Proof.Machine

/-! A panel's crossings (R47 to R49, R112, R113, R148, R150, R159 to R162). Each crossing is taken when its threshold is
reached and it has not been taken; what it does then goes by the panel's state. -/

namespace Sys2Proof.Machine

/-! ### The event of a panel's number -/

theorem onCrossing_none {s : State} (hon : s.onLine) {panel : Word16} (h : s.ctl.panelByNumber panel.toNat = none)
    (f : Controller → Nat → Controller) : onCrossing s panel f = s.then s.ctl :=
  happening_of_eq_self hon (by simp only [h])

theorem onCrossing_some {s : State} (hon : s.onLine) {panel : Word16} {p : Panel}
    (h : s.ctl.panelByNumber panel.toNat = some p) {f : Controller → Nat → Controller} {d : Controller}
    (hf : f s.ctl p.id = d) : onCrossing s panel f = s.then (settled s.ctl d) :=
  happening_of_eq hon (by simp only [h, hf])

/-- A crossing that is not there to take. -/
theorem onCrossing_keeps {s : State} (hon : s.onLine) {panel : Word16} {p : Panel}
    (h : s.ctl.panelByNumber panel.toNat = some p) {f : Controller → Nat → Controller} (hf : f s.ctl p.id = s.ctl) :
    onCrossing s panel f = s.then s.ctl := by
  rw [onCrossing_some hon h hf, settled_self]

/-- A crossing taken by its threshold and the panel's state, where in no other state the event changes what R71 names. -/
theorem onCrossing_taken {s : State} (hon : s.onLine) {panel : Word16} {p : Panel}
    (h : s.ctl.panelByNumber panel.toNat = some p) {f : Controller → Nat → Controller} {away awaited : Prop}
    [Decidable away] [Decidable awaited] {x d : Controller}
    (hf : f s.ctl p.id = if away then s.ctl else if awaited then x else d) (hd : d.gateInputs = s.ctl.gateInputs) :
    onCrossing s panel f = s.then (if away then s.ctl else if awaited then settled s.ctl x else d) := by
  rw [onCrossing_some hon h hf, apply_ite (settled s.ctl), apply_ite (settled s.ctl), settled_self,
    settled_of_gateInputs_eq hd]

/-! ### The crossings of a live panel -/

section Crossings
variable {c : Controller} {p : Panel} (hp : c.panelById p.id = some p)

/-- The panel with a crossing marked. -/
def Controller.markCrossed (c : Controller) (id : Nat) (f : Crossed → Crossed) : Controller :=
  c.updatePanel id (fun x => { x with crossed := f x.crossed })

/-- A crossing's condition, by its mark and its threshold. -/
theorem crossing_iff {taken : Bool} {x y : Nat} : (!taken && decide (x ≤ y)) = true ↔ ¬ (taken = true ∨ y < x) := by
  cases taken <;> simp

theorem ite_crossing {α : Type} {taken : Bool} {x y : Nat} (a b : α) :
    (if (!taken && decide (x ≤ y)) = true then a else b) = if taken = true ∨ y < x then b else a :=
  (if_congr crossing_iff rfl rfl).trans (ite_not ..)

include hp

theorem Controller.headArrival_unplaced (h : p.placed = none) : c.headArrival p.id = c := by
  unfold Controller.headArrival
  simp only [hp]
  exact if_neg (by simp [Controller.leadAtHead, h])

theorem Controller.headArrival_eq {q : Placed} (hq : p.placed = some q) :
    c.headArrival p.id =
      if p.crossed.head = true ∨ c.feedAt < q.leadA + c.headDist then c
      else if p.state = .feeding then
        ((c.markCrossed p.id (fun x => { x with head := true })).updatePanel p.id (fun x =>
          { x with state := .pleating, bLead := x.bLead.or (some c.convAt) })).trackBCrossings p.id
      else c.markCrossed p.id (fun x => { x with head := true }) := by
  unfold Controller.headArrival
  simp only [hp, Controller.leadAtHead, hq, ite_crossing]
  rfl

theorem Controller.tailPassage_unplaced (h : p.placed = none) : c.tailPassage p.id = c := by
  unfold Controller.tailPassage
  simp only [hp]
  exact if_neg (by simp [Controller.tailAtHead, Controller.tailThreshold, h])

theorem Controller.tailPassage_eq {q : Placed} (hq : p.placed = some q) :
    let d := ((c.markCrossed p.id (fun x => { x with tail := true })).lastStroke p).missRest p.id
    c.tailPassage p.id =
      if p.crossed.tail = true ∨ c.feedAt < q.leadA + p.flatLength + c.headDist then c
      else ((d.updatePanel p.id (fun x => { x with bTail := x.bTail.or (some d.convAt) })).conveyedTest
        p.id).trackBCrossings p.id := by
  unfold Controller.tailPassage
  simp only [hp, Controller.tailAtHead, Controller.tailThreshold, hq, Option.map_some, ite_crossing]
  rfl

theorem Controller.chamberEntry_absent (h : p.bLead = none) : c.chamberEntry p.id = c := by
  unfold Controller.chamberEntry
  simp only [hp]
  exact if_neg (by simp [Controller.leadAtEntry, h])

theorem Controller.chamberEntry_eq {b : Nat} (hb : p.bLead = some b) :
    let d := c.markCrossed p.id (fun x => { x with entry := true })
    let inside := d.updatePanel p.id (fun x => { x with state := .setting, dose := x.dose.or (some 0) })
    c.chamberEntry p.id =
      if p.crossed.entry = true ∨ c.convAt < b + c.entryDist then c
      else if p.state = .conveyed then inside
      else if p.state = .pleating then
        (if (∃ w ∈ c.seq.window, w.panel = p.id) ∨ 0 < p.strokesLeft then inside.addCause p.id .strokeFault else inside)
      else d := by
  intro d inside
  unfold Controller.chamberEntry
  simp only [hp, Controller.leadAtEntry, hb, ite_crossing]
  refine if_congr Iff.rfl rfl ?_
  cases hst : p.state with
  | pleating =>
    refine Eq.trans ?_ ((if_neg (by decide)).trans (if_pos rfl)).symm
    exact if_congr (by simp [Controller.inWindow, Controller.updatePanel]) rfl rfl
  | _ => rfl

theorem Controller.chamberExit_absent (h : p.bTail = none) : c.chamberExit p.id = c := by
  unfold Controller.chamberExit
  simp only [hp]
  exact if_neg (by simp [Controller.tailAtExit, h])

theorem Controller.chamberExit_eq {b : Nat} (hb : p.bTail = some b) :
    let d := c.markCrossed p.id (fun x => { x with exit := true })
    let cooled := (d.updatePanel p.id (fun x => { x with state := .cooling })).decideVerdict p.id
    let taken := if p.crossed.heldLead = true then cooled.takeLeadCut p.id else cooled
    c.chamberExit p.id =
      if p.crossed.exit = true ∨ c.convAt < b + c.exitDist then c
      else if p.state = .setting then taken.gate.coordHold.drainTest else d := by
  intro d cooled taken
  unfold Controller.chamberExit
  simp only [hp, Controller.tailAtExit, hb, ite_crossing]
  rfl

theorem Controller.leadCrossing_absent (h : p.bLead = none) : c.leadCrossing p.id = c := by
  unfold Controller.leadCrossing
  simp only [hp]
  exact if_neg (by simp [Controller.leadAtCutter, h])

theorem Controller.leadCrossing_eq {b : Nat} (hb : p.bLead = some b) :
    let d := c.markCrossed p.id (fun x => { x with lead := true })
    c.leadCrossing p.id =
      if p.crossed.lead = true ∨ c.convAt < b + c.cutDist then c
      else if p.state = .cooling then d.takeLeadCut p.id
      else if p.state = .setting then d.markCrossed p.id (fun x => { x with heldLead := true })
      else d := by
  intro d
  unfold Controller.leadCrossing
  simp only [hp, Controller.leadAtCutter, hb, ite_crossing]
  refine if_congr Iff.rfl rfl ?_
  cases p.state <;> rfl

theorem Controller.tailCrossing_absent (h : p.bTail = none) : c.tailCrossing p.id = c := by
  unfold Controller.tailCrossing
  simp only [hp]
  exact if_neg (by simp [Controller.tailAtCutter, h])

theorem Controller.tailCrossing_eq {b : Nat} (hb : p.bTail = some b) :
    let d := c.markCrossed p.id (fun x => { x with tailCut := true })
    c.tailCrossing p.id =
      if p.crossed.tailCut = true ∨ c.convAt < b + c.cutDist then c
      else if p.state = .cutting then d.takeTailCut p.id
      else if p.state = .cooling then d.markCrossed p.id (fun x => { x with heldTail := true })
      else d := by
  intro d
  unfold Controller.tailCrossing
  simp only [hp, Controller.tailAtCutter, hb, ite_crossing]
  refine if_congr Iff.rfl rfl ?_
  cases p.state <;> rfl

/-! ### What the crossings leave -/

theorem Controller.takeLeadCut_eq {b : Nat} (hb : p.bLead = some b) :
    let d := (c.updatePanel p.id (fun q => { q with
      state := .cutting
      marks := q.marks.or (some ⟨false, false, false⟩)
      crossed := { q.crossed with heldLead := false } })).queueCut p .lead (b + c.cutDist)
    c.takeLeadCut p.id = if p.crossed.heldTail = true then d.takeTailCut p.id else d := by
  unfold Controller.takeLeadCut
  simp only [hp, hb]
  rfl

theorem Controller.takeTailCut_eq {b : Nat} (hb : p.bTail = some b) :
    c.takeTailCut p.id =
      (c.updatePanel p.id (fun q => { q with crossed := { q.crossed with heldTail := false } })).queueCut p .tail
        (b + c.cutDist) := by
  unfold Controller.takeTailCut
  simp only [hp, hb]
  rfl

theorem Controller.missRest_eq :
    c.missRest p.id =
      if p.strokesLeft = 0 then c.leavePanel p.id
      else ((((c.updatePanel p.id (fun q => { q with
          placed := q.placed.map (fun q => { q with missed := q.missed + p.strokesLeft }) })).addCause p.id
        .strokeFault).raise .pleatStrokeMissed (Detail.num p.number)).leavePanel p.id) := by
  unfold Controller.missRest
  simp only [hp]
  rfl

end Crossings

theorem Controller.failCut_eq (c : Controller) (id number : Nat) (kind : CutKind) (reason : Byte) :
    let told := (c.addCause id .cutFault).raise .panelCutFault ⟨BitVec.ofNat 16 number, reason⟩
    c.failCut id number kind reason = match kind with
      | .lead => told
      | .tail => told.updatePanel id (fun q => if q.state = .cutting then { q with state := .cut } else q) := by
  cases kind <;> rfl

theorem Controller.leavePanel_eq (c : Controller) (id : Nat) :
    c.leavePanel id = if c.seq.cursor.map Cursor.panel = some id then c.seekCursor.settleStrokes else c := by
  unfold Controller.leavePanel
  cases c.seq.cursor <;> simp

theorem Controller.lastStroke_none {c : Controller} (h : c.seq.cursor = none) (p : Panel) : c.lastStroke p = c := by
  unfold Controller.lastStroke
  rw [h]

theorem Controller.lastStroke_some {c : Controller} {k : Cursor} {p : Panel} {q : Placed} (hk : c.seq.cursor = some k)
    (hq : p.placed = some q) :
    c.lastStroke p =
      if k.panel = p.id ∧ k.due = q.leadA + p.flatLength + c.headDist ∧ k.waiting = false then
        c.strokeCrossing.getD c else c := by
  unfold Controller.lastStroke
  simp only [hk, Controller.tailThreshold, hq, Option.map_some, Option.some.injEq]

/-- Settles O55: each crossing by its threshold and the panel's state, and what it leaves by the model's steps. -/
theorem crossingsMoveThePanel : Obligations.CrossingsMoveThePanel := by
  refine ⟨fun s panel hon hs => ?_, fun c p hp => ?_⟩
  · intro c
    refine ⟨fun h => ⟨onCrossing_none hon h _, onCrossing_none hon h _, onCrossing_none hon h _, onCrossing_none hon h _,
      onCrossing_none hon h _, onCrossing_none hon h _⟩, fun p h => ?_⟩
    intro marked
    have hp := panelById_of_panelByNumber hs h
    refine ⟨fun hq => ⟨onCrossing_keeps hon h (Controller.headArrival_unplaced hp hq),
        onCrossing_keeps hon h (Controller.tailPassage_unplaced hp hq)⟩,
      fun hb => ⟨onCrossing_keeps hon h (Controller.chamberEntry_absent hp hb),
        onCrossing_keeps hon h (Controller.leadCrossing_absent hp hb)⟩,
      fun hb => ⟨onCrossing_keeps hon h (Controller.chamberExit_absent hp hb),
        onCrossing_keeps hon h (Controller.tailCrossing_absent hp hb)⟩,
      fun q hq => onCrossing_taken hon h (Controller.headArrival_eq hp hq) rfl, fun q hq => ?_, fun b hb => ?_,
      fun b hb => onCrossing_taken hon h (Controller.chamberExit_eq hp hb) rfl, fun b hb => ?_, fun b hb => ?_⟩
    · intro d
      refine (onCrossing_some hon h (Controller.tailPassage_eq hp hq)).trans (congrArg s.then ?_)
      rw [apply_ite (settled s.ctl), settled_self]
      rfl
    · intro d inside
      refine (onCrossing_some hon h (Controller.chamberEntry_eq hp hb)).trans (congrArg s.then ?_)
      rw [apply_ite (settled s.ctl), apply_ite (settled s.ctl), apply_ite (settled s.ctl), settled_self]
      exact if_congr Iff.rfl rfl (if_congr Iff.rfl rfl (if_congr Iff.rfl rfl (settled_of_gateInputs_eq rfl)))
    · intro d
      refine (onCrossing_taken hon h (Controller.leadCrossing_eq hp hb) ?_).trans rfl
      split <;> rfl
    · intro d
      refine (onCrossing_taken hon h (Controller.tailCrossing_eq hp hb) ?_).trans rfl
      split <;> rfl
  · intro alter
    exact ⟨fun kind due => rfl, fun number kind reason => (c.failCut_eq p.id number kind reason).trans rfl,
      fun b hb => Controller.takeLeadCut_eq hp hb, fun b hb => Controller.takeTailCut_eq hp hb,
      Controller.missRest_eq hp, c.leavePanel_eq p.id, fun h => Controller.lastStroke_none h p,
      fun k q hk hq => Controller.lastStroke_some hk hq⟩

end Sys2Proof.Machine

/-! The chamber's heat classes, setpoints and banking (R134, R137, R139, R142, R144, R146, R147). -/

namespace Sys2Proof.Machine

/-! ### SET_HEAT_CLASS -/

/-- The first run setpoint out of range, by its place in the list. -/
theorem badRun_eq (l : List Nat) (i : Nat) :
    badRun i l = (l.findIdx? (fun x => decide (x < 600 ∨ 1800 < x))).map (· + i) := by
  induction l generalizing i with
  | nil => rfl
  | cons x rest ih =>
    by_cases h : x < 600 ∨ 1800 < x
    · simp [badRun, List.findIdx?_cons, h]
    · simp [badRun, List.findIdx?_cons, h, ih, Function.comp_def, Nat.add_assoc, Nat.add_comm 1]

theorem Controller.classInUse_iff (c : Controller) (k : Nat) :
    c.classInUse k = true ↔ c.cham.lineClass = k ∨ c.cham.changeover.target = some k := by
  simp [Controller.classInUse]

/-- What SET_HEAT_CLASS leaves, by its first field out of range. -/
theorem Controller.carryOut_heat (c : Controller) (tag : Byte) (k : Nat) (f : HeatFields) :
    c.carryOut tag (Machine.heatRequest k f) =
      (badHeat k f).elim
        (if c.cham.lineClass = k ∨ c.cham.changeover.target = some k then c.answered .inUse tag []
          else (c.defineClass k f).answered .ok tag (heatBody (c.defineClass k f) k))
        (fun i => c.answered .badField tag (field 1 i)) := by
  unfold Machine.heatRequest
  cases badHeat k f with
  | some i => exact c.carryOut_badField tag i
  | none =>
    refine (c.carryOut_ite tag (fun d => d.classInUse k = true) _ _).trans ?_
    exact if_congr (c.classInUse_iff k) (c.carryOut_refuse tag .inUse)
      (Controller.carryOut_accept_of_gateInputs_eq rfl tag _)

theorem badHeat_elim {α : Type} (k : Nat) (f : HeatFields) (x : α) (g : Nat → α) :
    (badHeat k f).elim x g =
      if k = 0 ∨ 8 < k then g 1
      else match f.run.findIdx? (fun x => decide (x < 600 ∨ 1800 < x)) with
        | some i => g (i + 2)
        | none =>
          if f.band < 5 ∨ 100 < f.band then g 8
          else if f.bank < 400 ∨ 1500 < f.bank then g 9
          else if f.doseMin < 100 ∨ 60000 < f.doseMin then g 10
          else if f.doseMax < 100 ∨ 60000 < f.doseMax ∨ f.doseMax ≤ f.doseMin then g 11
          else x := by
  unfold badHeat
  rw [badRun_eq, elim_ite]
  refine if_congr Iff.rfl rfl ?_
  cases f.run.findIdx? (fun x => decide (x < 600 ∨ 1800 < x)) with
  | some i => rfl
  | none => simp only [Option.map_none, elim_ite, Option.elim_some, Option.elim_none, ite_or]

theorem exec_setHeatClass {s : State} (hawake : s.awake) (tag cls : Byte) (r1 r2 r3 r4 r5 r6 : Word16) (band : Byte)
    (bank lo hi : Word16) :
    let f : HeatFields := ⟨[r1.toNat, r2.toNat, r3.toNat, r4.toNat, r5.toNat, r6.toNat], band.toNat, bank.toNat, lo.toNat,
      hi.toNat⟩
    exec (.setHeatClass tag cls r1 r2 r3 r4 r5 r6 band bank lo hi) s =
      s.then (s.ctl.carryOut tag (Machine.heatRequest cls.toNat f)) :=
  request_awake_eq hawake rfl

/-! ### The chamber's events -/

theorem Controller.staleTest_eq (c : Controller) (i : Nat) :
    c.staleTest i =
      if (c.zone i).enabled = true ∧ (c.zone i).state ≠ .stale ∧ c.staleLimit < c.age (c.zone i).origin then
        (c.updateZone i (fun z => { z with state := .stale })).raise .steamStale (Detail.num i)
      else c :=
  if_congr (by simp [and_assoc]) rfl rfl

theorem Controller.bankDue_some {c : Controller} {t : Word32} (h : c.cham.bankTimer = some t) :
    c.bankDue = if c.bankDelay ≤ c.age t then c.setBanked true else c := by
  unfold Controller.bankDue
  rw [h]

theorem Controller.bankDue_none {c : Controller} (h : c.cham.bankTimer = none) : c.bankDue = c := by
  unfold Controller.bankDue
  rw [h]

theorem Controller.allInBand_iff (c : Controller) :
    c.allInBand = true ↔ ∀ z ∈ c.cham.zones, z.enabled = true → z.state = .inBand := by
  simp [Controller.allInBand, ← Bool.not_eq_true, imp_iff_not_or]

theorem Controller.drainTest_gateInputs (c : Controller) : c.drainTest.gateInputs = c.gateInputs := by
  unfold Controller.drainTest
  cases c.cham.changeover with
  | draining k =>
    dsimp only
    split <;> rfl
  | _ => rfl

theorem Controller.completionTest_heating {c : Controller} {k : Nat} (h : c.cham.changeover = .heating k) :
    c.completionTest =
      if ∀ z ∈ c.cham.zones, z.enabled = true → z.state = .inBand then
        Controller.raise { c with cham := { c.cham with lineClass := k, changeover := .idle } } .steamChangeoverDone
          (Detail.num k)
      else c := by
  unfold Controller.completionTest
  simp only [h, Controller.allInBand_iff]

/-! ### The setpoints -/

theorem Controller.zone_deriveZones (c : Controller) {i : Nat} (hlow : 1 ≤ i) (hhigh : i ≤ c.cham.zones.length) :
    c.deriveZones.zone i = (c.zone i).derive (c.wantedOf i) := by
  have hi : i - 1 < c.cham.zones.length := by omega
  simp [Controller.zone, Controller.deriveZones, List.getD_eq_getElem?_getD, hi, Nat.sub_add_cancel hlow]

theorem Zone.derive_eq (z : Zone) (w : WantedKind × Nat) :
    z.derive w =
      if z.enabled = false then z
      else { z with
        kind := w.1
        wanted := w.2
        state := if z.state = .fault ∨ z.state = .stale then z.state
          else match w.1 with
            | .off => .off
            | .run => .heating
            | .bank => .banked } := by
  refine if_congr (by simp) rfl ?_
  cases w.1 <;> rfl

/-! ### Banking -/

theorem Controller.bankTest_eq (c : Controller) :
    c.bankTest =
      if c.commissioned = false ∨ c.bankCondition = c.cham.bankOn then c
      else if c.bankCondition = true then
        (if c.bankDelay = 0 then { c with cham := { c.cham with bankOn := true } }
        else { c with cham := { c.cham with bankOn := true, bankTimer := some c.mot.tick } })
      else if c.cham.banked = true then
        Controller.setBanked { c with cham := { c.cham with bankOn := false } } false
      else { c with cham := { c.cham with bankOn := false, bankTimer := none } } := by
  refine if_congr (by simp) rfl ?_
  cases c.bankCondition <;> rfl

/-- Settles O56: the request by its first bad field, the events by their conditions, and the two derivations. -/
theorem chamberHoldsItsClass : Obligations.ChamberHoldsItsClass := by
  refine ⟨?_, fun s hon => ?_, fun c i hlow hhigh => ?_, fun c => ?_⟩
  · intro s tag cls r1 r2 r3 r4 r5 r6 band bank lo hi hawake c runs bad d
    refine (exec_setHeatClass hawake ..).trans (congrArg s.then ?_)
    rw [Controller.carryOut_heat, badHeat_elim]
    refine if_congr (or_congr (byte_toNat_eq_zero_iff cls) Iff.rfl) rfl ?_
    rfl
  · intro c
    refine ⟨fun zone _ => ?_, fun t ht => ?_, fun h => happening_of_eq_self hon (Controller.bankDue_none h), ?_, ?_⟩
    · refine (happening_of_gateInputs hon (c.staleTest_eq zone.toNat) ?_).trans rfl
      split <;> rfl
    · refine (happening_of_gateInputs hon (Controller.bankDue_some ht) ?_).trans rfl
      split <;> rfl
    · exact (happening_of_gateInputs hon rfl c.drainTest_gateInputs).trans rfl
    · cases h : c.cham.changeover with
      | heating k => exact happening_ite hon (Controller.completionTest_heating h)
      | idle => exact happening_of_eq_self hon (by unfold Controller.completionTest; rw [h])
      | draining k => exact happening_of_eq_self hon (by unfold Controller.completionTest; rw [h])
  · intro active w
    rw [c.zone_deriveZones hlow hhigh, Zone.derive_eq]
    rfl
  · intro cond active chamber
    exact c.bankTest_eq

end Sys2Proof.Machine

/-! The arbiter of the chamber bus (R151, R154, R163): what it chooses, and what each start leaves. -/

namespace Sys2Proof.Machine

/-! ### The choice -/

theorem zoneNumbers_eq_range' : zoneNumbers = List.range' 1 6 := rfl

theorem zoneNumbers_find?_eq_some {p : Nat → Bool} {i : Nat} (hlow : 1 ≤ i) (hhigh : i ≤ 6) (hi : p i = true)
    (hfirst : ∀ j, 1 ≤ j → j < i → p j = false) : zoneNumbers.find? p = some i := by
  rw [zoneNumbers_eq_range', List.find?_range'_eq_some]
  exact ⟨hi, List.mem_range'_1.2 ⟨hlow, by omega⟩, fun j hj hlt => by rw [hfirst j hj hlt]; rfl⟩

theorem mem_zoneNumbers {i : Nat} : i ∈ zoneNumbers ↔ 1 ≤ i ∧ i ≤ 6 := by
  rw [zoneNumbers_eq_range', List.mem_range'_1]
  omega

theorem zoneNumbers_find?_eq_none {p : Nat → Bool} (h : ∀ i, 1 ≤ i → i ≤ 6 → p i = false) : zoneNumbers.find? p = none :=
  List.find?_eq_none.2 fun i hi => by
    obtain ⟨hlow, hhigh⟩ := mem_zoneNumbers.1 hi
    simp [h i hlow hhigh]

section Choice
variable {c : Controller}

/-- Zone `i` waits for a SET. -/
def Controller.pendingSet (c : Controller) (i : Nat) : Prop :=
  (c.zone i).enabled = true ∧ (c.zone i).commanded ≠ some (c.zone i).wanted

/-- The `k`-th zone after the last polled. -/
def Controller.nextZone (c : Controller) (k : Nat) : Nat := (c.cham.lastPolled + k - 1) % 6 + 1

theorem Controller.pendingSet_iff {i : Nat} :
    ((c.zone i).enabled && (c.zone i).setPending) = true ↔ c.pendingSet i := by
  simp [Controller.pendingSet, Zone.setPending]

theorem Controller.zoneToSet_eq_some {i : Nat} (hlow : 1 ≤ i) (hhigh : i ≤ 6) (hi : c.pendingSet i)
    (hfirst : ∀ j, 1 ≤ j → j < i → ¬ c.pendingSet j) : c.zoneToSet = some i :=
  zoneNumbers_find?_eq_some hlow hhigh (Controller.pendingSet_iff.2 hi) fun j hj hlt =>
    Bool.eq_false_iff.2 (mt Controller.pendingSet_iff.1 (hfirst j hj hlt))

theorem Controller.zoneToSet_eq_none (h : ∀ i, 1 ≤ i → i ≤ 6 → ¬ c.pendingSet i) : c.zoneToSet = none :=
  zoneNumbers_find?_eq_none fun i hlow hhigh => Bool.eq_false_iff.2 (mt Controller.pendingSet_iff.1 (h i hlow hhigh))

theorem Controller.zoneToPoll_eq (c : Controller) :
    c.zoneToPoll = (zoneNumbers.find? (fun k => (c.zone (c.nextZone k)).enabled)).map c.nextZone :=
  List.find?_map ..

theorem Controller.busWork_cut {e : CutEntry} {rest : List CutEntry} (h : c.cut.queue = e :: rest) :
    c.busWork = .cut e := by
  unfold Controller.busWork
  rw [h]

theorem Controller.busWork_set (hq : c.cut.queue = []) {i : Nat} (h : c.zoneToSet = some i) : c.busWork = .set i := by
  unfold Controller.busWork
  rw [hq, h]

theorem Controller.busWork_poll (hq : c.cut.queue = []) (hset : c.zoneToSet = none) {i : Nat}
    (h : c.zoneToPoll = some i) : c.busWork = .poll i := by
  unfold Controller.busWork
  rw [hq, hset, h]

theorem Controller.busWork_none (hq : c.cut.queue = []) (hset : c.zoneToSet = none) (h : c.zoneToPoll = none) :
    c.busWork = .none := by
  unfold Controller.busWork
  rw [hq, hset, h]

theorem Controller.busWork_of_off (hq : c.cut.queue = []) (hoff : ∀ i, 1 ≤ i → i ≤ 6 → (c.zone i).enabled = false) :
    c.busWork = .none := by
  have hset : c.zoneToSet = none := Controller.zoneToSet_eq_none fun i hlow hhigh hp =>
    Bool.noConfusion ((hoff i hlow hhigh).symm.trans hp.1)
  have hpoll : c.zoneToPoll = none := by
    rw [c.zoneToPoll_eq, zoneNumbers_find?_eq_none fun k _ _ => hoff (c.nextZone k) (by simp [Controller.nextZone])
      (by unfold Controller.nextZone; omega)]
    rfl
  exact Controller.busWork_none hq hset hpoll

end Choice

/-! ### The starts as events -/

section Events
variable {s : State} (hon : s.onLine)
include hon

theorem exec_cut_busy (h : s.ctl.cham.txn ≠ none) : exec .cut s = s.then s.ctl := by
  obtain ⟨t, ht⟩ := Option.ne_none_iff_exists'.1 h
  exact happening_of_eq_self hon (by simp only [ht])

theorem exec_zoneSet_busy (h : s.ctl.cham.txn ≠ none) : exec .zoneSet s = s.then s.ctl := by
  obtain ⟨t, ht⟩ := Option.ne_none_iff_exists'.1 h
  exact happening_of_eq_self hon (by simp only [ht])

theorem exec_zonePoll_busy (h : s.ctl.cham.txn ≠ none) : exec .zonePoll s = s.then s.ctl := by
  obtain ⟨t, ht⟩ := Option.ne_none_iff_exists'.1 h
  exact happening_of_eq_self hon (by simp only [ht])

theorem exec_cut_free (h : s.ctl.cham.txn = none) {w : BusWork} :
    s.ctl.busWork = w → exec .cut s = s.then (match w with
      | .cut e => settled s.ctl (s.ctl.startCut e)
      | _ => s.ctl) := by
  intro hw
  cases w with
  | cut e => exact happening_of_eq hon (by simp only [h, hw])
  | _ => exact happening_of_eq_self hon (by simp only [h, hw])

theorem exec_zoneSet_free (h : s.ctl.cham.txn = none) {w : BusWork} :
    s.ctl.busWork = w → exec .zoneSet s = s.then (match w with
      | .set i => s.ctl.startSet i
      | _ => s.ctl) := by
  intro hw
  cases w with
  | set i => exact happening_of_gateInputs hon (by simp only [h, hw]) rfl
  | _ => exact happening_of_eq_self hon (by simp only [h, hw])

theorem exec_zonePoll_free (h : s.ctl.cham.txn = none) {w : BusWork} :
    s.ctl.busWork = w → exec .zonePoll s = s.then (match w with
      | .poll i => s.ctl.startPoll i
      | _ => s.ctl) := by
  intro hw
  cases w with
  | poll i => exact happening_of_gateInputs hon (by simp only [h, hw]) rfl
  | _ => exact happening_of_eq_self hon (by simp only [h, hw])

end Events

theorem Controller.startNext_of_busWork {c : Controller} {w : BusWork} :
    c.busWork = w → c.startNext = match w with
      | .cut e => c.startCut e
      | .set i => c.startSet i
      | .poll i => c.startPoll i
      | .none => c := by
  rintro rfl
  rfl

/-! ### The start of a cut -/

theorem Controller.cutLateStep_eq (c : Controller) (e : CutEntry) :
    c.cutLateStep e =
      if e.due + c.cutTol < c.convAt then (c.addCause e.panel .cutLate).raise .panelCutLate (Detail.num e.number) else c :=
  if_congr decide_eq_true_iff rfl rfl

theorem Controller.cutLateStep_mot (c : Controller) (e : CutEntry) : (c.cutLateStep e).mot = c.mot := by
  rw [Controller.cutLateStep_eq]
  split
  · exact (congrArg Controller.mot (c.addCause_sansRecords e.panel .cutLate) :)
  · rfl

theorem Controller.markSent_mot (c : Controller) (e : CutEntry) : (c.markSent e).mot = c.mot := by
  unfold Controller.markSent
  split <;> rfl

/-- The steps of a cut's start after the lateness step, which leaves `d`. -/
theorem Controller.startCut_eq (c : Controller) {e : CutEntry} {rest : List CutEntry} (h : c.cut.queue = e :: rest)
    {d : Controller} (hd : Controller.cutLateStep { c with cut := { c.cut with queue := rest } } e = d) :
    c.startCut e =
      { d.markSent e with
        cham := { (d.markSent e).cham with txn := some ⟨.cut, 7, c.mot.tick, 0⟩ }
        cut := { (d.markSent e).cut with now := some ⟨e.panel, e.number, e.kind⟩ }
        chZ := (d.markSent e).chZ.handBus (.cut e.number e.kind (d.cutRoute e)) } := by
  have hmot : (d.markSent e).mot = c.mot := by rw [Controller.markSent_mot, ← hd, Controller.cutLateStep_mot]
  rw [← hmot, ← hd]
  unfold Controller.startCut
  rw [h]
  rfl

/-- Settles O57: the arbiter's choice for each kind of work, and the start that goes with it. -/
theorem busWorkStartsInOrder : Obligations.BusWorkStartsInOrder := by
  intro s hon c bus pendingSet nextZone noSet
  refine ⟨fun h => ⟨exec_cut_busy hon h, exec_zoneSet_busy hon h, exec_zonePoll_busy hon h⟩, ?_, ?_, ?_, ?_⟩
  · intro e rest hfree hq taken d route m sent
    have hw : c.busWork = .cut e := Controller.busWork_cut hq
    have hstart : c.startCut e = sent := by
      rw [c.startCut_eq hq (Controller.cutLateStep_eq ..)]
      rfl
    refine ⟨(exec_cut_free hon hfree hw).trans ?_, (Controller.startNext_of_busWork hw).trans hstart,
      exec_zoneSet_free hon hfree hw, exec_zonePoll_free hon hfree hw⟩
    exact congrArg (fun x => s.then (settled c x)) hstart
  · intro i hfree hq hlow hhigh hi hfirst set
    have hw : c.busWork = .set i := Controller.busWork_set hq (Controller.zoneToSet_eq_some hlow hhigh hi hfirst)
    exact ⟨exec_zoneSet_free hon hfree hw, Controller.startNext_of_busWork hw, exec_cut_free hon hfree hw,
      exec_zonePoll_free hon hfree hw⟩
  · intro k hfree hq hset hlow hhigh hk hfirst i poll
    have hpoll : c.zoneToPoll = some i :=
      c.zoneToPoll_eq.trans (congrArg (Option.map c.nextZone) (zoneNumbers_find?_eq_some hlow hhigh hk hfirst))
    have hw : c.busWork = .poll i := Controller.busWork_poll hq (Controller.zoneToSet_eq_none hset) hpoll
    exact ⟨exec_zonePoll_free hon hfree hw, Controller.startNext_of_busWork hw, exec_cut_free hon hfree hw,
      exec_zoneSet_free hon hfree hw⟩
  · intro hfree hq hoff
    have hw : c.busWork = .none := Controller.busWork_of_off hq hoff
    exact ⟨exec_cut_free hon hfree hw, exec_zoneSet_free hon hfree hw, exec_zonePoll_free hon hfree hw,
      Controller.startNext_of_busWork hw⟩

end Sys2Proof.Machine

/-! The replies of the chamber bus and its timeout (R138, R144, R152, R153, R155, R156, R165 to R167). -/

namespace Sys2Proof.Machine

section
variable {c : Controller} {t : Txn}

/-! ### The end of a transaction -/

theorem Controller.failTxn_none (h : c.cham.txn = none) (reason : NamedDetail) : c.failTxn reason = c := by
  unfold Controller.failTxn
  rw [h]

/-- A transaction that ends without a taken reply: a cut's is a fault of the cut in progress. -/
theorem Controller.failTxn_some (h : c.cham.txn = some t) (reason : NamedDetail) :
    c.failTxn reason = match t.kind, c.cut.now with
      | .cut, some k =>
        (Controller.failCut { c with cut := { c.cut with now := none } } k.panel k.number k.kind reason.code).endTxn
      | _, _ => c.endTxn := by
  unfold Controller.failTxn Controller.cutUnanswered
  rw [h]
  obtain ⟨kind, drop, start, sent⟩ := t
  cases kind with
  | cut => cases c.cut.now <;> rfl
  | _ => rfl

theorem Controller.replyTest_some (h : c.cham.txn = some t) :
    c.replyTest = if c.replyTimeout ≤ c.age t.start then c.failTxn .timeout else c := by
  unfold Controller.replyTest
  rw [h]

theorem Controller.replyTest_none (h : c.cham.txn = none) : c.replyTest = c := by
  unfold Controller.replyTest
  rw [h]

/-! ### The replies -/

theorem Controller.takeZoneReport_none (h : c.cham.txn = none) (x v : Nat) (f : Bool) : c.takeZoneReport x v f = c := by
  unfold Controller.takeZoneReport
  rw [h]

theorem Controller.takeZoneReport_some (h : c.cham.txn = some t) (x v : Nat) (f : Bool) :
    c.takeZoneReport x v f =
      if t.kind = .poll ∧ v ≤ 100 then (c.zoneReport t.drop x v f).completionTest.endTxn else c.busProtocol := by
  unfold Controller.takeZoneReport
  rw [h]

theorem Controller.takeSetAck_none (h : c.cham.txn = none) (x : Nat) : c.takeSetAck x = c := by
  unfold Controller.takeSetAck
  rw [h]

theorem Controller.takeSetAck_some (h : c.cham.txn = some t) (x : Nat) :
    c.takeSetAck x =
      if t.kind = .set ∧ x = t.sent then (c.updateZone t.drop (fun z => { z with commanded := some x })).endTxn
      else c.busProtocol := by
  unfold Controller.takeSetAck
  rw [h]

section CutAnswer
variable (p : Nat) (k : CutKind) (effect : Controller → CutNow → Controller)

theorem Controller.takeCutAnswer_none (h : c.cham.txn = none) : c.takeCutAnswer p k effect = c := by
  unfold Controller.takeCutAnswer
  rw [h]

theorem Controller.takeCutAnswer_noCut (h : c.cham.txn = some t) (hn : c.cut.now = none) :
    c.takeCutAnswer p k effect = c.busProtocol := by
  unfold Controller.takeCutAnswer
  rw [h, hn]

/-- A cutter's answer to the cut in progress, by the effect of an answer that matches it. -/
theorem Controller.takeCutAnswer_some (h : c.cham.txn = some t) {n : CutNow} (hn : c.cut.now = some n) {d : Controller}
    (hd : k = n.kind → effect { c with cut := { c.cut with now := none } } n = d) :
    c.takeCutAnswer p k effect = if t.kind = .cut ∧ p = n.number ∧ k = n.kind then d.endTxn else c.busProtocol := by
  unfold Controller.takeCutAnswer
  rw [h, hn]
  by_cases hmatch : t.kind = .cut ∧ p = n.number ∧ k = n.kind
  · obtain ⟨-, -, hk⟩ := id hmatch
    simp only [if_pos hmatch, hd hk]
  · simp only [if_neg hmatch]

end CutAnswer

theorem Controller.cutDoneEffect_lead {n : CutNow} (h : n.kind = .lead) :
    c.cutDoneEffect n =
      c.updatePanel n.panel (fun q => { q with marks := q.marks.map (fun m => { m with leadDone := true }) }) := by
  unfold Controller.cutDoneEffect
  rw [h]
  rfl

theorem Controller.cutDoneEffect_tail {n : CutNow} (h : n.kind = .tail) :
    c.cutDoneEffect n =
      (c.updatePanel n.panel (fun q => { q with
        marks := q.marks.map (fun m => { m with tailDone := true })
        state := if q.state = .cutting then .cut else q.state })).raise .panelCutDone (Detail.num n.number) := by
  unfold Controller.cutDoneEffect
  rw [h]
  refine congrArg (fun f => (c.updatePanel n.panel f).raise .panelCutDone (Detail.num n.number)) (funext fun q => ?_)
  by_cases hq : q.state = .cutting
  · exact (if_pos hq).trans (by rw [if_pos hq]; rfl)
  · exact (if_neg hq).trans (by rw [if_neg hq]; rfl)

end

/-! ### A good report -/

/-- Whether a zone in its band, or that has left it, now stands out of band. -/
theorem reportState_eq (z : Zone) (band x : Nat) (fault : Bool) :
    reportState z band x fault =
      if fault = true then .fault
      else match z.kind with
        | .off => .off
        | .bank => .banked
        | .run =>
          if z.commanded = some z.wanted ∧ x ≤ z.wanted + band ∧ z.wanted ≤ x + band then .inBand
          else if z.state = .inBand ∨ z.state = .outOfBand then .outOfBand
          else .heating := by
  unfold reportState
  refine if_congr Iff.rfl rfl ?_
  cases z.kind with
  | off => rfl
  | bank => rfl
  | run =>
    cases h : z.commanded with
    | none => simp
    | some sp =>
      by_cases hsp : sp = z.wanted
      · simp [Zone.setPending, h, hsp]
      · simp [Zone.setPending, h, hsp]

theorem Controller.activeBand_eq (c : Controller) :
    c.activeBand = ((c.heatClass c.activeClass).map HeatClass.band).getD 0 := by
  unfold Controller.activeBand
  cases c.heatClass c.activeClass <;> rfl

theorem Controller.zoneReport_eq (c : Controller) (i x v : Nat) (fault : Bool) {st : ZoneState}
    (hst : reportState (c.zone i) c.activeBand x fault = st) :
    let told := c.updateZone i (fun z => { z with last := some (x, v), origin := c.mot.tick, state := st })
    c.zoneReport i x v fault =
      if st = .fault ∧ (c.zone i).state ≠ .fault then told.raise .steamZoneFault (Detail.num i)
      else if st = .outOfBand ∧ (c.zone i).state ≠ .outOfBand then told.raise .steamExcursion (Detail.num i)
      else told := by
  intro told
  unfold Controller.zoneReport
  simp only [hst]
  by_cases hsame : st = (c.zone i).state
  · simp [hsame, told]
  · rw [if_neg hsame]
    cases st with
    | fault => exact (if_pos ⟨rfl, Ne.symm hsame⟩).symm
    | outOfBand => exact ((if_neg fun h => ZoneState.noConfusion h.1).trans (if_pos ⟨rfl, Ne.symm hsame⟩)).symm
    | _ => rfl

/-! ### The replies as telegrams -/

/-- A reply: its effect when it is the one awaited, else the arbiter's protocol error. -/
theorem telegram_awaited {s : State} (hawake : s.awake) {t : RxTelegram} (hh : s.ctl.hears t.channel = true) {p : Prop}
    [Decidable p] {d : Controller} (hf : s.ctl.takeTelegram t = if p then d else s.ctl.busProtocol) :
    telegram s t = s.then (if p then settled s.ctl d else settled s.ctl s.ctl.busProtocol) :=
  (telegram_eq hawake hh hf).trans (congrArg s.then (apply_ite (settled s.ctl) ..))

/-- Settles O58: each reply by the transaction it answers, with R156's protocol error for the others. -/
theorem busRepliesEndTheTransaction : Obligations.BusRepliesEndTheTransaction := by
  intro s c next failed wrong
  refine ⟨fun i x v fault => ?_, fun h hawake => ?_, fun t ht => ?_⟩
  · intro z active band st told
    refine c.zoneReport_eq i x v fault ?_
    rw [reportState_eq, c.activeBand_eq]
    rfl
  · exact ⟨fun x v f => telegram_keeps hawake (Controller.takeZoneReport_none h ..),
      fun x => telegram_keeps hawake (Controller.takeSetAck_none h _),
      fun p k => telegram_keeps hawake (Controller.takeCutAnswer_none _ _ _ h),
      fun p k x => telegram_keeps hawake (Controller.takeCutAnswer_none _ _ _ h),
      happening_keeps hawake (Controller.replyTest_none h)⟩
  · have hfailed : ∀ reason, c.failTxn reason = failed c t reason := fun reason => Controller.failTxn_some ht reason
    have hwrong : settled c c.busProtocol = wrong t :=
      congrArg (settled c) (Controller.failTxn_some (c := c.raise .linkProtocol (Detail.named .z)) ht .protocol)
    refine ⟨fun hon => ?_, fun hawake hz => ⟨fun x v f => ?_, fun x => ?_, fun p k code hn => ?_, fun p k n hn => ?_⟩⟩
    · rw [← hfailed]
      exact happening_ite hon (Controller.replyTest_some ht)
    · rw [← hwrong]
      exact telegram_awaited (t := .zoneReport x v f) hawake hz (Controller.takeZoneReport_some ht ..)
    · rw [← hwrong]
      exact telegram_awaited (t := .setAck x) hawake hz (Controller.takeSetAck_some ht _)
    · rw [← hwrong]
      exact ⟨telegram_eq (t := .cutDone p k) hawake hz (Controller.takeCutAnswer_noCut _ _ _ ht hn),
        telegram_eq (t := .cutFault p k code) hawake hz (Controller.takeCutAnswer_noCut _ _ _ ht hn)⟩
    · intro ended matching
      rw [← hwrong]
      refine ⟨fun hk => ?_, fun hk => ?_, fun code => ?_⟩
      · exact telegram_awaited (t := .cutDone p k) hawake hz (Controller.takeCutAnswer_some _ _ _ ht hn fun h =>
          Controller.cutDoneEffect_lead (h.symm.trans hk))
      · exact telegram_awaited (t := .cutDone p k) hawake hz (Controller.takeCutAnswer_some _ _ _ ht hn fun h =>
          Controller.cutDoneEffect_tail (h.symm.trans hk))
      · exact telegram_awaited (t := .cutFault p k code) hawake hz (Controller.takeCutAnswer_some _ _ _ ht hn
          fun _ => rfl)

end Sys2Proof.Machine

/-! COMMISSION's own steps (R50, R57, R91 to R93, R96, R98, R105, R136, R151, R198): what each leaves, in their order. -/

namespace Sys2Proof.Machine

/-! ### Links that stand behind their break -/

/-- A link as COMMISSION enables it, its break in transmission. -/
def Link.behindBreak (l : Link) (baud : Nat) : Prop := ∃ q, l = { Link.commissioned baud with queue := q }

theorem Link.behindBreak.hand_eq {l : Link} {baud : Nat} (h : l.behindBreak baud) (x : TxItem) :
    (l.hand x).1 = { l with queue := (enqueue l.queue x).1 } := by
  obtain ⟨q, rfl⟩ := h
  rfl

theorem Link.behindBreak.hand {l : Link} {baud : Nat} (h : l.behindBreak baud) (x : TxItem) :
    (l.hand x).1.behindBreak baud := by
  rw [h.hand_eq x]
  obtain ⟨q, rfl⟩ := h
  exact ⟨_, rfl⟩

theorem enqueue_room {q : List TxItem} (h : waitingPlaces q < 4) (x : TxItem) : enqueue q x = (q ++ [x], false) :=
  if_pos (by simp [h])

/-! ### Up to the roll manager -/

/-- The controller when COMMISSION comes to the roll manager: the line stands, and the banking test has been made. -/
def Controller.commissionBase (c : Controller) : Controller :=
  { c with
    mot := c.mot.commission
    line := ⟨.stopped, none, HoldCauses.empty, c.lineSpeed, .hold, 0, 0, false, none, none, false⟩
    seq := Sequencer.start
    cham := { c.cham with
      zones := c.commissionZones
      lineClass := 0
      changeover := .idle
      bankOn := true
      bankTimer := if c.bankDelay = 0 then none else some c.mot.tick
      banked := false
      txn := none
      lastPolled := c.zoneCount }
    cut := ⟨[], none⟩
    chF := { Link.commissioned (c.baudOf .f) with queue := [.driveHold] }
    chS := Link.commissioned (c.baudOf .s)
    chP := Link.commissioned (c.baudOf .p)
    chZ := Link.commissioned (c.baudOf .z) }

/-- The bank condition comes: its timer starts unless the delay is 0. -/
theorem Controller.bankTest_comes {c : Controller} (hon : c.commissioned = true) (hcond : c.bankCondition = true)
    (hoff : c.cham.bankOn = false) :
    c.bankTest = { c with cham := { c.cham with
      bankOn := true
      bankTimer := if c.bankDelay = 0 then c.cham.bankTimer else some c.mot.tick } } := by
  rw [c.bankTest_eq, if_neg (by simp [hon, hcond, hoff]), if_pos hcond]
  split <;> rfl

/-- The line controller at COMMISSION: DRIVE_HOLD waits behind the break. -/
theorem Controller.commissionLine_eq {c : Controller} {baud : Nat} (hlink : c.chF = Link.commissioned baud)
    (hfeed : c.feedAt = 0) :
    c.commissionLine =
      { c with
        line := ⟨.stopped, none, HoldCauses.empty, c.lineSpeed, .hold, 0, 0, false, none, none, false⟩
        chF := { Link.commissioned baud with queue := [.driveHold] } } := by
  unfold Controller.commissionLine Controller.driveHold
  rw [Controller.hand_eq]
  simp only [Controller.link, hlink]
  rw [← hfeed]
  rfl

theorem Controller.commission_eq (c : Controller) :
    c.commission = c.commissionBase.commissionRolls.startNext := by
  let links : Controller :=
    Controller.commissionLinks { c with mot := c.mot.commission, seq := Sequencer.start, cut := ⟨[], none⟩ }
  have hline : links.commissionLine = _ := Controller.commissionLine_eq rfl rfl
  have hbank : links.commissionLine.commissionChamber.bankTest = c.commissionBase := by
    rw [hline]
    exact Controller.bankTest_comes rfl rfl rfl
  unfold Controller.commission
  exact (congrArg (fun d : Controller => d.commissionRolls.startNext) hbank :)

/-! ### The roll manager before its modes -/

/-- The RUNNING roll is at its runout threshold. -/
def Controller.runsOut (c : Controller) : Bool :=
  match c.runningRoll with
  | some r => decide (r.remaining ≤ c.runoutAt)
  | none => false

/-- An EXPIRED roll becomes SPENT. -/
def Roll.spend (r : Roll) : Roll := if r.state = .expired then { r with state := .spent } else r

theorem Controller.runningRoll_spend (c : Controller) : (c.mapRolls Roll.spend).runningRoll = c.runningRoll := by
  refine List.findSome?_map.trans (congrArg (fun f => c.rolls.slots.findSome? f) (funext fun slot => ?_))
  cases slot with
  | none => rfl
  | some r => by_cases hr : r.state = .expired <;> simp [Roll.spend, hr]

/-- The roll manager at COMMISSION, each spindle commanded to STOP, with the runout mark as given. -/
def Controller.commissionUnit (c : Controller) (runout : Bool) : RollManager :=
  { c.rolls with
    slots := c.rolls.slots.map (fun slot => slot.map Roll.spend)
    spA := { c.rolls.spA with mode := some .stop }
    spB := { c.rolls.spB with mode := some .stop }
    hyst := if c.accHigh ≤ c.accInit then .follow else .refill
    job := if c.runningRoll.isSome then .normal else .noRoll
    retry := 0
    resend := 0
    origin := 0
    suspended := false
    runout := runout
    feedRoll := c.runningRoll.map Roll.id
    report := none
    seams := []
    fill := c.accInit
    rangeMark := false }

/-- The controller when the spindles have been commanded to STOP, with the guard cause as it falls. -/
def Controller.commissionStanding (c : Controller) (runout : Bool) (a : Attention) : Controller :=
  { c.commissionBase with
    line := { c.commissionBase.line with holds := ⟨decide (c.accInit ≤ c.accGuard), false, false⟩ }
    rolls := c.commissionUnit runout
    chS := { c.commissionBase.chS with queue := [.unwindMode .a .stop, .unwindMode .b .stop] }
    att := a }

theorem Controller.commissionRollFields_eq (c : Controller) :
    c.commissionBase.commissionRollFields =
      { c.commissionBase with rolls := { c.commissionUnit false with spA := c.rolls.spA, spB := c.rolls.spB } } := by
  have hrunning : (c.commissionBase.mapRolls Roll.spend).runningRoll = c.runningRoll :=
    Controller.runningRoll_spend c.commissionBase
  unfold Controller.commissionRollFields
  exact (congrArg (fun x : Option Roll => { c.commissionBase with rolls := { c.commissionUnit false with
    spA := c.rolls.spA, spB := c.rolls.spB, feedRoll := x.map Roll.id
    job := if x.isSome then .normal else .noRoll } }) hrunning :)

/-- The fields, and the two STOPs in their order (R105, log 33). -/
theorem Controller.commission_stops (c : Controller) :
    (c.commissionBase.commissionRollFields.commandUnwind .a .stop).commandUnwind .b .stop =
      { c.commissionStanding false c.att with line := c.commissionBase.line } := by
  rw [c.commissionRollFields_eq]
  rfl

theorem Controller.bankTest_same {c : Controller} (h : c.bankCondition = c.cham.bankOn) : c.bankTest = c := by
  rw [c.bankTest_eq, if_pos (.inr h)]

/-- The guard cause, of a line that stands and whose banking condition has been met. -/
theorem Controller.commission_guard (c : Controller) :
    let d : Controller := { c.commissionStanding false c.att with line := c.commissionBase.line }
    (if c.accInit ≤ c.accGuard then d.addHold .accGuard else d) = c.commissionStanding false c.att := by
  intro d
  unfold Controller.commissionStanding
  by_cases h : c.accInit ≤ c.accGuard
  · have hadd : d.addHold .accGuard = d.setHold .accGuard true :=
      (Controller.addHold_still rfl LineState.noConfusion).trans (Controller.bankTest_same rfl)
    rw [if_pos h, hadd, decide_eq_true h]
    rfl
  · rw [if_neg h, decide_eq_false h]
    rfl

theorem Controller.runoutTest_eq {c : Controller} (h : c.rolls.runout = false) :
    c.runoutTest = if c.runsOut = true then Controller.deriveUnwind
        (Controller.raise { c with rolls := { c.rolls with runout := true } } .rollRunout (Detail.named .threshold))
      else c := by
  unfold Controller.runoutTest Controller.runsOut
  cases c.runningRoll with
  | none => rfl
  | some r => simp [h]

theorem Controller.deriveUnwind_standing {c : Controller} (h : ∀ x, (c.spindle x).mode = some (c.unwindWanted x)) :
    c.deriveUnwind = c := by
  unfold Controller.deriveUnwind
  rw [c.deriveSpindle_standing (h .a), c.deriveSpindle_standing (h .b), ite_self]

theorem Controller.commissionStanding_runningRoll (c : Controller) (b : Bool) (a : Attention) :
    (c.commissionStanding b a).runningRoll = c.runningRoll := c.runningRoll_spend

/-- The notices with the runout threshold's, where the RUNNING roll is at it. -/
def Controller.runoutNotices (c : Controller) : Attention :=
  if c.runsOut = true then (c.raise .rollRunout (Detail.named .threshold)).att else c.att

theorem Controller.unwindWanted_runout {c : Controller} (h : c.rolls.runout = true) (x : Spindle) :
    c.unwindWanted x = .stop := by
  unfold Controller.unwindWanted
  simp [h]

/-- The runout test: every spindle is commanded to STOP already. -/
theorem Controller.commission_runout (c : Controller) :
    (c.commissionStanding false c.att).runoutTest = c.commissionStanding c.runsOut c.runoutNotices := by
  have hruns : (c.commissionStanding false c.att).runsOut = c.runsOut :=
    (congrArg (fun x : Option Roll => match x with
      | some r => decide (r.remaining ≤ c.runoutAt)
      | none => false) (c.commissionStanding_runningRoll false c.att) :)
  rw [Controller.runoutTest_eq rfl, hruns]
  unfold Controller.runoutNotices
  cases hr : c.runsOut with
  | false => rfl
  | true =>
    refine Controller.deriveUnwind_standing (c := c.commissionStanding true _) fun x => ?_
    rw [Controller.unwindWanted_runout rfl]
    cases x <;> rfl

/-! ### The modes -/

def Controller.commissionHyst (c : Controller) : Hysteresis := if c.accHigh ≤ c.accInit then .follow else .refill

/-- The mode COMMISSION leaves a spindle in: the hysteresis choice for an ACTIVE one whose roll is not at its runout. -/
def Controller.commissionMode (c : Controller) (x : Spindle) : UnwindMode :=
  if (c.spindle x).state ≠ .active ∨ c.runsOut = true then .stop else c.commissionHyst.toMode

/-- The roll manager with the modes COMMISSION leaves. -/
def Controller.commissionModes (c : Controller) : RollManager :=
  { c.commissionUnit c.runsOut with
    spA := { c.rolls.spA with mode := some (c.commissionMode .a) }
    spB := { c.rolls.spB with mode := some (c.commissionMode .b) } }

/-- The command that follows a spindle's STOP. -/
def Controller.commissionRun (c : Controller) (x : Spindle) : List TxItem :=
  if (c.spindle x).state = .active ∧ c.runsOut = false then [.unwindMode x c.commissionHyst.toMode] else []

theorem Hysteresis.toMode_ne_stop (h : Hysteresis) : h.toMode ≠ .stop := by cases h <;> decide

/-- While the line stands at COMMISSION's hysteresis choice and runout mark, and no splice runs, a spindle's mode is
COMMISSION's. -/
theorem Controller.unwindWanted_commission {c d : Controller} (hline : d.line.state = .stopped)
    (hjob : d.rolls.job.stopsUnwind = false) (hrunout : d.rolls.runout = c.runsOut) (hhyst : d.rolls.hyst = c.commissionHyst)
    {x : Spindle} (hstate : (d.spindle x).state = (c.spindle x).state) : d.unwindWanted x = c.commissionMode x := by
  unfold Controller.unwindWanted Controller.commissionMode
  rw [hline, hjob, hrunout, hhyst, hstate, ite_or]
  simp

theorem Controller.commissionRun_eq (c : Controller) (x : Spindle) :
    c.commissionRun x = if c.commissionMode x = .stop then [] else [.unwindMode x (c.commissionMode x)] := by
  unfold Controller.commissionRun Controller.commissionMode
  by_cases h : (c.spindle x).state = .active ∧ c.runsOut = false
  · simp [h, Hysteresis.toMode_ne_stop]
  · rw [if_neg h, if_pos]
    exact if_pos (by simpa [imp_iff_not_or] using h)

theorem Controller.waitingPlaces_commissionRun (c : Controller) (x : Spindle) : waitingPlaces (c.commissionRun x) ≤ 1 := by
  unfold Controller.commissionRun
  split
  · exact Nat.le_refl 1
  · exact Nat.zero_le 1

/-- A link behind its break, with room, takes what it is handed to the end of its queue. -/
theorem Link.behindBreak.hand_room {l : Link} {baud : Nat} (h : l.behindBreak baud) (hroom : waitingPlaces l.queue < 4)
    (x : TxItem) : l.hand x = ({ l with queue := l.queue ++ [x] }, false) := by
  obtain ⟨q, rfl⟩ := h
  have he : enqueue q x = (q ++ [x], false) := enqueue_room hroom x
  exact (congrArg (fun y : List TxItem × Bool => (({ Link.commissioned baud with queue := y.1 } : Link), y.2)) he :)

/-- The command that takes a spindle from STOP to the mode COMMISSION gives it. -/
theorem Controller.deriveSpindle_commission {c d : Controller} {x : Spindle} (hwanted : d.unwindWanted x = c.commissionMode x)
    (hmode : (d.spindle x).mode = some .stop) (hsuspended : d.rolls.suspended = false) {baud : Nat}
    (hline : d.chS.behindBreak baud) (hroom : waitingPlaces d.chS.queue < 4) :
    d.deriveSpindle x =
      { d.setSpindle x { d.spindle x with mode := some (c.commissionMode x) } with
        chS := { d.chS with queue := d.chS.queue ++ c.commissionRun x } } := by
  rw [c.commissionRun_eq]
  by_cases hstop : c.commissionMode x = .stop
  · have hsame : d.setSpindle x { d.spindle x with mode := some .stop } = d := by
      rw [← hmode]
      cases x <;> rfl
    rw [d.deriveSpindle_standing (by rw [hmode, hwanted, hstop]), if_pos hstop, hstop, hsame, List.append_nil]
  · let e := d.setSpindle x { d.spindle x with mode := some (c.commissionMode x) }
    have helink : e.link .s = d.chS := by cases x <;> rfl
    have hhand : e.hand .s (.unwindMode x (c.commissionMode x)) =
        e.setLink .s { d.chS with queue := d.chS.queue ++ [.unwindMode x (c.commissionMode x)] } := by
      rw [Controller.hand_eq, helink, hline.hand_room hroom]
      rfl
    have hkeeps : ({ e with rolls := { e.rolls with suspended := false } } : Controller) = e := by
      rw [← hsuspended]
      cases x <;> rfl
    rw [d.deriveSpindle_changed (by rw [hmode, hwanted]; exact fun h => hstop (Option.some.inj h).symm), hwanted,
      if_neg hstop]
    unfold Controller.commandUnwind
    refine (if_neg hstop).trans ?_
    exact (congrArg (fun y : Controller => { y with rolls := { y.rolls with suspended := false } }) hhand).trans
      (congrArg (fun y : Controller => y.setLink .s
        { d.chS with queue := d.chS.queue ++ [.unwindMode x (c.commissionMode x)] }) hkeeps)

/-- The controller when the modes are derived. -/
def Controller.commissionRunning (c : Controller) (a : Attention) : Controller :=
  { c.commissionStanding c.runsOut a with
    rolls := c.commissionModes
    chS := { c.commissionBase.chS with
      queue := [.unwindMode .a .stop, .unwindMode .b .stop] ++ c.commissionRun .a ++ c.commissionRun .b } }

theorem Controller.commissionStanding_job (c : Controller) (b : Bool) (a : Attention) :
    (c.commissionStanding b a).rolls.job.stopsUnwind = false := by
  refine (apply_ite RollJob.stopsUnwind _ _ _).trans ?_
  exact ite_self false

theorem Controller.commission_derives (c : Controller) (a : Attention) :
    (c.commissionStanding c.runsOut a).deriveUnwind = c.commissionRunning a := by
  have hjob := c.commissionStanding_job c.runsOut a
  have hroom : ∀ q, waitingPlaces q ≤ 1 → waitingPlaces ([.unwindMode .a .stop, .unwindMode .b .stop] ++ q) < 4 := by
    intro q hq
    rw [waitingPlaces_append]
    exact Nat.lt_of_le_of_lt (Nat.add_le_add_left hq 2) (by decide)
  let d : Controller := { c.commissionStanding c.runsOut a with
    rolls := { c.commissionUnit c.runsOut with spA := { c.rolls.spA with mode := some (c.commissionMode .a) } }
    chS := { c.commissionBase.chS with queue := [.unwindMode .a .stop, .unwindMode .b .stop] ++ c.commissionRun .a } }
  have ha : (c.commissionStanding c.runsOut a).deriveSpindle .a = d :=
    Controller.deriveSpindle_commission (x := .a) (Controller.unwindWanted_commission rfl hjob rfl rfl rfl) rfl rfl
      ⟨_, rfl⟩ (hroom [] (by decide))
  have hb : d.deriveSpindle .b = c.commissionRunning a :=
    Controller.deriveSpindle_commission (x := .b) (Controller.unwindWanted_commission (d := d) rfl hjob rfl rfl rfl) rfl rfl
      ⟨_, rfl⟩ (hroom _ (c.waitingPlaces_commissionRun .a))
  exact (if_pos rfl).trans ((congrArg (fun y : Controller => y.deriveSpindle .b) ha).trans hb)

/-! ### The splice job -/

/-- The job COMMISSION leaves (R96, R98). -/
def Controller.commissionJob (c : Controller) : RollJob :=
  match c.runningRoll with
  | none => .noRoll
  | some r =>
    if c.spliceAt < r.remaining then .normal
    else if c.idleLoaded = false then .low
    else if c.seamClear ≤ c.accInit then .preparing else .pending

/-- Channel S, with the SPLICE_PREPARE of a job that is PREPARING. -/
def Controller.commissionSplicer (c : Controller) (l : Link) : Link :=
  match c.activeSpindle with
  | some x => if c.commissionJob = .preparing then (l.hand (.splicePrepare x (otherSpindle x))).1 else l
  | none => l

/-- COMMISSION's roll manager with a job and a splice record. -/
def Controller.commissionRolling (c : Controller) (j : RollJob) (x : Option SpliceRec) : RollManager :=
  { c.commissionModes with job := j, splice := x }

section Job
variable {c : Controller}

/-- With COMMISSION's modes a job that lets the unwind run is taken up without a command. -/
theorem Controller.moveJob_commission {d : Controller} {k : RollJob} {x : Option SpliceRec}
    (hrolls : d.rolls = c.commissionRolling k x) (hline : d.line.state = .stopped) {j : RollJob}
    (hj : j.stopsUnwind = false) : d.moveJob j = { d with rolls := c.commissionRolling j x } := by
  unfold Controller.moveJob
  rw [hrolls]
  refine Controller.deriveUnwind_standing (c := { d with rolls := c.commissionRolling j x }) fun y => ?_
  rw [Controller.unwindWanted_commission (c := c) (d := { d with rolls := c.commissionRolling j x }) hline hj rfl rfl
    (by cases y <;> rfl)]
  cases y <;> rfl

theorem Controller.commissionRunning_runningRoll (a : Attention) :
    (c.commissionRunning a).runningRoll = c.runningRoll := c.runningRoll_spend

theorem Controller.commissionRunning_idleLoaded (a : Attention) : (c.commissionRunning a).idleLoaded = c.idleLoaded := by
  have hidle : (c.commissionRunning a).idleSpindle = c.idleSpindle := rfl
  unfold Controller.idleLoaded
  rw [hidle]
  cases c.idleSpindle with
  | none => rfl
  | some x => cases x <;> rfl

theorem Controller.commissionRunning_rollIsLow (a : Attention) : (c.commissionRunning a).rollIsLow = c.rollIsLow :=
  (congrArg (fun x : Option Roll => match x with
    | some r => decide (r.remaining ≤ c.spliceAt)
    | none => false) (c.commissionRunning_runningRoll a) :)

theorem Controller.activeSpindle_of_idleLoaded (h : c.idleLoaded = true) : ∃ x, c.activeSpindle = some x := by
  unfold Controller.idleLoaded Controller.idleSpindle at h
  cases hx : c.activeSpindle with
  | none => simp [hx] at h
  | some x => exact ⟨x, rfl⟩

/-- PENDING at COMMISSION, and its clearance: the seam list is empty and no tail has been admitted. -/
theorem Controller.commission_clearance (a : Attention) {x : Spindle} (hx : c.activeSpindle = some x) :
    ∃ splice b,
      Controller.clearanceTest { c.commissionRunning a with rolls := c.commissionRolling .pending c.rolls.splice } =
        if c.seamClear ≤ c.accInit then
          { c.commissionRunning b with
            rolls := c.commissionRolling .preparing splice
            chS := ((c.commissionRunning a).chS.hand (.splicePrepare x (otherSpindle x))).1 }
        else { c.commissionRunning b with rolls := c.commissionRolling .pending splice } := by
  let d : Controller := { c.commissionRunning a with rolls := c.commissionRolling .pending c.rolls.splice }
  have hclear : d.clearanceHolds = true ↔ c.seamClear ≤ c.accInit := by
    have hU : d.webU = 0 + c.accInit := rfl
    have htail : d.line.lastTail.getD 0 + d.seamClear = 0 + c.seamClear := rfl
    rw [d.clearanceHolds_iff, hU, htail, Nat.zero_add, Nat.zero_add]
    exact ⟨fun h => h.2.1, fun h => ⟨rfl, h, Nat.succ_pos 3⟩⟩
  by_cases h : c.seamClear ≤ c.accInit
  · let e : Controller := { d with rolls := c.commissionRolling .pending (some ⟨x, otherSpindle x, d.mot.tick⟩) }
    refine ⟨some ⟨x, otherSpindle x, c.mot.tick⟩, (e.hand .s (.splicePrepare x (otherSpindle x))).att, ?_⟩
    refine (Controller.clearanceTest_holds (hclear.2 h) hx).trans (Eq.trans ?_ (if_pos h).symm)
    refine (Controller.moveJob_commission (c := c) (d := e.hand .s (.splicePrepare x (otherSpindle x)))
      (hand_rolls ..) (by rw [Controller.hand_line]; rfl) rfl).trans ?_
    rw [Controller.hand_eq]
    split <;> rfl
  · exact ⟨c.rolls.splice, a, (Controller.clearanceTest_away (.inl (Bool.eq_false_iff.2 (mt hclear.1 h)))).trans
      (if_neg h).symm⟩

theorem Controller.commissionSplicer_idle (h : c.commissionJob ≠ .preparing) (l : Link) : c.commissionSplicer l = l := by
  unfold Controller.commissionSplicer
  cases c.activeSpindle with
  | none => rfl
  | some x => exact if_neg h

/-- The SPLICE_AT test of COMMISSION (R96, R98). -/
theorem Controller.commission_spliceAt (a : Attention) :
    ∃ splice b, (c.commissionRunning a).spliceAtTest =
      { c.commissionRunning b with
        rolls := c.commissionRolling c.commissionJob splice
        chS := c.commissionSplicer (c.commissionRunning a).chS } := by
  have hrolls : (c.commissionRunning a).rolls =
      c.commissionRolling (if c.runningRoll.isSome then .normal else .noRoll) c.rolls.splice := rfl
  have hstays : (c.commissionRunning a).rolls.job = c.commissionJob → c.commissionJob ≠ .preparing →
      c.commissionRunning a = { c.commissionRunning a with
        rolls := c.commissionRolling c.commissionJob c.rolls.splice
        chS := c.commissionSplicer (c.commissionRunning a).chS } := by
    intro hjob hne
    rw [Controller.commissionSplicer_idle hne, ← hjob]
    rfl
  rw [Controller.spliceAtTest_eq, Controller.commissionRunning_rollIsLow, Controller.commissionRunning_idleLoaded]
  cases hr : c.runningRoll with
  | none =>
    have hjob : c.commissionJob = .noRoll := by simp [Controller.commissionJob, hr]
    have hnow : (c.commissionRunning a).rolls.job = .noRoll := by rw [hrolls, hr]; rfl
    refine ⟨c.rolls.splice, a, (if_neg ?_).trans (hstays (hnow.trans hjob.symm) (by rw [hjob]; decide))⟩
    rw [hnow]
    exact fun h => RollJob.noConfusion h.1
  | some r =>
    have hnow : (c.commissionRunning a).rolls.job = .normal := by rw [hrolls, hr]; rfl
    have hlow : c.rollIsLow = decide (r.remaining ≤ c.spliceAt) := by simp [Controller.rollIsLow, hr]
    by_cases hfar : c.spliceAt < r.remaining
    · have hjob : c.commissionJob = .normal := by simp [Controller.commissionJob, hr, hfar]
      refine ⟨c.rolls.splice, a, (if_neg ?_).trans (hstays (hnow.trans hjob.symm) (by rw [hjob]; decide))⟩
      rw [hlow]
      exact fun h => absurd (of_decide_eq_true h.2) (Nat.not_le.2 hfar)
    have hdue : (c.commissionRunning a).rolls.job = .normal ∧ c.rollIsLow = true :=
      ⟨hnow, by rw [hlow]; exact decide_eq_true (Nat.not_lt.1 hfar)⟩
    rw [if_pos hdue]
    cases hidle : c.idleLoaded with
    | false =>
      have hjob : c.commissionJob = .low := by simp [Controller.commissionJob, hr, hfar, hidle]
      have hmove := Controller.moveJob_commission hrolls rfl (j := .low) rfl
      refine ⟨c.rolls.splice, ((c.commissionRunning a).raise .rollLow (c.commissionRunning a).idleDetail).att,
        (congrArg (fun d : Controller => d.raise .rollLow (c.commissionRunning a).idleDetail) hmove).trans ?_⟩
      rw [Controller.commissionSplicer_idle (by rw [hjob]; decide), hjob]
      rfl
    | true =>
      obtain ⟨x, hx⟩ := Controller.activeSpindle_of_idleLoaded hidle
      obtain ⟨splice, b, hclear⟩ := Controller.commission_clearance a hx
      have hmove := Controller.moveJob_commission hrolls rfl (j := .pending) rfl
      have hjob : c.commissionJob = if c.seamClear ≤ c.accInit then .preparing else .pending := by
        simp [Controller.commissionJob, hr, hfar, hidle]
      refine ⟨splice, b, ((congrArg Controller.clearanceTest hmove).trans hclear).trans ?_⟩
      unfold Controller.commissionSplicer
      rw [hx, hjob]
      by_cases h : c.seamClear ≤ c.accInit
      · simp only [if_pos h]
        rfl
      · simp only [if_neg h]
        rfl

end Job

/-- The roll manager at COMMISSION (R105). -/
theorem Controller.commissionRolls_eq (c : Controller) :
    ∃ splice a, c.commissionBase.commissionRolls =
      { c.commissionRunning a with
        rolls := c.commissionRolling c.commissionJob splice
        chS := c.commissionSplicer (c.commissionRunning a).chS } := by
  obtain ⟨splice, a, h⟩ := Controller.commission_spliceAt (c := c) c.runoutNotices
  refine ⟨splice, a, Eq.trans ?_ h⟩
  unfold Controller.commissionRolls
  simp only [c.commission_stops]
  exact congrArg (fun d : Controller => d.spliceAtTest) (((congrArg (fun d : Controller => d.runoutTest.deriveUnwind)
    c.commission_guard).trans (congrArg Controller.deriveUnwind c.commission_runout)).trans
    (c.commission_derives c.runoutNotices))

end Sys2Proof.Machine

/-! What COMMISSION leaves (R105, R151, R198): the first transaction of the bus, and the gate's evaluation of a line that
stands. -/

namespace Sys2Proof.Machine

/-! ### The first transaction -/

section Bus
variable {c : Controller}

theorem Controller.commissionZones_getD (c : Controller) {i : Nat} (hlow : 1 ≤ i) (hhigh : i ≤ 6) :
    c.commissionZones.getD (i - 1) Zone.blank = ⟨decide (i ≤ c.zoneCount), .off, 0, none, none, c.mot.tick, .off⟩ := by
  interval_cases i <;> rfl

/-- The bus starts with the SET of zone 1, when there is one. -/
theorem Controller.startNext_commission {d : Controller} (hq : d.cut.queue = []) (hz : d.cham.zones = c.commissionZones) :
    d.startNext = if 1 ≤ c.zoneCount then d.startSet 1 else d := by
  have hzone : ∀ i, 1 ≤ i → i ≤ 6 → d.zone i = ⟨decide (i ≤ c.zoneCount), .off, 0, none, none, c.mot.tick, .off⟩ :=
    fun i hlow hhigh => (congrArg (fun l => l.getD (i - 1) Zone.blank) hz).trans (c.commissionZones_getD hlow hhigh)
  by_cases h : 1 ≤ c.zoneCount
  · have hset : d.pendingSet 1 := by
      unfold Controller.pendingSet
      rw [hzone 1 (by decide) (by decide)]
      exact ⟨decide_eq_true h, nofun⟩
    rw [if_pos h]
    exact Controller.startNext_of_busWork (Controller.busWork_set hq
      (Controller.zoneToSet_eq_some (Nat.le_refl 1) (by decide) hset fun j hj hlt => absurd hlt (Nat.not_lt.2 hj)))
  · have hoff : ∀ i, 1 ≤ i → i ≤ 6 → (d.zone i).enabled = false := fun i hlow hhigh => by
      rw [hzone i hlow hhigh]
      exact decide_eq_false (by omega)
    rw [if_neg h]
    exact Controller.startNext_of_busWork (Controller.busWork_of_off hq hoff)

end Bus

/-! ### The gate while the line stands -/

/-- A zone without the setpoint derived for it. -/
def Zone.sansWanted (z : Zone) : Zone := { z with kind := .off, wanted := 0, state := .off }

/-- The controller with what the fabric notice and a changeover request change blanked. -/
def Controller.sansHeat (c : Controller) : Controller :=
  { c with
    line := { c.line with fabricMark := false }
    cham := { c.cham with changeover := .idle, zones := c.cham.zones.map Zone.sansWanted }
    att := (Controller.fresh false false).att }

section Heat
variable (c : Controller)

theorem Controller.fabricNotice_sansHeat : c.fabricNotice.sansHeat = c.sansHeat := by
  unfold Controller.fabricNotice
  cases c.headPanel with
  | none => rfl
  | some p =>
    dsimp only
    split <;> rfl

theorem Zone.derive_sansWanted (z : Zone) (w : WantedKind × Nat) : (z.derive w).sansWanted = z.sansWanted := by
  unfold Zone.derive
  split <;> rfl

theorem Controller.deriveZones_sansHeat : c.deriveZones.sansHeat = c.sansHeat := by
  have hzones : c.deriveZones.cham.zones.map Zone.sansWanted = c.cham.zones.map Zone.sansWanted := by
    refine List.ext_getElem (by simp [Controller.deriveZones]) fun i hi hj => ?_
    simp [Controller.deriveZones, Zone.derive_sansWanted]
  exact (congrArg (fun l => ({ c.sansHeat with cham := { c.sansHeat.cham with zones := l } } : Controller)) hzones :)

theorem Controller.drainTest_sansHeat : c.drainTest.sansHeat = c.sansHeat := by
  unfold Controller.drainTest
  cases c.cham.changeover with
  | draining k =>
    dsimp only
    split
    · exact Controller.deriveZones_sansHeat _
    · rfl
  | _ => rfl

theorem Controller.retarget_sansHeat (k : Nat) : (c.retarget k).sansHeat = c.sansHeat := by
  unfold Controller.retarget
  cases c.cham.changeover with
  | heating => exact Controller.deriveZones_sansHeat _
  | _ => rfl

theorem Controller.requestClass_sansHeat (k : Nat) : (c.requestClass k).sansHeat = c.sansHeat := by
  unfold Controller.requestClass
  split
  · rfl
  split
  · exact Controller.drainTest_sansHeat _
  · exact c.retarget_sansHeat k

theorem Controller.heatRequest_sansHeat : c.heatRequest.sansHeat = c.sansHeat := by
  unfold Controller.heatRequest
  cases c.headPanel with
  | none => rfl
  | some p =>
    dsimp only
    split
    · rfl
    · exact c.requestClass_sansHeat _

end Heat

/-- While the line stands at F = 0, before any admission, an evaluation has no MAX_GAP cause to add or to remove and admits
nothing. -/
theorem Controller.gate_standing {c : Controller} (hline : c.line.state = .stopped) (hgap : c.gap = 0)
    (hhold : c.line.holds.maxGap = false) : c.gate = c.fabricNotice.heatRequest := by
  let g := c.fabricNotice.heatRequest
  have hsans : g.sansHeat = c.sansHeat := (Controller.heatRequest_sansHeat _).trans c.fabricNotice_sansHeat
  have hgl : g.line.state = .stopped := (congrArg (fun d : Controller => d.line.state) hsans :).trans hline
  have hdue : g.maxGapDue = false := by
    have hgg : g.gap = 0 := (congrArg Controller.gap hsans :).trans hgap
    unfold Controller.maxGapDue
    rw [hgg]
    cases hm : g.maxGap with
    | zero => rfl
    | succ n => rfl
  have hremove : g.removeHold .maxGap = g :=
    Controller.removeHold_absent ((congrArg (fun d : Controller => d.line.holds.maxGap) hsans :).trans hhold)
  have htests : c.gateTests = g := by
    refine (show c.gateTests = g.maxGapTest from rfl).trans ?_
    unfold Controller.maxGapTest
    rw [hremove, hdue]
    exact ite_self g
  have hadm : ¬ g.admissible = true := fun h => by
    obtain ⟨-, -, hrun, -⟩ := g.admissible_iff.1 h
    exact LineState.noConfusion (hgl.symm.trans hrun)
  rw [Controller.gate_eq (by simp [Controller.commissioned, hline]), htests]
  split
  · exact if_neg hadm
  · rfl

theorem Controller.gate_standing_idle {c : Controller} (h : c.headPanel = none) : c.fabricNotice.heatRequest = c := by
  have hf : c.fabricNotice = c := by
    unfold Controller.fabricNotice
    rw [h]
  rw [hf]
  unfold Controller.heatRequest
  rw [h]

/-! ### COMMISSION's effect -/

/-- What COMMISSION leaves, given what its statement leaves open: the splice record, the notices, the fabric notice mark,
the changeover and the zones' setpoints. -/
def Controller.commissionLeaves (c : Controller) (x : Option SpliceRec) (a : Attention) (mark : Bool) (y : Changeover)
    (zones : List Zone) : Controller :=
  { c.commissionRunning a with
    line := { (c.commissionRunning a).line with fabricMark := mark }
    rolls := c.commissionRolling c.commissionJob x
    cham := { c.commissionBase.cham with
      zones := zones
      changeover := y
      txn := if 1 ≤ c.zoneCount then some ⟨.set, 1, c.mot.tick, 0⟩ else none }
    chS := c.commissionSplicer (c.commissionRunning a).chS
    chZ := { Link.commissioned (c.baudOf .z) with queue := if 1 ≤ c.zoneCount then [.zoneSet 1 0] else [] } }

/-- COMMISSION without the gate's evaluation. -/
theorem Controller.commission_leaves (c : Controller) :
    ∃ x a, c.commission = c.commissionLeaves x a false .idle c.commissionZones := by
  obtain ⟨x, a, h⟩ := c.commissionRolls_eq
  refine ⟨x, a, c.commission_eq.trans ((congrArg Controller.startNext h).trans ?_)⟩
  rw [Controller.startNext_commission (c := c) rfl rfl]
  unfold Controller.commissionLeaves
  by_cases hz : 1 ≤ c.zoneCount
  · rw [if_pos hz, if_pos hz, if_pos hz]
    rfl
  · rw [if_neg hz, if_neg hz, if_neg hz]
    rfl

theorem Controller.eq_of_sansHeat {c d : Controller} (h : d.sansHeat = c.sansHeat) :
    d = { c with
      line := { c.line with fabricMark := d.line.fabricMark }
      cham := { c.cham with changeover := d.cham.changeover, zones := d.cham.zones }
      att := d.att } :=
  (congrArg (fun e : Controller => { e with
    line := { e.line with fabricMark := d.line.fabricMark }
    cham := { e.cham with changeover := d.cham.changeover, zones := d.cham.zones }
    att := d.att }) h :)

/-- COMMISSION, with the gate's evaluation that the change of the line state brings. -/
theorem Controller.commission_event (c : Controller) (h : c.line.state = .config) :
    ∃ x a mark y zones, settled c c.commission = c.commissionLeaves x a mark y zones ∧
      zones.map Zone.sansWanted = c.commissionZones.map Zone.sansWanted ∧
      (c.headPanel = none → mark = false ∧ y = .idle ∧ zones = c.commissionZones) := by
  obtain ⟨x, a, hc⟩ := c.commission_leaves
  let d := c.commissionLeaves x a false .idle c.commissionZones
  have hsettled : settled c c.commission = d.fabricNotice.heatRequest := by
    have hmoved : d.gateInputs ≠ c.gateInputs := fun hg =>
      LineState.noConfusion ((congrArg GateInputs.line hg).trans h)
    unfold settled
    rw [hc, if_neg hmoved]
    exact Controller.gate_standing rfl rfl rfl
  have hsans : d.fabricNotice.heatRequest.sansHeat = d.sansHeat :=
    (Controller.heatRequest_sansHeat _).trans d.fabricNotice_sansHeat
  refine ⟨x, d.fabricNotice.heatRequest.att, d.fabricNotice.heatRequest.line.fabricMark,
    d.fabricNotice.heatRequest.cham.changeover, d.fabricNotice.heatRequest.cham.zones,
    hsettled.trans (Controller.eq_of_sansHeat hsans), (congrArg (fun e : Controller => e.cham.zones) hsans :),
    fun hhead => ?_⟩
  rw [Controller.gate_standing_idle (c := d) hhead]
  exact ⟨rfl, rfl, rfl⟩

end Sys2Proof.Machine

/-! The configuration's requests (R194, R196 to R199): SET_PARAM, COMMISSION and DECOMMISSION. -/

namespace Sys2Proof.Machine

/-! ### COMMISSION's checks -/

theorem firstFailed_eq_none_iff (l : List (Nat × Bool)) : firstFailed l = none ↔ ∀ x ∈ l, x.2 = true := by
  induction l with
  | nil => simp [firstFailed]
  | cons x rest ih =>
    obtain ⟨id, holds⟩ := x
    cases holds <;> simp [firstFailed, ih]

theorem Controller.zoneEndCheck_iff (c : Controller) {i : Nat} (hlow : 1 ≤ i) :
    c.zoneEndCheck i = true ↔
      (i ≤ c.zoneCount → (if i = 1 then c.entryDist else c.zoneEnd (i - 1)) + 1000 ≤ c.zoneEnd i) := by
  unfold Controller.zoneEndCheck
  by_cases h : i = 1
  · subst h
    simp [imp_iff_not_or]
  · simp [h, show ¬ i ≤ 1 by omega, imp_iff_not_or]

theorem forall_zoneEndCheck (c : Controller) :
    (∀ i, 1 ≤ i → i ≤ 6 → c.zoneEndCheck i = true) ↔
      ∀ i, 1 ≤ i → i ≤ 6 → i ≤ c.zoneCount →
        (if i = 1 then c.entryDist else c.zoneEnd (i - 1)) + 1000 ≤ c.zoneEnd i :=
  forall_congr' fun _ => forall_congr' fun hlow => forall_congr' fun _ => c.zoneEndCheck_iff hlow

theorem forall_zone_iff (p : Nat → Prop) :
    (∀ i, 1 ≤ i → i ≤ 6 → p i) ↔ p 1 ∧ p 2 ∧ p 3 ∧ p 4 ∧ p 5 ∧ p 6 := by
  refine ⟨fun h => ⟨h 1 (by decide) (by decide), h 2 (by decide) (by decide), h 3 (by decide) (by decide),
    h 4 (by decide) (by decide), h 5 (by decide) (by decide), h 6 (by decide) (by decide)⟩, ?_⟩
  rintro ⟨h1, h2, h3, h4, h5, h6⟩ i hlow hhigh
  interval_cases i <;> assumption

theorem Controller.commissionChecks_iff (c : Controller) :
    firstFailed c.commissionChecks = none ↔
      (∀ p ∈ c.panelsOf c.tab.queue, p.flatLength ≤ c.panelMax) ∧ c.panelMax ≤ c.entryDist ∧
        (∀ i, 1 ≤ i → i ≤ 6 → c.zoneEndCheck i = true) ∧ c.exitDist + c.panelMax ≤ c.cutDist ∧ c.accHigh < c.accCap ∧
        c.accLow < c.accHigh ∧ c.accGuard < c.accLow ∧ c.accInit ≤ c.accCap ∧ c.runoutAt + c.panelMax ≤ c.spliceAt := by
  rw [firstFailed_eq_none_iff, forall_zone_iff]
  simp [Controller.commissionChecks, and_assoc]

/-! ### What COMMISSION leaves -/

section Leaves
variable (c : Controller)

theorem Controller.runsOut_iff : c.runsOut = true ↔ ∃ r, c.runningRoll = some r ∧ r.remaining ≤ c.runoutAt := by
  unfold Controller.runsOut
  cases c.runningRoll with
  | none => simp
  | some r => simp

theorem Controller.commissionJob_none (h : c.runningRoll = none) : c.commissionJob = .noRoll := by
  unfold Controller.commissionJob
  rw [h]

theorem Controller.commissionJob_some {r : Roll} (h : c.runningRoll = some r) :
    c.commissionJob = if c.spliceAt < r.remaining then .normal
      else if c.idleLoaded = false then .low
      else if c.seamClear ≤ c.accInit then .preparing else .pending := by
  unfold Controller.commissionJob
  rw [h]

/-- Channel S stands behind its break. -/
theorem Controller.commissionSplicer_behindBreak {l : Link} {baud : Nat} (h : l.behindBreak baud) :
    (c.commissionSplicer l).behindBreak baud := by
  unfold Controller.commissionSplicer
  cases c.activeSpindle with
  | none => exact h
  | some x =>
    dsimp only
    split
    · exact h.hand _
    · exact h

/-- With one spindle ACTIVE at most, channel S has room for the SPLICE_PREPARE. -/
theorem Controller.commissionSplicer_queue (a : Attention)
    (h : (c.spindle .a).state ≠ .active ∨ (c.spindle .b).state ≠ .active) :
    (c.commissionSplicer (c.commissionRunning a).chS).queue =
      [.unwindMode .a .stop, .unwindMode .b .stop] ++ c.commissionRun .a ++ c.commissionRun .b ++
        match c.activeSpindle with
        | some x => if c.commissionJob = .preparing then [TxItem.splicePrepare x (otherSpindle x)] else []
        | none => [] := by
  have hidle : ∀ x, (c.spindle x).state ≠ .active → waitingPlaces (c.commissionRun x) = 0 := fun x hx => by
    unfold Controller.commissionRun
    rw [if_neg fun hrun => hx hrun.1]
    rfl
  have hroom : waitingPlaces (c.commissionRunning a).chS.queue < 4 := by
    have ha := c.waitingPlaces_commissionRun .a
    have hb := c.waitingPlaces_commissionRun .b
    have hstops : waitingPlaces [.unwindMode .a .stop, .unwindMode .b .stop] = 2 := rfl
    show waitingPlaces ([.unwindMode .a .stop, .unwindMode .b .stop] ++ c.commissionRun .a ++ c.commissionRun .b) < 4
    rw [waitingPlaces_append, waitingPlaces_append, hstops]
    rcases h with h | h
    · rw [hidle .a h]
      omega
    · rw [hidle .b h]
      omega
  unfold Controller.commissionSplicer
  cases c.activeSpindle with
  | none => exact (List.append_nil _).symm
  | some x =>
    dsimp only
    by_cases hprep : c.commissionJob = .preparing
    · rw [if_pos hprep, if_pos hprep]
      exact congrArg (fun y : Link × Bool => y.1.queue)
        (Link.behindBreak.hand_room (l := (c.commissionRunning a).chS) (baud := c.baudOf .s) ⟨_, rfl⟩ hroom _)
    · rw [if_neg hprep, if_neg hprep]
      exact (List.append_nil _).symm

end Leaves

/-- The zones COMMISSION leaves, but for their setpoints. -/
theorem zones_of_commission {c : Controller} {zones : List Zone}
    (h : zones.map Zone.sansWanted = c.commissionZones.map Zone.sansWanted) :
    zones.length = 6 ∧ ∀ i, 1 ≤ i → i ≤ 6 →
      (zones.getD (i - 1) Zone.blank).sansWanted = ⟨decide (i ≤ c.zoneCount), .off, 0, none, none, c.mot.tick, .off⟩ := by
  refine ⟨by simpa [Controller.commissionZones, zoneNumbers] using congrArg List.length h, fun i hlow hhigh => ?_⟩
  have hget := congrArg (fun l => l.getD (i - 1) Zone.blank.sansWanted) h
  rw [List.getD_map, List.getD_map, c.commissionZones_getD hlow hhigh] at hget
  exact hget

/-! ### DECOMMISSION -/

theorem Controller.quiet_iff (c : Controller) :
    c.quiet = true ↔ c.line.state = .stopped ∧ c.tab.roster = [] ∧
      (c.rolls.job = .normal ∨ c.rolls.job = .low ∨ c.rolls.job = .noRoll) := by
  unfold Controller.quiet
  cases c.rolls.job <;> simp

theorem Controller.event_decommission (c : Controller) : c.event Controller.decommission = c.decommission := by
  unfold Controller.event
  split
  · rfl
  · exact if_neg Bool.false_ne_true

/-! ### The requests -/

section Requests
variable (c : Controller) (tag : Byte)

theorem Controller.carryOut_setParam (id value : Nat) :
    c.carryOut tag (setParamRequest id value) =
      if c.line.state ≠ .config then c.answered .notInConfig tag []
      else if id = 0 ∨ 46 < id then c.answered .badField tag (field 1 1)
      else if paramAccepts id value = false then c.answered .badField tag (field 1 2)
      else ({ c with params := c.params.set (id - 1) value }).answered .ok tag (field 1 id ++ field 4 value) := by
  have hparam : (!isParam id) = true ↔ id = 0 ∨ 46 < id := by
    simp [isParam, show paramCount = 46 from rfl]
  refine (c.carryOut_whenConfig tag _).trans (if_congr c.commissioned_iff rfl ?_)
  refine (c.carryOut_ite tag (fun _ => (!isParam id) = true) _ _).trans (if_congr hparam (c.carryOut_badField tag 1) ?_)
  exact (c.carryOut_ite tag (fun _ => (!paramAccepts id value) = true) _ _).trans
    (if_congr (by simp) (c.carryOut_badField tag 2) rfl)

theorem Controller.carryOut_commission_online (h : c.line.state ≠ .config) :
    c.carryOut tag commissionRequest = c.answered .notInConfig tag [] :=
  (c.carryOut_whenConfig tag _).trans (if_pos (c.commissioned_iff.2 h))

variable {c}

theorem Controller.carryOut_commission_failed (h : c.line.state = .config) {id : Nat}
    (hid : firstFailed c.commissionChecks = some id) :
    c.carryOut tag commissionRequest = c.answered .badField tag (field 1 id) := by
  refine (c.carryOut_whenConfig tag _).trans ((if_neg (by simp [Controller.commissioned, h])).trans ?_)
  dsimp only [Controller.carryOut]
  rw [hid]
  rfl

theorem Controller.carryOut_commission (h : c.line.state = .config) (hok : firstFailed c.commissionChecks = none)
    {d : Controller} (hd : settled c c.commission = d) :
    c.carryOut tag commissionRequest = d.answered .ok tag (lineStatus d ++ field 1 d.rolls.job.code) := by
  refine (c.carryOut_whenConfig tag _).trans ((if_neg (by simp [Controller.commissioned, h])).trans ?_)
  subst hd
  refine Eq.trans ?_ (c.carryOut_accept tag Controller.commission (fun d => lineStatus d ++ field 1 d.rolls.job.code))
  dsimp only [Controller.carryOut]
  rw [hok]

variable (c)

theorem Controller.carryOut_decommission :
    c.carryOut tag decommissionRequest =
      if c.line.state = .config then c.answered .notCommissioned tag []
      else if c.quiet = true then c.decommission.answered .ok tag [] else c.answered .wrongState tag [] := by
  refine (c.carryOut_whenCommissioned_not tag _).trans (if_congr (by simp [Controller.commissioned]) rfl ?_)
  refine (c.carryOut_ite tag (fun d => d.quiet = true) _ _).trans (if_congr Iff.rfl ?_ (c.carryOut_refuse tag _))
  exact congrArg (fun d : Controller => d.answered .ok tag []) c.event_decommission

end Requests

/-- Settles O59: the checks in order, and COMMISSION's effect by its steps and the gate's evaluation of a standing line. -/
theorem configurationIsSetAndChecked : Obligations.ConfigurationIsSetAndChecked := by
  refine ⟨fun s tag param value hawake => ?_, fun s tag hawake h => ?_, fun s tag id hawake h hid => ?_,
    fun s tag hawake h hok => ?_, fun c => ?_, fun s tag hawake => ?_⟩
  · intro c
    refine request_awake_eq hawake ((Controller.carryOut_setParam ..).trans ?_)
    exact if_congr Iff.rfl rfl (if_congr (or_congr (byte_toNat_eq_zero_iff param) Iff.rfl) rfl rfl)
  · exact request_awake_eq hawake (Controller.carryOut_commission_online _ tag h)
  · exact request_awake_eq hawake (Controller.carryOut_commission_failed tag h hid)
  · intro c
    obtain ⟨x, a, mark, y, zones, hd, hzones, hidle⟩ := c.commission_event h
    obtain ⟨hlength, hzone⟩ := zones_of_commission hzones
    have hlink : ∀ ch, ((c.commissionLeaves x a mark y zones).link ch).behindBreak (c.baudOf ch)
      | .s => c.commissionSplicer_behindBreak ⟨_, rfl⟩
      | .f => ⟨_, rfl⟩
      | .p => ⟨_, rfl⟩
      | .z => ⟨_, rfl⟩
    refine ⟨c.commissionLeaves x a mark y zones, request_awake_eq hawake (Controller.carryOut_commission tag h hok hd),
      ⟨rfl, rfl, rfl, rfl⟩, fun i => by cases i <;> rfl, rfl, rfl, ⟨rfl, rfl, rfl⟩, rfl, ⟨rfl, rfl, rfl⟩, fun ch => ?_,
      ⟨rfl, rfl, rfl, rfl⟩, ⟨rfl, rfl, rfl, rfl, rfl, rfl⟩, ⟨rfl, rfl, rfl, rfl, rfl, rfl, rfl, rfl⟩, c.runsOut_iff,
      c.commissionJob_none, fun r hr => ?_, fun sp => by cases sp <;> rfl, ?_, ⟨rfl, rfl⟩, fun ch => ?_,
      ⟨hlength, fun i hlow hhigh => ?_⟩, fun hhead => ?_, ⟨rfl, rfl, rfl, rfl⟩, fun hz => ⟨if_pos hz, ?_⟩⟩
    · obtain ⟨q, hq⟩ := hlink ch
      rw [hq]
      exact ⟨rfl, rfl, rfl⟩
    · have hjob := c.commissionJob_some hr
      refine ⟨fun hfar => hjob.trans (if_pos hfar), fun hlow hunloaded => ?_, fun hlow hloaded => ?_⟩
      · exact hjob.trans ((if_neg (Nat.not_lt.2 hlow)).trans (if_pos hunloaded))
      · exact hjob.trans ((if_neg (Nat.not_lt.2 hlow)).trans (if_neg (by simp [hloaded])))
    · intro runs prepare hspindles
      exact c.commissionSplicer_queue a hspindles
    · obtain ⟨q, hq⟩ := hlink ch
      rw [hq]
      rfl
    · have hz := hzone i hlow hhigh
      exact ⟨(congrArg Zone.enabled hz :), (congrArg Zone.commanded hz :), (congrArg Zone.last hz :),
        (congrArg Zone.origin hz :)⟩
    · obtain ⟨hmark, hchangeover, hsame⟩ := hidle hhead
      refine ⟨hmark, hchangeover, fun i hlow hhigh => ?_⟩
      have hz := (congrArg (fun l => l.getD (i - 1) Zone.blank) hsame).trans (c.commissionZones_getD hlow hhigh)
      exact ⟨(congrArg Zone.kind hz :), (congrArg Zone.wanted hz :), (congrArg Zone.state hz :)⟩
    · exact if_pos hz
  · exact c.commissionChecks_iff.trans (by rw [forall_zoneEndCheck])
  · intro c quiet off free d
    refine request_awake_eq hawake ((Controller.carryOut_decommission ..).trans ?_)
    exact if_congr Iff.rfl rfl (if_congr c.quiet_iff rfl rfl)

end Sys2Proof.Machine

/-! The order of a pulse's and of a tick's work (R43, R51, R54, log 3). -/

namespace Sys2Proof.Machine

section Order
variable {α : Type} [DecidableEq α]

theorem mem_firstsOnly {a : α} {l : List α} : a ∈ firstsOnly l ↔ a ∈ l := by
  induction l with
  | nil => rfl
  | cons x rest ih =>
    by_cases h : a = x
    · simp [firstsOnly, h]
    · simp [firstsOnly, h, ih]

theorem nodup_firstsOnly (l : List α) : (firstsOnly l).Nodup := by
  induction l with
  | nil => exact List.nodup_nil
  | cons x rest ih =>
    refine List.nodup_cons.2 ⟨fun h => ?_, ih.filter _⟩
    simp at h

theorem mem_schedule {a : α} {asked work : List α} : a ∈ schedule asked work ↔ a ∈ work := by
  by_cases h : a ∈ asked
  · simp [schedule, mem_firstsOnly, h]
  · simp [schedule, mem_firstsOnly, h]

/-- A schedule holds the work there is, each piece once. -/
theorem schedule_perm (asked : List α) {work : List α} (hwork : work.Nodup) : (schedule asked work).Perm work := by
  refine (List.perm_ext_iff_of_nodup ?_ hwork).2 fun a => mem_schedule
  refine List.nodup_append'.2 ⟨nodup_firstsOnly _, hwork.filter _, fun a hnamed hleft => ?_⟩
  have hnot := Bool.eq_false_of_not_eq_true' (List.mem_filter.1 hleft).2
  exact Bool.noConfusion ((List.contains_iff_mem.2 hnamed).symm.trans hnot)

end Order

theorem pulseWork_nodup (i : CountInput) : (pulseWork i).Nodup := by cases i <;> decide

/-! ### The fill first -/

/-- The work that may stay before the fill. -/
def beforeFill (work : List PulseTask) : List PulseTask := work.takeWhile (fun t => t != .fill && !readsU t)

theorem fillFirst_of_mem {work : List PulseTask} (h : .fill ∈ work) :
    fillFirst work =
      beforeFill work ++ .fill :: (work.drop (beforeFill work).length).filter (fun t => t != .fill) :=
  if_pos (List.contains_iff_mem.2 h)

theorem fillFirst_of_not_mem {work : List PulseTask} (h : .fill ∉ work) : fillFirst work = work :=
  if_neg (mt List.contains_iff_mem.1 h)

theorem beforeFill_spec {work : List PulseTask} {t : PulseTask} (h : t ∈ beforeFill work) :
    t ≠ .fill ∧ readsU t = false := by
  have ht := List.mem_takeWhile_imp h
  simpa using ht

theorem fillFirst_perm {work : List PulseTask} (hwork : work.Nodup) : (fillFirst work).Perm work := by
  by_cases h : .fill ∈ work
  · have hsplit : beforeFill work ++ work.drop (beforeFill work).length = work :=
      List.prefix_iff_eq_append.1 (List.takeWhile_prefix _)
    have hrest : .fill ∈ work.drop (beforeFill work).length := by
      rw [← hsplit] at h
      exact (List.mem_append.1 h).resolve_left fun hfront => (beforeFill_spec hfront).1 rfl
    have hnodup : (work.drop (beforeFill work).length).Nodup := hwork.sublist (List.drop_sublist _ _)
    rw [fillFirst_of_mem h, ← hnodup.erase_eq_filter]
    exact ((List.perm_cons_erase hrest).symm.append_left _).trans (List.Perm.of_eq hsplit)
  · rw [fillFirst_of_not_mem h]

/-- A task that reads U comes after the fill. -/
theorem fill_before_readsU {work front back : List PulseTask} {t : PulseTask} (hfill : .fill ∈ work)
    (ht : readsU t = true) (h : fillFirst work = front ++ t :: back) : .fill ∈ front := by
  have hne : t ≠ .fill := fun e => by
    subst e
    exact Bool.noConfusion ht
  rw [fillFirst_of_mem hfill] at h
  rcases List.append_eq_append_iff.1 h with ⟨mid, hfront, hrest⟩ | ⟨mid, hbefore, hrest⟩
  · cases mid with
    | nil => exact absurd (List.cons.inj hrest).1.symm hne
    | cons x mid =>
      rw [hfront, ← (List.cons.inj hrest).1]
      exact List.mem_append_right _ List.mem_cons_self
  · cases mid with
    | nil => exact absurd (List.cons.inj hrest).1 hne
    | cons x mid =>
      have hmem : t ∈ beforeFill work := by
        rw [hbefore, (List.cons.inj hrest).1]
        exact List.mem_append_right _ List.mem_cons_self
      exact Bool.noConfusion ((beforeFill_spec hmem).2.symm.trans ht)

theorem fill_mem_pulseWork {i : CountInput} (h : i ≠ .conv) : .fill ∈ pulseWork i := by
  cases i with
  | conv => exact absurd rfl h
  | _ => decide

end Sys2Proof.Machine

/-! Count pulses and dwell ticks (R43 to R45, R50, R54, R55, R91, R149): each piece of their work. -/

namespace Sys2Proof.Machine

section Tasks
variable (c : Controller)

/-! ### The fill -/

theorem Controller.commandUnwind_fill (sp : Spindle) (m : UnwindMode) : (c.commandUnwind sp m).rolls.fill = c.rolls.fill := by
  rw [Controller.commandUnwind_rolls]
  dsimp only
  split <;> cases sp <;> rfl

theorem Controller.deriveSpindle_fill (sp : Spindle) : (c.deriveSpindle sp).rolls.fill = c.rolls.fill := by
  unfold Controller.deriveSpindle
  split
  · rfl
  · exact c.commandUnwind_fill sp _

theorem Controller.deriveUnwind_fill : c.deriveUnwind.rolls.fill = c.rolls.fill := by
  unfold Controller.deriveUnwind
  split
  · exact (Controller.deriveSpindle_fill ..).trans (Controller.deriveSpindle_fill ..)
  · rfl

theorem Controller.guardTest_deriveUnwind :
    c.deriveUnwind.guardTest =
      if c.rolls.fill ≤ c.accGuard then c.deriveUnwind.addHold .accGuard
      else if c.accLow ≤ c.rolls.fill then c.deriveUnwind.removeHold .accGuard
      else c.deriveUnwind := by
  have hguard : c.deriveUnwind.accGuard = c.accGuard := (congrArg Controller.accGuard c.deriveUnwind_sansUnwind :)
  have hlow : c.deriveUnwind.accLow = c.accLow := (congrArg Controller.accLow c.deriveUnwind_sansUnwind :)
  unfold Controller.guardTest
  rw [c.deriveUnwind_fill, hguard, hlow]

theorem Controller.fillPulse_eq (up : Bool) :
    let fill := if up = true then c.rolls.fill + 1 else c.rolls.fill - 1
    let moved : Controller := { c with rolls := { c.rolls with
      fill := fill
      rangeMark := c.rolls.rangeMark && !decide (c.rolls.fill = 0 ∨ c.rolls.fill = c.accCap)
      hyst := if c.accHigh ≤ fill then .follow else if fill ≤ c.accLow then .refill else c.rolls.hyst } }
    c.fillPulse up =
      if (if up = true then c.accCap ≤ c.rolls.fill else c.rolls.fill = 0) then
        (if c.rolls.rangeMark = true then c
        else Controller.raise { c with rolls := { c.rolls with rangeMark := true } } .rollAccRange
          (Detail.named (if up = true then .full else .empty)))
      else if fill ≤ c.accGuard then moved.deriveUnwind.addHold .accGuard
      else if c.accLow ≤ fill then moved.deriveUnwind.removeHold .accGuard
      else moved.deriveUnwind := by
  intro fill moved
  have hclamped : c.fillClamped up = true ↔ (if up = true then c.accCap ≤ c.rolls.fill else c.rolls.fill = 0) := by
    unfold Controller.fillClamped
    cases up <;> simp
  have hmark : (!(decide (c.rolls.fill = 0) || decide (c.rolls.fill = c.accCap))) =
      !decide (c.rolls.fill = 0 ∨ c.rolls.fill = c.accCap) := by rw [Bool.decide_or]
  refine if_congr hclamped rfl (Eq.trans ?_ moved.guardTest_deriveUnwind)
  dsimp only
  rw [hmark]
  rfl

/-! ### The RUNNING roll's length -/

theorem Controller.lengthPulse_idle (h : c.runningRoll = none ∨ ∃ r, c.runningRoll = some r ∧ r.remaining = 0) :
    c.lengthPulse = c := by
  unfold Controller.lengthPulse
  rcases h with h | ⟨r, h, hzero⟩
  · rw [h]
  · rw [h]
    exact if_pos hzero

theorem Controller.lengthPulse_some {r : Roll} (h : c.runningRoll = some r) (hlength : r.remaining ≠ 0) :
    let d := (c.updateRoll r.id (fun x => { x with remaining := x.remaining - 1 })).runoutTest
    c.lengthPulse =
      (if r.remaining = 1 then d.raise .rollRunout (Detail.named .count) else d).spliceAtTest := by
  unfold Controller.lengthPulse
  rw [h]
  exact if_neg hlength

/-! ### Dose -/

theorem Controller.gathersDose_iff (p : Panel) :
    let meets := fun (i : Nat) => (1 ≤ i ∧ i ≤ 6 ∧ i ≤ c.zoneCount) ∧ c.inZone p i = true
    c.gathersDose p = true ↔ (∃ i, meets i) ∧ ∀ i, meets i → (c.zone i).state = .inBand := by
  intro meets
  have hmem : ∀ i, i ∈ zoneNumbers.filter (fun i => decide (i ≤ c.zoneCount) && c.inZone p i) ↔ meets i := by
    intro i
    simp [mem_zoneNumbers, meets, and_assoc]
  simp only [Controller.gathersDose, Bool.and_eq_true, Bool.not_eq_true', List.isEmpty_eq_false_iff_exists_mem,
    List.all_eq_true, hmem, beq_iff_eq]

theorem Controller.dosePanel_away {p : Panel} (h : p.state ≠ .setting ∨ p.dose = none ∨ p.placed = none) :
    c.dosePanel p = c := by
  unfold Controller.dosePanel
  split
  next d q hstate hdose hplaced =>
    rcases h with h | h | h
    · exact absurd hstate h
    · exact absurd (h.symm.trans hdose) nofun
    · exact absurd (h.symm.trans hplaced) nofun
  next => rfl

theorem Controller.dosePanel_setting {p : Panel} {n : Nat} {q : Placed} (hstate : p.state = .setting)
    (hdose : p.dose = some n) (hplaced : p.placed = some q) :
    let more := c.updatePanel p.id (fun x => { x with dose := some (n + 1) })
    c.dosePanel p =
      if c.gathersDose p = true ∧ n < 65535 then (if n = q.doseMax then more.addCause p.id .overset else more) else c := by
  unfold Controller.dosePanel
  simp only [hstate, hdose, hplaced]
  refine if_congr (by simp) (if_congr (by omega) rfl rfl) rfl

/-! ### The stall flag and the limit mark -/

/-- A mark that is set once, when a condition comes. -/
theorem ite_unmarked {α : Type} {mark : Bool} {p : Prop} [Decidable p] (a b : α) :
    (if (!mark && decide p) = true then a else b) = if mark = true ∨ ¬ p then b else a := by
  cases mark <;> simp

theorem Controller.stallTest_eq (i : CountInput) :
    c.stallTest i =
      if (c.mot.counter i).stall = true ∨ (c.mot.counter i).interval ≠ c.stallLimit then c else c.setStall i :=
  ite_unmarked ..

theorem Controller.limitTest_eq (i : CountInput) :
    c.limitTest i =
      if c.mot.limit = true ∨ (c.mot.counter i).coord ≠ 4000000000 then c
      else (Controller.raise { c with mot := { c.mot with limit := true } } .lineCoordLimit
        (Detail.named (inputDetail i))).coordHold :=
  ite_unmarked ..

end Tasks

/-! ### The pulse and the tick -/

theorem Controller.countPulse_eq (c : Controller) (i : CountInput) (order : List PulseTask) :
    let counted : Controller := { c with mot := c.mot.setCounter i (c.mot.counter i).pulse }
    c.countPulse i order =
      if c.commissioned = false then c
      else settled c ((fillFirst (schedule order (pulseWork i))).foldl (Controller.pulseTask i)
        (if i = .feed then counted.bankTest else counted)) := by
  unfold Controller.countPulse
  cases c.commissioned <;> rfl

theorem Controller.dwellTick_eq (c : Controller) (order : List TickTask) :
    let d : Controller := { c with mot := { c.mot with tick := c.mot.tick + 1#32 } }
    c.dwellTick order =
      if c.commissioned = false then d else settled d ((schedule order tickWork).foldl Controller.tickTask d) := by
  unfold Controller.dwellTick
  cases c.commissioned <;> rfl

section Flags
variable {s : State} (hon : s.onLine)
include hon

theorem exec_stall (i : CountInput) :
    let c := s.ctl
    exec (.stall i) s = s.then (
      if (c.mot.counter i).stall = true ∨ (c.mot.counter i).interval ≠ c.stallLimit then c
      else settled c (c.setStall i)) := by
  refine (happening_of_eq hon (s.ctl.stallTest_eq i)).trans (congrArg s.then ?_)
  rw [apply_ite (settled s.ctl), settled_self]

theorem exec_coordLimit (i : CountInput) :
    let c := s.ctl
    exec (.coordLimit i) s = s.then (
      if c.mot.limit = true ∨ (c.mot.counter i).coord ≠ 4000000000 then c
      else settled c (Controller.raise { c with mot := { c.mot with limit := true } } .lineCoordLimit
        (Detail.named (inputDetail i))).coordHold) := by
  refine (happening_of_eq hon (s.ctl.limitTest_eq i)).trans (congrArg s.then ?_)
  rw [apply_ite (settled s.ctl), settled_self]

end Flags

/-- Settles O60: the order of the work by its permutations, and each piece by the operation it is. -/
theorem pulsesAndTicksDriveTheBlocks : Obligations.PulsesAndTicksDriveTheBlocks := by
  refine ⟨fun s i order hawake => ?_, ⟨rfl, rfl, rfl, rfl⟩, fun i order => ?_,
    fun i order front t back hi h ht => ?_, fun s order hawake => ?_,
    fun order => schedule_perm order (by decide), fun c i => ?_, fun c i => ?_, fun c => ?_, fun c => ?_, fun c p => ?_,
    fun s hon => ?_, fun s i hon => ?_⟩
  · exact (act_awake hawake (fun c => c.countPulse i order)).trans (congrArg s.then (s.ctl.countPulse_eq i order))
  · have hperm := schedule_perm order (pulseWork_nodup i)
    exact (fillFirst_perm (hperm.nodup_iff.2 (pulseWork_nodup i))).trans hperm
  · refine fill_before_readsU (mem_schedule.2 (fill_mem_pulseWork hi)) ?_ h
    rcases ht with rfl | rfl | rfl <;> rfl
  · exact (act_awake hawake (fun c => c.dwellTick order)).trans (congrArg s.then (s.ctl.dwellTick_eq order))
  · intro up fill clamped atBound moved derived ranged
    exact c.fillPulse_eq up
  · intro roster
    exact ⟨rfl, rfl, rfl, rfl, rfl, rfl, rfl, rfl, rfl, rfl⟩
  · intro counting
    exact ⟨rfl, rfl, rfl, rfl, rfl, rfl, rfl⟩
  · exact ⟨c.lengthPulse_idle, fun r hr hlength => c.lengthPulse_some hr hlength⟩
  · intro meets
    exact ⟨c.gathersDose_iff p, c.dosePanel_away, fun n q hstate hdose hplaced =>
      c.dosePanel_setting hstate hdose hplaced⟩
  · intro c does
    have hdoes : ∀ {f : Controller → Controller}, happening s f = s.then (settled c (f c)) := happening_onLine hon _
    exact ⟨⟨hdoes, hdoes, hdoes, hdoes⟩, ⟨hdoes, hdoes, hdoes, hdoes, hdoes, hdoes⟩, ⟨hdoes, hdoes, hdoes⟩,
      ⟨hdoes, hdoes, hdoes, hdoes, fun zone => hdoes⟩, fun i => ⟨hdoes, hdoes⟩, fun panel p h =>
        ⟨⟨onCrossing_some hon h rfl, onCrossing_some hon h rfl⟩, ⟨onCrossing_some hon h rfl, onCrossing_some hon h rfl⟩,
          onCrossing_some hon h rfl, onCrossing_some hon h rfl⟩⟩
  · intro c k stalled limited
    refine ⟨(exec_stall hon i).trans (congrArg s.then (if_congr Iff.rfl rfl ?_)),
      (exec_coordLimit hon i).trans (congrArg s.then (if_congr Iff.rfl rfl (congrArg (settled c) ?_)))⟩
    · cases i with
      | unw => exact congrArg (settled c) ((Controller.goTest_eq _).trans (if_congr (and_iff_left rfl) rfl rfl))
      | feed => rfl
      | conv => exact settled_of_gateInputs_eq rfl
    · exact if_congr (show (true && c.webClear) = true ↔ c.webClear = true by simp) rfl rfl

end Sys2Proof.Machine
